-- ==== Sys2Proof/Word.lean ====
section
/-!
DEFINITION. The machine word, the byte, and the one shape every sparse store of the model has.
-/

namespace Sys2Proof

/-- A 64-bit scalar register (R48). -/
abbrev Word := BitVec 64

/-- A byte of memory. -/
abbrev Byte := BitVec 8

/-- A sparse store: pairs of a key and a value, keys strictly rising. Its operations stand in Machine/Tab.lean. -/
abbrev Tab (α : Type) := List (Nat × α)

end Sys2Proof
end

