-- ==== Sys2Proof/Config.lean ====
section
/-!
DEFINITION. What the manual fixes for every device, and the values it leaves free. A free value has no body: nothing
can prove what it is.
-/

namespace Sys2Proof.Config

/-! ### Fixed figures -/

/-- Enabled cores (R3). -/
def cores : Nat := 192
/-- Hart slots of a core (R48). -/
def slots : Nat := 8
/-- Bytes of DRAM behind one core's channel (R4, R314). -/
def channelBytes : Nat := 0x80000000
/-- First physical address past DRAM (R313). -/
def dramEnd : Nat := 0x06000000000
/-- First physical address of the PCIe window (R313). -/
def pcieBase : Nat := 0x80000000000
/-- Offset of the reserve in a channel (R388). -/
def reserveOffset : Nat := 0x7C000000
/-- Base of the context table (R257, R388). -/
def contextTable : Nat := 0x7C400000
/-- Base of the queue table (R272, R388). -/
def queueTable : Nat := 0x7C500000
/-- Base of the routing table (R331, R388). -/
def routingTable : Nat := 0x7C600000
/-- Usable node ids (R331). -/
def usableNodes : Nat := 786432
/-- Lines of a core data cache: 1,536 KiB in lines of 128 bytes (R5). -/
def cdcLines : Nat := 12288
/-- Bytes of a core's scratchpad (R5, R89). -/
def spadBytes : Nat := 0x200000
/-- Bytes of a ladder region (R363). -/
def ladderRegion : Nat := 131072
/-- Offset of the compression metadata in a channel (R380, R388). -/
def metaOffset : Nat := reserveOffset
/-- Offset of a die's receipt spill area in its first channel (R340, R388). -/
def spillOffset : Nat := reserveOffset + 0x2000000
/-- Receipts a channel die holds on chip (R340). -/
def receiptChip : Nat := 65536
/-- Receipts its spill area holds (R340). -/
def receiptSpill : Nat := 1048576
/-- The optional features of FEAT1 (R389). -/
def features : BitVec 7 := 0x7F

/-! ### Free values -/

/-- A value the manual leaves undefined; `n` is the state's counter of such values. -/
opaque freeValue : Nat → Nat
/-- The bytes that Luanar's local LZ coder makes of a block's words (R380, log 10). -/
opaque lzBytes : List Nat → Nat
/-- How far a channel lies from a spare of its die: the floor plan is not given (R382, log 10). -/
opaque spareDistance : Nat → Nat → Nat
/-- The SHA-256 digest of a measurement, by its index and its contents (R392, log 10). -/
opaque digest : Nat → List Nat → Nat
/-- Whether FZ acts on the elements of VREDSUM: R137 and R47 differ (log 7). -/
opaque redsumFlushes : Bool
/-- What stands where an element of a register group would lie past v63, by its slice (R50, log 27). -/
opaque pastRegisters : Nat → Nat

end Sys2Proof.Config
end

