-- ==== Sys2Proof/Syntax.lean ====
section
/-!
DEFINITION. Every instruction and every event of spec/opcode_table.json, one constructor each, its fields as the parcels
carry them (R72 to R77). Legality is no matter of this file (Machine/Legal.lean).
-/

namespace Sys2Proof

/-- The test of the vertical buses at start (R381, R387): the bundles that fail it, bus and bundle, and whether the step
succeeds. -/
structure BusTest where
  failed : List (Nat × Nat)
  ok : Bool
  deriving DecidableEq, Repr

/-- A word of an array under ECC (R376): of DRAM or the last-level cache by its address div 8, of a core's
data cache or its scalar instruction and data caches likewise, of a core's scratchpad by its offset div 8, of a die's receipt
cache by the place of the receipt. The scrubber reads the first four (R383). -/
inductive Scrubbed
  | dram (word : Nat)
  | llc (word : Nat)
  | cdc (core word : Nat)
  | spad (core word : Nat)
  | icache (core word : Nat)
  | dcache (core word : Nat)
  | receipt (die place : Nat)
  deriving DecidableEq, Repr

/-- The immediate of SI and SC: the 13-bit field and the 28 bits of a long-immediate prefix where one stands (R71). -/
structure Imm13 where
  hi : Option (BitVec 28)
  f : BitVec 13
  deriving DecidableEq, Repr

/-- The displacement of SJ, likewise (R71). -/
structure Imm19 where
  hi : Option (BitVec 28)
  f : BitVec 19
  deriving DecidableEq, Repr

/-- Classes VA and VP (R75, R76). -/
structure VaF where
  vd : BitVec 6
  va : BitVec 6
  vb : BitVec 6
  x : BitVec 6
  m : BitVec 5
  et : BitVec 4
  rm : BitVec 3
  sat : BitVec 1
  os : BitVec 1
  mi : BitVec 1
  aux : BitVec 11
  deriving DecidableEq, Repr

/-- Class VM (R75, R76). -/
structure VmF where
  vd : BitVec 6
  va : BitVec 6
  vb : BitVec 6
  x : BitVec 6
  m : BitVec 5
  et : BitVec 4
  fmt : BitVec 3
  ord : BitVec 1
  ovt : BitVec 1
  pol : BitVec 2
  scope : BitVec 3
  space : BitVec 2
  ff : BitVec 1
  z : BitVec 4
  deriving DecidableEq, Repr

/-- Class MX (R75 to R77): et is the A operand type; rows holds rows − 1. -/
structure MxF where
  vd : BitVec 6
  va : BitVec 6
  vb : BitVec 6
  x : BitVec 6
  m : BitVec 5
  et : BitVec 4
  rows : BitVec 6
  g : BitVec 3
  bt : BitVec 4
  z : BitVec 4
  deriving DecidableEq, Repr

/-- Class LA (R75, R76). -/
structure LaF where
  vd : BitVec 6
  va : BitVec 6
  vb : BitVec 6
  x : BitVec 6
  m : BitVec 5
  et : BitVec 4
  rung : BitVec 4
  op : BitVec 2
  z : BitVec 11
  deriving DecidableEq, Repr

/-- Class HS (R75, R76). -/
structure HsF where
  vd : BitVec 6
  va : BitVec 6
  vb : BitVec 6
  x : BitVec 6
  m : BitVec 5
  et : BitVec 4
  res : BitVec 4
  z : BitVec 13
  deriving DecidableEq, Repr

/-- Class AT (R75, R76). -/
structure AtF where
  vd : BitVec 6
  va : BitVec 6
  vb : BitVec 6
  x : BitVec 6
  m : BitVec 5
  et : BitVec 4
  op : BitVec 4
  succ : BitVec 2
  fail : BitVec 2
  scope : BitVec 3
  z : BitVec 6
  deriving DecidableEq, Repr

/-- Class SY (R75, R76). -/
structure SyF where
  vd : BitVec 6
  va : BitVec 6
  vb : BitVec 6
  x : BitVec 6
  m : BitVec 5
  et : BitVec 4
  scope : BitVec 3
  z : BitVec 3
  aux : BitVec 11
  deriving DecidableEq, Repr

/-- Class EN (R75, R76): dims holds dims − 1. -/
structure EnF where
  vd : BitVec 6
  va : BitVec 6
  vb : BitVec 6
  x : BitVec 6
  m : BitVec 5
  et : BitVec 4
  dims : BitVec 3
  fmt : BitVec 3
  ff : BitVec 1
  z : BitVec 10
  deriving DecidableEq, Repr

/-- Class SV (R75, R76). -/
structure SvF where
  vd : BitVec 6
  va : BitVec 6
  vb : BitVec 6
  x : BitVec 6
  m : BitVec 5
  et : BitVec 4
  g : BitVec 2
  z : BitVec 15
  deriving DecidableEq, Repr

/-- A flit of Tabik Link: 256 bytes, byte 0 in the low bits (R333). -/
abbrev Flit := BitVec 2048

/-- The instructions. Scalar constructors carry the fields of their format; vector-side ones the record of their
class; the events of the other agents carry what their agent supplies (log 1). -/
inductive Instr
  | add (d a b : BitVec 6)   -- R87
  | sub (d a b : BitVec 6)   -- R87
  | and (d a b : BitVec 6)   -- R87
  | or (d a b : BitVec 6)   -- R87
  | xor (d a b : BitVec 6)   -- R87
  | sll (d a b : BitVec 6)   -- R87
  | srl (d a b : BitVec 6)   -- R87
  | sra (d a b : BitVec 6)   -- R87
  | min (d a b : BitVec 6)   -- R87
  | max (d a b : BitVec 6)   -- R87
  | minn (d a b : BitVec 6)   -- R87
  | maxn (d a b : BitVec 6)   -- R87
  | mul (d a b : BitVec 6)   -- R87
  | mulh (d a b : BitVec 6)   -- R87
  | mulhn (d a b : BitVec 6)   -- R87
  | div (d a b : BitVec 6)   -- R87
  | divn (d a b : BitVec 6)   -- R87
  | rem (d a b : BitVec 6)   -- R87
  | remn (d a b : BitVec 6)   -- R87
  | clz (d a b : BitVec 6)   -- R87
  | ctz (d a b : BitVec 6)   -- R87
  | popc (d a b : BitVec 6)   -- R87
  | sel (d a b : BitVec 6)   -- R87
  | addi (d a : BitVec 6) (i : Imm13)   -- R88
  | andi (d a : BitVec 6) (i : Imm13)   -- R88
  | ori (d a : BitVec 6) (i : Imm13)   -- R88
  | xori (d a : BitVec 6) (i : Imm13)   -- R88
  | slli (d a : BitVec 6) (z : BitVec 5) (n : BitVec 6)   -- R88
  | srli (d a : BitVec 6) (z : BitVec 5) (n : BitVec 6)   -- R88
  | srai (d a : BitVec 6) (z : BitVec 5) (n : BitVec 6)   -- R88
  | lih (d a : BitVec 6) (i : Imm13)   -- R88
  | pcadd (d : BitVec 6) (i : Imm19)   -- R88
  | ldb (d a : BitVec 6) (i : Imm13)   -- R90
  | ldbn (d a : BitVec 6) (i : Imm13)   -- R90
  | ldh (d a : BitVec 6) (i : Imm13)   -- R90
  | ldhn (d a : BitVec 6) (i : Imm13)   -- R90
  | ldw (d a : BitVec 6) (i : Imm13)   -- R90
  | ldwn (d a : BitVec 6) (i : Imm13)   -- R90
  | ldd (d a : BitVec 6) (i : Imm13)   -- R90
  | stb (d a : BitVec 6) (i : Imm13)   -- R90
  | sth (d a : BitVec 6) (i : Imm13)   -- R90
  | stw (d a : BitVec 6) (i : Imm13)   -- R90
  | std (d a : BitVec 6) (i : Imm13)   -- R90
  | cmpeq (c : BitVec 3) (a b : BitVec 6) (z : BitVec 7)   -- R94
  | cmpne (c : BitVec 3) (a b : BitVec 6) (z : BitVec 7)   -- R94
  | cmplt (c : BitVec 3) (a b : BitVec 6) (z : BitVec 7)   -- R94
  | cmpge (c : BitVec 3) (a b : BitVec 6) (z : BitVec 7)   -- R94
  | cmpltn (c : BitVec 3) (a b : BitVec 6) (z : BitVec 7)   -- R94
  | cmpgen (c : BitVec 3) (a b : BitVec 6) (z : BitVec 7)   -- R94
  | cmpand (c : BitVec 3) (a b : BitVec 6) (z : BitVec 7)   -- R94
  | cmpieq (c : BitVec 3) (a : BitVec 6) (i : Imm13)   -- R94
  | cmpine (c : BitVec 3) (a : BitVec 6) (i : Imm13)   -- R94
  | cmpilt (c : BitVec 3) (a : BitVec 6) (i : Imm13)   -- R94
  | cmpige (c : BitVec 3) (a : BitVec 6) (i : Imm13)   -- R94
  | cmpiltn (c : BitVec 3) (a : BitVec 6) (i : Imm13)   -- R94
  | cmpigen (c : BitVec 3) (a : BitVec 6) (i : Imm13)   -- R94
  | cmpiand (c : BitVec 3) (a : BitVec 6) (i : Imm13)   -- R94
  | cand (d a b : BitVec 6)   -- R95
  | cor (d a b : BitVec 6)   -- R95
  | cxor (d a b : BitVec 6)   -- R95
  | cnot (d a b : BitVec 6)   -- R95
  | cget (d a b : BitVec 6)   -- R95
  | cfrom (d a b : BitVec 6)   -- R95
  | fadd (d a b : BitVec 6) (rm : BitVec 3)   -- R98
  | fsub (d a b : BitVec 6) (rm : BitVec 3)   -- R98
  | fmul (d a b : BitVec 6) (rm : BitVec 3)   -- R98
  | fdiv (d a b : BitVec 6) (rm : BitVec 3)   -- R98
  | fsqrt (d a b : BitVec 6) (rm : BitVec 3)   -- R98
  | fmin (d a b : BitVec 6) (rm : BitVec 3)   -- R98
  | fmax (d a b : BitVec 6) (rm : BitVec 3)   -- R98
  | fcvt (d a b : BitVec 6) (rm : BitVec 3)   -- R100
  | fclass (d a b : BitVec 6) (rm : BitVec 3)   -- R98
  | fma (d a b : BitVec 6) (rm : BitVec 3)   -- R98
  | fms (d a b : BitVec 6) (rm : BitVec 3)   -- R98
  | fnma (d a b : BitVec 6) (rm : BitVec 3)   -- R98
  | fcmpeq (c : BitVec 3) (a b : BitVec 6) (z : BitVec 7)   -- R99
  | fcmpne (c : BitVec 3) (a b : BitVec 6) (z : BitVec 7)   -- R99
  | fcmplt (c : BitVec 3) (a b : BitVec 6) (z : BitVec 7)   -- R99
  | fcmpge (c : BitVec 3) (a b : BitVec 6) (z : BitVec 7)   -- R99
  | bc (c : BitVec 3) (disp : BitVec 21)   -- R96
  | bcn (c : BitVec 3) (disp : BitVec 21)   -- R96
  | j (d : BitVec 6) (i : Imm19)   -- R96
  | jr (d a : BitVec 6) (i : BitVec 13)   -- R96
  | amoadd (d a b : BitVec 6) (order scope : BitVec 2)   -- R101
  | amofadd (d a b : BitVec 6) (order scope : BitVec 2)   -- R101
  | amomin (d a b : BitVec 6) (order scope : BitVec 2)   -- R101
  | amomax (d a b : BitVec 6) (order scope : BitVec 2)   -- R101
  | amoand (d a b : BitVec 6) (order scope : BitVec 2)   -- R101
  | amoor (d a b : BitVec 6) (order scope : BitVec 2)   -- R101
  | amoxor (d a b : BitVec 6) (order scope : BitVec 2)   -- R101
  | amoswap (d a b : BitVec 6) (order scope : BitVec 2)   -- R101
  | cas (d a b : BitVec 6) (succ fail scope : BitVec 2) (z : BitVec 1)   -- R102
  | fenceacq (d a b : BitVec 6) (scope : BitVec 3) (z : BitVec 2)   -- R103
  | fencerel (d a b : BitVec 6) (scope : BitVec 3) (z : BitVec 2)   -- R103
  | fencear (d a b : BitVec 6) (scope : BitVec 3) (z : BitVec 2)   -- R103
  | fencesc (d a b : BitVec 6) (scope : BitVec 3) (z : BitVec 2)   -- R103
  | rdctl (d a : BitVec 6) (i : BitVec 13)   -- R104
  | wrctl (d a : BitVec 6) (i : BitVec 13)   -- R104
  | trap (d a : BitVec 6) (i : BitVec 13)   -- R105
  | eret (z : BitVec 25)   -- R106
  | yield (z : BitVec 25)   -- R107
  | halt (z : BitVec 25)   -- R108
  | qput (d a b : BitVec 6) (z : BitVec 7)   -- R109
  | ipost (d a : BitVec 6) (i : BitVec 13)   -- R110
  | iwait (d a : BitVec 6) (i : BitVec 13)   -- R110
  | pref (d a : BitVec 6) (i : Imm13)   -- R93
  | vsetl (f : SvF)   -- R113
  | vadd (f : VaF)   -- R123
  | vsub (f : VaF)   -- R123
  | vmul (f : VaF)   -- R123
  | vmulh (f : VaF)   -- R123
  | vdiv (f : VaF)   -- R123
  | vrem (f : VaF)   -- R123
  | vmin (f : VaF)   -- R123
  | vmax (f : VaF)   -- R123
  | vabs (f : VaF)   -- R123
  | vneg (f : VaF)   -- R123
  | vand (f : VaF)   -- R123
  | vor (f : VaF)   -- R123
  | vxor (f : VaF)   -- R123
  | vnot (f : VaF)   -- R123
  | vsll (f : VaF)   -- R123
  | vsrl (f : VaF)   -- R123
  | vsra (f : VaF)   -- R123
  | vadds (f : VaF)   -- R123
  | vsubs (f : VaF)   -- R123
  | vavg (f : VaF)   -- R123
  | vfma (f : VaF)   -- R124
  | vfms (f : VaF)   -- R124
  | vfnma (f : VaF)   -- R124
  | vsqrt (f : VaF)   -- R123
  | vrsq (f : VaF)   -- R125
  | vrcp (f : VaF)   -- R125
  | vexp2 (f : VaF)   -- R125
  | vlog2 (f : VaF)   -- R125
  | vclamp (f : VaF)   -- R126
  | vscale (f : VaF)   -- R126
  | vcvt (f : VaF)   -- R127
  | vdot (f : VaF)   -- R128
  | vcmp (f : VaF)   -- R129
  | vmerge (f : VaF)   -- R130
  | vbcast (f : VaF)   -- R130
  | vid (f : VaF)   -- R130
  | mand (f : VaF)   -- R131
  | mor (f : VaF)   -- R131
  | mxor (f : VaF)   -- R131
  | mandn (f : VaF)   -- R131
  | mnot (f : VaF)   -- R131
  | mpop (f : VaF)   -- R132
  | mfirst (f : VaF)   -- R132
  | msetn (f : VaF)   -- R132
  | vslideup (f : VaF)   -- R133
  | vslidedn (f : VaF)   -- R133
  | vperm (f : VaF)   -- R134
  | vcompress (f : VaF)   -- R135
  | vexpand (f : VaF)   -- R135
  | vrank (f : VaF)   -- R135
  | vextr (f : VaF)   -- R136
  | vins (f : VaF)   -- R136
  | vredsum (f : VaF)   -- R137
  | vredsumo (f : VaF)   -- R137
  | vredmax (f : VaF)   -- R137
  | vredmin (f : VaF)   -- R137
  | vconf (f : VaF)   -- R138
  | vld (f : VmF)   -- R145
  | vlds (f : VmF)   -- R145
  | vldx (f : VmF)   -- R145
  | vldff (f : VmF)   -- R152
  | vldxff (f : VmF)   -- R152
  | vst (f : VmF)   -- R146
  | vsts (f : VmF)   -- R146
  | vstx (f : VmF)   -- R146
  | vpref (f : VmF)   -- R153
  | vtrans (f : VmF)   -- R155
  | vtransff (f : VmF)   -- R155
  | vsegadd (f : VmF)   -- R157
  | mxenter (f : MxF)   -- R161
  | mxleave (f : MxF)   -- R163
  | mxsetc (f : MxF)   -- R164
  | mxzero (f : MxF)   -- R169
  | mxmac (f : MxF)   -- R168
  | mxld (f : MxF)   -- R170
  | mxst (f : MxF)   -- R170
  | mxstkv (f : MxF)   -- R174
  | mxrow (f : MxF)   -- R171
  | mxrowadd (f : MxF)   -- R171
  | mxscaler (f : MxF)   -- R172
  | linit (f : LaF)   -- R182
  | lstep (f : LaF)   -- R184
  | lrung (f : LaF)   -- R187
  | lblend (f : LaF)   -- R188
  | lcount (f : LaF)   -- R189
  | lsync (f : LaF)   -- R189
  | lreset (f : LaF)   -- R189
  | hinit (f : HsF)   -- R193
  | hapnd (f : HsF)   -- R194
  | hld (f : HsF)   -- R195
  | hspan (f : HsF)   -- R195
  | hseal (f : HsF)   -- R192
  | hresume (f : HsF)   -- R360
  | hfree (f : HsF)   -- R192
  | vamo (f : AtF)   -- R202
  | ramo (f : AtF)   -- R205
  | rcas (f : AtF)   -- R205
  | rstore (f : AtF)   -- R206
  | rload (f : AtF)   -- R205
  | rdrain (f : AtF)   -- R206
  | vfence (f : SyF)   -- R210
  | barinit (f : SyF)   -- R211
  | bararr (f : SyF)   -- R212
  | barwait (f : SyF)   -- R213
  | barkill (f : SyF)   -- R211
  | gbar (f : SyF)   -- R214
  | xcopy (f : EnF)   -- R217
  | xcopyff (f : EnF)   -- R218
  | xinfl (f : EnF)   -- R219
  | xwait (f : EnF)   -- R220
  | xstat (f : EnF)   -- R220
  | vfsave (f : SvF)   -- R223
  | vfrest (f : SvF)   -- R223
  | vsave (f : SvF)   -- R224
  | vrest (f : SvF)   -- R224
  | vectorHandover (h : Nat)   -- R85
  | decouplingIssue (h : Nat)   -- R282
  | convoyIssue (h : Nat)   -- R121
  | spotCheck (h : Nat) (agrees : Bool)   -- R139
  | matrixSpotCheck (h : Nat) (agrees : Bool)   -- R178
  | assayerArbitration (die : Nat) (unitAgrees scalarAgrees : Bool)   -- with the third execution (R371)
  | instructionReplay (h : Nat) (agrees : Bool)   -- R140
  | poisonReissue (h : Nat)   -- R377
  | trapEntry (h : Nat) (cause : BitVec 8) (info addr : BitVec 64)   -- R261
  | privilegeWatchdog (h : Nat)   -- R260
  | preemptTaken (h : Nat)   -- R262
  | hartRetirement (h : Nat)   -- R108
  | streamFaultDelivery (h : Nat)   -- R269
  | ctxOpen (k : Nat)   -- R259
  | ctxSuspend (k : Nat)   -- R259
  | ctxResume (k : Nat)   -- R259
  | ctxKill (k : Nat)   -- R259
  | queueOpen (q : Nat)   -- R274
  | queueClose (q : Nat)   -- R274
  | queueAppendDoorbell (v : BitVec 64)   -- R275
  | takeRecord   -- R280
  | wordDependencePoll   -- R279
  | placeGang   -- R286
  | timeSlice   -- R287
  | gangStart (g : Nat)   -- R295
  | lanemapWithdraw (h k : Nat)   -- R289
  | lanemapReturn (h k : Nat)   -- R289
  | qminWrite (h : Nat) (v : BitVec 64)   -- R281
  | qcapWrite (h : Nat) (v : BitVec 64)   -- R281
  | pwrcapWrite (h : Nat) (v : BitVec 64)   -- R386
  | feataccWrite (v : BitVec 64)   -- R390
  | powerWindow (watts : Nat)   -- R291
  | thermalThrottle (die : Nat) (celsius : Nat)   -- R385
  | thermalTrip (die : Nat)   -- R385
  | halleyDelivery (core : Nat)   -- R311
  | fullerMerge (die : Nat)   -- R355
  | fullerDiscard (die : Nat)   -- R355
  | ladderMerge (core : Nat)   -- R366
  | transferEnd (h tag : Nat)   -- R220
  | pageWalk (core ctx : Nat) (va : BitVec 55)   -- R319
  | inval   -- R323
  | invalComplete (n : Nat)   -- R323
  | evict   -- R324
  | evictDrain (n : Nat)   -- R324
  | pageCommandDoorbell (v : BitVec 64)   -- R346
  | pcbaseWrite (v : BitVec 64)   -- R346
  | pcsizeWrite (v : BitVec 64)   -- R346
  | bar0Write (off : Nat) (v : BitVec 64)   -- R345
  | hostBar2Access (off bytes : Nat) (data : Option (BitVec 64))   -- R347
  | outboundReadTimeout (h : Nat)   -- R347
  | setWindow   -- R391
  | setRoute   -- R391
  | setPart   -- R391
  | setPwrcap   -- R391
  | firmwareUpdate (verifies : Bool)   -- R391
  | portEnable (p : Nat)   -- R332
  | portDisable (p : Nat)   -- R332
  | lanesLocked (p neighbour : Nat)   -- R332
  | trainingTimeout (p locked : Nat)   -- R332
  | linkRetrain (p : Nat)   -- R332
  | request (f : Flit)   -- R341
  | response (f : Flit)   -- R338
  | probe (f : Flit)   -- R335
  | probeAnswer (f : Flit)   -- R336
  | close (f : Flit)   -- R342
  | closeAnswer (f : Flit)   -- R271
  | acknowledgement (f : Flit)   -- R342
  | retransmitTimer (ctx chan : Nat) (what : BitVec 32) (kind : Nat)   -- R203
  | ackIdleTimer (ctx chan : Nat)   -- R339
  | powerGood (verifies : Bool) (buses : BusTest)   -- R387
  | nodeIdAssign (id : BitVec 20)   -- R331
  | nodeIdTimeout   -- R387
  | suspectDecay   -- R373
  | scrub (x : Scrubbed) (uncorrectable : Bool)   -- R383
  | calibration (bus : Nat) (failed : Option Nat)   -- R383
  | channelCopyComplete (chan : Nat) (bad : List Nat)   -- R382
  | telemetrySample   -- R384
  | cdcEviction (core line : Nat)   -- R407
  | spdmRequest (index : Nat)   -- R392
  | pldmTelemetryRead   -- R393
  | firmwareRecovery   -- R343
  | outboundReadCompletion (h : Nat) (data : Option (BitVec 64))   -- R347
  deriving DecidableEq, Repr

end Sys2Proof
end

