-- ==== Sys2Proof/Machine/Legal.lean ====
section
/-!
DEFINITION. Legality: for every instruction, which of the conditions of R83's orders 2, 3 and 6 to 10 it meets, over
R54, R73 to R82, R142, R143, R165, R180, R191, R201, R209, R215 and R222. Orders 1, 4 and 5 arise in decoding
(Decode.lean and Machine/Header.lean), orders 11 and 12 at hand-over (the meanings).
-/

namespace Sys2Proof

/-- A condition of R83's table by name. -/
inductive Refuse
  | unassigned            -- order 1
  | featureAbsent         -- order 2
  | privilege             -- order 3
  | prefixMisuse          -- order 4
  | convoy (slot : Nat)   -- order 5; 255 stands for the header's own fields
  | mode                  -- order 6
  | code                  -- order 7
  | pairing               -- order 8
  | unused                -- order 9
  | register              -- order 10
  deriving DecidableEq, Repr

/-- The order of R83's table. -/
def Refuse.order : Refuse → Nat
  | .unassigned => 1 | .featureAbsent => 2 | .privilege => 3 | .prefixMisuse => 4 | .convoy _ => 5
  | .mode => 6 | .code => 7 | .pairing => 8 | .unused => 9 | .register => 10

/-- The cause code of R57 a condition raises. -/
def Refuse.cause : Refuse → BitVec 8
  | .featureAbsent => 0x12#8
  | .privilege => 0x02#8
  | _ => 0x01#8

/-- TINFO of R83: the reason in bits 15:8, the detail in bits 7:0. -/
def Refuse.info : Refuse → BitVec 64
  | .unassigned => 0x0100#64
  | .featureAbsent => 0
  | .privilege => 0
  | .prefixMisuse => 0x0700#64
  | .convoy k => BitVec.ofNat 64 (0x0600 + k)
  | .mode => 0x0500#64
  | .code => 0x0200#64
  | .pairing => 0x0900#64
  | .unused => 0x0300#64
  | .register => 0x0400#64

/-- Which conditions of one instruction hold; each field is true where its condition does. -/
structure Viol where
  feat : Bool := false
  priv : Bool := false
  mode : Bool := false
  code : Bool := false
  pairing : Bool := false
  unused : Bool := false
  register : Bool := false
  deriving DecidableEq, Repr

/-- The condition earliest in R83's order. -/
def Viol.first (v : Viol) : Option Refuse :=
  if v.feat then some .featureAbsent
  else if v.priv then some .privilege
  else if v.mode then some .mode
  else if v.code then some .code
  else if v.pairing then some .pairing
  else if v.unused then some .unused
  else if v.register then some .register
  else none

/-- What legality reads of the hart: the accepted features, privilege, VGRP and whether an opaque frame is held. -/
structure LegalEnv where
  feat : BitVec 7
  priv : Bool
  mxm : Bool
  g : Nat
  frame : Bool
  deriving DecidableEq, Repr

/-- Whether feature `k` of R390 is not accepted. -/
def LegalEnv.lacks (v : LegalEnv) (k : Nat) : Bool := !v.feat.getLsbD k

/-! ### Control registers (R54, R56) -/

/-- The assigned indices. -/
def ctlAssigned (i : Nat) : Bool :=
  (i ≤ 0x005) || (0x010 ≤ i && i ≤ 0x015) || (0x020 ≤ i && i ≤ 0x027) || i == 0x030 || i == 0x031
    || i == 0x040 || (0x050 ≤ i && i ≤ 0x053) || i == 0x060 || (0x100 ≤ i && i ≤ 0x105) || i == 0x110
    || (0x120 ≤ i && i ≤ 0x124) || i == 0x130

/-- The read-only indices. -/
def ctlReadOnly (i : Nat) : Bool :=
  (i ≤ 0x005) || i == 0x010 || i == 0x011 || i == 0x013 || i == 0x104 || i == 0x105 || i == 0x110
    || (0x120 ≤ i && i ≤ 0x123)

/-! ### Scalar instructions (R73, R74) -/

/-- A rounding-mode code that R39 leaves illegal. -/
def badRm (rm : BitVec 3) : Bool := 6 ≤ rm.toNat

/-- Above the limit of a condition-bit or accumulator field (R81). -/
def over7 (r : BitVec 6) : Bool := 7 < r.toNat

def falu (rm : BitVec 3) : Viol := { code := badRm rm }
def faluOne (b : BitVec 6) (rm : BitVec 3) : Viol := { code := badRm rm, unused := b != 0 }
def fence (d a b : BitVec 6) (scope : BitVec 3) (z : BitVec 2) : Viol :=
  { code := scope.toNat == 0 || 6 ≤ scope.toNat, unused := d != 0 || a != 0 || b != 0 || z != 0 }
def cop3 (d a b : BitVec 6) : Viol := { register := over7 d || over7 a || over7 b }
def noB (b : BitVec 6) : Viol := { unused := b != 0 }
def noZ7 (z : BitVec 7) : Viol := { unused := z != 0 }
def noZ25 (z : BitVec 25) : Viol := { unused := z != 0 }
def noZ5 (z : BitVec 5) : Viol := { unused := z != 0 }
def chan (d : BitVec 6) (i : BitVec 13) : Viol := { unused := d != 0 || 15 < i.toNat }

/-! ### Vector-side instructions -/

/-- What a register field names (R116). -/
inductive Kind
  | no | s | v | m | vs | acc | lad | cond
  deriving DecidableEq, Repr

/-- The type sets of R116 and their kin. -/
inductive Types
  | none | ints | floats | both
  deriving DecidableEq, Repr

/-- Whether an et code names a type of the set. -/
def Types.has (t : Types) (et : BitVec 4) : Bool :=
  match t with
  | .none => et == 0
  | .ints => et.toNat < 8
  | .floats => 8 ≤ et.toNat && et.toNat != 11
  | .both => et.toNat != 11

/-- How rm and sat are used (R115): never, always, when the result is floating, or rm must be 000 (R125). -/
inductive Use
  | never | always | flt | zero
  deriving DecidableEq, Repr

/-- Whether a field marked so is used with this et. -/
def Use.on (u : Use) (et : BitVec 4) : Bool :=
  match u with
  | .never => false
  | .always => true
  | .flt => 8 ≤ et.toNat
  | .zero => true

/-- A nonzero field whose kind is "no". -/
def Kind.nz (k : Kind) (r : BitVec 6) : Bool := k == .no && r != 0

/-- A register field out of range or misgrouped (R81). -/
def Kind.bad (k : Kind) (g : Nat) (os : BitVec 1) (r : BitVec 6) : Bool :=
  match k with
  | .no => false
  | .s => false
  | .v => r.toNat % g != 0
  | .m => 23 < r.toNat
  | .vs => os == 0 && r.toNat % g != 0
  | .acc => 7 < r.toNat
  | .lad => 3 < r.toNat
  | .cond => 7 < r.toNat

/-- One row of the tables of R123 to R138. -/
structure VaSpec where
  vd : Kind := .v
  va : Kind := .v
  vb : Kind := .vs
  x : Kind := .no
  types : Types := .both
  rm : Use := .never
  sat : Use := .never
  mask : Bool := true
  aux : Bool := false            -- aux is used
  diffA : Bool := false          -- vd must differ from va
  diffB : Bool := false          -- vd must differ from vb
  deriving DecidableEq, Repr

/-- Legality of a VA or VP instruction; `mxBad` is R82, `auxBad` an illegal aux code, `auxJunk` a nonzero unused part
of aux. R76's codes are checked whether or not the instruction uses the field (log 21). -/
def vaViol (v : LegalEnv) (f : VaF) (p : VaSpec) (mxBad : Bool) (auxBad auxJunk diff : Bool) : Viol :=
  { mode := (mxBad && v.mxm) || v.frame
    code := badRm f.rm || (p.types != .none && !p.types.has f.et) || auxBad
    unused := p.vd.nz f.vd || p.va.nz f.va || p.vb.nz f.vb || p.x.nz f.x
      || (!p.mask && (f.m != 0 || f.mi != 0)) || (p.types == .none && f.et != 0)
      || ((!p.rm.on f.et || p.rm == .zero) && f.rm != 0) || (!p.sat.on f.et && f.sat != 0)
      || (p.vb != .vs && f.os != 0) || (!p.aux && f.aux != 0) || auxJunk
    register := p.vd.bad v.g f.os f.vd || p.va.bad v.g f.os f.va || p.vb.bad v.g f.os f.vb || p.x.bad v.g f.os f.x
      || (p.mask && 23 < f.m.toNat) || (p.diffA && f.vd == f.va) || (p.diffB && f.vd == f.vb) || diff }

/-- A VA instruction of the tables. -/
def va (v : LegalEnv) (f : VaF) (p : VaSpec) : Viol := vaViol v f p true false false false
/-- A VP permute, reduction or VCONF: illegal in matrix mode. -/
def vp (v : LegalEnv) (f : VaF) (p : VaSpec) : Viol := vaViol v f p true false false false
/-- A VP mask operation: legal in both modes. -/
def vpm (v : LegalEnv) (f : VaF) (p : VaSpec) : Viol := vaViol v f p false false false false

/-- Bytes of an et code (R26). -/
def etBytes (et : BitVec 4) : Nat :=
  match et.toNat with
  | 0 | 4 | 12 | 13 | 14 | 15 => 1
  | 1 | 5 | 8 | 9 => 2
  | 2 | 6 | 10 => 4
  | 3 | 7 => 8
  | _ => 1

/-- VDOT's pairs of et and st (R128). -/
def vdotPair (et st : BitVec 4) : Bool :=
  match et.toNat, st.toNat with
  | 2, 0 => true | 2, 4 => true | 6, 4 => true
  | 10, 8 => true | 10, 9 => true | 10, 12 => true | 10, 13 => true
  | _, _ => false

/-- The type code in aux[10:7]. -/
def VaF.aux4 (f : VaF) : BitVec 4 := f.aux.extractLsb' 7 4
/-- aux[6:0]. -/
def VaF.auxLow (f : VaF) : BitVec 7 := f.aux.extractLsb' 0 7

def vcvtViol (v : LegalEnv) (f : VaF) : Viol :=
  vaViol v f { vb := .no, rm := .always, sat := .always, aux := true } true
    (f.aux4 == 11) (f.auxLow != 0) (etBytes f.et != etBytes f.aux4 && f.vd == f.va)
def vdotViol (v : LegalEnv) (f : VaF) : Viol :=
  vaViol v f { rm := .flt, sat := .flt, aux := true } true (!vdotPair f.et f.aux4) (f.auxLow != 0) false
def vcmpViol (v : LegalEnv) (f : VaF) : Viol :=
  let c := (f.aux.extractLsb' 0 3).toNat
  vaViol v f { vd := .m, aux := true } true (c == 7 || (c == 6 && f.et.toNat < 8)) (8 ≤ f.aux.toNat) false

/-- A VM instruction: `fmax` the highest fmt, `vbK` the kind of vb, `tagged` whether fmt 101 makes x the tags. -/
def vmViol (v : LegalEnv) (f : VmF) (fmax : Nat) (vbK : Kind) (ffOk : Bool) : Viol :=
  let tagged := f.fmt.toNat == 5
  { mode := v.frame
    code := fmax < f.fmt.toNat || 6 ≤ f.scope.toNat || 2 ≤ f.space.toNat || (f.ff != 0 && !ffOk)
      || (f.pol != 0 && f.space == 1) || f.et.toNat == 11
    unused := vbK.nz f.vb || (!tagged && f.x != 0) || f.z != 0
    register := Kind.bad .v v.g 0 f.vd || vbK.bad v.g 0 f.vb || (tagged && Kind.bad .v v.g 0 f.x) || 23 < f.m.toNat }

def vprefViol (v : LegalEnv) (f : VmF) : Viol :=
  let mode := f.vd.toNat % 4
  let vbK : Kind := if mode == 1 then .s else if mode == 2 then .v else .no
  { mode := v.frame
    code := 4 < f.fmt.toNat || f.scope != 0 || 2 ≤ f.space.toNat || f.ff != 0 || f.pol.toNat == 3
      || (f.pol != 0 && f.space == 1) || f.ord != 0 || f.ovt != 0 || f.et.toNat == 11 || mode == 3
    unused := 3 < f.vd.toNat || vbK.nz f.vb || f.x != 0 || f.z != 0
    register := vbK.bad v.g 0 f.vb || 23 < f.m.toNat }

/-- VTRANS and VTRANSFF (R155). That x, vd and vb must differ from one another is taken as an error in a register, 0x04
(log 68, DESIGN CHOICE: the spec names no reason). -/
def vtransViol (v : LegalEnv) (f : VmF) : Viol :=
  { feat := v.lacks 4
    mode := v.frame
    code := f.fmt != 0 || 6 ≤ f.scope.toNat || f.space != 0 || f.ff != 0 || f.pol != 0 || f.ord != 0 || f.ovt != 0
      || f.et.toNat != 7
    unused := f.z != 0
    register := Kind.bad .v v.g 0 f.vd || Kind.bad .v v.g 0 f.vb || Kind.bad .v v.g 0 f.x || 23 < f.m.toNat
      || f.vd == f.vb || f.x == f.vb || f.vd == f.x }

def vsegaddViol (v : LegalEnv) (f : VmF) : Viol :=
  { mode := v.frame
    code := f.fmt != 0 || 6 ≤ f.scope.toNat || 2 ≤ f.space.toNat || f.ff != 0 || (f.pol != 0 && f.space == 1)
      || f.ord != 0 || 10 < f.et.toNat
    unused := f.x != 0 || f.z != 0
    register := Kind.bad .v v.g 0 f.vd || Kind.bad .v v.g 0 f.vb || 23 < f.m.toNat }

/-- The family of a matrix type code (R77). -/
def mxFamily (t : BitVec 4) : Nat :=
  match t.toNat with
  | 0 => 0 | 1 => 1 | 2 => 1 | 3 => 2 | 4 => 2 | 5 => 2 | 6 => 2 | 7 => 3 | 8 => 3 | 9 => 4 | 10 => 5 | 11 => 5
  | _ => 6

/-- One row of R165. -/
structure MxSpec where
  vd : Kind := .no
  va : Kind := .no
  vb : Kind := .no
  x : Kind := .no
  mask : Bool := false
  rows : Bool := false
  deriving DecidableEq, Repr

/-- A matrix type code that R77 leaves illegal: refused whether or not the instruction takes the type (log 21). -/
def badMx (t : BitVec 4) : Bool := 11 < t.toNat

/-- A matrix instruction that takes no G of its own. -/
def mxViol (v : LegalEnv) (f : MxF) (p : MxSpec) (modeBad codeBad typed : Bool) : Viol :=
  { mode := modeBad || v.frame
    code := 4 ≤ f.g.toNat || badMx f.et || badMx f.bt || codeBad
    unused := p.vd.nz f.vd || p.va.nz f.va || p.vb.nz f.vb || p.x.nz f.x || (!p.mask && f.m != 0)
      || (!typed && (f.et != 0 || f.bt != 0)) || (!p.rows && f.rows != 0) || f.g != 0 || f.z != 0
    register := p.vd.bad v.g 0 f.vd || p.va.bad v.g 0 f.va || p.vb.bad v.g 0 f.vb || p.x.bad v.g 0 f.x
      || (p.mask && 23 < f.m.toNat) }

def mxmacViol (v : LegalEnv) (f : MxF) : Viol :=
  let scaled := f.et.toNat == 10 || f.et.toNat == 11
  let g := 2 ^ (f.g.toNat % 4)
  { mode := !v.mxm || v.frame
    code := 4 ≤ f.g.toNat || badMx f.et || badMx f.bt
    pairing := mxFamily f.et != mxFamily f.bt
    unused := (!scaled && f.x != 0) || f.z != 0
    register := over7 f.vd || f.va.toNat % g != 0 || f.vb.toNat % g != 0 || (scaled && f.x.toNat % g != 0)
      || 23 < f.m.toNat }

/-- MXSTKV (R173). That vR must differ from vP is taken as an error in a register, 0x04 (log 68, DESIGN CHOICE: the
spec names no reason), and a G code other than 2 as an invalid code, 0x02 (log 93, DESIGN CHOICE: no rule names its
reason). -/
def mxstkvViol (v : LegalEnv) (f : MxF) : Viol :=
  { feat := v.lacks 4
    mode := !v.mxm || v.frame
    code := f.g.toNat != 2 || badMx f.et || badMx f.bt
    unused := f.et != 0 || f.bt != 0 || f.z != 0
    register := over7 f.vd || f.va.toNat % 4 != 0 || f.vb.toNat % 4 != 0 || f.va == f.vb || 23 < f.m.toNat }

/-- MXST's stored types (R165). -/
def mxstType (t : BitVec 4) : Bool := t.toNat ≤ 4 || t.toNat == 7

/-- A ladder instruction: `form` the kind of the operand that the form decides, in vb for LSTEP and vd otherwise. -/
def laViol (v : LegalEnv) (f : LaF) (vd va vb x : Kind) (formed useMask useRung useOp : Bool) : Viol :=
  { feat := v.lacks 1
    mode := v.frame
    code := f.op.toNat == 3 || (formed && f.et.toNat != 0 && f.et.toNat != 10)
    unused := vd.nz f.vd || va.nz f.va || vb.nz f.vb || x.nz f.x || (!useMask && f.m != 0)
      || (!formed && f.et != 0) || (!useRung && f.rung != 0) || (!useOp && f.op != 0) || f.z != 0
    register := vd.bad v.g 0 f.vd || va.bad v.g 0 f.va || vb.bad v.g 0 f.vb || x.bad v.g 0 f.x
      || (useMask && 23 < f.m.toNat) }

/-- The operand kind of a ladder instruction's form (R180). -/
def LaF.form (f : LaF) : Kind := if f.et.toNat == 10 then .v else .acc
/-- Whether it is the vector form. -/
def LaF.isVec (f : LaF) : Bool := f.et.toNat == 10

def hsViol (v : LegalEnv) (f : HsF) (vd vb x : Kind) (typed useMask useRes : Bool) : Viol :=
  { feat := v.lacks 0
    mode := v.frame
    code := typed && f.et.toNat == 11
    unused := vd.nz f.vd || vb.nz f.vb || x.nz f.x || (!useMask && f.m != 0) || (!typed && f.et != 0)
      || (!useRes && f.res != 0) || f.z != 0
    register := vd.bad v.g 0 f.vd || (useMask && 23 < f.m.toNat) }

/-- VAMO (R201, R202). -/
def vamoViol (v : LegalEnv) (f : AtF) : Viol :=
  let t := f.et.toNat
  { mode := v.frame
    code := 8 ≤ f.op.toNat || f.fail != 0 || 6 ≤ f.scope.toNat
      || (if f.op.toNat == 1 then t != 10 else !(t == 2 || t == 3 || t == 6 || t == 7))
    unused := f.x != 0 || f.z != 0
    register := Kind.bad .v v.g 0 f.vd || Kind.bad .v v.g 0 f.vb || 23 < f.m.toNat }

/-- The remote operations (R201): which order codes and scopes are allowed, and which fields are used. A column that
holds 0 allows no other value, with the reason 0x02 that R201 gives, where R80 would give 0x03 (log 69, DEDUCED); x and
bits 5:0 stand outside the columns and are unused fields. -/
def remViol (v : LegalEnv) (f : AtF) (vd va vb : Kind) (opMax : Nat) (succOk failOk scopeOk : Bool) : Viol :=
  { feat := v.lacks 2
    mode := v.frame
    code := opMax < f.op.toNat || !succOk || !failOk || !scopeOk || vd.nz f.vd || va.nz f.va || vb.nz f.vb || f.m != 0
      || f.et != 0
    unused := f.x != 0 || f.z != 0 }

/-- Scope 000 or 101. -/
def AtF.sysScope (f : AtF) : Bool := f.scope.toNat == 0 || f.scope.toNat == 5

/-- The SY instructions (R209). An arrival count of 0 is taken as an illegal value of a coded field, 0x02 (log 70, DESIGN
CHOICE: the spec gives the range 1 to 2,047 and no reason). -/
def syViol (v : LegalEnv) (f : SyF) (vd va vb : Kind) (lo hi : Nat) (useAux : Bool) : Viol :=
  { mode := v.frame
    code := f.scope.toNat < lo || hi < f.scope.toNat || (useAux && f.aux == 0)
    unused := vd.nz f.vd || va.nz f.va || vb.nz f.vb || f.x != 0 || f.m != 0 || f.et != 0 || f.z != 0
      || (!useAux && f.aux != 0)
    register := vd.bad v.g 0 f.vd }

def enViol (v : LegalEnv) (f : EnF) (copy ffOk : Bool) : Viol :=
  { mode := v.frame
    code := 6 ≤ f.dims.toNat || 5 ≤ f.fmt.toNat || (f.ff != 0 && !ffOk) || (copy && f.fmt != 0 && f.et.toNat == 11)
    unused := f.vb != 0 || f.x != 0 || f.m != 0 || (!copy && (f.dims != 0 || f.fmt != 0 || f.et != 0))
      || (copy && f.fmt == 0 && f.et != 0) || f.z != 0 }

def vsetlViol (v : LegalEnv) (f : SvF) : Viol :=
  { mode := v.mxm || v.frame
    code := f.et.toNat == 11
    unused := f.x != 0 || f.m != 0 || f.z != 0 }

def svViol (v : LegalEnv) (f : SvF) (vd vb x : Kind) (frameOk : Bool) : Viol :=
  { mode := v.frame && !frameOk
    unused := vd.nz f.vd || vb.nz f.vb || x.nz f.x || f.m != 0 || f.et != 0 || f.g != 0 || f.z != 0 }

/-- The conditions of one instruction. A nonzero rm of FCLASS is refused as an illegal value of a coded field (0x02) and
bit 5 of FCVT's sb as a nonzero unused field (0x03): R74 forbids both without a reason (log 67, DESIGN CHOICE). -/
def Instr.viol (v : LegalEnv) (i : Instr) : Viol :=
  match i with
  | .add _ _ _ => {}
  | .sub _ _ _ => {}
  | .and _ _ _ => {}
  | .or _ _ _ => {}
  | .xor _ _ _ => {}
  | .sll _ _ _ => {}
  | .srl _ _ _ => {}
  | .sra _ _ _ => {}
  | .min _ _ _ => {}
  | .max _ _ _ => {}
  | .minn _ _ _ => {}
  | .maxn _ _ _ => {}
  | .mul _ _ _ => {}
  | .mulh _ _ _ => {}
  | .mulhn _ _ _ => {}
  | .div _ _ _ => {}
  | .divn _ _ _ => {}
  | .rem _ _ _ => {}
  | .remn _ _ _ => {}
  | .clz _ _ b => noB b
  | .ctz _ _ b => noB b
  | .popc _ _ b => noB b
  | .sel _ _ b => { register := over7 b }
  | .addi _ _ _ => {}
  | .andi _ _ _ => {}
  | .ori _ _ _ => {}
  | .xori _ _ _ => {}
  | .slli _ _ z _ => noZ5 z
  | .srli _ _ z _ => noZ5 z
  | .srai _ _ z _ => noZ5 z
  | .lih _ _ _ => {}
  | .pcadd _ _ => {}
  | .ldb _ _ _ => {}
  | .ldbn _ _ _ => {}
  | .ldh _ _ _ => {}
  | .ldhn _ _ _ => {}
  | .ldw _ _ _ => {}
  | .ldwn _ _ _ => {}
  | .ldd _ _ _ => {}
  | .stb _ _ _ => {}
  | .sth _ _ _ => {}
  | .stw _ _ _ => {}
  | .std _ _ _ => {}
  | .cmpeq _ _ _ z => noZ7 z
  | .cmpne _ _ _ z => noZ7 z
  | .cmplt _ _ _ z => noZ7 z
  | .cmpge _ _ _ z => noZ7 z
  | .cmpltn _ _ _ z => noZ7 z
  | .cmpgen _ _ _ z => noZ7 z
  | .cmpand _ _ _ z => noZ7 z
  | .cmpieq _ _ _ => {}
  | .cmpine _ _ _ => {}
  | .cmpilt _ _ _ => {}
  | .cmpige _ _ _ => {}
  | .cmpiltn _ _ _ => {}
  | .cmpigen _ _ _ => {}
  | .cmpiand _ _ _ => {}
  | .cand d a b => cop3 d a b
  | .cor d a b => cop3 d a b
  | .cxor d a b => cop3 d a b
  | .cnot d a b => { unused := b != 0, register := over7 d || over7 a }
  | .cget _ a b => { unused := a != 0 || b != 0 }
  | .cfrom d _ b => { unused := b != 0, register := over7 d }
  | .fadd _ _ _ rm => falu rm
  | .fsub _ _ _ rm => falu rm
  | .fmul _ _ _ rm => falu rm
  | .fdiv _ _ _ rm => falu rm
  | .fsqrt _ _ b rm => faluOne b rm
  | .fmin _ _ _ rm => falu rm
  | .fmax _ _ _ rm => falu rm
  | .fcvt _ _ b rm => { code := badRm rm || b.toNat % 16 == 11, unused := 31 < b.toNat }
  | .fclass _ _ b rm => { code := rm != 0, unused := b != 0 }
  | .fma _ _ _ rm => falu rm
  | .fms _ _ _ rm => falu rm
  | .fnma _ _ _ rm => falu rm
  | .fcmpeq _ _ _ z => noZ7 z
  | .fcmpne _ _ _ z => noZ7 z
  | .fcmplt _ _ _ z => noZ7 z
  | .fcmpge _ _ _ z => noZ7 z
  | .bc _ _ => {}
  | .bcn _ _ => {}
  | .j _ _ => {}
  | .jr _ _ _ => {}
  | .amoadd _ _ _ _ _ => {}
  | .amofadd _ _ _ _ _ => {}
  | .amomin _ _ _ _ _ => {}
  | .amomax _ _ _ _ _ => {}
  | .amoand _ _ _ _ _ => {}
  | .amoor _ _ _ _ _ => {}
  | .amoxor _ _ _ _ _ => {}
  | .amoswap _ _ _ _ _ => {}
  | .cas _ _ _ _ fail _ z => { code := 2 ≤ fail.toNat, unused := z != 0 }
  | .fenceacq d a b scope z => fence d a b scope z
  | .fencerel d a b scope z => fence d a b scope z
  | .fencear d a b scope z => fence d a b scope z
  | .fencesc d a b scope z => fence d a b scope z
  | .rdctl _ a i => { priv := !v.priv && 0x100 ≤ i.toNat, code := !ctlAssigned i.toNat, unused := a != 0 }
  | .wrctl d _ i => { priv := !v.priv && 0x100 ≤ i.toNat, code := !ctlAssigned i.toNat || ctlReadOnly i.toNat, unused := d != 0 }
  | .trap d a _ => { unused := d != 0 || a != 0 }
  | .eret z => { priv := !v.priv, unused := z != 0 }
  | .yield z => noZ25 z
  | .halt z => noZ25 z
  | .qput _ _ _ z => noZ7 z
  | .ipost d _ i => chan d i
  | .iwait d _ i => chan d i
  | .pref d _ _ => { code := d.toNat % 4 == 3, unused := 3 < d.toNat }
  | .vsetl f => vsetlViol v f
  | .vadd f => va v f { rm := .flt, sat := .flt }
  | .vsub f => va v f { rm := .flt, sat := .flt }
  | .vmul f => va v f { rm := .flt, sat := .flt }
  | .vmulh f => va v f { types := .ints }
  | .vdiv f => va v f { rm := .flt, sat := .flt }
  | .vrem f => va v f { types := .ints }
  | .vmin f => va v f {}
  | .vmax f => va v f {}
  | .vabs f => va v f { vb := .no }
  | .vneg f => va v f { vb := .no }
  | .vand f => va v f { types := .ints }
  | .vor f => va v f { types := .ints }
  | .vxor f => va v f { types := .ints }
  | .vnot f => va v f { vb := .no, types := .ints }
  | .vsll f => va v f { types := .ints }
  | .vsrl f => va v f { types := .ints }
  | .vsra f => va v f { types := .ints }
  | .vadds f => va v f { types := .ints }
  | .vsubs f => va v f { types := .ints }
  | .vavg f => va v f { types := .ints }
  | .vfma f => va v f { rm := .flt, sat := .flt }
  | .vfms f => va v f { rm := .flt, sat := .flt }
  | .vfnma f => va v f { rm := .flt, sat := .flt }
  | .vsqrt f => va v f { vb := .no, types := .floats, rm := .flt, sat := .flt }
  | .vrsq f => va v f { vb := .no, types := .floats, rm := .zero, sat := .always }
  | .vrcp f => va v f { vb := .no, types := .floats, rm := .zero, sat := .always }
  | .vexp2 f => va v f { vb := .no, types := .floats, rm := .zero, sat := .always }
  | .vlog2 f => va v f { vb := .no, types := .floats, rm := .zero, sat := .always }
  | .vclamp f => va v f { x := .vs }
  | .vscale f => va v f { types := .floats, rm := .always, sat := .always }
  | .vcvt f => vcvtViol v f
  | .vdot f => vdotViol v f
  | .vcmp f => vcmpViol v f
  | .vmerge f => va v f { x := .m }
  | .vbcast f => va v f { va := .no, rm := .always, sat := .always }
  | .vid f => va v f { va := .no, vb := .no, types := .ints }
  | .mand f => vpm v f { vd := .m, va := .m, vb := .m, types := .none, mask := false }
  | .mor f => vpm v f { vd := .m, va := .m, vb := .m, types := .none, mask := false }
  | .mxor f => vpm v f { vd := .m, va := .m, vb := .m, types := .none, mask := false }
  | .mandn f => vpm v f { vd := .m, va := .m, vb := .m, types := .none, mask := false }
  | .mnot f => vpm v f { vd := .m, va := .m, vb := .no, types := .none, mask := false }
  | .mpop f => vpm v f { vd := .s, va := .m, vb := .no, types := .none }
  | .mfirst f => vpm v f { vd := .s, va := .m, vb := .no, types := .none }
  | .msetn f => vpm v f { vd := .m, va := .no, vb := .s, types := .none, mask := false }
  | .vslideup f => vp v f { vb := .s, diffA := true }
  | .vslidedn f => vp v f { vb := .s, diffA := true }
  | .vperm f => vp v f { vb := .v, diffA := true, diffB := true }
  | .vcompress f => vp v f { vb := .no, x := .m, diffA := true }
  | .vexpand f => vp v f { vb := .no, x := .m, diffA := true }
  | .vrank f => vp v f { va := .m, vb := .s, types := .ints }
  | .vextr f => vp v f { vd := .s, vb := .s, mask := false }
  | .vins f => vp v f { va := .s, vb := .s, mask := false, rm := .flt, sat := .flt }
  | .vredsum f => vp v f { vd := .s, vb := .s, rm := .flt }
  | .vredsumo f => vp v f { vd := .s, vb := .s, rm := .flt }
  | .vredmax f => vp v f { vd := .s, vb := .s }
  | .vredmin f => vp v f { vd := .s, vb := .s }
  | .vconf f => vp v f { vd := .m, vb := .no, types := .ints }
  | .vld f => vmViol v f 4 .no false
  | .vlds f => vmViol v f 4 .s true
  | .vldx f => vmViol v f 5 .v false
  | .vldff f => vmViol v f 4 .no false
  | .vldxff f => vmViol v f 5 .v false
  | .vst f => vmViol v f 4 .no false
  | .vsts f => vmViol v f 4 .s false
  | .vstx f => vmViol v f 5 .v false
  | .vpref f => vprefViol v f
  | .vtrans f => vtransViol v f
  | .vtransff f => vtransViol v f
  | .vsegadd f => vsegaddViol v f
  | .mxenter f => mxViol v f {} (v.mxm || v.g != 1) false false
  | .mxleave f => mxViol v f {} (!v.mxm) false false
  | .mxsetc f => mxViol v f { vd := .s, va := .s } (!v.mxm) false false
  | .mxzero f => mxViol v f { vd := .acc, rows := true } (!v.mxm) false false
  | .mxmac f => mxmacViol v f
  | .mxld f => mxViol v f { vd := .acc, va := .s, vb := .s, mask := true, rows := true } (!v.mxm) false false
  | .mxst f => mxViol v f { vd := .acc, va := .s, vb := .s, mask := true, rows := true } (!v.mxm) (!mxstType f.et || f.bt != f.et) true
  | .mxstkv f => mxstkvViol v f
  | .mxrow f => mxViol v f { vd := .v, va := .acc, vb := .s, mask := true } (!v.mxm) false false
  | .mxrowadd f => mxViol v f { vd := .acc, va := .v, vb := .s, mask := true } (!v.mxm) false false
  | .mxscaler f => mxViol v f { vd := .acc, va := .v, vb := .v, mask := true, rows := true } (!v.mxm)
    (!(f.et.toNat == 0 || f.et.toNat == 7) || f.bt != f.et) true
  | .linit f => laViol v f .lad .s .no .no false false true true
  | .lstep f => laViol v f .lad .no f.form .no true f.isVec false false
  | .lrung f => laViol v f f.form .lad .s .s true f.isVec true false
  | .lblend f => laViol v f f.form .lad .v .no true f.isVec false false
  | .lcount f => laViol v f .s .lad .no .no false false false false
  | .lsync f => laViol v f .no .no .no .no false false false false
  | .lreset f => laViol v f .lad .no .no .no false false false false
  | .hinit f => hsViol v f .no .no .no false false false
  | .hapnd f => hsViol v f .v .s .no true true false
  | .hld f => hsViol v f .v .s .s true true true
  | .hspan f => hsViol v f .no .s .s false false true
  | .hseal f => hsViol v f .no .no .no false false false
  | .hresume f => hsViol v f .no .no .no false false false
  | .hfree f => hsViol v f .no .no .no false false false
  | .vamo f => vamoViol v f
  | .ramo f => remViol v f .s .s .s 7 true (f.fail == 0) f.sysScope
  | .rcas f => remViol v f .s .s .s 0 true (f.fail.toNat < 2) f.sysScope
  | .rstore f => remViol v f .no .s .s 0 (f.succ.toNat % 2 == 0) (f.fail == 0) f.sysScope
  | .rload f => remViol v f .s .s .no 0 (f.succ.toNat < 2) (f.fail == 0) f.sysScope
  | .rdrain f => remViol v f .no .no .no 0 (f.succ == 0) (f.fail == 0) (f.scope == 0)
  | .vfence f => syViol v f .no .no .no 1 5 false
  | .barinit f => syViol v f .no .s .s 0 0 false
  | .bararr f => syViol v f .s .s .no 2 5 true
  | .barwait f => syViol v f .cond .s .s 2 5 false
  | .barkill f => syViol v f .no .s .no 0 0 false
  | .gbar f => syViol v f .no .no .no 2 5 false
  | .xcopy f => enViol v f true false
  | .xcopyff f => enViol v f true false
  | .xinfl f => { enViol v f false true with feat := v.lacks 3 }
  | .xwait f => enViol v f false false
  | .xstat f => enViol v f false false
  | .vfsave f => svViol v f .s .no .no true
  | .vfrest f => svViol v f .no .no .no false
  | .vsave f => svViol v f .no .s .s false
  | .vrest f => svViol v f .no .no .no false
  | .vectorHandover _ => {}
  | .decouplingIssue _ => {}
  | .convoyIssue _ => {}
  | .spotCheck _ _ => {}
  | .matrixSpotCheck _ _ => {}
  | .assayerArbitration _ _ _ => {}
  | .instructionReplay _ _ => {}
  | .poisonReissue _ => {}
  | .trapEntry _ _ _ _ => {}
  | .privilegeWatchdog _ => {}
  | .preemptTaken _ => {}
  | .hartRetirement _ => {}
  | .streamFaultDelivery _ => {}
  | .ctxOpen _ => {}
  | .ctxSuspend _ => {}
  | .ctxResume _ => {}
  | .ctxKill _ => {}
  | .queueOpen _ => {}
  | .queueClose _ => {}
  | .queueAppendDoorbell _ => {}
  | .takeRecord => {}
  | .wordDependencePoll => {}
  | .placeGang => {}
  | .timeSlice => {}
  | .gangStart _ => {}
  | .lanemapWithdraw _ _ => {}
  | .lanemapReturn _ _ => {}
  | .qminWrite _ _ => {}
  | .qcapWrite _ _ => {}
  | .pwrcapWrite _ _ => {}
  | .feataccWrite _ => {}
  | .powerWindow _ => {}
  | .thermalThrottle _ _ => {}
  | .thermalTrip _ => {}
  | .halleyDelivery _ => {}
  | .fullerMerge _ => {}
  | .fullerDiscard _ => {}
  | .ladderMerge _ => {}
  | .transferEnd _ _ => {}
  | .pageWalk _ _ _ => {}
  | .inval => {}
  | .invalComplete _ => {}
  | .evict => {}
  | .evictDrain _ => {}
  | .pageCommandDoorbell _ => {}
  | .pcbaseWrite _ => {}
  | .pcsizeWrite _ => {}
  | .bar0Write _ _ => {}
  | .hostBar2Access _ _ _ => {}
  | .outboundReadTimeout _ => {}
  | .setWindow => {}
  | .setRoute => {}
  | .setPart => {}
  | .setPwrcap => {}
  | .firmwareUpdate _ => {}
  | .portEnable _ => {}
  | .portDisable _ => {}
  | .lanesLocked _ _ => {}
  | .trainingTimeout _ _ => {}
  | .linkRetrain _ => {}
  | .request _ => {}
  | .response _ => {}
  | .probe _ => {}
  | .probeAnswer _ => {}
  | .close _ => {}
  | .closeAnswer _ => {}
  | .acknowledgement _ => {}
  | .retransmitTimer _ _ _ _ => {}
  | .ackIdleTimer _ _ => {}
  | .powerGood _ _ => {}
  | .nodeIdAssign _ => {}
  | .nodeIdTimeout => {}
  | .suspectDecay => {}
  | .scrub _ _ => {}
  | .calibration _ _ => {}
  | .channelCopyComplete _ _ => {}
  | .telemetrySample => {}
  | .cdcEviction _ _ => {}
  | .spdmRequest _ => {}
  | .pldmTelemetryRead => {}
  | .firmwareRecovery => {}
  | .outboundReadCompletion _ _ => {}

/-- The trap R83 gives an instruction, if any of its own conditions holds. -/
def Instr.refuse (v : LegalEnv) (i : Instr) : Option Refuse := (i.viol v).first

end Sys2Proof
end

