-- ==== Sys2Proof/WellFormed.lean ====
section
/-!
DEFINITION. Well-formed instructions: those that no condition on their own fields refuses (R72 to R81), whatever the
hart's mode, privilege and accepted features are, at grouping factor 1. The checks themselves stand in
Machine/Legal.lean.
-/

namespace Sys2Proof

/-- The surroundings in which the fields alone are judged. -/
def LegalEnv.plain : LegalEnv := { feat := 127, priv := true, mxm := false, g := 1, frame := false }

/-- No field of the instruction is illegal. -/
def Instr.wellFormed (i : Instr) : Bool :=
  let v := i.viol LegalEnv.plain
  !(v.code || v.pairing || v.unused || v.register)

end Sys2Proof
end

