-- ==== Sys2Proof/Decode.lean ====
section
/-!
DEFINITION. Decoding parcels into instructions and encoding them back (R66, R67, R71 to R78). Decoding is total: what is
no instruction is rejected by name. Values of fields are judged by Machine/Legal.lean, not here.
-/

namespace Sys2Proof

/-- A parcel (R66). -/
abbrev Parcel := BitVec 32

/-- Why parcels are no instruction. -/
inductive DecodeError
  | unassigned                          -- R83 order 1
  | prefixMisuse                        -- R83 order 4
  | badCode                             -- R83 order 7: a coded field that selects the instruction
  | convoyHeader (p : Parcel)           -- a convoy header (R68), which is no instruction of its own
  | short                               -- fewer parcels than the instruction has
  deriving DecidableEq, Repr

/-! ### Fields of a scalar parcel (R72) -/

/-- Every field of a scalar parcel that some format has; a format reads its own (R72). -/
structure ScalarFields where
  op : BitVec 7          -- 31:25
  d : BitVec 6           -- 24:19
  a : BitVec 6           -- 18:13
  b : BitVec 6           -- 12:7
  fn : BitVec 7          -- 6:0
  i13 : BitVec 13        -- 12:0
  i19 : BitVec 19        -- 18:0
  c : BitVec 3           -- 24:22
  cond : BitVec 3        -- 21:19
  neg : BitVec 1         -- 21
  disp : BitVec 21       -- 20:0
  low : BitVec 25        -- 24:0
  kind : BitVec 2        -- 12:11
  mid : BitVec 5         -- 10:6
  count : BitVec 6       -- 5:0
  rm : BitVec 3          -- 6:4
  fn4 : BitVec 4         -- 3:0
  succ : BitVec 2        -- 6:5
  fail : BitVec 2        -- 4:3
  order : BitVec 2       -- 3:2
  scope : BitVec 2       -- 1:0
  reach : BitVec 3       -- 4:2
  pair : BitVec 2        -- 2:1
  last : BitVec 1        -- 0
  deriving DecidableEq, Repr

def scalarFields (w : Parcel) : ScalarFields :=
  { op := w.extractLsb' 25 7, d := w.extractLsb' 19 6, a := w.extractLsb' 13 6, b := w.extractLsb' 7 6,
    fn := w.extractLsb' 0 7, i13 := w.extractLsb' 0 13, i19 := w.extractLsb' 0 19, c := w.extractLsb' 22 3,
    cond := w.extractLsb' 19 3, neg := w.extractLsb' 21 1, disp := w.extractLsb' 0 21, low := w.extractLsb' 0 25,
    kind := w.extractLsb' 11 2, mid := w.extractLsb' 6 5, count := w.extractLsb' 0 6, rm := w.extractLsb' 4 3,
    fn4 := w.extractLsb' 0 4, succ := w.extractLsb' 5 2, fail := w.extractLsb' 3 2, order := w.extractLsb' 2 2,
    scope := w.extractLsb' 0 2, reach := w.extractLsb' 2 3, pair := w.extractLsb' 1 2, last := w.extractLsb' 0 1 }

/-- The instruction of a scalar parcel's fields (R73, R74); `p` is the high immediate of a prefix before it. -/
def scalarOf (p : Option (BitVec 28)) (w : ScalarFields) : Except DecodeError Instr :=
  let d := w.d
  let a := w.a
  let b := w.b
  let c := w.c
  let z7 := w.fn
  let i : Imm13 := ⟨p, w.i13⟩
  let j : Imm19 := ⟨p, w.i19⟩
  match w.op.toNat with
  | 0x00 =>
    match w.fn.toNat with
    | 0 => .ok (.add d a b)
    | 1 => .ok (.sub d a b)
    | 2 => .ok (.and d a b)
    | 3 => .ok (.or d a b)
    | 4 => .ok (.xor d a b)
    | 5 => .ok (.sll d a b)
    | 6 => .ok (.srl d a b)
    | 7 => .ok (.sra d a b)
    | 8 => .ok (.min d a b)
    | 9 => .ok (.max d a b)
    | 10 => .ok (.minn d a b)
    | 11 => .ok (.maxn d a b)
    | 12 => .ok (.mul d a b)
    | 13 => .ok (.mulh d a b)
    | 14 => .ok (.mulhn d a b)
    | 15 => .ok (.div d a b)
    | 16 => .ok (.divn d a b)
    | 17 => .ok (.rem d a b)
    | 18 => .ok (.remn d a b)
    | 19 => .ok (.clz d a b)
    | 20 => .ok (.ctz d a b)
    | 21 => .ok (.popc d a b)
    | 22 => .ok (.sel d a b)
    | _ => .error .unassigned
  | 0x01 => .ok (.addi d a i)
  | 0x02 => .ok (.andi d a i)
  | 0x03 => .ok (.ori d a i)
  | 0x04 => .ok (.xori d a i)
  | 0x05 =>
    match w.kind.toNat with
    | 0 => .ok (.slli d a w.mid w.count)
    | 1 => .ok (.srli d a w.mid w.count)
    | 2 => .ok (.srai d a w.mid w.count)
    | _ => .error .badCode
  | 0x06 => .ok (.lih d a i)
  | 0x07 => .ok (.pcadd d j)
  | 0x08 => .ok (.ldb d a i)
  | 0x09 => .ok (.ldbn d a i)
  | 0x0a => .ok (.ldh d a i)
  | 0x0b => .ok (.ldhn d a i)
  | 0x0c => .ok (.ldw d a i)
  | 0x0d => .ok (.ldwn d a i)
  | 0x0e => .ok (.ldd d a i)
  | 0x0f => .ok (.stb d a i)
  | 0x10 => .ok (.sth d a i)
  | 0x11 => .ok (.stw d a i)
  | 0x12 => .ok (.std d a i)
  | 0x13 =>
    match w.cond.toNat with
    | 0 => .ok (.cmpeq c a b z7)
    | 1 => .ok (.cmpne c a b z7)
    | 2 => .ok (.cmplt c a b z7)
    | 3 => .ok (.cmpge c a b z7)
    | 4 => .ok (.cmpltn c a b z7)
    | 5 => .ok (.cmpgen c a b z7)
    | 6 => .ok (.cmpand c a b z7)
    | _ => .error .badCode
  | 0x14 =>
    match w.cond.toNat with
    | 0 => .ok (.cmpieq c a i)
    | 1 => .ok (.cmpine c a i)
    | 2 => .ok (.cmpilt c a i)
    | 3 => .ok (.cmpige c a i)
    | 4 => .ok (.cmpiltn c a i)
    | 5 => .ok (.cmpigen c a i)
    | 6 => .ok (.cmpiand c a i)
    | _ => .error .badCode
  | 0x15 =>
    match w.fn.toNat with
    | 0 => .ok (.cand d a b)
    | 1 => .ok (.cor d a b)
    | 2 => .ok (.cxor d a b)
    | 3 => .ok (.cnot d a b)
    | 4 => .ok (.cget d a b)
    | 5 => .ok (.cfrom d a b)
    | _ => .error .unassigned
  | 0x16 =>
    match w.fn4.toNat with
    | 0 => .ok (.fadd d a b w.rm)
    | 1 => .ok (.fsub d a b w.rm)
    | 2 => .ok (.fmul d a b w.rm)
    | 3 => .ok (.fdiv d a b w.rm)
    | 4 => .ok (.fsqrt d a b w.rm)
    | 5 => .ok (.fmin d a b w.rm)
    | 6 => .ok (.fmax d a b w.rm)
    | 7 => .ok (.fcvt d a b w.rm)
    | 8 => .ok (.fclass d a b w.rm)
    | _ => .error .unassigned
  | 0x17 =>
    match w.fn4.toNat with
    | 0 => .ok (.fma d a b w.rm)
    | 1 => .ok (.fms d a b w.rm)
    | 2 => .ok (.fnma d a b w.rm)
    | _ => .error .unassigned
  | 0x18 =>
    match w.cond.toNat with
    | 0 => .ok (.fcmpeq c a b z7)
    | 1 => .ok (.fcmpne c a b z7)
    | 2 => .ok (.fcmplt c a b z7)
    | 3 => .ok (.fcmpge c a b z7)
    | _ => .error .badCode
  | 0x19 => .ok (if w.neg = 1 then .bcn c w.disp else .bc c w.disp)
  | 0x1a => .ok (.j d j)
  | 0x1b => .ok (.jr d a w.i13)
  | 0x1c =>
    match w.rm.toNat with
    | 0 => .ok (.amoadd d a b w.order w.scope)
    | 1 => .ok (.amofadd d a b w.order w.scope)
    | 2 => .ok (.amomin d a b w.order w.scope)
    | 3 => .ok (.amomax d a b w.order w.scope)
    | 4 => .ok (.amoand d a b w.order w.scope)
    | 5 => .ok (.amoor d a b w.order w.scope)
    | 6 => .ok (.amoxor d a b w.order w.scope)
    | 7 => .ok (.amoswap d a b w.order w.scope)
    | _ => .error .unassigned
  | 0x1d => .ok (.cas d a b w.succ w.fail w.pair w.last)
  | 0x1e =>
    match w.succ.toNat with
    | 0 => .ok (.fenceacq d a b w.reach w.scope)
    | 1 => .ok (.fencerel d a b w.reach w.scope)
    | 2 => .ok (.fencear d a b w.reach w.scope)
    | 3 => .ok (.fencesc d a b w.reach w.scope)
    | _ => .error .unassigned
  | 0x1f => .ok (.rdctl d a w.i13)
  | 0x20 => .ok (.wrctl d a w.i13)
  | 0x21 => .ok (.trap d a w.i13)
  | 0x22 => .ok (.eret w.low)
  | 0x23 => .ok (.yield w.low)
  | 0x24 => .ok (.halt w.low)
  | 0x25 => .ok (.qput d a b z7)
  | 0x26 => .ok (.ipost d a w.i13)
  | 0x27 => .ok (.iwait d a w.i13)
  | 0x28 => .ok (.pref d a i)
  | _ => .error .unassigned

/-- A scalar parcel (R73, R74). -/
def decodeScalar (p : Option (BitVec 28)) (w : Parcel) : Except DecodeError Instr := scalarOf p (scalarFields w)

/-- The opcodes that accept a long-immediate prefix (R73). -/
def prefixable (op : Nat) : Bool :=
  (1 ≤ op && op ≤ 4) || (6 ≤ op && op ≤ 0x12) || op == 0x14 || op == 0x1A || op == 0x28

/-! ### The 64-bit formats (R75, R76) -/

def gVd (w : Parcel) : BitVec 6 := w.extractLsb' 12 6
def gVa (w : Parcel) : BitVec 6 := w.extractLsb' 6 6
def gVb (w : Parcel) : BitVec 6 := w.extractLsb' 0 6
def gX (w : Parcel) : BitVec 6 := w.extractLsb' 26 6
def gM (w : Parcel) : BitVec 5 := w.extractLsb' 21 5
def gEt (w : Parcel) : BitVec 4 := w.extractLsb' 17 4

/-- The fields of class VA. -/
def decVaF (p q : Parcel) : VaF :=
  { vd := gVd p, va := gVa p, vb := gVb p, x := gX q, m := gM q, et := gEt q,
    rm := q.extractLsb' 14 3, sat := q.extractLsb' 13 1, os := q.extractLsb' 12 1, mi := q.extractLsb' 11 1, aux := q.extractLsb' 0 11 }
/-- The fields of class VM. -/
def decVmF (p q : Parcel) : VmF :=
  { vd := gVd p, va := gVa p, vb := gVb p, x := gX q, m := gM q, et := gEt q,
    fmt := q.extractLsb' 14 3, ord := q.extractLsb' 13 1, ovt := q.extractLsb' 12 1, pol := q.extractLsb' 10 2, scope := q.extractLsb' 7 3, space := q.extractLsb' 5 2, ff := q.extractLsb' 4 1, z := q.extractLsb' 0 4 }
/-- The fields of class MX. -/
def decMxF (p q : Parcel) : MxF :=
  { vd := gVd p, va := gVa p, vb := gVb p, x := gX q, m := gM q, et := gEt q,
    rows := q.extractLsb' 11 6, g := q.extractLsb' 8 3, bt := q.extractLsb' 4 4, z := q.extractLsb' 0 4 }
/-- The fields of class LA. -/
def decLaF (p q : Parcel) : LaF :=
  { vd := gVd p, va := gVa p, vb := gVb p, x := gX q, m := gM q, et := gEt q,
    rung := q.extractLsb' 13 4, op := q.extractLsb' 11 2, z := q.extractLsb' 0 11 }
/-- The fields of class HS. -/
def decHsF (p q : Parcel) : HsF :=
  { vd := gVd p, va := gVa p, vb := gVb p, x := gX q, m := gM q, et := gEt q,
    res := q.extractLsb' 13 4, z := q.extractLsb' 0 13 }
/-- The fields of class AT. -/
def decAtF (p q : Parcel) : AtF :=
  { vd := gVd p, va := gVa p, vb := gVb p, x := gX q, m := gM q, et := gEt q,
    op := q.extractLsb' 13 4, succ := q.extractLsb' 11 2, fail := q.extractLsb' 9 2, scope := q.extractLsb' 6 3, z := q.extractLsb' 0 6 }
/-- The fields of class SY. -/
def decSyF (p q : Parcel) : SyF :=
  { vd := gVd p, va := gVa p, vb := gVb p, x := gX q, m := gM q, et := gEt q,
    scope := q.extractLsb' 14 3, z := q.extractLsb' 11 3, aux := q.extractLsb' 0 11 }
/-- The fields of class EN. -/
def decEnF (p q : Parcel) : EnF :=
  { vd := gVd p, va := gVa p, vb := gVb p, x := gX q, m := gM q, et := gEt q,
    dims := q.extractLsb' 14 3, fmt := q.extractLsb' 11 3, ff := q.extractLsb' 10 1, z := q.extractLsb' 0 10 }
/-- The fields of class SV. -/
def decSvF (p q : Parcel) : SvF :=
  { vd := gVd p, va := gVa p, vb := gVb p, x := gX q, m := gM q, et := gEt q,
    g := q.extractLsb' 15 2, z := q.extractLsb' 0 15 }

/-- The instruction of a class and an opcode (R75 to R78), with the fields read as each class reads them. -/
def vectorOf (cls op : Nat) (va : VaF) (vm : VmF) (mx : MxF) (la : LaF) (hs : HsF) (am : AtF) (sy : SyF) (en : EnF) (sv : SvF) :
    Except DecodeError Instr :=
  match cls with
  | 0 =>
    match op with
    | 0x00 => .ok (.vadd va)
    | 0x01 => .ok (.vsub va)
    | 0x02 => .ok (.vmul va)
    | 0x03 => .ok (.vmulh va)
    | 0x04 => .ok (.vdiv va)
    | 0x05 => .ok (.vrem va)
    | 0x06 => .ok (.vmin va)
    | 0x07 => .ok (.vmax va)
    | 0x08 => .ok (.vabs va)
    | 0x09 => .ok (.vneg va)
    | 0x0a => .ok (.vand va)
    | 0x0b => .ok (.vor va)
    | 0x0c => .ok (.vxor va)
    | 0x0d => .ok (.vnot va)
    | 0x0e => .ok (.vsll va)
    | 0x0f => .ok (.vsrl va)
    | 0x10 => .ok (.vsra va)
    | 0x11 => .ok (.vadds va)
    | 0x12 => .ok (.vsubs va)
    | 0x13 => .ok (.vavg va)
    | 0x14 => .ok (.vfma va)
    | 0x15 => .ok (.vfms va)
    | 0x16 => .ok (.vfnma va)
    | 0x17 => .ok (.vsqrt va)
    | 0x18 => .ok (.vrsq va)
    | 0x19 => .ok (.vrcp va)
    | 0x1a => .ok (.vexp2 va)
    | 0x1b => .ok (.vlog2 va)
    | 0x1c => .ok (.vclamp va)
    | 0x1d => .ok (.vscale va)
    | 0x1e => .ok (.vcvt va)
    | 0x1f => .ok (.vdot va)
    | 0x20 => .ok (.vcmp va)
    | 0x21 => .ok (.vmerge va)
    | 0x22 => .ok (.vbcast va)
    | 0x23 => .ok (.vid va)
    | _ => .error .unassigned
  | 1 =>
    match op with
    | 0x00 => .ok (.vld vm)
    | 0x01 => .ok (.vlds vm)
    | 0x02 => .ok (.vldx vm)
    | 0x03 => .ok (.vldff vm)
    | 0x04 => .ok (.vldxff vm)
    | 0x05 => .ok (.vst vm)
    | 0x06 => .ok (.vsts vm)
    | 0x07 => .ok (.vstx vm)
    | 0x08 => .ok (.vpref vm)
    | 0x09 => .ok (.vtrans vm)
    | 0x0a => .ok (.vtransff vm)
    | 0x0b => .ok (.vsegadd vm)
    | _ => .error .unassigned
  | 2 =>
    match op with
    | 0x00 => .ok (.mand va)
    | 0x01 => .ok (.mor va)
    | 0x02 => .ok (.mxor va)
    | 0x03 => .ok (.mandn va)
    | 0x04 => .ok (.mnot va)
    | 0x05 => .ok (.mpop va)
    | 0x06 => .ok (.mfirst va)
    | 0x07 => .ok (.msetn va)
    | 0x08 => .ok (.vslideup va)
    | 0x09 => .ok (.vslidedn va)
    | 0x0a => .ok (.vperm va)
    | 0x0b => .ok (.vcompress va)
    | 0x0c => .ok (.vexpand va)
    | 0x0d => .ok (.vrank va)
    | 0x0e => .ok (.vextr va)
    | 0x0f => .ok (.vins va)
    | 0x10 => .ok (.vredsum va)
    | 0x11 => .ok (.vredsumo va)
    | 0x12 => .ok (.vredmax va)
    | 0x13 => .ok (.vredmin va)
    | 0x14 => .ok (.vconf va)
    | _ => .error .unassigned
  | 3 =>
    match op with
    | 0x00 => .ok (.mxenter mx)
    | 0x01 => .ok (.mxleave mx)
    | 0x02 => .ok (.mxsetc mx)
    | 0x03 => .ok (.mxzero mx)
    | 0x04 => .ok (.mxmac mx)
    | 0x05 => .ok (.mxld mx)
    | 0x06 => .ok (.mxst mx)
    | 0x07 => .ok (.mxstkv mx)
    | 0x08 => .ok (.mxrow mx)
    | 0x09 => .ok (.mxrowadd mx)
    | 0x0a => .ok (.mxscaler mx)
    | _ => .error .unassigned
  | 4 =>
    match op with
    | 0x00 => .ok (.linit la)
    | 0x01 => .ok (.lstep la)
    | 0x02 => .ok (.lrung la)
    | 0x03 => .ok (.lblend la)
    | 0x04 => .ok (.lcount la)
    | 0x05 => .ok (.lsync la)
    | 0x06 => .ok (.lreset la)
    | _ => .error .unassigned
  | 5 =>
    match op with
    | 0x00 => .ok (.hinit hs)
    | 0x01 => .ok (.hapnd hs)
    | 0x02 => .ok (.hld hs)
    | 0x03 => .ok (.hspan hs)
    | 0x04 => .ok (.hseal hs)
    | 0x05 => .ok (.hresume hs)
    | 0x06 => .ok (.hfree hs)
    | _ => .error .unassigned
  | 6 =>
    match op with
    | 0x00 => .ok (.vamo am)
    | 0x01 => .ok (.ramo am)
    | 0x02 => .ok (.rcas am)
    | 0x03 => .ok (.rstore am)
    | 0x04 => .ok (.rload am)
    | 0x05 => .ok (.rdrain am)
    | _ => .error .unassigned
  | 7 =>
    match op with
    | 0x00 => .ok (.vfence sy)
    | 0x01 => .ok (.barinit sy)
    | 0x02 => .ok (.bararr sy)
    | 0x03 => .ok (.barwait sy)
    | 0x04 => .ok (.barkill sy)
    | 0x05 => .ok (.gbar sy)
    | _ => .error .unassigned
  | 8 =>
    match op with
    | 0x00 => .ok (.xcopy en)
    | 0x01 => .ok (.xcopyff en)
    | 0x02 => .ok (.xinfl en)
    | 0x03 => .ok (.xwait en)
    | 0x04 => .ok (.xstat en)
    | _ => .error .unassigned
  | 9 =>
    match op with
    | 0x00 => .ok (.vsetl sv)
    | 0x01 => .ok (.vfsave sv)
    | 0x02 => .ok (.vfrest sv)
    | 0x03 => .ok (.vsave sv)
    | 0x04 => .ok (.vrest sv)
    | _ => .error .unassigned
  | _ => .error .unassigned

/-- A 64-bit instruction (R75 to R78). -/
def decodeVector (p q : Parcel) : Except DecodeError Instr :=
  vectorOf (p.extractLsb' 26 4).toNat (p.extractLsb' 18 8).toNat (decVaF p q) (decVmF p q) (decMxF p q) (decLaF p q)
    (decHsF p q) (decAtF p q) (decSyF p q) (decEnF p q) (decSvF p q)

/-- The class bits 31:30 and 29:28 of a parcel (R66). -/
def pTop (w : Parcel) : Nat := (w.extractLsb' 30 2).toNat
def pSub (w : Parcel) : Nat := (w.extractLsb' 28 2).toNat

/-- The instruction at the head of a parcel stream, with the number of its parcels (R66, R67, R71). -/
def decode (ws : List Parcel) : Except DecodeError (Instr × Nat) :=
  match ws with
  | [] => .error .short
  | w :: rest =>
    match pTop w with
    | 2 =>
      match rest with
      | [] => if (decodeVector w 0).isOk then .error .short else .error .unassigned
      | q :: _ => (decodeVector w q).map (fun i => (i, 2))
    | 3 =>
      match pSub w with
      | 0 => .error (.convoyHeader w)
      | 1 =>
        match rest with
        | [] => .error .short
        | q :: _ =>
          if pTop q < 2 && prefixable (scalarFields q).op.toNat then
            match decodeScalar (some (w.extractLsb' 0 28)) q with
            | .ok i => .ok (i, 2)
            | .error .badCode => .error .badCode
            | .error _ => .error .prefixMisuse
          else .error .prefixMisuse
      | _ => .error .unassigned
    | _ => (decodeScalar none w).map (fun i => (i, 1))

/-! ### Encoding -/

def encS3 (op : BitVec 7) (d a b : BitVec 6) (fn : BitVec 7) : List Parcel := [op ++ d ++ a ++ b ++ fn]
def encImm (p : Option (BitVec 28)) : List Parcel :=
  match p with
  | none => []
  | some h => [0xD#4 ++ h]
def encSI (op : BitVec 7) (d a : BitVec 6) (i : BitVec 13) : List Parcel := [op ++ d ++ a ++ i]
def encSIP (op : BitVec 7) (d a : BitVec 6) (i : Imm13) : List Parcel := encImm i.hi ++ encSI op d a i.f
def encSJ (op : BitVec 7) (d : BitVec 6) (i : Imm19) : List Parcel := encImm i.hi ++ [op ++ d ++ i.f]
def encSC (op : BitVec 7) (c cond : BitVec 3) (a b : BitVec 6) (z : BitVec 7) : List Parcel :=
  [op ++ c ++ cond ++ a ++ b ++ z]
def encSCI (c cond : BitVec 3) (a : BitVec 6) (i : Imm13) : List Parcel :=
  encImm i.hi ++ [0x14#7 ++ c ++ cond ++ a ++ i.f]
def encSB (neg : BitVec 1) (c : BitVec 3) (disp : BitVec 21) : List Parcel := [0x19#7 ++ c ++ neg ++ disp]
def encP0 (cls : BitVec 4) (op : BitVec 8) (vd va vb : BitVec 6) : Parcel := 2#2 ++ cls ++ op ++ vd ++ va ++ vb

def encVaF (cls : BitVec 4) (op : BitVec 8) (f : VaF) : List Parcel :=
  [encP0 cls op f.vd f.va f.vb, f.x ++ f.m ++ f.et ++ f.rm ++ f.sat ++ f.os ++ f.mi ++ f.aux]
def encVmF (cls : BitVec 4) (op : BitVec 8) (f : VmF) : List Parcel :=
  [encP0 cls op f.vd f.va f.vb, f.x ++ f.m ++ f.et ++ f.fmt ++ f.ord ++ f.ovt ++ f.pol ++ f.scope ++ f.space ++ f.ff ++ f.z]
def encMxF (cls : BitVec 4) (op : BitVec 8) (f : MxF) : List Parcel :=
  [encP0 cls op f.vd f.va f.vb, f.x ++ f.m ++ f.et ++ f.rows ++ f.g ++ f.bt ++ f.z]
def encLaF (cls : BitVec 4) (op : BitVec 8) (f : LaF) : List Parcel :=
  [encP0 cls op f.vd f.va f.vb, f.x ++ f.m ++ f.et ++ f.rung ++ f.op ++ f.z]
def encHsF (cls : BitVec 4) (op : BitVec 8) (f : HsF) : List Parcel :=
  [encP0 cls op f.vd f.va f.vb, f.x ++ f.m ++ f.et ++ f.res ++ f.z]
def encAtF (cls : BitVec 4) (op : BitVec 8) (f : AtF) : List Parcel :=
  [encP0 cls op f.vd f.va f.vb, f.x ++ f.m ++ f.et ++ f.op ++ f.succ ++ f.fail ++ f.scope ++ f.z]
def encSyF (cls : BitVec 4) (op : BitVec 8) (f : SyF) : List Parcel :=
  [encP0 cls op f.vd f.va f.vb, f.x ++ f.m ++ f.et ++ f.scope ++ f.z ++ f.aux]
def encEnF (cls : BitVec 4) (op : BitVec 8) (f : EnF) : List Parcel :=
  [encP0 cls op f.vd f.va f.vb, f.x ++ f.m ++ f.et ++ f.dims ++ f.fmt ++ f.ff ++ f.z]
def encSvF (cls : BitVec 4) (op : BitVec 8) (f : SvF) : List Parcel :=
  [encP0 cls op f.vd f.va f.vb, f.x ++ f.m ++ f.et ++ f.g ++ f.z]

/-- The parcels of an instruction (R72 to R78); an event has none. -/
def encode (i : Instr) : List Parcel :=
  match i with
  | .add d a b => encS3 0x0#7 d a b 0#7
  | .sub d a b => encS3 0x0#7 d a b 1#7
  | .and d a b => encS3 0x0#7 d a b 2#7
  | .or d a b => encS3 0x0#7 d a b 3#7
  | .xor d a b => encS3 0x0#7 d a b 4#7
  | .sll d a b => encS3 0x0#7 d a b 5#7
  | .srl d a b => encS3 0x0#7 d a b 6#7
  | .sra d a b => encS3 0x0#7 d a b 7#7
  | .min d a b => encS3 0x0#7 d a b 8#7
  | .max d a b => encS3 0x0#7 d a b 9#7
  | .minn d a b => encS3 0x0#7 d a b 10#7
  | .maxn d a b => encS3 0x0#7 d a b 11#7
  | .mul d a b => encS3 0x0#7 d a b 12#7
  | .mulh d a b => encS3 0x0#7 d a b 13#7
  | .mulhn d a b => encS3 0x0#7 d a b 14#7
  | .div d a b => encS3 0x0#7 d a b 15#7
  | .divn d a b => encS3 0x0#7 d a b 16#7
  | .rem d a b => encS3 0x0#7 d a b 17#7
  | .remn d a b => encS3 0x0#7 d a b 18#7
  | .clz d a b => encS3 0x0#7 d a b 19#7
  | .ctz d a b => encS3 0x0#7 d a b 20#7
  | .popc d a b => encS3 0x0#7 d a b 21#7
  | .sel d a b => encS3 0x0#7 d a b 22#7
  | .addi d a i => encSIP 0x1#7 d a i
  | .andi d a i => encSIP 0x2#7 d a i
  | .ori d a i => encSIP 0x3#7 d a i
  | .xori d a i => encSIP 0x4#7 d a i
  | .slli d a z n => encSI 0x5#7 d a (0#2 ++ z ++ n)
  | .srli d a z n => encSI 0x5#7 d a (1#2 ++ z ++ n)
  | .srai d a z n => encSI 0x5#7 d a (2#2 ++ z ++ n)
  | .lih d a i => encSIP 0x6#7 d a i
  | .pcadd d i => encSJ 0x7#7 d i
  | .ldb d a i => encSIP 0x8#7 d a i
  | .ldbn d a i => encSIP 0x9#7 d a i
  | .ldh d a i => encSIP 0xa#7 d a i
  | .ldhn d a i => encSIP 0xb#7 d a i
  | .ldw d a i => encSIP 0xc#7 d a i
  | .ldwn d a i => encSIP 0xd#7 d a i
  | .ldd d a i => encSIP 0xe#7 d a i
  | .stb d a i => encSIP 0xf#7 d a i
  | .sth d a i => encSIP 0x10#7 d a i
  | .stw d a i => encSIP 0x11#7 d a i
  | .std d a i => encSIP 0x12#7 d a i
  | .cmpeq c a b z => encSC 0x13#7 c 0#3 a b z
  | .cmpne c a b z => encSC 0x13#7 c 1#3 a b z
  | .cmplt c a b z => encSC 0x13#7 c 2#3 a b z
  | .cmpge c a b z => encSC 0x13#7 c 3#3 a b z
  | .cmpltn c a b z => encSC 0x13#7 c 4#3 a b z
  | .cmpgen c a b z => encSC 0x13#7 c 5#3 a b z
  | .cmpand c a b z => encSC 0x13#7 c 6#3 a b z
  | .cmpieq c a i => encSCI c 0#3 a i
  | .cmpine c a i => encSCI c 1#3 a i
  | .cmpilt c a i => encSCI c 2#3 a i
  | .cmpige c a i => encSCI c 3#3 a i
  | .cmpiltn c a i => encSCI c 4#3 a i
  | .cmpigen c a i => encSCI c 5#3 a i
  | .cmpiand c a i => encSCI c 6#3 a i
  | .cand d a b => encS3 0x15#7 d a b 0#7
  | .cor d a b => encS3 0x15#7 d a b 1#7
  | .cxor d a b => encS3 0x15#7 d a b 2#7
  | .cnot d a b => encS3 0x15#7 d a b 3#7
  | .cget d a b => encS3 0x15#7 d a b 4#7
  | .cfrom d a b => encS3 0x15#7 d a b 5#7
  | .fadd d a b rm => encS3 0x16#7 d a b (rm ++ 0#4)
  | .fsub d a b rm => encS3 0x16#7 d a b (rm ++ 1#4)
  | .fmul d a b rm => encS3 0x16#7 d a b (rm ++ 2#4)
  | .fdiv d a b rm => encS3 0x16#7 d a b (rm ++ 3#4)
  | .fsqrt d a b rm => encS3 0x16#7 d a b (rm ++ 4#4)
  | .fmin d a b rm => encS3 0x16#7 d a b (rm ++ 5#4)
  | .fmax d a b rm => encS3 0x16#7 d a b (rm ++ 6#4)
  | .fcvt d a b rm => encS3 0x16#7 d a b (rm ++ 7#4)
  | .fclass d a b rm => encS3 0x16#7 d a b (rm ++ 8#4)
  | .fma d a b rm => encS3 0x17#7 d a b (rm ++ 0#4)
  | .fms d a b rm => encS3 0x17#7 d a b (rm ++ 1#4)
  | .fnma d a b rm => encS3 0x17#7 d a b (rm ++ 2#4)
  | .fcmpeq c a b z => encSC 0x18#7 c 0#3 a b z
  | .fcmpne c a b z => encSC 0x18#7 c 1#3 a b z
  | .fcmplt c a b z => encSC 0x18#7 c 2#3 a b z
  | .fcmpge c a b z => encSC 0x18#7 c 3#3 a b z
  | .bc c disp => encSB 0#1 c disp
  | .bcn c disp => encSB 1#1 c disp
  | .j d i => encSJ 0x1a#7 d i
  | .jr d a i => encSI 0x1b#7 d a i
  | .amoadd d a b order scope => encS3 0x1C#7 d a b (0#3 ++ order ++ scope)
  | .amofadd d a b order scope => encS3 0x1C#7 d a b (1#3 ++ order ++ scope)
  | .amomin d a b order scope => encS3 0x1C#7 d a b (2#3 ++ order ++ scope)
  | .amomax d a b order scope => encS3 0x1C#7 d a b (3#3 ++ order ++ scope)
  | .amoand d a b order scope => encS3 0x1C#7 d a b (4#3 ++ order ++ scope)
  | .amoor d a b order scope => encS3 0x1C#7 d a b (5#3 ++ order ++ scope)
  | .amoxor d a b order scope => encS3 0x1C#7 d a b (6#3 ++ order ++ scope)
  | .amoswap d a b order scope => encS3 0x1C#7 d a b (7#3 ++ order ++ scope)
  | .cas d a b succ fail scope z => encS3 0x1D#7 d a b (succ ++ fail ++ scope ++ z)
  | .fenceacq d a b scope z => encS3 0x1E#7 d a b (0#2 ++ scope ++ z)
  | .fencerel d a b scope z => encS3 0x1E#7 d a b (1#2 ++ scope ++ z)
  | .fencear d a b scope z => encS3 0x1E#7 d a b (2#2 ++ scope ++ z)
  | .fencesc d a b scope z => encS3 0x1E#7 d a b (3#2 ++ scope ++ z)
  | .rdctl d a i => encSI 0x1f#7 d a i
  | .wrctl d a i => encSI 0x20#7 d a i
  | .trap d a i => encSI 0x21#7 d a i
  | .eret z => [0x22#7 ++ z]
  | .yield z => [0x23#7 ++ z]
  | .halt z => [0x24#7 ++ z]
  | .qput d a b z => encS3 0x25#7 d a b z
  | .ipost d a i => encSI 0x26#7 d a i
  | .iwait d a i => encSI 0x27#7 d a i
  | .pref d a i => encSIP 0x28#7 d a i
  | .vsetl f => encSvF 9#4 0x0#8 f
  | .vadd f => encVaF 0#4 0x0#8 f
  | .vsub f => encVaF 0#4 0x1#8 f
  | .vmul f => encVaF 0#4 0x2#8 f
  | .vmulh f => encVaF 0#4 0x3#8 f
  | .vdiv f => encVaF 0#4 0x4#8 f
  | .vrem f => encVaF 0#4 0x5#8 f
  | .vmin f => encVaF 0#4 0x6#8 f
  | .vmax f => encVaF 0#4 0x7#8 f
  | .vabs f => encVaF 0#4 0x8#8 f
  | .vneg f => encVaF 0#4 0x9#8 f
  | .vand f => encVaF 0#4 0xa#8 f
  | .vor f => encVaF 0#4 0xb#8 f
  | .vxor f => encVaF 0#4 0xc#8 f
  | .vnot f => encVaF 0#4 0xd#8 f
  | .vsll f => encVaF 0#4 0xe#8 f
  | .vsrl f => encVaF 0#4 0xf#8 f
  | .vsra f => encVaF 0#4 0x10#8 f
  | .vadds f => encVaF 0#4 0x11#8 f
  | .vsubs f => encVaF 0#4 0x12#8 f
  | .vavg f => encVaF 0#4 0x13#8 f
  | .vfma f => encVaF 0#4 0x14#8 f
  | .vfms f => encVaF 0#4 0x15#8 f
  | .vfnma f => encVaF 0#4 0x16#8 f
  | .vsqrt f => encVaF 0#4 0x17#8 f
  | .vrsq f => encVaF 0#4 0x18#8 f
  | .vrcp f => encVaF 0#4 0x19#8 f
  | .vexp2 f => encVaF 0#4 0x1a#8 f
  | .vlog2 f => encVaF 0#4 0x1b#8 f
  | .vclamp f => encVaF 0#4 0x1c#8 f
  | .vscale f => encVaF 0#4 0x1d#8 f
  | .vcvt f => encVaF 0#4 0x1e#8 f
  | .vdot f => encVaF 0#4 0x1f#8 f
  | .vcmp f => encVaF 0#4 0x20#8 f
  | .vmerge f => encVaF 0#4 0x21#8 f
  | .vbcast f => encVaF 0#4 0x22#8 f
  | .vid f => encVaF 0#4 0x23#8 f
  | .mand f => encVaF 2#4 0x0#8 f
  | .mor f => encVaF 2#4 0x1#8 f
  | .mxor f => encVaF 2#4 0x2#8 f
  | .mandn f => encVaF 2#4 0x3#8 f
  | .mnot f => encVaF 2#4 0x4#8 f
  | .mpop f => encVaF 2#4 0x5#8 f
  | .mfirst f => encVaF 2#4 0x6#8 f
  | .msetn f => encVaF 2#4 0x7#8 f
  | .vslideup f => encVaF 2#4 0x8#8 f
  | .vslidedn f => encVaF 2#4 0x9#8 f
  | .vperm f => encVaF 2#4 0xa#8 f
  | .vcompress f => encVaF 2#4 0xb#8 f
  | .vexpand f => encVaF 2#4 0xc#8 f
  | .vrank f => encVaF 2#4 0xd#8 f
  | .vextr f => encVaF 2#4 0xe#8 f
  | .vins f => encVaF 2#4 0xf#8 f
  | .vredsum f => encVaF 2#4 0x10#8 f
  | .vredsumo f => encVaF 2#4 0x11#8 f
  | .vredmax f => encVaF 2#4 0x12#8 f
  | .vredmin f => encVaF 2#4 0x13#8 f
  | .vconf f => encVaF 2#4 0x14#8 f
  | .vld f => encVmF 1#4 0x0#8 f
  | .vlds f => encVmF 1#4 0x1#8 f
  | .vldx f => encVmF 1#4 0x2#8 f
  | .vldff f => encVmF 1#4 0x3#8 f
  | .vldxff f => encVmF 1#4 0x4#8 f
  | .vst f => encVmF 1#4 0x5#8 f
  | .vsts f => encVmF 1#4 0x6#8 f
  | .vstx f => encVmF 1#4 0x7#8 f
  | .vpref f => encVmF 1#4 0x8#8 f
  | .vtrans f => encVmF 1#4 0x9#8 f
  | .vtransff f => encVmF 1#4 0xa#8 f
  | .vsegadd f => encVmF 1#4 0xb#8 f
  | .mxenter f => encMxF 3#4 0x0#8 f
  | .mxleave f => encMxF 3#4 0x1#8 f
  | .mxsetc f => encMxF 3#4 0x2#8 f
  | .mxzero f => encMxF 3#4 0x3#8 f
  | .mxmac f => encMxF 3#4 0x4#8 f
  | .mxld f => encMxF 3#4 0x5#8 f
  | .mxst f => encMxF 3#4 0x6#8 f
  | .mxstkv f => encMxF 3#4 0x7#8 f
  | .mxrow f => encMxF 3#4 0x8#8 f
  | .mxrowadd f => encMxF 3#4 0x9#8 f
  | .mxscaler f => encMxF 3#4 0xa#8 f
  | .linit f => encLaF 4#4 0x0#8 f
  | .lstep f => encLaF 4#4 0x1#8 f
  | .lrung f => encLaF 4#4 0x2#8 f
  | .lblend f => encLaF 4#4 0x3#8 f
  | .lcount f => encLaF 4#4 0x4#8 f
  | .lsync f => encLaF 4#4 0x5#8 f
  | .lreset f => encLaF 4#4 0x6#8 f
  | .hinit f => encHsF 5#4 0x0#8 f
  | .hapnd f => encHsF 5#4 0x1#8 f
  | .hld f => encHsF 5#4 0x2#8 f
  | .hspan f => encHsF 5#4 0x3#8 f
  | .hseal f => encHsF 5#4 0x4#8 f
  | .hresume f => encHsF 5#4 0x5#8 f
  | .hfree f => encHsF 5#4 0x6#8 f
  | .vamo f => encAtF 6#4 0x0#8 f
  | .ramo f => encAtF 6#4 0x1#8 f
  | .rcas f => encAtF 6#4 0x2#8 f
  | .rstore f => encAtF 6#4 0x3#8 f
  | .rload f => encAtF 6#4 0x4#8 f
  | .rdrain f => encAtF 6#4 0x5#8 f
  | .vfence f => encSyF 7#4 0x0#8 f
  | .barinit f => encSyF 7#4 0x1#8 f
  | .bararr f => encSyF 7#4 0x2#8 f
  | .barwait f => encSyF 7#4 0x3#8 f
  | .barkill f => encSyF 7#4 0x4#8 f
  | .gbar f => encSyF 7#4 0x5#8 f
  | .xcopy f => encEnF 8#4 0x0#8 f
  | .xcopyff f => encEnF 8#4 0x1#8 f
  | .xinfl f => encEnF 8#4 0x2#8 f
  | .xwait f => encEnF 8#4 0x3#8 f
  | .xstat f => encEnF 8#4 0x4#8 f
  | .vfsave f => encSvF 9#4 0x1#8 f
  | .vfrest f => encSvF 9#4 0x2#8 f
  | .vsave f => encSvF 9#4 0x3#8 f
  | .vrest f => encSvF 9#4 0x4#8 f
  | .vectorHandover _ => []
  | .decouplingIssue _ => []
  | .convoyIssue _ => []
  | .spotCheck _ _ => []
  | .matrixSpotCheck _ _ => []
  | .assayerArbitration _ _ _ => []
  | .instructionReplay _ _ => []
  | .poisonReissue _ => []
  | .trapEntry _ _ _ _ => []
  | .privilegeWatchdog _ => []
  | .preemptTaken _ => []
  | .hartRetirement _ => []
  | .streamFaultDelivery _ => []
  | .ctxOpen _ => []
  | .ctxSuspend _ => []
  | .ctxResume _ => []
  | .ctxKill _ => []
  | .queueOpen _ => []
  | .queueClose _ => []
  | .queueAppendDoorbell _ => []
  | .takeRecord => []
  | .wordDependencePoll => []
  | .placeGang => []
  | .timeSlice => []
  | .gangStart _ => []
  | .lanemapWithdraw _ _ => []
  | .lanemapReturn _ _ => []
  | .qminWrite _ _ => []
  | .qcapWrite _ _ => []
  | .pwrcapWrite _ _ => []
  | .feataccWrite _ => []
  | .powerWindow _ => []
  | .thermalThrottle _ _ => []
  | .thermalTrip _ => []
  | .halleyDelivery _ => []
  | .fullerMerge _ => []
  | .fullerDiscard _ => []
  | .ladderMerge _ => []
  | .transferEnd _ _ => []
  | .pageWalk _ _ _ => []
  | .inval => []
  | .invalComplete _ => []
  | .evict => []
  | .evictDrain _ => []
  | .pageCommandDoorbell _ => []
  | .pcbaseWrite _ => []
  | .pcsizeWrite _ => []
  | .bar0Write _ _ => []
  | .hostBar2Access _ _ _ => []
  | .outboundReadTimeout _ => []
  | .setWindow => []
  | .setRoute => []
  | .setPart => []
  | .setPwrcap => []
  | .firmwareUpdate _ => []
  | .portEnable _ => []
  | .portDisable _ => []
  | .lanesLocked _ _ => []
  | .trainingTimeout _ _ => []
  | .linkRetrain _ => []
  | .request _ => []
  | .response _ => []
  | .probe _ => []
  | .probeAnswer _ => []
  | .close _ => []
  | .closeAnswer _ => []
  | .acknowledgement _ => []
  | .retransmitTimer _ _ _ _ => []
  | .ackIdleTimer _ _ => []
  | .powerGood _ _ => []
  | .nodeIdAssign _ => []
  | .nodeIdTimeout => []
  | .suspectDecay => []
  | .scrub _ _ => []
  | .calibration _ _ => []
  | .channelCopyComplete _ _ => []
  | .telemetrySample => []
  | .cdcEviction _ _ => []
  | .spdmRequest _ => []
  | .pldmTelemetryRead => []
  | .firmwareRecovery => []
  | .outboundReadCompletion _ _ => []

/-! ### Bytes -/

/-- The parcel of four bytes, the first at the lowest address (R66). -/
def parcelOf (b0 b1 b2 b3 : Byte) : Parcel := b3 ++ b2 ++ b1 ++ b0

/-- The parcels of a byte stream; bytes short of a parcel are dropped. -/
def parcels : List Byte → List Parcel
  | b0 :: b1 :: b2 :: b3 :: t => parcelOf b0 b1 b2 b3 :: parcels t
  | _ => []

/-- The bytes of a parcel, lowest address first. -/
def parcelBytes (w : Parcel) : List Byte :=
  [w.extractLsb' 0 8, w.extractLsb' 8 8, w.extractLsb' 16 8, w.extractLsb' 24 8]

/-- The instruction at the head of a byte stream, with the bytes after it. -/
def decodeBytes (bs : List Byte) : Except DecodeError (Instr × List Byte) :=
  (decode (parcels bs)).map (fun r => (r.1, bs.drop (4 * r.2)))

/-- The bytes of an instruction whose bits are `w`, bit 0 the least significant bit of the first parcel: two parcels,
the longest instruction. -/
def tableBytes (w : Nat) : List Byte :=
  parcelBytes (BitVec.ofNat 32 w) ++ parcelBytes (BitVec.ofNat 32 (w / 2 ^ 32))

/-- The instruction the decoder reads from an instruction whose low `nbits` bits are `w`, every other bit 0. -/
def decodeTableWord (nbits w : Nat) : Option Instr :=
  match decodeBytes (tableBytes (w % 2 ^ nbits)) with
  | .ok (i, _) => some i
  | .error _ => none

end Sys2Proof
end

