-- ==== Sys2Proof/Machine/Blocks.lean ====
section
/-!
DEFINITION. The coders of the home memory controllers (R380): what a block of 512 bytes is stored as, and the metadata byte
that says so.
-/

namespace Sys2Proof

/-- The width of the signed difference that fits every word, for base-delta. -/
def deltaBytes (ws : List Nat) : Option Nat :=
  [1, 2, 4].find? (fun d => ws.all (fun w =>
    let x := (BitVec.ofNat 64 w - BitVec.ofNat 64 (ws.headD 0)).toInt
    decide (-(2 ^ (8 * d - 1)) ≤ x) && decide (x < 2 ^ (8 * d - 1))))

/-- The period of the pattern the block repeats, in words. -/
def patternWords (ws : List Nat) : Option Nat :=
  [1, 2, 4, 8].find? (fun p => (List.range 64).all (fun i => ws.getD i 0 == ws.getD (i % p) 0))

/-- The smaller of two codings, the first on a tie. -/
def smaller (a b : Nat × Nat) : Nat × Nat := if b.2 < a.2 then b else a

/-- The selector and the stored bytes of a block of 64 words: the smallest of the coders, the lower selector on a tie. What
the local LZ coder makes of it is Luanar's own (log 10). -/
def compressBlock (ws : List Nat) : Nat × Nat :=
  let zero := if ws.all (· == 0) then (1, 0) else (0, 512)
  let delta := match deltaBytes ws with
    | some d => (2, (8 + 64 * d + 31) / 32 * 32)
    | none => (0, 512)
  let pat := match patternWords ws with
    | some p => (3, if p ≤ 4 then 32 else 64)
    | none => (0, 512)
  let lz := Config.lzBytes ws
  smaller (smaller (smaller (smaller (0, 512) zero) delta) pat) (if 0 < lz && lz < 480 then (4, lz) else (0, 512))

/-- The metadata byte of a coding: the selector, and the stored size in units of 32 bytes, less 1. -/
def metaByte (x : Nat × Nat) : Byte := BitVec.ofNat 8 (x.1 + ((x.2 + 31) / 32 - 1) % 16 * 8)

/-- Where the metadata byte of an address's block stands (R380, R388). -/
def metaAt (pa : Nat) : Nat :=
  pa / Config.channelBytes * Config.channelBytes + Config.metaOffset + pa % Config.channelBytes / 512

/-- Whether an address lies in the compression metadata of its channel. -/
def isMeta (pa : Nat) : Bool :=
  Config.metaOffset ≤ pa % Config.channelBytes && pa % Config.channelBytes < Config.metaOffset + 0x400000

end Sys2Proof
end

