-- ==== Sys2Proof/Machine/Numbers.lean ====
section
/-!
DEFINITION. Number formats and arithmetic: exact values, decoding, rounding, encoding and the flags (R26 to R46).
-/

namespace Sys2Proof

/-- The flags of R64 as a set: bit 4 NV, 3 DZ, 2 OF, 1 UF, 0 NX. -/
abbrev Flags := BitVec 5

namespace Flags
/-- Invalid. -/
abbrev nv : Flags := 16#5
/-- Division by zero. -/
abbrev dz : Flags := 8#5
/-- Overflow. -/
abbrev ov : Flags := 4#5
/-- Underflow. -/
abbrev uf : Flags := 2#5
/-- Inexact. -/
abbrev nx : Flags := 1#5
end Flags

/-- The rounding modes of R39. -/
inductive Rm
  | rne | rtz | rdn | rup | rna
  deriving DecidableEq, Repr

/-- The mode a code names; `dyn` is FCTL.RM (R39, R63). Codes 110 and 111 never reach it. -/
def Rm.ofCode (dyn : Rm) (c : BitVec 3) : Rm :=
  match c.toNat with
  | 0 => .rne | 1 => .rtz | 2 => .rdn | 3 => .rup | 4 => .rna | _ => dyn

/-- The mode FCTL.RM holds: a write of 101 or above stored 000 (R63). -/
def Rm.ofFctl (c : BitVec 3) : Rm := Rm.ofCode .rne c

/-- An exact value (R24, Decode): a NaN, an infinity, or (−1)^neg · m · 2^e. A tapered NaR is a quiet NaN. -/
inductive Num
  | nan (signalling : Bool)
  | inf (neg : Bool)
  | fin (neg : Bool) (m : Nat) (e : Int)
  deriving DecidableEq, Repr

/-- The IEEE-style formats of R27 and R33. -/
inductive Flt
  | fp32 | fp16 | bf16 | e4m3 | e5m2 | e2m1
  deriving DecidableEq, Repr

/-- Fraction bits. -/
def Flt.frac : Flt → Nat
  | .fp32 => 23 | .fp16 => 10 | .bf16 => 7 | .e4m3 => 3 | .e5m2 => 2 | .e2m1 => 1

/-- Exponent bits. -/
def Flt.exps : Flt → Nat
  | .fp32 => 8 | .fp16 => 5 | .bf16 => 8 | .e4m3 => 4 | .e5m2 => 5 | .e2m1 => 2

/-- Exponent bias. -/
def Flt.bias : Flt → Nat
  | .fp32 => 127 | .fp16 => 15 | .bf16 => 127 | .e4m3 => 7 | .e5m2 => 15 | .e2m1 => 1

/-- Whether all-ones exponents are the infinities and NaNs of IEEE 754. -/
def Flt.ieee : Flt → Bool
  | .e4m3 | .e2m1 => false
  | _ => true

/-- Whether FCTL.FZ acts on the format (R41). -/
def Flt.flushes : Flt → Bool
  | .fp32 | .fp16 | .bf16 => true
  | _ => false

/-- All bits. -/
def Flt.width (f : Flt) : Nat := 1 + f.exps + f.frac

/-- The pattern of the largest finite magnitude (R27, R33). -/
def Flt.maxBits (f : Flt) : Nat :=
  match f with
  | .e4m3 => 0x7E
  | .e2m1 => 7
  | f => (2 ^ f.exps - 1) * 2 ^ f.frac - 1

/-- The pattern every NaN result takes (R27, R42). E2M1 has none and takes +0. -/
def Flt.defaultNaN : Flt → Nat
  | .fp32 => 0x7FC00000 | .fp16 => 0x7E00 | .bf16 => 0x7FC0 | .e5m2 => 0x7F | .e4m3 => 0x7F | .e2m1 => 0

/-- The register element types of R26 and the stored types of R33, R34 and R60. -/
inductive Fmt
  | i (w : Nat)          -- two's complement of w bits
  | n (w : Nat)          -- unsigned of w bits
  | flt (f : Flt)
  | tap (w : Nat)        -- tapered, t8 or t6
  deriving DecidableEq, Repr

/-- The type an et code names (R26); 1011 names none. -/
def Fmt.ofCode (c : BitVec 4) : Option Fmt :=
  match c.toNat with
  | 0 => some (.i 8) | 1 => some (.i 16) | 2 => some (.i 32) | 3 => some (.i 64)
  | 4 => some (.n 8) | 5 => some (.n 16) | 6 => some (.n 32) | 7 => some (.n 64)
  | 8 => some (.flt .fp16) | 9 => some (.flt .bf16) | 10 => some (.flt .fp32)
  | 12 => some (.flt .e4m3) | 13 => some (.flt .e5m2) | 14 => some (.tap 8) | 15 => some (.tap 6)
  | _ => none

/-- Bytes of a register element (R26, R49): t6 is held in an 8-bit container. -/
def Fmt.bytes : Fmt → Nat
  | .i w => w / 8
  | .n w => w / 8
  | .flt f => (f.width + 7) / 8
  | .tap _ => 1

/-- The bits of an element's container that count: bits 7:6 of a t6 element are ignored on reading and zero when written
(R26). -/
def Fmt.trim (fmt : Fmt) (x : Nat) : Nat :=
  match fmt with
  | .tap w => x % 2 ^ w
  | _ => x

/-- Whether the type is an integer. -/
def Fmt.isInt : Fmt → Bool
  | .i _ | .n _ => true
  | _ => false

/-- Whether the type is signed where that matters: an i type. -/
def Fmt.isSigned : Fmt → Bool
  | .i _ => true
  | _ => false

/-- Bits of the value: t6 has six. -/
def Fmt.bits : Fmt → Nat
  | .i w => w
  | .n w => w
  | .flt f => f.width
  | .tap w => w

namespace Num

/-- An integer as an exact value. -/
def ofInt (x : Int) : Num := .fin (x < 0) x.natAbs 0

/-- Whether the value is a NaN. -/
def isNan : Num → Bool
  | .nan _ => true
  | _ => false

/-- Whether the value is a signalling NaN. -/
def isSNan : Num → Bool
  | .nan s => s
  | _ => false

/-- Whether the value is a zero. -/
def isZero : Num → Bool
  | .fin _ m _ => m == 0
  | _ => false

/-- The sign. -/
def sign : Num → Bool
  | .nan _ => false
  | .inf s => s
  | .fin s _ _ => s

/-- The negation. -/
def neg : Num → Num
  | .nan s => .nan s
  | .inf s => .inf !s
  | .fin s m e => .fin (!s) m e

/-- The magnitude. -/
def abs : Num → Num
  | .nan s => .nan s
  | .inf _ => .inf false
  | .fin _ m e => .fin false m e

/-- Bits of a magnitude. -/
def bitLen (m : Nat) : Nat := if m = 0 then 0 else m.log2 + 1

/-- `m · 2^e` brought to exponent `q ≤ e`. -/
def scaledTo (m : Nat) (e q : Int) : Nat := m * 2 ^ (e - q).toNat

/-- The exact signed value of a finite number, over 2^q with q at most its exponent. -/
def toIntAt (q : Int) : Num → Int
  | .fin s m e => if s then -((scaledTo m e q : Nat) : Int) else ((scaledTo m e q : Nat) : Int)
  | _ => 0

/-- Order of two values that are not NaNs; both zeros are equal (R99). -/
def cmp (a b : Num) : Ordering :=
  match a, b with
  | .inf s, .inf t => compare (!s).toNat (!t).toNat
  | .inf s, _ => if s then .lt else .gt
  | _, .inf t => if t then .gt else .lt
  | .fin _ _ e, .fin _ _ f => compare (toIntAt (min e f) a) (toIntAt (min e f) b)
  | _, _ => .eq

/-- `−0` orders below `+0` (R98). -/
def cmpZ (a b : Num) : Ordering :=
  match cmp a b with
  | .eq => if a.isZero && b.isZero then compare (!a.sign).toNat (!b.sign).toNat else .eq
  | o => o

end Num

/-- The value of a positive tapered pattern of `n` bits (R29), as a significand and an exponent. -/
def tapPositive (n p : Nat) : Nat × Int :=
  let body := n - 1
  let first := p.testBit (body - 1)
  -- the run of bits equal to the first one, read from the top
  let k := ((List.range body).takeWhile (fun i => p.testBit (body - 1 - i) == first)).length
  let r : Int := if first then (k : Int) - 1 else -(k : Int)
  let rest := body - (k + 1)                       -- bits left below the run's end, 0 where none are
  let e := if rest = 0 then 0 else (p.testBit (rest - 1)).toNat
  let fb := rest - 1
  let f := p % 2 ^ fb
  (2 ^ fb + f, 2 * r + e - fb)

/-- Decoding a tapered pattern (R29). -/
def tapDecode (n p : Nat) : Num :=
  if p = 0 then .fin false 0 0
  else if p = 2 ^ (n - 1) then .nan false
  else if p.testBit (n - 1) then
    let (m, e) := tapPositive n (2 ^ n - p)
    .fin true m e
  else
    let (m, e) := tapPositive n p
    .fin false m e

/-- Decoding an IEEE-style pattern (R27, R33). -/
def fltDecode (f : Flt) (b : Nat) : Num :=
  let s := b.testBit (f.width - 1)
  let ef := b / 2 ^ f.frac % 2 ^ f.exps
  let fr := b % 2 ^ f.frac
  if f.ieee && ef == 2 ^ f.exps - 1 then
    if fr = 0 then .inf s
    else .nan (f.flushes && !fr.testBit (f.frac - 1))     -- every e5m2 NaN is quiet
  else if f == .e4m3 && ef == 15 && fr == 7 then .nan false
  else if ef = 0 then .fin s fr (1 - (f.bias : Int) - f.frac)
  else .fin s (2 ^ f.frac + fr) ((ef : Int) - f.bias - f.frac)

/-- The integer value of `w` bits, in two's complement where signed. -/
def intOfBits (signed : Bool) (w b : Nat) : Int :=
  let x := b % 2 ^ w
  if signed && x.testBit (w - 1) then (x : Int) - 2 ^ w else x

/-- Decode of R24: the exact value of a pattern. -/
def Fmt.decode : Fmt → Nat → Num
  | .i w, b => Num.ofInt (intOfBits true w b)
  | .n w, b => Num.ofInt (intOfBits false w b)
  | .flt f, b => fltDecode f b
  | .tap w, b => tapDecode w (b % 2 ^ w)

/-- A subnormal operand read under FZ = 1 (R41). -/
def Num.flushIn (fz : Bool) (fmt : Fmt) (x : Num) : Num :=
  match fmt, x with
  | .flt f, .fin s m e =>
    if fz && f.flushes && m != 0 && (e + Num.bitLen m - 1 < 1 - (f.bias : Int)) then .fin s 0 0 else x
  | _, _ => x

/-- Rounding of the magnitude `m · 2^e` to a multiple of `2^q` (R39): the multiple, and whether it is inexact. -/
def roundMag (rm : Rm) (neg : Bool) (m : Nat) (e q : Int) : Nat × Bool :=
  if q ≤ e then (m * 2 ^ (e - q).toNat, false)
  else
    -- past the magnitude's own bits every shift gives the same comparison with half a quantum
    let sh := min (q - e).toNat (Num.bitLen m + 2)
    let t := m / 2 ^ sh
    let rem := m % 2 ^ sh
    let half := 2 ^ (sh - 1)
    if rem = 0 then (t, false)
    else
      let up := match rm with
        | .rne => half < rem || (rem == half && t % 2 == 1)
        | .rna => half ≤ rem
        | .rtz => false
        | .rdn => neg
        | .rup => !neg
      (t + up.toNat, true)

/-- The result of a finite overflow (R40). -/
def fltOverflow (f : Flt) (rm : Rm) (sat neg : Bool) : Nat × Flags :=
  let sb := if neg then 2 ^ (f.width - 1) else 0
  let big := f.maxBits
  let toInf := match rm with
    | .rne | .rna => true
    | .rtz => false
    | .rdn => neg
    | .rup => !neg
  let b :=
    if sat || f == .e2m1 then big
    else if f == .e4m3 then 0x7F
    else if toInf then (2 ^ f.exps - 1) * 2 ^ f.frac
    else big
  (sb + b, Flags.ov ||| Flags.nx)

/-- Encoding into an IEEE-style format (R24, R39 to R43). -/
def fltEncode (f : Flt) (rm : Rm) (sat fz : Bool) (x : Num) : Nat × Flags :=
  match x with
  | .nan s =>
    if f == .e2m1 then (0, Flags.nv) else (f.defaultNaN, if s then Flags.nv else 0)
  | .inf s =>
    let sb := if s then 2 ^ (f.width - 1) else 0
    if f == .e2m1 then (sb + 7, Flags.ov)
    else if f == .e4m3 then (sb + (if sat then 0x7E else 0x7F), Flags.ov)
    else if sat then (sb + f.maxBits, Flags.ov)
    else (sb + (2 ^ f.exps - 1) * 2 ^ f.frac, 0)
  | .fin s m e =>
    let sb := if s then 2 ^ (f.width - 1) else 0
    if m = 0 then (sb, 0)
    else
      let emin : Int := 1 - f.bias
      let msb := e + Num.bitLen m - 1
      let qmin := emin - f.frac
      let q := max (msb - f.frac) qmin
      if msb > f.bias + 1 + f.frac then fltOverflow f rm sat s
      else
        let (t, inexact) := roundMag rm s m e q
        -- consecutive patterns hold consecutive magnitudes
        let b := t + (q - qmin).toNat * 2 ^ f.frac
        if b > f.maxBits then fltOverflow f rm sat s
        else
          -- tininess after rounding, as though the exponent were unbounded (R43)
          let (t', _) := roundMag rm s m e (msb - f.frac)
          let tiny : Bool := decide (msb - f.frac + Num.bitLen t' - 1 < emin)
          if fz && f.flushes && b < 2 ^ f.frac && b != 0 then (sb, Flags.uf ||| Flags.nx)
          else
            (sb + b, (if inexact then Flags.nx else 0) ||| (if tiny && inexact then Flags.uf else 0))

/-- The largest positive tapered pattern at or below a magnitude that is at least minpos and at most maxpos. -/
def tapFloor (n : Nat) (x : Num) : Nat :=
  (List.range (2 ^ (n - 1))).foldl
    (fun best p =>
      if p = 0 then best
      else
        let (m, e) := tapPositive n p
        if Num.cmp (.fin false m e) x = .gt then best else max best p) 0

/-- Encoding into a tapered format (R32). -/
def tapEncode (n : Nat) (x : Num) : Nat × Flags :=
  match x with
  | .nan s => (2 ^ (n - 1), if s then Flags.nv else 0)
  | .inf _ => (2 ^ (n - 1), Flags.nv)
  | .fin s m e =>
    if m = 0 then (0, 0)
    else
      let top := 2 ^ (n - 1) - 1
      let sgn (p : Nat) : Nat := if s then 2 ^ n - p else p
      let a : Num := .fin false m e
      let lo := tapFloor n a
      if lo = 0 then (sgn 1, Flags.uf ||| Flags.nx)
      else
        let (ml, el) := tapPositive n lo
        if Num.cmp (.fin false ml el) a = .eq then (sgn lo, 0)
        else if lo = top then (sgn top, Flags.ov ||| Flags.nx)
        else
          let (mh, eh) := tapPositive n (lo + 1)
          let q := min (min e el) eh
          let twice := 2 * Num.scaledTo m e q
          let mid := Num.scaledTo ml el q + Num.scaledTo mh eh q
          let p :=
            if twice < mid then lo
            else if mid < twice then lo + 1
            else if lo % 2 = 0 then lo else lo + 1
          (sgn p, Flags.nx)

/-- The bounds of an integer type. -/
def intBounds (signed : Bool) (w : Nat) : Int × Int :=
  if signed then (-(2 ^ (w - 1)), 2 ^ (w - 1) - 1) else (0, 2 ^ w - 1)

/-- The low `w` bits of an integer. -/
def intBits (w : Nat) (x : Int) : Nat := (x % 2 ^ w).toNat

/-- Clamping to a type's range. -/
def intClamp (signed : Bool) (w : Nat) (x : Int) : Int :=
  let (lo, hi) := intBounds signed w
  max lo (min hi x)

/-- A floating or tapered value converted to an integer (R45): rounded, clamped, a NaN gives 0. A clamped value raises
invalid, and one that is no integer raises inexact too. -/
def intEncode (signed : Bool) (w : Nat) (rm : Rm) (x : Num) : Nat × Flags :=
  let (lo, hi) := intBounds signed w
  match x with
  | .nan _ => (0, Flags.nv)
  | .inf s => (intBits w (if s then lo else hi), Flags.nv)
  | .fin s m e =>
    let (t, inexact) := roundMag rm s m e 0
    let v : Int := if s then -(t : Int) else t
    let nx : Flags := if inexact then Flags.nx else 0
    if v < lo ∨ hi < v then (intBits w (intClamp signed w v), Flags.nv ||| nx) else (intBits w v, nx)

/-- Encode of R24. -/
def Fmt.encode (fmt : Fmt) (rm : Rm) (sat fz : Bool) (x : Num) : Nat × Flags :=
  match fmt with
  | .i w => intEncode true w rm x
  | .n w => intEncode false w rm x
  | .flt f => fltEncode f rm sat fz x
  | .tap w => tapEncode w x

/-- The pattern a NaN result takes in a format; an integer type has none and takes 0 (R42, R45). -/
def Fmt.defaultNaN : Fmt → Nat
  | .flt f => f.defaultNaN
  | .tap w => 2 ^ (w - 1)
  | _ => 0

/-- Conversion of one element between two types (R45, R127). An infinity converted to its own type saturates as any other
does (R40, R45; log 83). -/
def convert (src dst : Fmt) (rm : Rm) (sat fz : Bool) (b : Nat) : Nat × Flags :=
  match dst with
  | .i w | .n w =>
    if src.isInt then
      let x := intOfBits src.isSigned src.bits b
      if w > src.bits then (intBits w x, 0)                 -- wider: extended whatever sat says
      else if w = src.bits && src.isSigned == dst.isSigned then (intBits w x, 0)
      else if sat then (intBits w (intClamp dst.isSigned w x), 0)
      else (intBits w x, 0)
    else dst.encode rm sat fz ((src.decode b).flushIn fz src)
  | _ => dst.encode rm sat fz ((src.decode b).flushIn fz src)

/-- The integer square root, one bit of the root a step from the top. -/
def isqrt (x : Nat) : Nat :=
  (List.range (x.log2 / 2 + 1)).foldr
    (fun i r => let t := r + 2 ^ i; if t * t ≤ x then t else r) 0

/-- Bits of every quotient and root: more than any target's precision needs. -/
def extraBits : Nat := 80

namespace Num

/-- Exact sum of values that are not NaNs. An exact zero of opposite signs is +0, or −0 toward −∞ (IEEE 754-2019). -/
def addX (rm : Rm) (a b : Num) : Num × Flags :=
  match a, b with
  | .inf s, .inf t => if s = t then (.inf s, 0) else (.nan false, Flags.nv)
  | .inf s, _ => (.inf s, 0)
  | _, .inf t => (.inf t, 0)
  | .fin s m e, .fin t n f =>
    if m = 0 ∧ n = 0 then (.fin (if s = t then s else decide (rm = .rdn)) 0 0, 0)
    else
      let q := min e f
      let x := toIntAt q a + toIntAt q b
      if x = 0 then (.fin (decide (rm = .rdn)) 0 0, 0) else (.fin (decide (x < 0)) x.natAbs q, 0)
  | _, _ => (.nan false, 0)

/-- Exact product of values that are not NaNs. -/
def mulX (a b : Num) : Num × Flags :=
  let s := xor a.sign b.sign
  match a, b with
  | .inf _, _ => if b.isZero then (.nan false, Flags.nv) else (.inf s, 0)
  | _, .inf _ => if a.isZero then (.nan false, Flags.nv) else (.inf s, 0)
  | .fin _ m e, .fin _ n f => if m = 0 ∨ n = 0 then (.fin s 0 0, 0) else (.fin s (m * n) (e + f), 0)
  | _, _ => (.nan false, 0)

/-- Quotient of values that are not NaNs; a nonzero remainder sets the last bit, below every rounding position. -/
def divX (a b : Num) : Num × Flags :=
  let s := xor a.sign b.sign
  match a, b with
  | .inf _, .inf _ => (.nan false, Flags.nv)
  | .inf _, _ => (.inf s, 0)
  | _, .inf _ => (.fin s 0 0, 0)
  | .fin _ m e, .fin _ n f =>
    if n = 0 then (if m = 0 then (.nan false, Flags.nv) else (.inf s, Flags.dz))
    else if m = 0 then (.fin s 0 0, 0)
    else
      let k := extraBits + bitLen n + (e - f).toNat          -- the last bit lies below the binary point
      let q := m * 2 ^ k / n
      let r := m * 2 ^ k % n
      (.fin s (2 * q + (if r = 0 then 0 else 1)) (e - f - k - 1), 0)
  | _, _ => (.nan false, 0)

/-- One NaN operand makes the result a NaN; a signalling one raises invalid (R42). -/
def nanOr (a b : Num) (k : Num × Flags) : Num × Flags :=
  if a.isNan || b.isNan then (.nan false, if a.isSNan || b.isSNan then Flags.nv else 0) else k

/-- Sum. -/
def add (rm : Rm) (a b : Num) : Num × Flags := nanOr a b (addX rm a b)
/-- Difference. -/
def sub (rm : Rm) (a b : Num) : Num × Flags := nanOr a b (addX rm a b.neg)
/-- Product. -/
def mul (a b : Num) : Num × Flags := nanOr a b (mulX a b)
/-- Quotient. -/
def div (a b : Num) : Num × Flags := nanOr a b (divX a b)

/-- `±(a·b) ± c`, 0·∞ raising invalid even beside a NaN addend (R98, R124). -/
def fma (rm : Rm) (negProd negAdd : Bool) (a b c : Num) : Num × Flags :=
  let zeroInf := match a, b with
    | .inf _, y => y.isZero
    | x, .inf _ => x.isZero
    | _, _ => false
  if zeroInf then (.nan false, Flags.nv)
  else if a.isNan || b.isNan || c.isNan then
    (.nan false, if a.isSNan || b.isSNan || c.isSNan then Flags.nv else 0)
  else
    let p := (mulX a b).1
    addX rm (if negProd then p.neg else p) (if negAdd then c.neg else c)

/-- Square root; −0 gives −0 (R98). -/
def sqrt (a : Num) : Num × Flags :=
  match a with
  | .nan s => (.nan false, if s then Flags.nv else 0)
  | .inf s => if s then (.nan false, Flags.nv) else (.inf false, 0)
  | .fin s m e =>
    if m = 0 then (.fin s 0 0, 0)
    else if s then (.nan false, Flags.nv)
    else
      let m' := if e % 2 = 0 then m else 2 * m
      let e' := if e % 2 = 0 then e else e - 1
      let x := m' * 2 ^ (2 * extraBits)
      let r := isqrt x
      (.fin false (2 * r + (if r * r = x then 0 else 1)) (e' / 2 - extraBits - 1), 0)

/-- The lesser (or greater) operand: one NaN gives the other operand, two give the default NaN (R98). -/
def minMax (wantMax : Bool) (a b : Num) : Num × Flags :=
  let fl : Flags := if a.isSNan || b.isSNan then Flags.nv else 0
  if a.isNan then (if b.isNan then .nan false else b, fl)
  else if b.isNan then (a, fl)
  else
    match cmpZ a b with
    | .lt => (if wantMax then b else a, fl)
    | _ => (if wantMax then a else b, fl)

end Num

/-- The environment of a floating-point computation: the resolved rounding mode, saturation and FZ. -/
structure FpEnv where
  rm : Rm
  sat : Bool
  fz : Bool
  deriving DecidableEq, Repr

/-- One rounded operation on decoded operands: the result's bits and every flag raised (R97, R123). -/
def FpEnv.finish (v : FpEnv) (dst : Fmt) (r : Num × Flags) : Nat × Flags :=
  let (b, fl) := dst.encode v.rm v.sat v.fz r.1
  (b, fl ||| r.2)

/-- The environment of an operation that writes a value exactly: it saturates nothing (R98, R123, R126). -/
def FpEnv.exact (v : FpEnv) : FpEnv := { v with sat := false }

/-- An operand read under FZ. -/
def FpEnv.arg (v : FpEnv) (src : Fmt) (b : Nat) : Num := (src.decode b).flushIn v.fz src

end Sys2Proof
end

