-- ==== Sys2Proof/Machine/State.lean ====
section
/-!
DEFINITION. The state of the device as plain data, and the state after reset. Sparse stores (Tab) list only what differs
from what an unlisted key reads as; those defaults are the `reset` values below.
-/

namespace Sys2Proof.Machine

/-! ### Harts -/

/-- The control registers that take effect in program order for vector-side work (R55). -/
structure VCtl where
  vstart : BitVec 18                 -- R59
  vbyp : BitVec 32                   -- R56
  mfc : Vector (BitVec 64) 4         -- R60
  mfcsb : Vector (BitVec 64) 4       -- R62
  fctl : BitVec 10                   -- R63
  deriving DecidableEq, Repr

/-- A vector-side instruction, or a covered convoy, past hand-over (R85): its members, its address (that of its header
for a convoy), and the operands and control registers it captured. -/
structure VEntry where
  instrs : List Instr
  covered : Bool
  pc : BitVec 55
  s : Vector Word 64
  vc : VCtl
  passed : Bool                      -- a later scalar instruction has retired (R406)
  again : Bool                       -- reissued after a squash: poison consumed now raises DATA_POISON (R377)
  seq : Nat                          -- its place among what its core has issued (R177)
  given : Option (BitVec 18)         -- of a VSETL whose grant stands, or an MXSETC: the VL it has answered (R114, R164)
  share : List Nat                   -- the lane groups that NEXT named when a VSETL reached the sequencer (R65)
  issued : Bool                      -- past the sequencer; an entry reissued from a frame waits for room (R85, R267)
  held : Nat                         -- scope code of the release fence that has passed it, 0 none: later writes wait (R103)
  deriving DecidableEq, Repr

/-- A transfer of the copy engine in flight (R216 to R220): what was checked, captured and pinned at its issue. -/
structure Transfer where
  tag : Nat
  inflate : Bool
  trimmed : Bool
  fmt : BitVec 3                     -- the slot that converts, 0 for a raw copy
  et : BitVec 4
  vc : VCtl                          -- the control registers in force (R217)
  count : Nat                        -- positions to move; output bytes granted, for XINFL
  input : Nat                        -- input bytes granted, for XINFL
  desc : List Nat                    -- the descriptor's sixteen words
  dims : Nat
  space : Nat                        -- the base of the gang's allocation
  pages : List (Nat × Nat × Bool)    -- pinned: virtual page, frame, and whether its page bypasses the CDC
  window : List (Nat × Nat)          -- bytes read from the PCIe window before the first byte moves (R347, log 23)
  ranges : List (Bool × Nat × Nat)   -- the interlock table's entries: scratchpad, first byte, length (R158)
  deriving DecidableEq, Repr

/-- A step counted by LSTEP whose merges have not run (R184, R366). -/
structure LadJob where
  lad : Nat
  n : Nat                            -- the counter before the step
  carry : List (BitVec 32)
  seq : Nat                          -- its place among the LSTEPs of its core, in retirement order (R367)
  deriving DecidableEq, Repr

/-- How a hart stands towards pre-emption (R261 to R266). -/
inductive Pre
  | none
  | pending (block : BitVec 64)      -- a pre-emption is to be taken; its save block
  | saving (block : BitVec 64)       -- in a PREEMPT entry for saving
  | parked (block : BitVec 64)
  deriving DecidableEq, Repr

/-- The state of one hart (R48). -/
structure Hart where
  ctx : Nat                          -- CTXID
  gang : Nat                         -- the device's own number of its gang
  gangId : BitVec 20                 -- GANGID
  launch : BitVec 32                 -- launch number within the context (R283)
  index : Nat                        -- index within the gang (R294)
  priv : Bool                        -- privileged mode (R261)
  recPriv : List Bool                -- the modes recorded at the entries not returned from, the latest first (R261, R266)
  privSince : Nat                    -- clock of the last ERET, YIELD or entry (R260)
  pc : BitVec 55
  s : Vector Word 64
  cb : BitVec 8
  v : Tab (BitVec 3072)              -- v0 to v63: lane · 65536 + register, 384 bytes each (R48, R50)
  m : Tab (BitVec 196608)            -- m0 to m23 (R52)
  acc : Tab (BitVec 2048)            -- acc0 to acc7: tile · 64 + row, 64 words each (R48)
  vl : BitVec 18
  vlUnset : Bool                     -- VL unset in matrix mode (R162)
  mxm : Bool                         -- VGRP.MXM
  et : BitVec 4                      -- VGRP.ET
  g : BitVec 2                       -- VGRP.G
  vc : VCtl
  vdirty : BitVec 64
  laneCur : Nat                      -- LANES.CUR, 8 bits
  laneNext : Nat                     -- LANES.NEXT, 8 bits
  gmap : BitVec 16                   -- LANES.GMAP
  fflags : BitVec 5
  tcause : BitVec 8
  tinfo : BitVec 64
  epc : BitVec 55
  taddr : BitVec 64
  pend : List LadJob                 -- pending ladder merges, oldest first
  tags : Vector (BitVec 64) 8        -- status words of the transfer tags (R220)
  tagDst : Vector (BitVec 64) 8      -- DST of each tag's last transfer (R220)
  xfers : List Transfer              -- transfers in flight, oldest first
  vq : List VEntry                   -- the decoupling queue (R85)
  win : List VEntry                  -- issued and not retired, oldest first (R85)
  frame : Option (List VEntry)       -- the opaque frame held (R267)
  pre : Pre
  owed : List (BitVec 64)            -- save blocks that ERETs free, the next one first (R266)
  gbar : Option (BitVec 32)          -- the generation at which a waiting GBAR arrived (R214)
  barWait : Option Nat               -- the object a BARWAIT waits on
  barEnd : Option Bool               -- how that wait ended: released, or aborted (R307)
  rloadTag : Option (Nat × BitVec 32)     -- channel and tag of the RLOAD execution the hart waits in (R203)
  rload : Option (BitVec 8 × BitVec 64)   -- its response: code and result
  remote : Option (Nat × BitVec 32)  -- the channel and serial a blocking RAMO or RCAS waits on
  resend : Bool                      -- that instruction is reissued after a pre-emption (R208, R271)
  away : List (Option (Nat × BitVec 32))  -- the waits of the instructions that those entries interrupted (R208, R271)
  spanEnd : Option Nat               -- where a stopped convoy ends its element groups (R70); the model's own
  devReads : List (BitVec 64)        -- outbound reads completed for the instruction in progress (R347)
  devUsed : Nat                      -- how many of them it has taken
  devWait : Option (Nat × Nat)       -- the outbound read awaited: address and bytes
  devError : Bool                    -- it ended in error
  ecc : List (Nat × Nat)             -- registers with an uncorrectable error: kind and number (R379)
  waitCount : Nat                    -- R293
  readySince : Nat                   -- R293
  deriving DecidableEq, Repr

/-- The control registers at reset (R56, R60 to R63). -/
def VCtl.reset : VCtl :=
  { vstart := 0, vbyp := 0x00040000#32, mfc := Vector.replicate 4 0, mfcsb := Vector.replicate 4 0, fctl := 0 }

/-- A hart at creation (R48, R56). Vector registers and accumulators, which the manual leaves undefined there, are 0
(log 5). -/
def Hart.reset : Hart :=
  { ctx := 0, gang := 0, gangId := 0, launch := 0, index := 0, priv := false, recPriv := [], privSince := 0
    pc := 0, s := Vector.replicate 64 0, cb := 1, v := [], m := [], acc := []
    vl := 0, vlUnset := false, mxm := false, et := 0, g := 0, vc := VCtl.reset, vdirty := 0
    laneCur := 0, laneNext := 0, gmap := 0, fflags := 0, tcause := 0, tinfo := 0, epc := 0, taddr := 0
    pend := [], tags := Vector.replicate 8 0x0000010000000000#64, tagDst := Vector.replicate 8 0, xfers := []
    vq := [], win := [], frame := none, pre := .none, owed := []
    gbar := none, barWait := none, barEnd := none, rloadTag := none, rload := none, remote := none, resend := false, away := []
    spanEnd := none, devReads := [], devUsed := 0, devWait := none, devError := false, ecc := [], waitCount := 0, readySince := 0 }

/-! ### Cores -/

/-- A cached translation (R320): the context, the page's base and size, and its entry. -/
structure TlbE where
  ctx : Nat
  base : Nat
  size : Nat
  entry : BitVec 64
  deriving DecidableEq, Repr

/-- The state of one core that outlives its harts. -/
structure Core where
  laneMap : BitVec 64                -- R288
  laneHold : BitVec 64
  laneDest : BitVec 64
  qmin : BitVec 64                   -- R281
  qcap : BitVec 64
  lfsr : BitVec 32                   -- R139
  mxCount : Nat                      -- R178
  steps : Nat                        -- LSTEPs retired on it (R367)
  issues : Nat                       -- entries its harts have issued (R177)
  scores : Tab Nat                   -- R373: 0–15 lane group, 16 scalar core, 17 matrix engine
  mism : BitVec 16                   -- R374
  withdrawn : Bool                   -- R373, R292
  dirty : Tab Byte                   -- the CDC's dirty bytes by physical address (R239)
  clean : Tab Byte                   -- the bytes of clean global lines in its CDC and scalar data cache (R238)
  tainted : List Nat                 -- words, address div 8, whose dirty bytes carry the mark of poison (R376)
  marked : List Nat                  -- words whose clean copies carry it
  icache : List Nat                  -- lines, address div 128, that its scalar instruction cache holds (R5, log 41)
  dcache : List Nat                  -- lines that its scalar data cache holds (R5, R235)
  ibad : List Nat                    -- words whose copy in the scalar instruction cache is marked as poisoned (R376)
  dbad : List Nat                    -- words whose copy in the scalar data cache is
  tlb : List TlbE                    -- R320
  spad : Tab Byte                    -- the scratchpad (R5)
  spadPoison : List Nat              -- its poisoned words (R376)
  armed : List Nat                   -- armed scratchpad barrier objects by offset (R304)
  users : Tab Nat                    -- the context that last held each lane group, plus 1 (R298)
  halley : Tab (BitVec 32)           -- its copies of the channel values: context · 16 + channel (R311)
  deriving DecidableEq, Repr

/-- A core at start (R56, R281, R139): its LFSR is seeded with COREID + 1. -/
def Core.reset (c : Nat) : Core :=
  { laneMap := 0, laneHold := 0, laneDest := 0, qmin := 0x01000100#64, qcap := 0x04000400#64
    lfsr := BitVec.ofNat 32 (c + 1), mxCount := 0, steps := 0, issues := 0, scores := [], mism := 0, withdrawn := false
    dirty := [], clean := [], tainted := [], marked := [], icache := [], dcache := [], ibad := [], dbad := []
    tlb := [], spad := [], spadPoison := [], armed := [], users := [], halley := [] }

/-! ### Dies -/

/-- A history stream registered with a Fuller (R192, R351 to R355). -/
structure Stream where
  ctx : Nat
  hart : Nat × Nat                   -- gang and index of the hart that executed HINIT (R269)
  owner : BitVec 20 × Nat            -- its GANGID and hart number, for records (R268)
  va : BitVec 64                     -- the header's address as HINIT named it
  spadCore : Option Nat              -- the core whose scratchpad holds it
  key : Nat                          -- physical address of the header, or its offset in that scratchpad
  space : Nat                        -- gang allocation base, for a stream in scratchpad
  pages : List (Nat × Nat)           -- pages pinned since HINIT: virtual page and frame (R353)
  seq : Nat                          -- order of registration (R355)
  isize : Nat
  levels : Nat
  cet : BitVec 4
  fmt : BitVec 11
  tscale : BitVec 32
  rings : BitVec 64
  consts : List (BitVec 64)          -- K1 to K7
  caps : List Nat                    -- W_0 … W_L−1
  code : List Instr                  -- the combiner, in the Fuller's code store
  state : Nat                        -- 1 ACTIVE, 2 SEALED, 3 FAULTED
  flt : BitVec 8
  time : Nat
  heads : List Nat                   -- HEAD_l; HEAD_0 is TIME
  tails : List Nat
  half : Option Nat                  -- level whose pair is merged and published, and not yet retired (R254)
  fault : List (BitVec 64)           -- asynchronous faults not yet given to a hart, oldest first: their TINFO (R269)
  deriving DecidableEq, Repr

/-- A receipt of the exactly-once protocol (R340). -/
structure Receipt where
  node : Nat
  ctx : Nat
  serial : BitVec 32
  code : BitVec 8
  result : BitVec 64
  bad : Bool                         -- its words are marked as poisoned (R376)
  deriving DecidableEq, Repr

/-- A failed check waiting for the Assayer (R371). -/
structure Failed where
  core : Nat
  unit : Nat                         -- 0–15 lane group, 17 matrix engine
  hart : Nat                         -- the hart whose instruction it is
  again : Bool                       -- the engine was judged wrong for the same instruction before (R372)
  deriving DecidableEq, Repr

/-- Who is wrong in a failed check (R371): the lane group or matrix engine, the scalar core, or both. -/
inductive Verdict
  | unit | scalar | both
  deriving DecidableEq, Repr

/-- An instruction whose failed check has been arbitrated and which has not retired (R140): its hart, and the lane groups
judged wrong for it (R372). -/
structure Replay where
  hart : Nat
  wrong : List Nat
  deriving DecidableEq, Repr

/-- The state of one die. -/
structure Die where
  fullerShare : BitVec 4             -- R56, R359
  streams : List Stream              -- in the order of registration
  turn : Nat                         -- registration number after the stream served last (R355)
  registered : Nat                   -- streams registered so far
  armed : List Nat                   -- armed global barrier objects by physical address (R304)
  failed : List Failed               -- R371
  twice : List Nat                   -- harts whose matrix instruction is to be replayed after a judgement (R372)
  replays : List Replay              -- arbitrated instructions that have not retired (R140)
  receipts : List Receipt            -- the receipt cache on chip, latest used first (R340)
  spill : List Nat                   -- entries in use of its spill area, in the die's reserved DRAM (R340, log 74)
  bases : List (Nat × Nat × BitVec 32)   -- node, context and B (R341)
  parts : Tab (BitVec 16)            -- LLC way masks of the partitions (R318)
  celsius : Nat                      -- its junction temperature as last reported (R385)
  deriving DecidableEq, Repr

/-- A die at start. -/
def Die.reset : Die :=
  { fullerShare := 1, streams := [], turn := 0, registered := 0, armed := [], failed := [], twice := [], replays := []
    receipts := [], spill := [], bases := [], parts := [(0, 0xFFFF#16)], celsius := 0 }

/-! ### Contexts, queues, launches and gangs -/

/-- A remote request without a result, or the held fault of one (R203, R206). -/
structure Sent where
  instr : Nat                        -- 1 RAMO, 2 RCAS, 3 RSTORE, 4 RLOAD
  id : BitVec 32                     -- its serial, or the tag of an RLOAD
  addr : BitVec 64                   -- s[sa]
  who : Nat × Nat                    -- gang and index of its hart
  flit : Flit
  tries : Nat                        -- transmissions so far
  code : BitVec 8                    -- for a held fault: the response code, 0 for LINK_TIMEOUT
  deriving DecidableEq, Repr

/-- What the device keeps of one channel beside its entry in memory (R203, R336, R337). -/
structure Chan where
  node : Nat
  inc : Option (BitVec 16)           -- I, once known
  f : BitVec 32                      -- F
  oldInc : BitVec 16                 -- the value I held before the last change
  tag : BitVec 32                    -- the RLOAD tag counter
  probing : Bool                     -- a probe is unanswered
  probes : Nat                       -- its transmissions
  closing : Bool                     -- a close is unanswered (R271)
  ackDue : Bool                      -- its last awaiting result has arrived since a request or acknowledgement (R339)
  sent : List Sent                   -- oldest first
  held : List Sent
  deriving DecidableEq, Repr

/-- A channel before its first operation. -/
def Chan.reset : Chan :=
  { node := 0, inc := none, f := 0, oldInc := 0, tag := 0, probing := false, probes := 0, closing := false, ackDue := false, sent := []
    held := [] }

/-- A context (R257 to R260). The descriptor's fields are copied at OPEN; software may not change them until FREE. -/
structure Ctx where
  state : Nat                        -- 0 FREE, 1 OPEN, 2 SUSPENDING, 3 SUSPENDED, 4 DYING
  ptroot : Nat
  tvec : BitVec 55
  save : Nat
  saveCnt : Nat
  chanCnt : Nat
  chanTab : Nat
  slotBase : Nat
  fsq : Nat
  fsqSize : Nat
  used : List Nat                    -- save blocks in use or reserved, by index
  launches : BitVec 32               -- launches taken (R283)
  hintdrop : BitVec 32               -- R56
  channels : Tab (BitVec 32)         -- the Halley values (R310)
  chans : Tab Chan                   -- by channel entry
  posted : List (Nat × Nat)          -- pages posted to the fault-service queue, with the clock (R328)
  deriving DecidableEq, Repr

/-- A context that is FREE. -/
def Ctx.reset : Ctx :=
  { state := 0, ptroot := 0, tvec := 0, save := 0, saveCnt := 0, chanCnt := 0, chanTab := 0, slotBase := 0
    fsq := 0, fsqSize := 0, used := [], launches := 0, hintdrop := 0, channels := [], chans := [], posted := [] }

/-- A launch queue (R272 to R274): the fields copied at OPEN and the device's own counts. -/
structure Queue where
  state : Nat                        -- 0 FREE, 1 OPEN, 2 CLOSING, 3 ERROR
  owner : Nat
  hostFed : Bool
  ring : Nat
  size : Nat
  head : Nat
  tail : Nat
  cdone : Nat
  done : List Nat                    -- completed sequences at or past CDONE
  met : List Nat                     -- dependences of the head record already met (R279)
  checked : Bool                     -- the head record has been checked (R278)
  deriving DecidableEq, Repr

/-- A queue that is FREE. -/
def Queue.reset : Queue :=
  { state := 0, owner := 0, hostFed := false, ring := 0, size := 0, head := 0, tail := 0, cdone := 0, done := []
    met := [], checked := false }

/-- A launch (R277, R283). -/
structure Launch where
  ctx : Nat
  queue : Nat
  seq : Nat
  number : BitVec 32
  entry : BitVec 55
  args : BitVec 64
  gangs : Nat
  harts : Nat
  lgrp : Nat
  lads : Nat
  prio : Nat
  spad : Nat
  done : Nat
  doneVal : BitVec 64
  since : Nat                        -- the clock at which it was taken
  placed : Nat                       -- gangs placed for the first time so far
  retired : Nat
  deriving DecidableEq, Repr

/-- The states of a gang that the device tracks (R295). WAITING gangs are those not yet created. -/
inductive GState
  | forming | active | preempted
  deriving DecidableEq, Repr

/-- A gang that has been placed at least once (R294 to R300). -/
structure Gang where
  launch : Nat
  gangId : BitVec 20
  state : GState
  core : Nat
  slot : Nat                         -- first hart slot
  base : Nat                         -- base of the scratchpad allocation
  size : Nat                         -- bytes of it
  gen : BitVec 32                    -- the gang barrier register (R300)
  arrived : BitVec 8
  retired : BitVec 8                 -- harts retired, by index
  placedAt : Nat                     -- clock of the last placement
  since : Nat                        -- clock at which it last became unplaced
  saved : List (Nat × Nat × Nat)     -- while parked: hart index, save block address, LANES.CUR
  parkedHarts : List (Nat × Hart)    -- what the device keeps of each parked hart, by index
  objs : Nat                         -- armed objects to be restored with it while it is FORMING (R306)
  deriving DecidableEq, Repr

/-! ### Links, host port and the rest of the device -/

/-- The states of a link port (R332). -/
inductive PortState
  | down | training | up | degraded | failed
  deriving DecidableEq, Repr

/-- A page command taken and not complete (R323, R324). -/
structure PageCmd where
  seq : Nat
  recAt : Nat                        -- the physical address of its record (R346)
  op : Nat
  ctx : Nat
  count : Nat
  va : Nat
  dst : Nat
  evicting : Bool
  reads : List (BitVec 64)           -- words of a page in the PCIe window that the host has answered (R347, log 81)
  deriving DecidableEq, Repr

/-- A remote window (R342, R391). -/
structure Window where
  first : Nat
  last : Nat
  ctx : Nat
  base : Nat
  len : Nat
  rwa : BitVec 3                     -- bit 0 read, 1 write, 2 atomic
  deriving DecidableEq, Repr

/-- The counters of telemetry (R384). -/
structure Telemetry where
  corrected : Tab Nat                -- by array: 0 DRAM, 1 LLC, 2 CDC, 3 scratchpad, 4 and 5 scalar caches, 6 receipts
  uncorrectable : Tab Nat            -- likewise
  poisonUsed : Nat
  selectors : Tab Nat                -- blocks written under each selector
  stored : Nat                       -- bytes stored
  bundles : List (Nat × Nat)         -- repaired bundles: bus and bundle
  buses : List Nat                   -- retired buses
  crc : Tab Nat                      -- discards by port
  homeMiss : Nat
  dropped : Nat                      -- dropped BAR0 and PCIe writes
  firsts : Nat                       -- first transmissions served (R341)
  repeats : Nat
  replace : Bool                     -- REPLACE_REQUESTED
  tripped : Bool                     -- a thermal trip was recorded
  deriving DecidableEq, Repr

/-- Telemetry at start. -/
def Telemetry.reset : Telemetry :=
  { corrected := [], uncorrectable := [], poisonUsed := 0, selectors := [], stored := 0, bundles := [], buses := []
    crc := [], homeMiss := 0, dropped := 0, firsts := 0, repeats := 0, replace := false
    tripped := false }

/-- A sample of telemetry (R384): the counters, and each core's MISM and scores. -/
structure Sample where
  counts : Telemetry
  cores : List (Nat × BitVec 16 × Tab Nat)
  deriving DecidableEq, Repr

/-- What moves next (log 1): an event of another agent, a hart, a hart that runs ahead of its vector side, time, a
core's caches, an error in a register or an array, or the host at its port. -/
inductive Turn
  | event (i : Instr)
  | hart (h : Nat)
  | ahead (h : Nat)
  | tick (clocks : Nat)
  | fill (h : Nat) (va : BitVec 55) (into : Nat)  -- a hart's core takes a clean copy of the line of an address (log 2): in
                                     -- its CDC, and with 1 in its scalar data cache, with 2 in its instruction cache
  | upset (h kind num : Nat)         -- an uncorrectable error in a register of a hart (R379)
  | arrayError (x : Scrubbed) (uncorrectable : Bool)  -- an error met in an array outside scrubbing (R376, R384)
  | arrayFault                       -- an LLC or receipt-cache array is beyond repair (R375)
  | bar0Read (off : Nat)             -- a read of BAR0 (R345)
  | bar2Resize (log : Nat)           -- BAR2 set to 2^log bytes (R344)
  deriving DecidableEq, Repr

/-- A prefetch that has not been performed (R93, R153, R324). -/
structure Hint where
  core : Nat
  ctx : Nat
  va : Nat
  n : Nat                            -- its bytes
  level : Nat                        -- its target: 0 the scalar data cache, 1 the CDC, 2 the LLC
  deriving DecidableEq, Repr

/-- A frame that VFSAVE has written to memory (R223): its context, its words and what it stands for (log 9). -/
structure SavedFrame where
  ctx : Nat
  words : List Nat
  entries : List VEntry
  deriving DecidableEq, Repr

/-- The device. -/
structure State where
  mem : Tab Byte                     -- DRAM by physical address (R313)
  poison : List Nat                  -- its poisoned words, address div 8 (R376)
  harts : Tab Hart                   -- the harts placed: core · 8 + slot
  cur : Nat                          -- the hart that moves when the agenda is empty (log 1)
  cores : Tab Core
  dies : Tab Die
  ctxs : Tab Ctx
  queues : Tab Queue
  launches : Tab Launch
  gangs : Tab Gang
  nextLaunch : Nat                   -- the device's own numbering
  nextGang : Nat
  rr : Tab Nat                       -- by priority, the queue at which its round begins (R280)
  preempting : List Nat              -- gangs with a pre-emption by R287 in progress
  hints : List Hint                  -- prefetches in flight or held (R93, R324)
  posts : List (Nat × Nat × BitVec 32)   -- Halley posts in flight: core, context · 16 + channel, value (R311)
  featacc : BitVec 7                 -- R390
  opened : Bool                      -- a context has been opened since start (R390)
  pwrcap : BitVec 12                 -- R386
  capNow : Nat                       -- the cap of the current 1 ms window (R386)
  hot : Bool                         -- a die passed the throttle point and not every die is below 95 °C (R385)
  under : Nat                        -- consecutive windows below 95 % of the cap (R291)
  throttle : Nat                     -- issue fraction 1/2^throttle (R291)
  nodeId : BitVec 20                 -- R331
  nodeSet : Bool                     -- a node id has arrived
  incarnation : BitVec 16            -- R343
  recovery : Bool                    -- R387
  firmware : Nat                     -- the firmware image in effect, by the updates accepted before it (R392)
  staged : Nat                       -- the image that the next start takes
  nvScores : Tab (Tab Nat)           -- the non-volatile store: scores by core (R373)
  pcbase : Nat                       -- R345, R346
  pcsize : Nat
  pchead : Nat
  pctail : Nat
  pcmds : List PageCmd
  wbase : BitVec 64
  obase : BitVec 64
  bar2Size : Nat                     -- bytes of BAR2 (R344)
  mailbox : Tab (BitVec 64)          -- BAR0 0x1000 to 0x1FFF by word
  windows : Tab Window               -- R342
  ports : Tab (PortState × Nat × Nat)    -- state, lanes, neighbour (R332)
  outFlits : List Flit               -- flits sent, oldest first
  outWrites : List (Nat × BitVec 64 × Nat)   -- posted PCIe writes: PCIe address, data, bytes (R347)
  outReads : List (Nat × Nat × Nat)  -- outbound reads awaiting completion: hart, PCIe address, bytes
  busFail : List (Nat × Nat)         -- bundles that failed the last calibration: bus and bundle (R383)
  repairs : Tab (List (BitVec 6))    -- shift-repair registers: bus · 4 + spare group, its valid fields (R381)
  copying : List Nat                 -- channels held while their contents are copied (R382)
  retiredBus : List (Nat × Nat)      -- channels served by a reserve: channel and spare of its die
  lostChan : List Nat                -- channels whose range became reserved (R382)
  telemetry : Telemetry
  samples : List Sample             -- the last sample (R384)
  replies : List (Nat × List Nat)    -- answers given, oldest first: 1 SPDM, 2 PLDM, 3 host reads, 4 PLDM events (R347, R392, R393)
  agenda : List Turn                 -- log 1
  frames : List SavedFrame           -- the frames saved, latest first (log 9)
  clock : Nat                        -- clocks of R2
  fresh : Nat                        -- free values used so far
  deriving DecidableEq, Repr

/-- The device after its start sequence (R387) with no node id yet: no context, no queue, no hart, memory unlisted. -/
def State.reset : State :=
  { mem := [], poison := [], harts := [], cur := 0, cores := [], dies := [], ctxs := [], queues := [], launches := []
    gangs := [], nextLaunch := 0, nextGang := 0, rr := [], preempting := [], hints := [], posts := []
    featacc := 0, opened := false, pwrcap := 2400, capNow := 2400, hot := false, under := 0, throttle := 0
    nodeId := 0, nodeSet := false, incarnation := 1, recovery := false, firmware := 0, staged := 0, nvScores := []
    pcbase := 0, pcsize := 0, pchead := 0, pctail := 0, pcmds := [], wbase := 0, obase := 0
    bar2Size := 0x400000000, mailbox := []
    windows := [], ports := [], outFlits := [], outWrites := [], outReads := []
    busFail := [], repairs := [], copying := [], retiredBus := [], lostChan := []
    telemetry := Telemetry.reset, samples := [], replies := [], agenda := [], frames := [], clock := 0, fresh := 0 }

/-- Why the machine stops. It never does: every behaviour the manual describes is an effect, a trap or a wait. -/
inductive Fault
  deriving DecidableEq, Repr

/-- Why an instruction has no meaning here. -/
inductive Refusal
  /-- Raised by Machine/Dispatch.lean for an instruction without a meaning. Safe. -/
  | notModelled (mnemonic : String)
  deriving DecidableEq, Repr

end Sys2Proof.Machine
end

