-- ==== Sys2Proof/Machine/Access.lean ====
section
/-!
DEFINITION. The machine monad, the accessors of the state, address translation (R313 to R320) and the access to memory
and scratchpad with its faults (R89 to R91, R143, R238 to R242, R305 to R308, R376).
-/

namespace Sys2Proof.Machine

/-! ### Sparse parts of the state -/

def State.core (s : State) (c : Nat) : Core := Tab.get (Core.reset c) s.cores c
def State.setCore (s : State) (c : Nat) (x : Core) : State := { s with cores := Tab.put s.cores c x }
def State.die (s : State) (d : Nat) : Die := Tab.get Die.reset s.dies d
def State.setDie (s : State) (d : Nat) (x : Die) : State := { s with dies := Tab.put s.dies d x }
def State.ctx (s : State) (k : Nat) : Ctx := Tab.get Ctx.reset s.ctxs k
def State.setCtx (s : State) (k : Nat) (x : Ctx) : State := { s with ctxs := Tab.put s.ctxs k x }
def State.queue (s : State) (q : Nat) : Queue := Tab.get Queue.reset s.queues q
def State.setQueue (s : State) (q : Nat) (x : Queue) : State := { s with queues := Tab.put s.queues q x }
def State.hartAt (s : State) (h : Nat) : Hart := Tab.get Hart.reset s.harts h
def State.setHart (s : State) (h : Nat) (x : Hart) : State := { s with harts := Tab.put s.harts h x }
def State.live (s : State) (h : Nat) : Bool := (Tab.find s.harts h).isSome
def State.gang (s : State) (g : Nat) : Option Gang := Tab.find s.gangs g
def State.setGang (s : State) (g : Nat) (x : Gang) : State := { s with gangs := Tab.put s.gangs g x }
def State.launch (s : State) (l : Nat) : Option Launch := Tab.find s.launches l
def State.setLaunch (s : State) (l : Nat) (x : Launch) : State := { s with launches := Tab.put s.launches l x }

/-- The hart that moves. -/
def State.me (s : State) : Hart := s.hartAt s.cur
/-- The state with that hart's state replaced. -/
def State.setMe (s : State) (x : Hart) : State := s.setHart s.cur x
/-- Its core (R3). -/
def State.coreNo (s : State) : Nat := s.cur / 8
/-- The die of a core (R3). -/
def dieOf (c : Nat) : Nat := c / 48
/-- The die that homes a DRAM address (R314). -/
def homeDie (pa : Nat) : Nat := pa / Config.channelBytes / 48

/-! ### The monad -/

/-- Why an instruction's effect ends early. -/
inductive Stop
  | trap (cause : BitVec 8) (info addr : BitVec 64)
  | hold                             -- not now: the instruction has not begun and is tried again
  | wait                             -- not yet: what it has written stays, and it is tried again
  | post (pa bytes : Nat)            -- an outbound read must complete first (R347)
  | busy (key tag : Nat)             -- a transfer stands in the way and ends first (R158, R252)
  | area (cause : BitVec 8)          -- a device access to a context area failed (R258)
  deriving DecidableEq, Repr

/-- A computation on the state that may end early. -/
abbrev Mach := EStateM Stop State

/-- Cause codes of R57. -/
abbrev cIllegal : BitVec 8 := 0x01
abbrev cPrivilege : BitVec 8 := 0x02
abbrev cMisalign : BitVec 8 := 0x03
abbrev cPageFault : BitVec 8 := 0x04
abbrev cAccess : BitVec 8 := 0x05
abbrev cPoison : BitVec 8 := 0x06
abbrev cMachineCheck : BitVec 8 := 0x07
abbrev cFpTrap : BitVec 8 := 0x08
abbrev cBarAbort : BitVec 8 := 0x09
abbrev cBarClobber : BitVec 8 := 0x0A
abbrev cStreamFault : BitVec 8 := 0x0B
abbrev cIndeterminate : BitVec 8 := 0x0C
abbrev cEngineData : BitVec 8 := 0x0D
abbrev cLinkTimeout : BitVec 8 := 0x0E
abbrev cTrapInstr : BitVec 8 := 0x0F
abbrev cPreempt : BitVec 8 := 0x10
abbrev cWatchdog : BitVec 8 := 0x11
abbrev cFeature : BitVec 8 := 0x12

def raise {α : Type} (cause : BitVec 8) (info addr : BitVec 64) : Mach α := throw (.trap cause info addr)

/-- The hart that moves. -/
def hart : Mach Hart := do return (← get).me
/-- A change of it. -/
def modHart (f : Hart → Hart) : Mach Unit := modify (fun s => s.setMe (f s.me))

/-- ILLEGAL_INSTR with a reason of R83. -/
def illegal {α : Type} (reason : Nat) : Mach α := raise cIllegal (BitVec.ofNat 64 (reason * 256)) 0

/-- A value nothing constrains (the manual leaves it undefined). -/
def freshBits (w : Nat) : Mach (BitVec w) := do
  let n := (← get).fresh
  modify (fun s => { s with fresh := n + 1 })
  return BitVec.ofNat w (Config.freeValue n)

/-! ### Registers of the hart -/

/-- s0 reads 0 (R11, R48). -/
def Hart.readS (h : Hart) (r : BitVec 6) : Word := if r = 0 then 0 else h.s.get r.toFin
/-- A write to s0 is discarded (R84). -/
def Hart.writeS (h : Hart) (r : BitVec 6) (x : Word) : Hart :=
  if r = 0 then h else { h with s := h.s.set r.toFin x }
/-- c0 reads 1 (R11). -/
def Hart.readC (h : Hart) (c : BitVec 3) : Bool := c == 0 || h.cb.getLsbD c.toNat
/-- A write to c0 is discarded (R84). -/
def Hart.writeC (h : Hart) (c : BitVec 3) (x : Bool) : Hart :=
  if c = 0 then h
  else { h with cb := if x then h.cb ||| (1#8 <<< c.toNat) else h.cb &&& ~~~(1#8 <<< c.toNat) }

def readS (r : BitVec 6) : Mach Word := do return (← hart).readS r
def writeS (r : BitVec 6) (x : Word) : Mach Unit := modHart (fun h => h.writeS r x)

/-- The grouping factor (R58). -/
def Hart.grp (h : Hart) : Nat := 2 ^ h.g.toNat
/-- Granted lanes, L of R49. -/
def Hart.lanes (h : Hart) : Nat := h.laneCur
/-- Whether s has accepted feature k (R390). -/
def State.accepts (s : State) (k : Nat) : Bool := s.featacc.getLsbD k

/-- What legality reads (R82, R83, R222). -/
def State.legalEnv (s : State) : LegalEnv :=
  { feat := s.featacc, priv := s.me.priv, mxm := s.me.mxm, g := s.me.grp, frame := s.me.frame.isSome }

/-! ### DRAM and the CDC (R238 to R242, R407) -/

/-- The byte of DRAM at its home: what nothing has written reads as 0 (log 4). -/
def State.homeByte (s : State) (pa : Nat) : Byte := Tab.get 0 s.mem pa
/-- The byte as core `c` reads it: its own CDC's dirty byte, or a clean copy it holds, or what stands at home. -/
def State.byteAt (s : State) (c pa : Nat) : Byte :=
  match Tab.find (s.core c).dirty pa with
  | some b => b
  | none =>
    match Tab.find (s.core c).clean pa with
    | some b => b
    | none => s.homeByte pa

/-- The canonical form of memory: addresses strictly rising, no byte listed that an unlisted address reads as. -/
abbrev Memory.wf (m : Tab Byte) : Prop := Tab.wf (fun _ => 0) m

/-- Memory with a byte written, in canonical form. -/
def memSet (m : Tab Byte) (pa : Nat) (b : Byte) : Tab Byte := Tab.set 0 m pa b
/-- Memory with consecutive bytes written. -/
def memSets (m : Tab Byte) (pa : Nat) (bs : List Byte) : Tab Byte :=
  match bs with
  | [] => m
  | b :: t => memSets (memSet m pa b) (pa + 1) t

/-- Bytes of a number, lowest first. -/
def bytesOf (n x : Nat) : List Byte := (List.range n).map (fun i => BitVec.ofNat 8 (x / 256 ^ i))
/-- The number of bytes given lowest first. -/
def ofBytes (bs : List Byte) : Nat := bs.foldr (fun b a => b.toNat + 256 * a) 0

/-- Bytes at home. -/
def State.homeBytes (s : State) (pa n : Nat) : List Byte := (List.range n).map (fun i => s.homeByte (pa + i))
/-- A number at home. -/
def State.homeRead (s : State) (pa n : Nat) : Nat := ofBytes (s.homeBytes pa n)

/-- The words wholly covered by `n` bytes at `pa` are clean again (R146, R376). -/
def unpoison (p : List Nat) (pa n : Nat) : List Nat :=
  p.filter (fun w => !(pa ≤ 8 * w && 8 * w + 8 ≤ pa + n))
/-- Whether any byte lies in a poisoned word. -/
def poisoned (p : List Nat) (pa n : Nat) : Bool := p.any (fun w => 8 * w < pa + n && pa < 8 * w + 8)
/-- Words marked as poisoned, each listed once. -/
def poisonAll (p : List Nat) (ws : List Nat) : List Nat := ws.filter (fun w => !p.contains w) ++ p

/-- Whether the block of an address cannot be read: its metadata names a reserved selector, or is poisoned itself (R380). The
reserve, which the device alone reads, is stored as it is (log 10). -/
def State.badBlock (s : State) (pa : Nat) : Bool :=
  pa % Config.channelBytes < Config.reserveOffset
    && (5 ≤ (s.homeByte (metaAt pa)).toNat % 8 || poisoned s.poison (metaAt pa) 1)
/-- The blocks that `n` bytes at `pa` meet. -/
def blocksAt (pa n : Nat) : List Nat := List.range' (pa / 512) ((pa + n + 511) / 512 - pa / 512)
/-- Whether `n` bytes at `pa` read as poisoned at home: by a mark, or with their block (R376, R380). -/
def State.homePoisoned (s : State) (pa n : Nat) : Bool :=
  poisoned s.poison pa n || (blocksAt pa n).any (fun b => s.badBlock (512 * b))
/-- A read of a block that cannot be read poisons its 64 words (R380). -/
def State.meetBlock (s : State) (b : Nat) : State :=
  if s.badBlock (512 * b) then { s with poison := poisonAll s.poison (List.range' (64 * b) 64) } else s
/-- The blocks that `n` bytes at `pa` meet, read. -/
def State.meetBlocks (s : State) (pa n : Nat) : State := (blocksAt pa n).foldl State.meetBlock s

/-- Whether a word, address div 8, is poisoned as core `c` reads it (R376): by the mark of its dirty bytes, by that of its
clean copies, or where a byte comes from home by that of the home. -/
def State.wordPoisoned (s : State) (c w : Nat) : Bool :=
  let k := s.core c
  let dirty (i : Nat) : Bool := (Tab.find k.dirty (8 * w + i)).isSome
  let clean (i : Nat) : Bool := !dirty i && (Tab.find k.clean (8 * w + i)).isSome
  k.tainted.contains w
    || ((List.range 8).any clean && k.marked.contains w)
    || ((List.range 8).any (fun i => !dirty i && !clean i) && s.homePoisoned (8 * w) 8)
/-- The words that `n` bytes at `pa` meet. -/
def wordsAt (pa n : Nat) : List Nat := List.range' (pa / 8) ((pa + n + 7) / 8 - pa / 8)
/-- Whether the words that `n` bytes at `pa` meet are poisoned as core `c` reads them. -/
def State.dramPoisoned (s : State) (c pa n : Nat) : Bool := (wordsAt pa n).any (s.wordPoisoned c)

/-- A write performed at home. -/
def State.homeWrite (s : State) (pa : Nat) (bs : List Byte) : State :=
  { s with mem := memSets s.mem pa bs, poison := unpoison s.poison pa bs.length }

/-- The armed global object that `n` bytes at `pa` meet. -/
def State.armedGlobal (s : State) (pa n : Nat) : Option Nat :=
  (s.die (homeDie pa)).armed.find? (fun b => b < pa + n && pa < b + 64)

/-- A write of the device itself at home: one that meets an armed barrier object is suppressed (R308). -/
def State.devWrite (s : State) (pa : Nat) (bs : List Byte) : State :=
  if (s.armedGlobal pa bs.length).isSome then s else s.homeWrite pa bs

/-- The addresses of a store of bytes divided by `d`, each once; the store lists them by rising address. -/
def runsOf (d : Nat) (t : Tab Byte) : List Nat :=
  t.foldr (fun e ls => if ls.head? = some (e.1 / d) then ls else e.1 / d :: ls) []

/-- Counters of telemetry saturate (R384); their width of 64 bits is the model's (log 86, DESIGN CHOICE). -/
def satAdd (a b : Nat) : Nat := min (a + b) (2 ^ 64 - 1)
/-- One more in a counter kept by key. -/
def Tab.count (t : Tab Nat) (k : Nat) : Tab Nat := Tab.put t k (satAdd (Tab.get 0 t k) 1)

/-- The block's 64 words. -/
def State.blockWords (s : State) (b : Nat) : List Nat := (List.range 64).map (fun i => s.homeRead (512 * b + 8 * i) 8)
/-- A block coded, as its home controller does at an eviction: its metadata byte and the counters (R380, R384). -/
def State.codeBlock (s : State) (b : Nat) : State :=
  let x := compressBlock (s.blockWords b)
  let t := s.telemetry
  { s with mem := memSet s.mem (metaAt (512 * b)) (metaByte x)
           telemetry := { t with selectors := Tab.count t.selectors x.1, stored := satAdd t.stored x.2 } }

/-- The marks at home once the dirty bytes `out` of a core are there: a word that carries a mark brings it, and one written
whole without a mark ends it (R376). -/
def Core.marksHome (k : Core) (out : Tab Byte) (p : List Nat) : List Nat :=
  (runsOf 8 out).foldl (fun p w =>
    if k.tainted.contains w then poisonAll p [w]
    else if (List.range 8).all (fun i => (Tab.find out (8 * w + i)).isSome) then p.filter (· != w)
    else p) p

/-- Whether the channel of an address is being copied: accesses to it are held (R382). -/
def State.chanHeld (s : State) (pa : Nat) : Bool := s.copying.contains (pa / Config.channelBytes)

/-- The addresses that a write-back of those of `p` sends home: none of a channel that is being copied (R382). -/
def State.goesHome (s : State) (p : Nat → Bool) (a : Nat) : Bool := p a && !s.chanHeld a

/-- A core's dirty bytes that satisfy `p`, written back; the others stay (R239), and those of a channel that is being copied
(R382). A block that is not covered whole is read first, and every block is coded anew (R380). No older copy of what is written
back remains. -/
def State.writeBackIf (s : State) (c : Nat) (p : Nat → Bool) : State :=
  let k := s.core c
  let p := s.goesHome p
  let out := k.dirty.filter (fun e => p e.1)
  let bs := runsOf 512 out
  let s := (bs.filter (fun b => out.countP (fun e => e.1 / 512 == b) != 512)).foldl State.meetBlock s
  let m := out.foldr (fun e m => memSet m e.1 e.2) s.mem
  (bs.foldl State.codeBlock { s with mem := m, poison := k.marksHome out s.poison }).setCore c
    { k with dirty := k.dirty.filter (fun e => !p e.1), tainted := k.tainted.filter (fun w => !p (8 * w))
             clean := k.clean.filter (fun e => !(p e.1 && (Tab.find k.dirty e.1).isSome)) }

/-- Every dirty byte of a core, written back (R238). -/
def State.writeBack (s : State) (c : Nat) : State := s.writeBackIf c (fun _ => true)
/-- The scalar caches of a core without the lines of the addresses `p`, with their marks (R235, R238). -/
def Core.dropScalar (k : Core) (p : Nat → Bool) : Core :=
  { k with icache := k.icache.filter (fun l => !p (128 * l)), dcache := k.dcache.filter (fun l => !p (128 * l))
           ibad := k.ibad.filter (fun w => !p (8 * w)), dbad := k.dbad.filter (fun w => !p (8 * w)) }
/-- Clean copies of a core dropped, with the lines of its scalar caches, which hold nothing that its CDC lacks (log 62). -/
def State.dropClean (s : State) (c : Nat) (p : Nat → Bool) : State :=
  let k := (s.core c).dropScalar p
  s.setCore c { k with clean := k.clean.filter (fun e => !p e.1), marked := k.marked.filter (fun w => !p (8 * w)) }
/-- What a core's caches hold of the addresses `p` leaves them: dirty bytes go home. -/
def State.evictIf (s : State) (c : Nat) (p : Nat → Bool) : State := (s.writeBackIf c p).dropClean c p
/-- The 128-byte line of an address leaves one core's caches. -/
def State.evictLine (s : State) (c pa : Nat) : State := s.evictIf c (fun a => a / 128 == pa / 128)
/-- The line leaves the caches of every core. -/
def State.evictLineAll (s : State) (pa : Nat) : State := s.cores.foldl (fun s e => s.evictLine e.1 pa) s

/-- Whether dirty bytes of a core cannot go home now (R382). -/
def State.dirtyHeld (s : State) (c : Nat) : Bool := (s.core c).dirty.any (fun e => s.chanHeld e.1)

/-- The lines that a core's CDC holds. What its scalar caches hold is held in the CDC too (R235; log 62). -/
def Core.lines (k : Core) : List Nat :=
  let ds := runsOf 128 k.dirty
  ds ++ (runsOf 128 k.clean).filter (fun l => !ds.contains l)

/-- The CDC of a core holds at most 12,288 lines (R5): a line too many makes one leave, which one being open (log 62), but none
of a channel that is being copied (R382). -/
def State.cdcFit (s : State) (c : Nat) : State :=
  let all := (s.core c).lines
  let ls := all.filter (fun l => !s.chanHeld (128 * l))
  if all.length ≤ Config.cdcLines || ls.isEmpty then s
  else
    { s with fresh := s.fresh + 1 }.evictLine c (128 * ls.getD (Config.freeValue s.fresh % ls.length) 0)

/-- A write through the core's CDC. A word that it covers whole loses its mark, one that it covers in part keeps it
(R146, R376). The scalar caches keep no older copy (R235; log 41). -/
def State.cdcWrite (s : State) (c pa : Nat) (bs : List Byte) : State :=
  let k := (s.core c).dropScalar (fun a => pa / 128 ≤ a / 128 && a / 128 ≤ (pa + bs.length - 1) / 128)
  let d := (List.range bs.length).foldl (fun d i => Tab.put d (pa + i) (bs.getD i 0)) k.dirty
  let kept := (wordsAt pa bs.length).filter (fun w => !(pa ≤ 8 * w && 8 * w + 8 ≤ pa + bs.length) && s.wordPoisoned c w)
  (s.setCore c { k with dirty := d, clean := k.clean.filter (fun e => !(pa ≤ e.1 && e.1 < pa + bs.length))
                        tainted := poisonAll (unpoison k.tainted pa bs.length) kept }).cdcFit c

/-- Whether the line of an address holds an armed barrier object: no cache holds it then (R305). -/
def State.armedLine (s : State) (pa : Nat) : Bool := (s.die (homeDie pa)).armed.any (fun b => b / 128 == pa / 128)

/-- A clean copy of a line, as it stands at home with its marks (R376), in a core's caches; bytes the core has dirty stay
its own. -/
def State.fillLine (s : State) (c line : Nat) : State :=
  if Config.dramEnd ≤ 128 * line || s.armedLine (128 * line) then s
  else
    let s := s.meetBlocks (128 * line) 128
    let k := s.core c
    (s.setCore c { k with clean := (List.range 128).foldl
                            (fun t i =>
                              let a := 128 * line + i
                              if (Tab.find k.dirty a).isSome then t else Tab.put t a (s.homeByte a)) k.clean
                          marked := poisonAll (k.marked.filter (fun w => w / 16 != line))
                            ((List.range' (16 * line) 16).filter (fun w => s.homePoisoned (8 * w) 8)) }).cdcFit c

/-- A line too many of a list of at most 512 leaves, which one being open. -/
def fitLines (s : State) (ls : List Nat) : List Nat :=
  if ls.length ≤ 512 then ls else ls.eraseIdx (Config.freeValue s.fresh % ls.length)

/-- A line of the CDC taken into a scalar cache of 64 KiB, 512 lines (R5; log 62): the instruction cache or the data cache. -/
def State.scalarLine (s : State) (c line : Nat) (instr : Bool) : State :=
  let k := s.core c
  let put (ls : List Nat) : List Nat := fitLines s (line :: ls.filter (· != line))
  let keep (ls bad : List Nat) : List Nat := bad.filter (fun w => ls.contains (w / 16))
  if !k.lines.contains line then s
  else
    { s with fresh := s.fresh + 1 }.setCore c
      (if instr then { k with icache := put k.icache, ibad := keep (put k.icache) k.ibad }
       else { k with dcache := put k.dcache, dbad := keep (put k.dcache) k.dbad })

/-- A transfer of the moving hart that is not finished ends before what orders it goes on (R252). -/
def awaitTransfers : Mach Unit := do
  let s ← get
  match s.me.xfers with
  | t :: _ => throw (.busy s.cur t.tag)
  | [] => pure ()

/-- The cache actions of a release part at a vector scope code (R238): at die scope and wider every dirty byte of the core
is written back, once no channel of one is being copied (R382). -/
def releaseCaches (scope : Nat) : Mach Unit := do
  let s ← get
  if 3 ≤ scope && s.dirtyHeld s.coreNo then throw .hold
  set (if 3 ≤ scope then s.writeBack s.coreNo else s)

/-- The release part of a synchronising event (R227, R238, R252): the hart's earlier transfers have ended, then the caches
act. -/
def releasePart (scope : Nat) : Mach Unit := do
  if scope != 0 then awaitTransfers
  releaseCaches scope

/-- The acquire part (R238): at die scope and wider the core's clean lines are invalid. -/
def acquirePart (scope : Nat) : Mach Unit :=
  modify (fun s => if 3 ≤ scope then s.dropClean s.coreNo (fun _ => true) else s)

/-! ### Page tables (R315 to R319) -/

/-- Sizes of the pages an entry's SZ names. -/
def pageSize (sz : Nat) : Nat := if sz = 0 then 0x10000 else if sz = 1 then 0x2000000 else 0x400000000

def eV (e : BitVec 64) : Bool := e.getLsbD 63
def eLeaf (e : BitVec 64) : Bool := e.getLsbD 62
def eSz (e : BitVec 64) : Nat := (e.extractLsb' 60 2).toNat
def ePin (e : BitVec 64) : Bool := e.getLsbD 59
def ePoison (e : BitVec 64) : Bool := e.getLsbD 58
def eHome (e : BitVec 64) : Nat := (e.extractLsb' 56 2).toNat
def ePol (e : BitVec 64) : Nat := (e.extractLsb' 50 2).toNat
def eDev (e : BitVec 64) : Bool := e.getLsbD 49
def eX (e : BitVec 64) : Bool := e.getLsbD 47
def eW (e : BitVec 64) : Bool := e.getLsbD 46
def eR (e : BitVec 64) : Bool := e.getLsbD 45
/-- FRAME with its zero low bits. -/
def eFrame (e : BitVec 64) : Nat := (e.extractLsb' 16 28).toNat * 0x10000

/-- A malformed entry at a level (R316, R317). -/
def eBad (lvl : Nat) (e : BitVec 64) : Bool :=
  e.getLsbD 48 || e.getLsbD 44
    || (if eLeaf e then
          lvl == 2 || eSz e == 3 || (lvl == 0 && eSz e == 2) || (lvl == 1 && eSz e != 2)
            || eFrame e % pageSize (eSz e) != 0 || (eW e && !eR e)
        else lvl == 0 || (e.extractLsb' 44 18) != 0)

/-- What a walk ends in. -/
inductive Walk
  | fault                            -- an invalid or malformed entry, or a node where there is no memory (log 28)
  | poison                           -- a poisoned entry
  | leaf (e : BitVec 64)
  deriving DecidableEq, Repr

/-- The walk of R319 from a node at a level. Entries are read at their home. -/
def State.walkFrom (s : State) (va : Nat) : Nat → Nat → Walk
  | lvl, node =>
    let a := node + 8 * (va / 2 ^ (13 * lvl + 16) % 8192)
    if Config.dramEnd ≤ a then .fault
    else if s.homePoisoned a 8 then .poison
    else
      let e := BitVec.ofNat 64 (s.homeRead a 8)
      if !eV e || eBad lvl e then .fault
      else if eLeaf e then .leaf e
      else
        match lvl with
        | 0 => .fault
        | l + 1 => s.walkFrom va l (eFrame e)

/-- Whether a walk from a node meets an entry in a channel whose contents are being copied: it is held (R382). -/
def State.walkHeld (s : State) (va : Nat) : Nat → Nat → Bool
  | lvl, node =>
    let a := node + 8 * (va / 2 ^ (13 * lvl + 16) % 8192)
    let e := BitVec.ofNat 64 (s.homeRead a 8)
    s.copying.contains (a / Config.channelBytes)
      || (eV e && !eBad lvl e && !eLeaf e && (match lvl with | 0 => false | l + 1 => s.walkHeld va l (eFrame e)))

/-- The cached translation of an address of a context. -/
def State.cachedLeaf (s : State) (c k va : Nat) : Option TlbE :=
  (s.core c).tlb.find? (fun t => t.ctx == k && t.base ≤ va && va < t.base + t.size)

/-- The leaf for an address of a context: a cached one, or the walk's. -/
def State.leafFor (s : State) (c k va : Nat) : Walk :=
  match s.cachedLeaf c k va with
  | some t => .leaf t.entry
  | none => s.walkFrom va 2 (s.ctx k).ptroot

/-- Whether a page covers a reserved address (R313, R317, R382, R388), or the window while it is not accepted. -/
def State.pageBarred (s : State) (base size : Nat) : Bool :=
  if Config.pcieBase ≤ base then !s.accepts 6
  else
    Config.dramEnd < base + size
      || Config.reserveOffset < base % Config.channelBytes + size
      || s.lostChan.contains (base / Config.channelBytes)

/-- What an access asks of a leaf (R318). -/
inductive Need
  | read | write | rmw | fetch
  deriving DecidableEq, Repr

def Need.ok (w : Need) (e : BitVec 64) : Bool :=
  match w with
  | .read => eR e
  | .write => eW e
  | .rmw => eR e && eW e
  | .fetch => eX e

/-- Where an access lands. -/
inductive Loc
  | spad (core off : Nat)            -- a scratchpad byte
  | dram (pa : Nat) (home : Bool)    -- a DRAM byte; `home` where it is served at its home (R242, R305)
  | dev (pa : Nat)                   -- the outbound window
  deriving DecidableEq, Repr

/-- The translation of an address. -/
structure Xlat where
  pa : Nat
  pol : Nat
  dev : Bool
  deriving DecidableEq, Repr

/-- A translation's outcome: a place, or a cause of R91's order 3, or a hold. -/
inductive Xr
  | ok (x : Xlat)
  | cause (c : BitVec 8)
  | hold
  deriving DecidableEq, Repr

/-- Whether the translation of an address waits: its page is being evicted (R324), or its walk meets a channel that is being
copied (R382). -/
def State.xlatHeld (s : State) (c k va : Nat) : Bool :=
  s.pcmds.any (fun p => p.evicting && p.ctx == k && p.va ≤ va && va < p.va + p.count)
    || (!s.copying.isEmpty && (s.cachedLeaf c k va).isNone && s.walkHeld va 2 (s.ctx k).ptroot)

/-- Translation for core `c`, context `k` (R317 to R319, R324, R326). -/
def State.translate (s : State) (c k : Nat) (w : Need) (va : Nat) : Xr :=
  if s.xlatHeld c k va then .hold
  else
    match s.leafFor c k va with
    | .fault => .cause cPageFault
    | .poison => .cause cPoison
    | .leaf e =>
      let sz := pageSize (eSz e)
      let pa := eFrame e + va % sz
      if s.pageBarred (eFrame e) sz || !w.ok e then .cause cAccess
      else if ePoison e then .cause cPoison
      else if s.chanHeld pa then .hold
      else .ok { pa := pa, pol := ePol e, dev := eDev e || Config.pcieBase ≤ pa }

/-! ### Reads that a fence makes acquires (R228, R245) -/

/-- The parcel at an address of the moving hart's code, where it can be read without a fault. -/
def State.peekParcel (s : State) (va : BitVec 55) : Option Parcel :=
  match s.translate s.coreNo s.me.ctx .fetch va.toNat with
  | .ok x =>
    if Config.pcieBase ≤ x.pa then none
    else some (BitVec.ofNat 32 (ofBytes ((List.range 4).map (fun i => s.byteAt s.coreNo (x.pa + i)))))
  | _ => none

/-- Whether a parcel is a FENCE of kind ACQ or stronger at system scope. -/
def sysAcquire (p : Parcel) : Bool :=
  match decode [p] with
  | .ok (.fenceacq _ _ _ scope _, _) | .ok (.fencear _ _ _ scope _, _) | .ok (.fencesc _ _ _ scope _, _) => scope == 5
  | _ => false

/-- Whether a plain read of the moving hart is an acquire at system scope by such a fence: one among the sixteen parcels after the
instruction, those of a branch that is not taken. A read so marked is performed at home (R228, R245; log 2). -/
def State.acquireAhead (s : State) : Bool :=
  (List.range' 1 16).any (fun k => ((s.peekParcel (s.me.pc + BitVec.ofNat 55 (4 * k))).map sysAcquire).getD false)

/-! ### Armed barrier objects (R304, R305, R308) -/

/-- The armed scratchpad object of a core that `n` bytes at an offset meet. -/
def State.armedSpad (s : State) (c off n : Nat) : Option Nat :=
  (s.core c).armed.find? (fun b => b < off + n && off < b + 64)

/-! ### One access -/

/-- One access to be made: what it needs, its bytes, its alignment, whether the instruction bypasses the CDC, the
TINFO of its faults, and whether it is vector-side (a clobber then reports the object's address, R150). -/
structure Req where
  need : Need
  n : Nat
  align : Nat
  bypass : Bool
  info : BitVec 64
  vec : Bool
  walks : Bool := true               -- the access makes its own walk, none made for the instruction as a whole (R144)
  deriving DecidableEq, Repr

/-- The scratchpad allocation of a hart: its core, base and data bytes (R297). -/
def State.spadOf (s : State) (h : Hart) : Nat × Nat :=
  match s.gang h.gang with
  | some g =>
    match s.launch g.launch with
    | some l => (g.base, l.spad)
    | none => (g.base, 0)
  | none => (0, 0)

/-- An access waits for the earlier transfer of its hart that it overlaps (R158, R252). -/
def interlock (sp : Bool) (a n : Nat) : Mach Unit := do
  let s ← get
  match s.me.xfers.find? (fun t => t.ranges.any (fun r => r.1 == sp && r.2.1 < a + n && a < r.2.1 + r.2.2)) with
  | some t => throw (.busy s.cur t.tag)
  | none => pure ()

/-- A poisoned word consumed, as telemetry counts it (R384). -/
def State.usedPoison (s : State) : State :=
  { s with telemetry := { s.telemetry with poisonUsed := satAdd s.telemetry.poisonUsed 1 } }

/-- A translation that failed with poison: where its walk met a poisoned entry, that word is consumed. -/
def State.walkUsed (s : State) (c k va : Nat) : State :=
  if s.leafFor c k va == .poison then s.usedPoison else s

/-- A walk for an address of a context compares HOME with the home die of the frame's first byte: whether they differ
(R317). -/
def State.homeDiffers (s : State) (k va : Nat) : Bool :=
  match s.walkFrom va 2 (s.ctx k).ptroot with
  | .leaf e => eFrame e < Config.dramEnd && eHome e != homeDie (eFrame e)
  | _ => false

/-- Such a walk, which counts a mismatch (R317, R384). -/
def State.homeCheck (s : State) (k va : Nat) : State :=
  if s.homeDiffers k va then { s with telemetry := { s.telemetry with homeMiss := satAdd s.telemetry.homeMiss 1 } } else s

/-- The walk that an access makes where its core caches no translation. -/
def State.walked (s : State) (c k va : Nat) : State :=
  if (s.core c).tlb.any (fun t => t.ctx == k && t.base ≤ va && va < t.base + t.size) then s else s.homeCheck k va

/-- The first address of the page that holds an address of a context, of the size its leaf gives (R315); without a leaf,
of 64 KiB. -/
def State.pageOf (s : State) (k va : Nat) : Nat :=
  match s.walkFrom va 2 (s.ctx k).ptroot with
  | .leaf e => va / pageSize (eSz e) * pageSize (eSz e)
  | _ => va / 0x10000 * 0x10000

/-- The walks of the moving hart's instruction to the pages of the addresses listed, each distinct page once (R144). Pages
that are translated one after another go as far as the first that has no translation. -/
def State.walkedPages (s : State) (need : Need) (sorted : Bool) (as : List (BitVec 64)) : State :=
  let ps := (as.map (fun a => s.pageOf s.me.ctx (a.toNat % 2 ^ 55))).eraseDups
  let ok (p : Nat) : Bool := match s.translate s.coreNo s.me.ctx need p with | .cause _ => false | _ => true
  let ps := if sorted then ps else ps.takeWhile ok ++ (ps.dropWhile ok).take 1
  ps.foldl (fun s p => s.walked s.coreNo s.me.ctx p) s

/-- The addresses, of some, whose page is that of none of `seen`. -/
def State.newPages (s : State) (seen as : List (BitVec 64)) : List (BitVec 64) :=
  let page (a : BitVec 64) : Nat := s.pageOf s.me.ctx (a.toNat % 2 ^ 55)
  as.filter (fun a => !(seen.map page).contains (page a))

/-- Whether an address breaks a space rule (R89, R143): bits 62:55, bit 63 of a global address, or an offset outside the
moving hart's scratchpad. -/
def State.outside (s : State) (sp : Bool) (ea : BitVec 64) : Bool :=
  (ea.extractLsb' 55 8) != 0 || (if sp then decide ((s.spadOf s.me).2 ≤ ea.toNat % 2 ^ 55) else ea.getLsbD 63)

/-- Whether an access is misaligned (R90, R143). -/
def Req.misaligned (q : Req) (ea : BitVec 64) : Bool := ea.toNat % 2 ^ 55 % q.align != 0

/-- Where an access of the moving hart lands, with the faults of space, alignment, translation and permission, in
R91's order. `sp` selects the scratchpad. -/
def place (q : Req) (sp : Bool) (ea : BitVec 64) : Mach Loc := do
  let s ← get
  let h := s.me
  let a := ea.toNat % 2 ^ 55
  if s.outside sp ea then raise cAccess q.info ea
  interlock sp a q.n
  if q.misaligned ea then raise cMisalign q.info ea
  if sp then
    let (base, size) := s.spadOf h
    if size < a + q.n then raise cAccess q.info ea
    return .spad s.coreNo (base + a)
  else
    match s.translate s.coreNo h.ctx q.need a with
    | .hold => throw .hold
    | .cause c => do
      if q.walks then modify (fun s => s.walked s.coreNo h.ctx a)
      if c == cPoison then modify (fun s => s.walkUsed s.coreNo h.ctx a)
      raise c q.info ea
    | .ok x =>
      if q.walks then modify (fun s => s.walked s.coreNo h.ctx a)
      if Config.pcieBase ≤ x.pa then return .dev x.pa
      return .dram x.pa (x.dev || x.pol == 3 || q.bypass || s.armedLine x.pa)

/-- The armed object that `n` bytes at a location meet, as a distance from the location. -/
def State.clobbered (s : State) (l : Loc) (n : Nat) : Option Int :=
  match l with
  | .spad c o => (s.armedSpad c o n).map (fun b => (b : Int) - o)
  | .dram pa _ => (s.armedGlobal pa n).map (fun b => (b : Int) - pa)
  | .dev _ => none

/-- A write that meets an armed object is suppressed (R91 order 4, R150, R308). -/
def barrierCheck (q : Req) (ea : BitVec 64) (l : Loc) : Mach Unit := do
  if q.need == .write || q.need == .rmw then
    match (← get).clobbered l q.n with
    | some d =>
      let top : BitVec 64 := match l with | .spad _ _ => 0x8000000000000000#64 | _ => 0
      raise cBarClobber q.info (if q.vec then (ea + BitVec.ofInt 64 d) ||| top else ea)
    | none => pure ()

/-- Where an access of the moving hart lands, with every fault but poison, in R91's order. -/
def locate (q : Req) (sp : Bool) (ea : BitVec 64) : Mach Loc := do
  let l ← place q sp ea
  barrierCheck q ea l
  return l

/-- One access of a vector-side element or row: what it asks, its space, its address and the address its faults tell. -/
structure Acc where
  req : Req
  sp : Bool
  ea : BitVec 64
  told : BitVec 64
  deriving DecidableEq, Repr

/-- An access told at another address than its own; a clobber keeps the object's, and a poisoned page the faulting byte's
(R150, R326). -/
def faultAs {α : Type} (ea : BitVec 64) (m : Mach α) : Mach α :=
  tryCatch m (fun e =>
    match e with
    | .trap c i a => throw (.trap c i (if c == cBarClobber || c == cPoison then a else ea))
    | e => throw e)

/-- Whether an access breaks a rule that comes before its translation (R91). -/
def State.unsound (s : State) (x : Acc) : Bool := s.outside x.sp x.ea || x.req.misaligned x.ea

/-- Whether an access meets a page without a translation. -/
def State.absent (s : State) (x : Acc) : Bool :=
  !x.sp && s.translate s.coreNo s.me.ctx x.req.need (x.ea.toNat % 2 ^ 55) == .cause cPageFault

/-- The accesses of one element placed: of the conditions they meet, the first in R91's order is raised (R143). -/
def placeAll (as : List Acc) : Mach (List Loc) := do
  let s ← get
  as.forM (fun x => if s.outside x.sp x.ea then raise cAccess x.req.info x.told else pure ())
  as.forM (fun x => if x.req.misaligned x.ea then raise cMisalign x.req.info x.told else pure ())
  as.forM (fun x => if s.absent x then raise cPageFault x.req.info x.told else pure ())
  as.mapM (fun x => faultAs x.told (place x.req x.sp x.ea))

/-- The barrier checks of placed accesses (R91, R308). -/
def barrierAll (as : List Acc) (ls : List Loc) : Mach Unit :=
  (as.zip ls).forM (fun (x, l) => barrierCheck x.req x.ea l)

/-- The accesses of one element located, with every fault but poison. -/
def locateAll (as : List Acc) : Mach (List Loc) := do
  let ls ← placeAll as
  barrierAll as ls
  return ls

/-- A location some bytes further. -/
def Loc.off (l : Loc) (i : Nat) : Loc :=
  match l with
  | .spad c o => .spad c (o + i)
  | .dram pa h => .dram (pa + i) h
  | .dev pa => .dev (pa + i)

/-- Whether a read of the location meets poison (R376): at home, once the line has left the core's own caches (R242). -/
def State.locPoisoned (s : State) (l : Loc) (n : Nat) : Bool :=
  match l with
  | .spad c o => poisoned (s.core c).spadPoison o n
  | .dram pa home => (if home then s.evictLine s.coreNo pa else s).dramPoisoned s.coreNo pa n
  | .dev _ => false

/-- A byte of a scratchpad. -/
def State.spadByte (s : State) (c o : Nat) : Byte := Tab.get 0 (s.core c).spad o

/-- The bytes at a location as the moving hart's core reads them. -/
def State.peek (s : State) (l : Loc) (n : Nat) : List Byte :=
  match l with
  | .spad c o => (List.range n).map (fun i => s.spadByte c (o + i))
  | .dram pa _ => (List.range n).map (fun i => s.byteAt s.coreNo (pa + i))
  | .dev _ => []

/-- The words at a location that several writes together have covered whole are clean again (R146, R376): `ws` lists the
locations written with the first bit and the bits of each. -/
def State.cure (s : State) (ws : List (Loc × Nat × Nat)) : State :=
  let spans (f : Loc → Option Nat) : List (Nat × Nat) :=
    ws.filterMap (fun (l, lo, w) => (f l).map (fun o => (8 * o + lo, w)))
  let covered (xs : List (Nat × Nat)) (w : Nat) : Bool :=
    (List.range 64).all (fun b => xs.any (fun x => x.1 ≤ 64 * w + b && 64 * w + b < x.1 + x.2))
  let c := s.coreNo
  let k := s.core c
  let sp := spans (fun l => match l with | .spad _ o => some o | _ => none)
  let cdc := spans (fun l => match l with | .dram pa false => some pa | _ => none)
  let home := spans (fun l => match l with | .dram pa true => some pa | _ => none)
  { s with poison := s.poison.filter (fun w => !covered home w) }.setCore c
    { k with spadPoison := k.spadPoison.filter (fun w => !covered sp w)
             tainted := k.tainted.filter (fun w => !covered cdc w) }

/-- The PCIe address of an address of the outbound window (R347). -/
def State.pcieAddr (s : State) (pa : Nat) : Nat := (s.obase + BitVec.ofNat 64 (pa - Config.pcieBase)).toNat

/-- Bytes written at a location. -/
def State.poke (s : State) (l : Loc) (bs : List Byte) : State :=
  match l with
  | .spad c o =>
    let k := s.core c
    s.setCore c { k with spad := memSets k.spad o bs, spadPoison := unpoison k.spadPoison o bs.length }
  | .dram pa home => if home then (s.evictLine s.coreNo pa).homeWrite pa bs else s.cdcWrite s.coreNo pa bs
  | .dev pa => { s with outWrites := s.outWrites ++ [(s.pcieAddr pa, BitVec.ofNat 64 (ofBytes bs), bs.length)] }

/-- Poison that a read has met: the blocks at home that cannot be read are poisoned (R380), and it is counted (R384). -/
def State.met (s : State) (l : Loc) (n : Nat) : State :=
  (match l with | .dram pa _ => s.meetBlocks pa n | _ => s).usedPoison

/-- Whether a scalar access meets a mark of the core's scalar data cache (R376). -/
def State.dcacheBad (s : State) (l : Loc) (n : Nat) : Bool :=
  match l with
  | .dram pa false => (wordsAt pa n).any (s.core s.coreNo).dbad.contains
  | _ => false

/-- A read of a located access: poison first (R91 order 5, R377), then the value. An outbound read takes the
completions that have arrived, in order (R347). -/
def readLoc (q : Req) (ea : BitVec 64) (l : Loc) : Mach Nat := do
  match l with
  | .dev pa =>
    let h ← hart
    match h.devReads[h.devUsed]? with
    | some x => do
      modHart (fun h => { h with devUsed := h.devUsed + 1 })
      return x.toNat % 256 ^ q.n
    | none =>
      if (← hart).devError then
        modHart (fun h => { h with devError := false })
        raise cAccess (q.info ||| 0x8000#64) ea
      else throw (.post pa q.n)
  | l => do
    match l with
    | .dram pa true => modify (fun s => s.evictLine s.coreNo pa)
    | _ => pure ()
    let s ← get
    if s.locPoisoned l q.n || (!q.vec && s.dcacheBad l q.n) then
      modify (fun s => s.met l q.n)
      raise cPoison q.info ea
    return ofBytes (s.peek l q.n)

/-- A write of a located access. -/
def writeLoc (l : Loc) (n x : Nat) : Mach Unit := modify (fun s => s.poke l (bytesOf n x))

/-- Read `n` bytes. -/
def readMem (q : Req) (sp : Bool) (ea : BitVec 64) : Mach Nat := do
  let l ← locate q sp ea
  readLoc q ea l

/-- Write `n` bytes. -/
def writeMem (q : Req) (sp : Bool) (ea : BitVec 64) (x : Nat) : Mach Unit := do
  let l ← locate q sp ea
  writeLoc l q.n x

/-- Bit 63 selects the space (R89). -/
def isSpad (ea : BitVec 64) : Bool := ea.getLsbD 63

/-- Where an atomic at a vector scope code is performed: at die scope and wider, and at home locations, at home after the
core's line is written back (R240). -/
def Loc.atomicAt (l : Loc) (scope : Nat) : Loc :=
  match l with
  | .dram pa home => .dram pa (home || 3 ≤ scope)
  | l => l

/-- Indivisible update of a located access. Answers the old value. -/
def rmwLoc (q : Req) (ea : BitVec 64) (l : Loc) (scope : Nat) (f : Nat → Nat) : Mach Nat := do
  let l := l.atomicAt scope
  let old ← readLoc q ea l
  writeLoc l q.n (f old)
  return old

end Sys2Proof.Machine
end

