-- ==== Sys2Proof/Machine/Operands.lean ====
section
/-!
DEFINITION. Operand forms: elements of vector registers (R49, R50), masks and Active (R24, R52), scalar operands of
vector-side work (R118), rows of accumulators, and the element loops of element-wise and whole instructions (R44, R51,
R119, R120).
-/

namespace Sys2Proof.Machine

/-! ### Vector registers -/

/-- Where a register file keeps a register's slice in a lane. -/
def sliceKey (reg lane : Nat) : Nat := lane * 65536 + reg

/-- What a slice that the register file does not list holds: 0 in a register (log 5); past v63 there is no register, and
nothing is known of it (log 27). -/
def sliceRest (k : Nat) : BitVec 3072 := if k % 65536 < 64 then 0 else BitVec.ofNat 3072 (Config.pastRegisters k)

/-- `n` bytes at byte `off` of element `i`, for elements of `eb` bytes, of the group at register `reg` (R50). -/
def Hart.getBytes (h : Hart) (reg eb i off n : Nat) : Nat :=
  let o := i / h.lanes * eb + off
  let k := sliceKey (reg + o / 384) (i % h.lanes)
  let x := Tab.get (sliceRest k) h.v k
  x.toNat / 2 ^ (8 * (o % 384)) % 256 ^ n

/-- A slice with `n` bytes at byte `o` replaced. -/
def sliceSet (x : BitVec 3072) (o n v : Nat) : BitVec 3072 :=
  let lo := x.toNat % 2 ^ (8 * o)
  let hi := x.toNat / 2 ^ (8 * (o + n))
  BitVec.ofNat 3072 (lo + 2 ^ (8 * o) * (v % 256 ^ n) + 2 ^ (8 * (o + n)) * hi)

/-- A slice stored, kept canonical: a register's slice of 0 is not listed. -/
def slicePut (v : Tab (BitVec 3072)) (k : Nat) (x : BitVec 3072) : Tab (BitVec 3072) :=
  if x = 0 ∧ k % 65536 < 64 then Tab.erase v k else Tab.put v k x

/-- The same bytes written. -/
def Hart.setBytes (h : Hart) (reg eb i off n v : Nat) : Hart :=
  let o := i / h.lanes * eb + off
  let k := sliceKey (reg + o / 384) (i % h.lanes)
  { h with v := slicePut h.v k (sliceSet (Tab.get (sliceRest k) h.v k) (o % 384) n v) }

/-- Element `i` of `b` bytes. -/
def Hart.getEl (h : Hart) (reg b i : Nat) : Nat := h.getBytes reg b i 0 b
/-- Element `i` written. -/
def Hart.setEl (h : Hart) (reg b i v : Nat) : Hart := h.setBytes reg b i 0 b v

/-- Element `i` of register `r` as a value of type `t` (R26). -/
def Hart.typedEl (h : Hart) (r : BitVec 6) (t : Fmt) (i : Nat) : Nat := t.trim (h.getEl r.toNat t.bytes i)

/-- VLMAX for elements of `b` bytes (R49). -/
def Hart.vlmax (h : Hart) (b : Nat) : Nat := if h.mxm then 6 * h.lanes else 384 * h.lanes * h.grp / b

/-- VLMAX of R49: for the type last set by VSETL. -/
def Hart.vlmaxNow (h : Hart) : Nat := h.vlmax ((Fmt.ofCode h.et).getD (.i 8)).bytes

/-- VDIRTY bits of a group of `g` registers set (R51). -/
def Hart.dirty (h : Hart) (reg g : Nat) : Hart :=
  { h with vdirty := h.vdirty ||| BitVec.ofNat 64 ((2 ^ g - 1) * 2 ^ reg) }

/-! ### Masks -/

/-- Bit `i` of mask register `r`; m0 reads all-true (R11, R48). -/
def Hart.maskBit (h : Hart) (r i : Nat) : Bool := r == 0 || (Tab.get 0 h.m r).getLsbD i
/-- A mask bit written; m0 ignores writes. -/
def Hart.setMask (h : Hart) (r i : Nat) (x : Bool) : Hart :=
  if r = 0 then h
  else
    let w := Tab.get 0 h.m r
    { h with m := Tab.set 0 h.m r (if x then w ||| (1#196608 <<< i) else w &&& ~~~(1#196608 <<< i)) }

/-- Active(i) of R24, below VL being the loop's affair. -/
def Hart.activeBit (h : Hart) (m : BitVec 5) (mi : BitVec 1) (i : Nat) : Bool :=
  xor (m == 0 || h.maskBit m.toNat i) (mi == 1)

/-! ### Accumulators (R48, R168) -/

/-- Word `j` of row `i` of a tile. -/
def Hart.getAcc (h : Hart) (t i j : Nat) : Nat := (Tab.get 0 h.acc (t * 64 + i)).toNat / 2 ^ (32 * j) % 2 ^ 32
/-- That word written. -/
def Hart.setAcc (h : Hart) (t i j v : Nat) : Hart :=
  let k := t * 64 + i
  let x := (Tab.get 0 h.acc k).toNat
  let y := x % 2 ^ (32 * j) + 2 ^ (32 * j) * (v % 2 ^ 32) + 2 ^ (32 * (j + 1)) * (x / 2 ^ (32 * (j + 1)))
  { h with acc := Tab.set 0 h.acc k (BitVec.ofNat 2048 y) }

/-! ### Control registers the vector side uses -/

def Hart.fz (h : Hart) : Bool := h.vc.fctl.getLsbD 3
def Hart.te (h : Hart) : Flags := h.vc.fctl.extractLsb' 4 5
def Hart.dsat (h : Hart) : Bool := h.vc.fctl.getLsbD 9
/-- FCTL.RM (R63). -/
def Hart.frm (h : Hart) : Rm := Rm.ofFctl (h.vc.fctl.extractLsb' 0 3)
def Hart.setVstart (h : Hart) (n : Nat) : Hart := { h with vc := { h.vc with vstart := BitVec.ofNat 18 n } }
def Hart.setVl (h : Hart) (n : Nat) : Hart := { h with vl := BitVec.ofNat 18 n }

/-- The environment of an instruction with rm and sat fields (R117). -/
def Hart.fpEnv (h : Hart) (rm : BitVec 3) (sat : BitVec 1) : FpEnv :=
  { rm := Rm.ofCode h.frm rm, sat := sat == 1 || h.dsat, fz := h.fz }

/-! ### Registers with an uncorrectable error (R379) -/

/-- MACHINE_CHECK at an instruction that reads one of the registers named: kind 0 scalar, 1 vector, 2 mask, 3
accumulator. -/
def checkEcc (rs : List (Nat × Nat)) : Mach Unit := do
  match (← hart).ecc.find? (fun e => rs.contains e) with
  | some e => raise cMachineCheck (BitVec.ofNat 64 (0x1000 + e.1 * 256 + e.2)) 0
  | none => pure ()

/-- Registers written are free of their errors (R379). -/
def Hart.wrote (h : Hart) (rs : List (Nat × Nat)) : Hart :=
  if h.ecc.isEmpty then h else { h with ecc := h.ecc.filter (fun e => !rs.contains e) }

/-! ### Scalar operands (R118) -/

/-- The type an et code names; legality has refused 1011. -/
def etFmt (et : BitVec 4) : Fmt := (Fmt.ofCode et).getD (.i 8)

/-- A scalar converted to an element once, with the flags of the conversion. -/
def scalarEl (fmt : Fmt) (v : FpEnv) (x : Word) : Nat × Flags :=
  if fmt.isInt then (x.toNat % 2 ^ fmt.bits, 0)
  else fmt.encode v.rm v.sat v.fz (v.arg (.flt .fp32) (x.toNat % 2 ^ 32))

/-- The second operand of an element operation: a vector group or a converted scalar. -/
def opB (h : Hart) (os : BitVec 1) (fmt : Fmt) (v : FpEnv) (r : BitVec 6) : (Nat → Nat) × Flags :=
  if os == 1 then
    let (x, fl) := scalarEl fmt v (h.readS r)
    (fun _ => x, fl)
  else (fun i => h.getEl r.toNat fmt.bytes i, 0)

/-! ### The span of an instruction -/

/-- The elements from VSTART to VL − 1 (R23). -/
def Hart.span (h : Hart) : List Nat :=
  List.range' h.vc.vstart.toNat (min h.vl.toNat (h.spanEnd.getD h.vl.toNat) - h.vc.vstart.toNat)

/-- An instruction with nothing left to do (R59, R119). -/
def Hart.spent (h : Hart) : Bool := h.vl.toNat ≤ h.vc.vstart.toNat

/-- An instruction that ends with every element done returns VSTART to 0 (R59). -/
def finish : Mach Unit := modHart (fun h => h.setVstart 0)

/-! ### The LFSR of a core (R139) -/

/-- One step of the Galois form. -/
def lfsrStep (x : BitVec 32) : BitVec 32 := if x.getLsbD 0 then (x >>> 1) ^^^ 0x80200003#32 else x >>> 1

/-- A check advances its core's LFSR once. -/
def advanceLfsr : Mach Unit :=
  modify (fun s => let k := s.core s.coreNo; s.setCore s.coreNo { k with lfsr := lfsrStep k.lfsr })

/-- The spot check of a VA or VP instruction with an active element at or above VSTART. The lanes of this model compute
right, so it passes; a check that fails is the event SPOT_CHECK. -/
def spotCheck (act : Nat → Bool) : Mach Unit := do
  let h ← hart
  if h.span.any act then advanceLfsr

end Sys2Proof.Machine
end

