-- ==== Sys2Proof/Machine/Flags.lean ====
section
/-!
DEFINITION. What becomes of the flags an instruction raises: FFLAGS, the enabled traps of scalar, element-wise and whole
instructions (R44, R97, R120), and the element loops that deliver them.
-/

namespace Sys2Proof.Machine

/-- A scalar instruction's flags reach FFLAGS; an enabled one then traps with the destination unchanged (RaiseFlags of
R24, R44, R97). -/
def scalarFlags (fl : Flags) : Mach Unit := do
  modHart (fun h => { h with fflags := h.fflags ||| fl })
  if (fl &&& (← hart).te) != 0 then raise cFpTrap (BitVec.ofNat 64 fl.toNat) 0

/-! ### Loops -/

/-- FP_TRAP at element `j` (R44). -/
def fpTrap {α : Type} (j : Nat) (fl : Flags) : Mach α := do
  modHart (fun h => h.setVstart j)
  raise cFpTrap (BitVec.ofNat 64 (j * 2 ^ 32 + fl.toNat)) 0

/-- Element `j`'s flags: an enabled one stops the instruction before the element's write, and none of `j`'s flags reaches
FFLAGS (R44; log 85); otherwise they go to FFLAGS. -/
def elementDone (j : Nat) (fl : Flags) (write : Hart → Hart) : Mach Unit := do
  if (fl &&& (← hart).te) != 0 then fpTrap j fl
  modHart (fun h => { write h with fflags := h.fflags ||| fl })

/-- An element-wise instruction: `extra` are flags that count once, at the lowest active element (R118). -/
def elementwise (act : Hart → Nat → Bool) (extra : Flags) (body : Hart → Nat → Flags × (Hart → Hart)) : Mach Unit := do
  let h ← hart
  let first := h.span.find? (act h)
  h.span.forM (fun i => do
    let h ← hart
    if act h i then
      let (fl, write) := body h i
      elementDone i (if first == some i then fl ||| extra else fl) write)
  finish

/-- A whole instruction's enabled trap: no effect, every flag in TINFO (R120). -/
def wholeFlags (fl : Flags) : Mach Unit := do
  if (fl &&& (← hart).te) != 0 then
    modHart (fun h => h.setVstart 0)
    raise cFpTrap (BitVec.ofNat 64 fl.toNat) 0
  modHart (fun h => { h with fflags := h.fflags ||| fl })

/-- VL unset in matrix mode, for an instruction that reads VL (R162; order 12 of R83). -/
def needVl : Mach Unit := do
  if (← hart).vlUnset then illegal 0x05

end Sys2Proof.Machine
end

