-- ==== Sys2Proof/Machine/Area.lean ====
section
/-!
DEFINITION. What the device itself reads and writes for a context: its descriptor and its areas (R257, R258), and the
fault-service queue (R268, R328).
-/

namespace Sys2Proof.Machine

/-! ### Areas of a context (R258) -/

/-- The physical address of a byte of a context's address space, or the cause that forbids the access. Device accesses
walk the tables at home. -/
def State.areaPa (s : State) (k : Nat) (w : Need) (va : Nat) : Except (BitVec 8) Nat :=
  if 2 ^ 55 ≤ va then .error cAccess
  else
    match s.walkFrom va 2 (s.ctx k).ptroot with
    | .fault => .error cPageFault
    | .poison => .error cPoison
    | .leaf e =>
      let sz := pageSize (eSz e)
      if s.pageBarred (eFrame e) sz || !w.ok e || Config.pcieBase ≤ eFrame e then .error cAccess
      else if ePoison e then .error cPoison
      else .ok (eFrame e + va % sz)

/-- A read of `n` aligned bytes, none past a page. -/
def State.areaRead (s : State) (k va n : Nat) : Except (BitVec 8) Nat := do
  let pa ← s.areaPa k .read va
  if s.homePoisoned pa n then throw cPoison
  return s.homeRead pa n

/-- The walks of a device access to `n` bytes of an area, one for each page (R317; log 76). -/
def State.walksOf (s : State) (k va n : Nat) : State :=
  (List.range' (va / 0x10000) ((va + n - 1) / 0x10000 + 1 - va / 0x10000)).foldl (fun s p => s.homeCheck k (p * 0x10000)) s

/-- A write of `n` aligned bytes, none past a page, whose walk is made. -/
def State.areaStore (s : State) (k va n x : Nat) : Except (BitVec 8) State := do
  let pa ← s.areaPa k .write va
  return s.devWrite pa (bytesOf n x)

/-- A write of `n` aligned bytes, none past a page. -/
def State.areaWrite (s : State) (k va n x : Nat) : Except (BitVec 8) State := (s.walksOf k va n).areaStore k va n x

/-- Consecutive words. -/
def State.areaWords (s : State) (k va cnt : Nat) : Except (BitVec 8) (List Nat) :=
  (List.range cnt).mapM (fun i => s.areaRead k (va + 8 * i) 8)

/-- Consecutive words written. -/
def State.areaPuts (s : State) (k va : Nat) (ws : List Nat) : Except (BitVec 8) State :=
  (List.range ws.length).foldlM (fun s i => s.areaStore k (va + 8 * i) 8 (ws.getD i 0)) (s.walksOf k va (8 * ws.length))

/-- An area access of the moving hart's own context; its failure kills the context (R258). It waits while a channel is being
copied (R382; log 94). -/
def ownArea {α : Type} (f : State → Nat → Except (BitVec 8) α) : Mach α := do
  let s ← get
  if !s.copying.isEmpty then throw .hold
  match f s s.me.ctx with
  | .ok x => return x
  | .error c => throw (.area c)

/-! ### The descriptor in memory (R257) -/

/-- The physical address of a context's descriptor. -/
def descPa (k : Nat) : Nat := Config.contextTable + 256 * k
/-- A field of it. -/
def State.descRead (s : State) (k off n : Nat) : Nat := s.homeRead (descPa k + off) n
/-- A field written. -/
def State.descWrite (s : State) (k off n x : Nat) : State := s.homeWrite (descPa k + off) (bytesOf n x)

/-! ### The fault-service queue (R268) -/

/-- GANGID and HARTID of a hart as records name them. -/
def hartTag (h : Hart) (key : Nat) : Nat := h.gangId.toNat + key % 8 * 2 ^ 20

/-- A record posted: the state, and the cause of a failed area access (R258). -/
def State.postRecord (s : State) (k kind addr info who : Nat) : State × Option (BitVec 8) :=
  let c := s.ctx k
  if c.fsqSize = 0 then (s, none)
  else
    let head := s.descRead k 0x50 8
    let tail := s.descRead k 0x58 8
    if (head + 2 ^ 64 - tail) % 2 ^ 64 = c.fsqSize then
      (s.descWrite k 0x4C 4 (min (s.descRead k 0x4C 4 + 1) (2 ^ 32 - 1)), none)
    else
      match s.areaPuts k (c.fsq + 32 * (head % c.fsqSize)) [kind, addr, info, who] with
      | .ok s' => (s'.descWrite k 0x50 8 (head + 1), none)
      | .error e => (s, some e)

/-- A trimming page fault is posted, each page at most once in 2^16 clocks (R152, R328). -/
def trimPost (va : BitVec 64) : Mach Unit := do
  let s ← get
  let h := s.me
  let c := s.ctx h.ctx
  let page := va.toNat / 0x10000
  if c.posted.any (fun p => p.1 == page && s.clock < p.2 + 2 ^ 16) then pure ()
  else
    let s := s.setCtx h.ctx { c with posted := (page, s.clock) :: c.posted.filter (fun p => p.1 != page) }
    let (s, e) := s.postRecord h.ctx 1 va.toNat 0 (hartTag h s.cur)
    match e with
    | some cause => throw (.area cause)
    | none => set s

/-- Hints of a context dropped: its counter saturates (R56). -/
def State.hintsLost (s : State) (k n : Nat) : State :=
  let c := s.ctx k
  s.setCtx k { c with hintdrop := BitVec.ofNat 32 (min (c.hintdrop.toNat + n) (2 ^ 32 - 1)) }

/-- Hints of the moving hart dropped: its context's counter saturates (R56, R93, R153). -/
def dropHints (n : Nat) : Mach Unit := modify (fun s => s.hintsLost s.me.ctx n)

/-- Whether a hint to an address is dropped and counted: malformed, unmapped, protected or device-class (R93, R153). One
to a page that is being evicted is held (R324). -/
def State.hintLost (s : State) (ea : BitVec 64) : Bool :=
  (ea.extractLsb' 55 9) != 0
    || (match s.translate s.coreNo s.me.ctx .read (ea.toNat % 2 ^ 55) with
        | .ok x => x.dev
        | .hold => false
        | _ => true)

/-- A hint of the moving hart that is not dropped is in flight. -/
def State.hint (s : State) (ea : BitVec 64) (n level : Nat) : State :=
  { s with hints := s.hints ++ [{ core := s.coreNo, ctx := s.me.ctx, va := ea.toNat % 2 ^ 55, n := n, level := level }] }

/-- The addresses of a prefetch, one for each line that it touches. -/
def Hint.lines (x : Hint) : List Nat :=
  (List.range' (x.va / 128) ((x.va + x.n + 127) / 128 - x.va / 128)).map (fun l => max x.va (128 * l))

/-- A line of an address as a core's caches take it through a context's translation: none of device-class or bypass memory
(R238). -/
def State.fillFor (s : State) (c k : Nat) (need : Need) (va : Nat) : State :=
  match s.translate c k need va with
  | .ok p => if !p.dev && p.pol != 3 then s.fillLine c (p.pa / 128) else s
  | _ => s

/-- The same, and into a scalar cache: the instruction cache for a fetch, the data cache otherwise. -/
def State.fillScalar (s : State) (c k : Nat) (need : Need) (va : Nat) : State :=
  match s.translate c k need va with
  | .ok p => if !p.dev && p.pol != 3 then (s.fillLine c (p.pa / 128)).scalarLine c (p.pa / 128) (need == .fetch) else s
  | _ => s

/-- A prefetch is performed: its pages are walked (R317); it fills its lines, waits on while one of its pages is held, or is
dropped and counted where one is no longer there or is device-class (R93, R153, R324). -/
def State.performHint (s : State) (x : Hint) : State :=
  let xs := x.lines.map (fun a => s.translate x.core x.ctx .read a)
  if xs.contains .hold then { s with hints := s.hints ++ [x] }
  else
    let ps := (x.lines.map (· / 0x10000)).eraseDups
    let s := ps.foldl (fun s p => s.walked x.core x.ctx (p * 0x10000)) s
    if xs.any (fun r => match r with | .ok p => p.dev | _ => true) then s.hintsLost x.ctx 1
    else if x.level = 0 then x.lines.foldl (fun s a => s.fillScalar x.core x.ctx .read a) s
    else if x.level = 1 then x.lines.foldl (fun s a => s.fillFor x.core x.ctx .read a) s
    else s

/-- Every prefetch in flight is performed. -/
def State.performHints (s : State) : State := s.hints.foldl State.performHint { s with hints := [] }

/-- An eviction of a range cancels the prefetches in flight there, each counting once (R93, R324). -/
def State.cancelHints (s : State) (k va n : Nat) : State :=
  let hit (x : Hint) : Bool := x.ctx == k && x.va < va + n && va < x.va + x.n
  { s with hints := s.hints.filter (fun x => !hit x) }.hintsLost k (s.hints.countP hit)

end Sys2Proof.Machine
end

