-- ==== Sys2Proof/Machine/Elements.lean ====
section
/-!
DEFINITION. What one element operation computes, on patterns (R46, R117, R123 to R130): pure functions shared by the
lanes, the Fuller's combiners and the reductions.
-/

namespace Sys2Proof

/-- An element operation of two sources: the environment, the two patterns, the result and its flags. -/
abbrev El2 := FpEnv → Nat → Nat → Nat × Flags

namespace El

/-- An integer operation on the values of two patterns, wrapped (R46). -/
def int2 (fmt : Fmt) (op : Int → Int → Int) (a b : Nat) : Nat × Flags :=
  (intBits fmt.bits (op (intOfBits fmt.isSigned fmt.bits a) (intOfBits fmt.isSigned fmt.bits b)), 0)

/-- A floating operation on decoded operands. -/
def flt2 (fmt : Fmt) (v : FpEnv) (op : Num → Num → Num × Flags) (a b : Nat) : Nat × Flags :=
  v.finish fmt (op (v.arg fmt a) (v.arg fmt b))

/-- Quotient and remainder with R46's corners. -/
def intDiv (fmt : Fmt) (a b : Int) : Int :=
  if b = 0 then -1
  else if fmt.isSigned ∧ a = -(2 ^ (fmt.bits - 1)) ∧ b = -1 then a
  else a.tdiv b
def intRem (fmt : Fmt) (a b : Int) : Int :=
  if b = 0 then a
  else if fmt.isSigned ∧ a = -(2 ^ (fmt.bits - 1)) ∧ b = -1 then 0
  else a.tmod b

def add (fmt : Fmt) (v : FpEnv) (a b : Nat) : Nat × Flags :=
  if fmt.isInt then int2 fmt (· + ·) a b else flt2 fmt v (Num.add v.rm) a b
def sub (fmt : Fmt) (v : FpEnv) (a b : Nat) : Nat × Flags :=
  if fmt.isInt then int2 fmt (· - ·) a b else flt2 fmt v (Num.sub v.rm) a b
def mul (fmt : Fmt) (v : FpEnv) (a b : Nat) : Nat × Flags :=
  if fmt.isInt then int2 fmt (· * ·) a b else flt2 fmt v Num.mul a b
def mulh (fmt : Fmt) (_ : FpEnv) (a b : Nat) : Nat × Flags := int2 fmt (fun x y => x * y / 2 ^ fmt.bits) a b
def div (fmt : Fmt) (v : FpEnv) (a b : Nat) : Nat × Flags :=
  if fmt.isInt then int2 fmt (intDiv fmt) a b else flt2 fmt v Num.div a b
def rem (fmt : Fmt) (_ : FpEnv) (a b : Nat) : Nat × Flags := int2 fmt (intRem fmt) a b

/-- MIN and MAX as FMIN and FMAX; the chosen operand is written exactly (R98, R123). -/
def minMax (wantMax : Bool) (fmt : Fmt) (v : FpEnv) (a b : Nat) : Nat × Flags :=
  if fmt.isInt then int2 fmt (if wantMax then max else min) a b
  else v.exact.finish fmt (Num.minMax wantMax (v.arg fmt a) (v.arg fmt b))

def bitAnd (fmt : Fmt) (_ : FpEnv) (a b : Nat) : Nat × Flags := ((a &&& b) % 2 ^ fmt.bits, 0)
def bitOr (fmt : Fmt) (_ : FpEnv) (a b : Nat) : Nat × Flags := ((a ||| b) % 2 ^ fmt.bits, 0)
def bitXor (fmt : Fmt) (_ : FpEnv) (a b : Nat) : Nat × Flags := ((a ^^^ b) % 2 ^ fmt.bits, 0)
/-- The shift amount: the low log2(w) bits of b (R123). -/
def sll (fmt : Fmt) (_ : FpEnv) (a b : Nat) : Nat × Flags := (a * 2 ^ (b % fmt.bits) % 2 ^ fmt.bits, 0)
def srl (fmt : Fmt) (_ : FpEnv) (a b : Nat) : Nat × Flags := (a % 2 ^ fmt.bits / 2 ^ (b % fmt.bits), 0)
/-- Fills with bit w − 1 of a. -/
def sra (fmt : Fmt) (_ : FpEnv) (a b : Nat) : Nat × Flags :=
  (intBits fmt.bits (intOfBits true fmt.bits a / 2 ^ (b % fmt.bits)), 0)
def adds (fmt : Fmt) (_ : FpEnv) (a b : Nat) : Nat × Flags :=
  int2 fmt (fun x y => intClamp fmt.isSigned fmt.bits (x + y)) a b
def subs (fmt : Fmt) (_ : FpEnv) (a b : Nat) : Nat × Flags :=
  int2 fmt (fun x y => intClamp fmt.isSigned fmt.bits (x - y)) a b
def avg (fmt : Fmt) (_ : FpEnv) (a b : Nat) : Nat × Flags := int2 fmt (fun x y => (x + y + 1) / 2) a b

/-- `±(a·b) ± d` (R124). -/
def fma (negProd negAdd : Bool) (fmt : Fmt) (v : FpEnv) (a b d : Nat) : Nat × Flags :=
  if fmt.isInt then
    let x := intOfBits fmt.isSigned fmt.bits a * intOfBits fmt.isSigned fmt.bits b
    let y := intOfBits fmt.isSigned fmt.bits d
    (intBits fmt.bits ((if negProd then -x else x) + (if negAdd then -y else y)), 0)
  else v.finish fmt (Num.fma v.rm negProd negAdd (v.arg fmt a) (v.arg fmt b) (v.arg fmt d))

/-- VABS and VNEG: the sign cleared or flipped exactly (R123). -/
def abs (fmt : Fmt) (v : FpEnv) (a : Nat) : Nat × Flags :=
  match fmt with
  | .i w => (intBits w (intOfBits true w a).natAbs, 0)
  | .n w => (a % 2 ^ w, 0)
  | fmt =>
    let x := v.arg fmt a
    v.exact.finish fmt (x.abs, 0)
def neg (fmt : Fmt) (v : FpEnv) (a : Nat) : Nat × Flags :=
  if fmt.isInt then (intBits fmt.bits (-(intOfBits fmt.isSigned fmt.bits a)), 0)
  else v.exact.finish fmt ((v.arg fmt a).neg, 0)
def not (fmt : Fmt) (_ : FpEnv) (a : Nat) : Nat × Flags := (2 ^ fmt.bits - 1 - a % 2 ^ fmt.bits, 0)
def sqrt (fmt : Fmt) (v : FpEnv) (a : Nat) : Nat × Flags := v.finish fmt (Num.sqrt (v.arg fmt a))

/-- min(max(a, lo), hi) (R126). -/
def clamp (fmt : Fmt) (v : FpEnv) (a lo hi : Nat) : Nat × Flags :=
  let (x, f) := minMax true fmt v a lo
  let (y, g) := minMax false fmt v x hi
  (y, f ||| g)

/-- a · 2^n (R126). Past ±4096 every n gives the overflow or the underflow that 4096 gives. -/
def scale (fmt : Fmt) (v : FpEnv) (a : Nat) (n : Int) : Nat × Flags :=
  match v.arg fmt a with
  | .fin s m e => v.finish fmt (.fin s m (e + max (-4096) (min 4096 n)), 0)
  | x => v.finish fmt (x, 0)

/-! ### The estimates of R125 -/

/-- The significant bits of an estimate. -/
def estBits (fmt : Fmt) : Nat :=
  match fmt with
  | .flt .fp16 => 11
  | .flt .bf16 => 8
  | _ => 12

/-- The magnitude truncated toward zero to `p` significant bits. -/
def trunc (p m : Nat) (e : Int) : Nat × Int :=
  let l := Num.bitLen m
  if l ≤ p then (m, e) else (m / 2 ^ (l - p), e + (l - p : Nat))

/-- Working fraction bits of the two transcendental estimates. -/
def workBits : Nat := 512

/-- `2^t` for a fraction `t = x / 2^n`, `x < 2^n`, as a number over 2^workBits: the product of the roots of two that the
fraction's bits select, each root the square root of the one before. -/
def exp2Frac (n x : Nat) : Nat :=
  let step (st : Nat × Nat) (i : Nat) : Nat × Nat :=
    let root := isqrt (st.1 * 2 ^ workBits)
    (root, if x.testBit (n - 1 - i) then st.2 * root / 2 ^ workBits else st.2)
  ((List.range n).foldl step (2 * 2 ^ workBits, 2 ^ workBits)).2

/-- The first `k` binary digits of log2 of `m / 2^b` in [1, 2): squarings, each giving one digit. -/
def log2Frac (k b m : Nat) : Nat :=
  let step (st : Nat × Nat) (_ : Nat) : Nat × Nat :=
    let q := st.1 * st.1 / 2 ^ workBits
    if 2 * 2 ^ workBits ≤ q then (q / 2, 2 * st.2 + 1) else (q, 2 * st.2)
  ((List.range k).foldl step (m * 2 ^ workBits / 2 ^ b, 0)).2

/-- An estimate is written by Encode toward zero; it never raises inexact (R125). -/
def estFinish (fmt : Fmt) (v : FpEnv) (x : Num) (fl : Flags) : Nat × Flags :=
  let (b, f) := fmt.encode .rtz v.sat v.fz x
  (b, (f ||| fl) &&& ~~~Flags.nx)

/-- Special operands of the four estimates; `k` computes on a finite nonzero value. -/
def rcp (fmt : Fmt) (v : FpEnv) (a : Nat) : Nat × Flags :=
  match v.arg fmt a with
  | .nan s => estFinish fmt v (.nan false) (if s then Flags.nv else 0)
  | .inf s => estFinish fmt v (.fin s 0 0) 0
  | .fin s m e =>
    if m = 0 then estFinish fmt v (.inf s) Flags.dz
    else
      let k := Num.bitLen m + 32
      let (t, q) := trunc (estBits fmt) (2 ^ k / m) (-e - k)
      estFinish fmt v (.fin s t q) 0
def rsq (fmt : Fmt) (v : FpEnv) (a : Nat) : Nat × Flags :=
  match v.arg fmt a with
  | .nan s => estFinish fmt v (.nan false) (if s then Flags.nv else 0)
  | .inf s => if s then estFinish fmt v (.nan false) Flags.nv else estFinish fmt v (.fin false 0 0) 0
  | .fin s m e =>
    if m = 0 then estFinish fmt v (.inf s) Flags.dz
    else if s then estFinish fmt v (.nan false) Flags.nv
    else
      -- 1/√(m·2^e) with an even exponent: √(2^(2k) / m') over 2^k
      let m' := if e % 2 = 0 then m else 2 * m
      let e' := if e % 2 = 0 then e else e - 1
      let k := Num.bitLen m' + 32
      let (t, q) := trunc (estBits fmt) (isqrt (2 ^ (2 * k) / m')) (-(e' / 2) - k)
      estFinish fmt v (.fin false t q) 0
def exp2 (fmt : Fmt) (v : FpEnv) (a : Nat) : Nat × Flags :=
  match v.arg fmt a with
  | .nan s => estFinish fmt v (.nan false) (if s then Flags.nv else 0)
  | .inf s => if s then estFinish fmt v (.fin false 0 0) 0 else estFinish fmt v (.inf false) 0
  | .fin s m e =>
    if m = 0 then estFinish fmt v (.fin false 1 0) 0
    else if e + Num.bitLen m > 20 then
      -- beyond every format's exponents: overflow, or underflow to zero
      estFinish fmt v (if s then .fin false 1 (-4096) else .fin false 1 4096) 0
    else
      let n := (-e).toNat
      let x : Int := if s then -((m * 2 ^ e.toNat : Nat) : Int) else ((m * 2 ^ e.toNat : Nat) : Int)
      let ip := x / 2 ^ n
      let fp := (x % 2 ^ n).toNat
      if fp = 0 then estFinish fmt v (.fin false 1 ip) 0
      else
        let y := exp2Frac n fp
        -- a fraction below the working precision still lies above one
        let (t, q) := trunc (estBits fmt) y (ip - workBits)
        -- a tiny negative argument lies just below a power of two
        estFinish fmt v (.fin false t q) 0
def log2 (fmt : Fmt) (v : FpEnv) (a : Nat) : Nat × Flags :=
  match v.arg fmt a with
  | .nan s => estFinish fmt v (.nan false) (if s then Flags.nv else 0)
  | .inf s => if s then estFinish fmt v (.nan false) Flags.nv else estFinish fmt v (.inf false) 0
  | .fin s m e =>
    if m = 0 then estFinish fmt v (.inf true) Flags.dz
    else if s then estFinish fmt v (.nan false) Flags.nv
    else
      let b := Num.bitLen m - 1
      let ip := e + b
      if m = 2 ^ b then estFinish fmt v (Num.ofInt ip) 0
      else
        let k := 64
        let f := log2Frac k b m
        -- the value lies strictly between f and f + 1 over 2^k, both below one
        let x : Int := ip * 2 ^ k + f
        if 0 ≤ x then
          let (t, q) := trunc (estBits fmt) x.natAbs (-(k : Int))
          estFinish fmt v (.fin false t q) 0
        else
          -- toward zero: the magnitude is just above |x| − 1
          let (t, q) := trunc (estBits fmt) (x.natAbs - 1) (-(k : Int))
          estFinish fmt v (.fin true t q) 0

/-! ### Comparisons (R99, R129) -/

/-- A comparison of two patterns under a condition code of R129. -/
def cmp (c : Nat) (fmt : Fmt) (fz : Bool) (a b : Nat) : Bool × Flags :=
  let rel (o : Ordering) : Bool :=
    match c with
    | 0 => o == .eq | 1 => o != .eq | 2 => o == .lt | 3 => o != .lt | 4 => o != .gt | 5 => o == .gt | _ => false
  if fmt.isInt then
    (rel (compare (intOfBits fmt.isSigned fmt.bits a) (intOfBits fmt.isSigned fmt.bits b)), 0)
  else
    let x := (fmt.decode a).flushIn fz fmt
    let y := (fmt.decode b).flushIn fz fmt
    if x.isNan || y.isNan then
      let sig := x.isSNan || y.isSNan
      (c == 1 || c == 6, if sig || (2 ≤ c && c ≤ 5) then Flags.nv else 0)
    else (rel (Num.cmp x y), 0)

/-- A NaN-free sum of dot-product terms in any order (R47): exact values added exactly, or a NaN or infinity by the rules
of addition, with the flags of R168. R47 leaves the sign of an exactly zero sum open: here it is that of IEEE 754-2019
addition under `rm`, so −0 toward −∞ (log 7, DESIGN CHOICE). -/
def exactSum (rm : Rm) (ts : List Num) : Num × Flags :=
  ts.foldl
    (fun (acc : Num × Flags) t =>
      let (r, fl) := Num.add rm acc.1 t
      (r, acc.2 ||| fl))
    (.fin true 0 0, 0)

end El
end Sys2Proof
end

