-- ==== Sys2Proof/Machine/VectorMem.lean ====
section
/-!
DEFINITION. The effects of class VM (R141 to R159): stored encodings and slots (R33 to R38, R60 to R62, R147), element
places (R143), loads and stores with their faults (R150 to R152), VPREF, VTRANS and VSEGADD.
-/

namespace Sys2Proof.Machine

/-! ### Faults of vector-side memory work (R150) -/

/-- TINFO of a fault at element `j`, of a kind: 0 read, 1 write, 2 read-modify-write, 3 engine transfer. -/
def vecInfo (j kind : Nat) : BitVec 64 := BitVec.ofNat 64 (j * 2 ^ 32 + 0x8000 + kind)

/-- A memory fault of element `j` leaves VSTART at `v`. -/
def stopAt {α : Type} (v : Nat) (m : Mach α) : Mach α :=
  tryCatch m (fun e => do
    match e with
    | .trap _ _ _ => modHart (fun h => h.setVstart v)
    | _ => pure ()
    throw e)

/-- Run over a list until the body answers false. -/
def loopWhile {α : Type} : List α → (α → Mach Bool) → Mach Unit
  | [], _ => pure ()
  | x :: t, body => do
    if ← body x then loopWhile t body

/-! ### Stored encodings (R33 to R37, R60) -/

/-- How an element is stored: whole bytes, a nibble, or `k` of `b` bits in groups of `q` bytes. -/
inductive Enc
  | el (f : Fmt)
  | nib (f : Fmt)
  | grp (b k q : Nat) (f : Fmt)
  deriving DecidableEq, Repr

/-- The encoding an ENC code names. -/
def Enc.ofCode (c : Nat) : Option Enc :=
  match c with
  | 16 => some (.nib (.i 4))
  | 17 => some (.nib (.flt .e2m1))
  | 18 => some (.grp 10 3 4 (.n 10))
  | 19 => some (.grp 12 2 3 (.n 12))
  | 20 => some (.grp 14 4 7 (.n 14))
  | 21 => some (.grp 6 4 3 (.tap 6))
  | c => if c < 16 then (Fmt.ofCode (BitVec.ofNat 4 c)).map Enc.el else none

def Enc.fmt : Enc → Fmt
  | .el f => f
  | .nib f => f
  | .grp _ _ _ f => f

/-- What one conversion uses (R38, R60, R62, R147). -/
structure Slot where
  enc : Enc
  scale : Nat                        -- 0 none, 1 tensor, 2 MX32, 3 channel
  src : BitVec 64
  ch : Nat
  rm : Rm
  sat : Bool
  raw : Bool
  deriving DecidableEq, Repr

/-- Fields of an MFC register. -/
def mfcEnc (w : BitVec 64) : Nat := (w.extractLsb' 0 5).toNat
def mfcScale (w : BitVec 64) : Nat := (w.extractLsb' 5 2).toNat
def mfcRm (w : BitVec 64) : BitVec 3 := w.extractLsb' 7 3
def mfcSat (w : BitVec 64) : Bool := w.getLsbD 10
def mfcCh (w : BitVec 64) : Nat := let c := (w.extractLsb' 16 16).toNat; if c = 0 then 65536 else c

/-- Slot `n`; an ENC without meaning was refused at issue (R61). -/
def Hart.slotOf (h : Hart) (n : Fin 4) : Slot :=
  let w := h.vc.mfc.get n
  { enc := (Enc.ofCode (mfcEnc w)).getD (.el (.i 8)), scale := mfcScale w, src := h.vc.mfcsb.get n, ch := mfcCh w
    rm := Rm.ofCode h.frm (mfcRm w), sat := mfcSat w, raw := false }

/-- The slot a tag names, `rm` the rounding mode of MFC0. -/
def Hart.tagSlot (h : Hart) (rm : Rm) (tag : Nat) : Option Slot :=
  let sat := mfcSat (h.vc.mfc.get 0)
  let mk (e : Enc) (scale : Nat) (src : BitVec 64) : Slot :=
    { enc := e, scale := scale, src := src, ch := mfcCh (h.vc.mfc.get 1), rm := rm, sat := sat, raw := false }
  match tag with
  | 1 => some (mk (.el (.flt .bf16)) 0 0)
  | 2 => some (mk (.el (.flt .e4m3)) 1 (h.vc.mfcsb.get 0))
  | 3 => some (mk (.nib (.i 4)) 3 (h.vc.mfcsb.get 1))
  | 4 => some (mk (.nib (.flt .e2m1)) 2 (h.vc.mfcsb.get 2))
  | 5 => some (mk (.el (.tap 6)) 0 0)
  | _ => none

/-! ### Where elements lie (R143, R159) -/

/-- The form of an access's addresses. -/
inductive Form
  | unit | strided | indexed
  deriving DecidableEq, Repr

/-- What the elements of one VM, VSEGADD or VAMO instruction share. -/
structure Vm where
  vd : Nat
  x : Nat
  vb : Nat
  m : BitVec 5
  et : BitVec 4
  fmt : Nat
  form : Form
  base : Nat
  stride : Int
  sp : Bool
  bypass : Bool
  nk : Nat                           -- sub-elements of a slab (R159)
  rb : Nat                           -- bytes of a register element
  tagRm : Rm
  deriving DecidableEq, Repr

/-- The common facts of an instruction; `sub` where a slab splits into elements whatever fmt is. -/
def Hart.vm (h : Hart) (f : VmF) (form : Form) (sub : Bool) : Vm :=
  let b := (etFmt f.et).bytes
  { vd := f.vd.toNat, x := f.x.toNat, vb := f.vb.toNat, m := f.m, et := f.et, fmt := f.fmt.toNat, form := form
    base := (h.readS f.va).toNat, stride := (h.readS f.vb).toInt, sp := f.space == 1, bypass := f.pol == 3
    nk := if h.mxm && (f.fmt != 0 || sub) then 64 / b else 1
    rb := if h.mxm then 64 else b
    tagRm := Rm.ofCode h.frm (mfcRm (h.vc.mfc.get 0)) }

def Vm.b (v : Vm) : Nat := (etFmt v.et).bytes

/-- The slot of element `i`; none where its tag names no format. -/
def Vm.slot (v : Vm) (h : Hart) (i : Nat) : Option Slot :=
  match v.fmt with
  | 0 =>
    let bytes := if v.nk = 1 then v.rb else v.b
    some { enc := .el (.n (8 * bytes)), scale := 0, src := 0, ch := 0, rm := .rne, sat := false, raw := true }
  | 1 => some (h.slotOf 0)
  | 2 => some (h.slotOf 1)
  | 3 => some (h.slotOf 2)
  | 4 => some (h.slotOf 3)
  | _ => h.tagSlot v.tagRm (h.getBytes v.x (if h.mxm then 64 else 1) i 0 1 % 16)

/-- Bits of an index element (R143). -/
def Vm.wx (v : Vm) : Nat := if v.b = 8 || v.fmt = 5 then 64 else 32

/-- Index `i`, signed. -/
def Vm.idx (v : Vm) (h : Hart) (i : Nat) : Int :=
  if h.mxm then intOfBits true 64 (h.getBytes v.vb 64 i 0 8)
  else intOfBits true v.wx (h.getEl v.vb (v.wx / 8) i)

/-- A stored part: its address, bytes, alignment, and the bits of the element inside. -/
structure Part where
  ea : BitVec 64
  n : Nat
  align : Nat
  lo : Nat
  w : Nat
  deriving DecidableEq, Repr

/-- The address of element `i`, part `k`, counting in units of which `mul` make a byte, `s` to an element. -/
def Vm.unit (v : Vm) (h : Hart) (mul s : Nat) (i k : Nat) : Int :=
  (match v.form with
   | .unit => (v.base * mul + i * v.nk * s : Nat)
   | .strided => ((v.base : Int) + i * v.stride) * mul
   | .indexed => (v.base * mul : Nat) + v.idx h i) + (k * s : Nat)

/-- Where element `i`, part `k` of an encoding lies. -/
def Vm.part (v : Vm) (h : Hart) (e : Enc) (i k : Nat) : Part :=
  match e with
  | .el f =>
    { ea := BitVec.ofInt 64 (v.unit h 1 f.bytes i k), n := f.bytes, align := min f.bytes 8, lo := 0, w := 8 * f.bytes }
  | .nib _ =>
    let a := v.unit h 2 1 i k
    { ea := BitVec.ofInt 64 (a / 2), n := 1, align := 1, lo := 4 * (a % 2).toNat, w := 4 }
  | .grp b n q _ =>
    let j := i * v.nk + k
    { ea := BitVec.ofNat 64 (v.base + j / n * q), n := q, align := if b = 10 then 4 else 1, lo := b * (j % n), w := b }

/-- The accesses that make up a part: none crosses a page unseen. -/
def Part.pieces (p : Part) : List (BitVec 64 × Nat) :=
  if p.n = 64 then (List.range 8).map (fun q => (p.ea + BitVec.ofNat 64 (8 * q), 8))
  else if p.n = 3 || p.n = 7 then (List.range p.n).map (fun q => (p.ea + BitVec.ofNat 64 q, 1))
  else [(p.ea, p.n)]

/-- The accesses of a part of the element at `told`. -/
def Part.accs (p : Part) (need : Need) (info : BitVec 64) (sp bypass : Bool) (told : BitVec 64) : List Acc :=
  p.pieces.map (fun (a, n) =>
    { req := { need := need, n := n, align := if n = p.n then p.align else min n 8, bypass := bypass, info := info, vec := true
               walks := false }
      sp := sp, ea := a, told := told })

/-- Every piece of a part located, or its fault: both pages of a straddling part are translated before the barrier check
(R91, R143). -/
def locPart (need : Need) (info : BitVec 64) (sp bypass : Bool) (told : BitVec 64) (p : Part) : Mach (List (Loc × Nat)) := do
  let ls ← locateAll (p.accs need info sp bypass told)
  return ls.zip (p.pieces.map (fun x => x.2))

/-- The first of the addresses that lies on a page without a translation, for the fault-service queue (R328). -/
def State.absentByte (s : State) (as : List (BitVec 64)) (ea : BitVec 64) : BitVec 64 :=
  (as.find? (fun a => s.translate s.coreNo s.me.ctx .read (a.toNat % 2 ^ 55) == .cause cPageFault)).getD ea

/-- The value of located pieces, with poison taken. -/
def readPieces (info : BitVec 64) (ea : BitVec 64) (ls : List (Loc × Nat)) : Mach Nat := do
  let (x, _) ← ls.foldlM (fun (acc : Nat × Nat) (l, n) => do
    let v ← readLoc { need := .read, n := n, align := 1, bypass := false, info := info, vec := true } ea l
    return (acc.1 + v * 256 ^ acc.2, acc.2 + n)) (0, 0)
  return x

/-- The value of located pieces as they stand, poison or not: the old bits of a sub-byte write, from home where it is
performed there (R146, R240, R242). -/
def peekPieces (info : BitVec 64) (ea : BitVec 64) (ls : List (Loc × Nat)) : Mach Nat := do
  let (x, _) ← ls.foldlM (fun (acc : Nat × Nat) (l, n) => do
    let v ← match l with
      | .dev _ => readLoc { need := .write, n := n, align := 1, bypass := false, info := info, vec := true } ea l
      | l => do
        match l with
        | .dram pa true => modify (fun s => s.evictLine s.coreNo pa)
        | _ => pure ()
        pure (ofBytes ((← get).peek l n))
    return (acc.1 + v * 256 ^ acc.2, acc.2 + n)) (0, 0)
  return x

/-- Located pieces written. -/
def writePieces (ls : List (Loc × Nat)) (x : Nat) : Mach Unit := do
  let _ ← ls.foldlM (fun (off : Nat) (l, n) => do
    writeLoc l n (x / 256 ^ off)
    return off + n) 0

/-- Whether a global address lies in device-class memory (R149, R151, R318). -/
def State.devClass (s : State) (need : Need) (ea : BitVec 64) : Bool :=
  match s.translate s.coreNo s.me.ctx need (ea.toNat % 2 ^ 55) with
  | .ok x => x.dev
  | _ => false

/-- Whether one of the addresses lies in device-class memory, read or written. -/
def State.anyDevice (s : State) (as : List (BitVec 64)) : Bool :=
  as.any (fun a => !isSpad a && (s.devClass .read a || s.devClass .write a))

/-! ### Scales (R34, R38) -/

/-- Where the scale of flat element `fi` stands, with its bytes (R34, R62): none for a scale that is no array's. -/
def Slot.scaleAt (sl : Slot) (fi : Nat) : Option (BitVec 64 × Nat) :=
  match sl.scale with
  | 2 => some (sl.src + BitVec.ofNat 64 (fi / 32), 1)
  | 3 => some (sl.src + BitVec.ofNat 64 (2 * (fi % sl.ch)), 2)
  | _ => none

/-- An access to a scale array, as data of the instruction. -/
def scaleReq (need : Need) (n : Nat) (bypass : Bool) (info : BitVec 64) : Req :=
  { need := need, n := n, align := n, bypass := bypass, info := info, vec := true, walks := false }

/-- The scale of flat element `fi` of the element at `ea`; the scale array is read as data of the instruction, under its
policy (R62, R149), a fault there is the element's (R150), and poison there poisons the element (R378). R41 has FZ act on
operands and results and the converters decode subnormals exactly: a subnormal scale is taken as it is (log 63, DESIGN
CHOICE). -/
def scaleOf (sl : Slot) (bypass : Bool) (info ea : BitVec 64) (fi : Nat) : Mach Num := do
  let bits ← match sl.scaleAt fi with
    | some (a, n) => do
      let q := scaleReq .read n bypass info
      let l ← faultAs ea (locate q (isSpad a) a)
      readLoc q ea l
    | none => pure (sl.src.toNat % 2 ^ 32)
  match sl.scale with
  | 1 => return fltDecode .fp32 bits
  | 2 =>
    let adj : Int := if sl.enc == .el (.i 8) then 6 else 0
    return if bits = 255 then .nan false else .fin false 1 (bits - 127 - adj)
  | 3 => return fltDecode .fp16 bits
  | _ => return .fin false 1 0

/-- A loaded value (R38, R45, R145). -/
def convIn (sl : Slot) (et : Fmt) (fz : Bool) (sigma : Num) (bits : Nat) : Nat × Flags :=
  let env : FpEnv := { rm := sl.rm, sat := sl.sat, fz := fz }
  if sl.scale = 0 then convert sl.enc.fmt et sl.rm sl.sat fz bits
  else env.finish et (Num.mul (env.arg sl.enc.fmt bits) sigma)

/-- A stored value (R38, R45, R146): a scale that is zero, NaN or infinite raises invalid. -/
def convOut (sl : Slot) (et : Fmt) (fz : Bool) (sigma : Num) (bits : Nat) : Nat × Flags :=
  let env : FpEnv := { rm := sl.rm, sat := sl.sat, fz := fz }
  if sl.scale = 0 then convert et sl.enc.fmt sl.rm sl.sat fz bits
  else
    match sigma with
    | .fin _ m _ =>
      if m = 0 then (sl.enc.fmt.defaultNaN, Flags.nv)
      else env.finish sl.enc.fmt (Num.div (env.arg et bits) sigma)
    | _ => (sl.enc.fmt.defaultNaN, Flags.nv)

/-- The largest exponent of an MX element format (R35). -/
def mxEmax (e : Enc) : Int :=
  match e with
  | .el (.flt .e4m3) => 8
  | .nib _ => 2
  | _ => 0

/-- The scale byte of a block of values (R35). -/
def mxScale (emax : Int) (xs : List Num) : Nat :=
  if xs.any (fun x => match x with | .fin _ _ _ => false | _ => true) then 255
  else
    let a := xs.foldl (fun (a : Num) x => if Num.cmp a x.abs = .lt then x.abs else a) (.fin false 0 0)
    match a with
    | .fin _ m e => if m = 0 then 0 else (max 0 (min 254 (e + Num.bitLen m - 1 - emax + 127))).toNat
    | _ => 255

/-! ### Elements of the register side -/

/-- Sub-element `k` of element `i`. -/
def Vm.get (v : Vm) (h : Hart) (i k : Nat) : Nat :=
  if v.nk = 1 then h.getBytes v.vd v.rb i 0 v.rb else h.getBytes v.vd 64 i (k * v.b) v.b
/-- That sub-element written. -/
def Vm.put (v : Vm) (h : Hart) (i k x : Nat) : Hart :=
  if v.nk = 1 then h.setBytes v.vd v.rb i 0 v.rb x else h.setBytes v.vd 64 i (k * v.b) v.b x

/-- The elements accessed: active, their tag naming a format. -/
def Vm.uses (v : Vm) (h : Hart) (i : Nat) : Bool := h.activeBit v.m 0 i && (v.slot h i).isSome
/-- The parts of an element. -/
def Vm.parts (v : Vm) (h : Hart) (i : Nat) : List Part :=
  match v.slot h i with
  | some sl => (List.range v.nk).map (v.part h sl.enc i)
  | none => []

/-- The rounding mode of tagged accesses: that of MFC0. Its codes 110 and 111, which no rule forbids or gives a meaning,
stand for any of the five. -/
def tagMode : Mach Rm := do
  let h ← hart
  let c := mfcRm (h.vc.mfc.get 0)
  if 6 ≤ c.toNat then
    let x ← freshBits 8
    return Rm.ofCode .rne (BitVec.ofNat 3 (x.toNat % 5))
  else return Rm.ofCode h.frm c

/-- An access with the rounding mode of its tags. -/
def Vm.resolve (v : Vm) : Mach Vm := do
  if v.fmt = 5 then
    let rm ← tagMode
    return { v with tagRm := rm }
  else return v

/-- The address of element `i`, of which its faults tell (R150). -/
def Vm.addr (v : Vm) (h : Hart) (i : Nat) : BitVec 64 := ((v.parts h i).head?.map (fun p => p.ea)).getD 0

/-- Whether part `k` of element `i` is the first of its block that this execution stores. -/
def Vm.firstOfBlock (v : Vm) (h : Hart) (i k : Nat) : Bool :=
  let blk := (i * v.nk + k) / 32
  (k == 0 || (i * v.nk + k) % 32 == 0)
    && (List.range' h.vc.vstart.toNat (i - h.vc.vstart.toNat)).all (fun j =>
      !((j * v.nk + v.nk - 1) / 32 ≥ blk && h.activeBit v.m 0 j
        && (match v.slot h j with | some sl => sl.scale == 2 | none => false)))

/-- Whether a part is whole bytes; any other is an indivisible read-modify-write of its byte or group (R146). -/
def Part.whole (p : Part) : Bool := p.lo = 0 && p.w = 8 * p.n

/-- The accesses of element `i` of a load or, with `need` write, of a store: its parts, then its scales. A store reads the
scales of a channel and writes those of the MX blocks that it begins (R35); at die scope and wider it updates a part of a
byte at its home (R240). -/
def Vm.accs (v : Vm) (h : Hart) (need : Need) (scope i : Nat) : List Acc :=
  let info := vecInfo i (if need == .write then 1 else 0)
  let told := v.addr h i
  match v.slot h i with
  | none => []
  | some sl =>
    (List.range v.nk).flatMap (fun k =>
      let p := v.part h sl.enc i k
      p.accs need info v.sp (v.bypass || (need == .write && 3 ≤ scope && !p.whole)) told)
      ++ (List.range v.nk).filterMap (fun k => (sl.scaleAt (i * v.nk + k)).bind (fun (a, n) =>
        let acc (w : Need) : Option Acc := some { req := scaleReq w n v.bypass info, sp := isSpad a, ea := a, told := told }
        if need == .write && sl.scale == 2 then (if v.firstOfBlock h i k then acc .write else none) else acc .read))

/-- The global addresses that element `i` touches, as they are needed. -/
def Vm.touches (v : Vm) (h : Hart) (need : Need) (i : Nat) : List (Need × BitVec 64) :=
  ((v.accs h need 0 i).filter (fun x => !x.sp)).map (fun x => (x.req.need, x.ea))

/-- The first device-class address among those listed. -/
def State.firstDevice (s : State) (xs : List (Need × BitVec 64)) : Option (BitVec 64) :=
  (xs.find? (fun x => s.devClass x.1 x.2)).map (fun x => x.2)

/-- The pages of elements, or rows, translated before any of them is performed: a translation fault leaves VSTART at 0
(R151). An element that faults in another way does so in its turn, and none after it is reached (R150). -/
def translateAhead (els : List (List Acc)) : Mach Unit :=
  loopWhile els (fun as => do
    if as.any (← get).unsound then return false
    let ls ← stopAt 0 (placeAll as)
    let s ← get
    return !(as.zip ls).any (fun (x, l) => (x.req.need == .write || x.req.need == .rmw) && (s.clobbered l x.req.n).isSome))

/-- What comes before the elements `els`: the walks to their pages (R144), and, where one of `dev` touches device-class
memory, the translation of every page that those need; such an instruction never resumes part-way (R151). A translation fault
and the illegal restart together: the fault comes first (log 87, DESIGN CHOICE). -/
def devicePass (v : Vm) (need : Need) (scope : Nat) (els dev : List Nat) : Mach Unit := do
  let h := (← get).me
  modify (fun s => s.walkedPages need (v.form == .indexed) ((els.flatMap (v.touches h need)).map (fun x => x.2)))
  match (← get).firstDevice (dev.flatMap (v.touches h need)) with
  | none => pure ()
  | some d =>
    translateAhead (dev.map (v.accs h need scope))
    let vs := h.vc.vstart.toNat
    if vs != 0 then raise cAccess (vecInfo vs (if need == .write then 1 else 0) ||| 0x4000#64) d

/-! ### Loads (R145, R152) -/

/-- The values and flags of one element of a load, once all of its accesses are located (R143). -/
def loadEl (v : Vm) (sl : Slot) (i : Nat) : Mach (List Nat × Flags) := do
  let h ← hart
  let info := vecInfo i 0
  let _ ← locateAll (v.accs h .read 0 i)
  (List.range v.nk).foldlM (fun (acc : List Nat × Flags) k => do
    let p := v.part h sl.enc i k
    let ea := v.addr h i
    let ls ← locPart .read info v.sp v.bypass ea p
    let raw := (← readPieces info ea ls) / 2 ^ p.lo % 2 ^ p.w
    if sl.raw then return (acc.1 ++ [raw], acc.2)
    else
      let sigma ← scaleOf sl v.bypass info ea (i * v.nk + k)
      let (x, fl) := convIn sl (etFmt v.et) h.fz sigma raw
      return (acc.1 ++ [x], acc.2 ||| fl)) ([], 0)

/-- Causes that a fault-only-first form excuses past its first element. -/
def excusable (c : BitVec 8) : Bool := c == cPageFault || c == cAccess || c == cMisalign

/-- The accesses of a load: those of one that is an acquire at system scope, by its own scope or by a fence after it
(`ahead`), are performed at home (R245). -/
def Vm.acquires (v : Vm) (scope : Nat) (ahead : Bool) : Vm := if scope = 5 || ahead then { v with bypass := true } else v

/-- A load. With ord = 1 no element is read from a copy older than what the element before it read (R148). -/
def vmLoad (f : VmF) (form : Form) (ff : Bool) : Mach Unit := do
  let h ← hart
  if h.spent then finish
  else
    let v ← ((h.vm f form false).acquires f.scope.toNat (← get).acquireAhead).resolve
    let els := h.span.filter (v.uses h)
    let first := h.span.find? (h.activeBit v.m 0)
    devicePass v .read f.scope.toNat els (if ff then els.filter (fun i => first == some i) else els)
    modHart (fun h => h.dirty v.vd h.grp)
    loopWhile h.span (fun i => do
      let s ← get
      let h := s.me
      if !h.activeBit v.m 0 i then return true
      match v.slot h i with
      | none => return true
      | some sl =>
        let isFirst := first == some i
        if ff && !isFirst && (s.firstDevice (v.touches h .read i)).isSome then
          modHart (fun h => h.setVl i)
          return false
        let got : Option (List Nat × Flags) ←
          tryCatch (do return some (← loadEl v sl i)) (fun e => do
            match e with
            | .trap c _ a =>
              if ff && !isFirst && excusable c then
                if c == cPageFault then trimPost (s.absentByte ((v.touches h .read i).map (fun x => x.2)) a)
                return none
              else
                modHart (fun h => h.setVstart i)
                throw e
            | e => throw e)
        match got with
        | none =>
          modHart (fun h => h.setVl i)
          return false
        | some (xs, fl) =>
          elementDone i fl (fun h =>
            (List.range v.nk).foldl (fun h k => v.put h i k (xs.getD k 0)) h)
          if f.ord == 1 then acquirePart f.scope.toNat
          return true)
    acquirePart f.scope.toNat
    finish

def effVld (f : VmF) : Mach Unit := vmLoad f .unit false
def effVlds (f : VmF) : Mach Unit := vmLoad f .strided (f.ff == 1)
def effVldx (f : VmF) : Mach Unit := vmLoad f .indexed false
def effVldff (f : VmF) : Mach Unit := vmLoad f .unit true
def effVldxff (f : VmF) : Mach Unit := vmLoad f .indexed true

/-! ### Stores (R146) -/

/-- The values that an MX block's scale covers: every active element of the block whose slot scales by MX32, those
below VSTART too (R35). -/
def Vm.blockVals (v : Vm) (h : Hart) (blk : Nat) : List Num :=
  let et := etFmt v.et
  let lo := 32 * blk / v.nk
  let hi := min h.vl.toNat ((32 * blk + 31) / v.nk + 1)
  (List.range' lo (hi - lo)).flatMap (fun i =>
    if h.activeBit v.m 0 i && (match v.slot h i with | some sl => sl.scale == 2 | none => false) then
      ((List.range v.nk).filter (fun k => (i * v.nk + k) / 32 == blk)).map (fun k =>
        (et.decode (v.get h i k)).flushIn h.fz et)
    else [])

/-- The bits that part `k` of a stored element takes. A block with a NaN or an infinity has scale 0xFF and zero bytes, and
raises no flag, a signalling NaN there too: R35 names none (log 64, DESIGN CHOICE). -/
def storeVal (v : Vm) (sl : Slot) (i k : Nat) : Mach (Nat × Flags) := do
  let h ← hart
  let bits := v.get h i k
  let fi := i * v.nk + k
  if sl.raw then return (bits, 0)
  else if sl.scale == 2 then
    let s := mxScale (mxEmax sl.enc) (v.blockVals h (fi / 32))
    if s = 255 then return (0, 0)
    else
      let adj : Int := if sl.enc == .el (.i 8) then 6 else 0
      return convOut { sl with sat := true } (etFmt v.et) h.fz (.fin false 1 ((s : Int) - 127 - adj)) bits
  else
    let sigma ← scaleOf sl v.bypass (vecInfo i 1) (v.addr h i) fi
    return convOut sl (etFmt v.et) h.fz sigma bits

/-- A write located and not yet made: its part, its pieces, and its bits. -/
structure Put where
  part : Part
  locs : List (Loc × Nat)
  bits : Nat
  deriving DecidableEq, Repr

/-- The writes of element `i`, each located: its parts, then the scale bytes of the blocks it begins (R35). At die scope
and wider a part of a byte is updated at its home (R240). -/
def storeLocs (v : Vm) (sl : Slot) (scope i : Nat) (xs : List Nat) : Mach (List Put) := do
  let h ← hart
  let info := vecInfo i 1
  let parts ← (List.range v.nk).mapM (fun k => do
    let p := v.part h sl.enc i k
    let ls ← locPart .write info v.sp (v.bypass || (3 ≤ scope && !p.whole)) (v.addr h i) p
    return ({ part := p, locs := ls, bits := xs.getD k 0 } : Put))
  let firsts := (List.range v.nk).filter (fun k => !sl.raw && sl.scale == 2 && v.firstOfBlock h i k)
  let scales ← firsts.mapM (fun k => do
    let fi := i * v.nk + k
    let a := sl.src + BitVec.ofNat 64 (fi / 32)
    let l ← faultAs (v.addr h i) (locate (scaleReq .write 1 v.bypass info) (isSpad a) a)
    return ({ part := { ea := a, n := 1, align := 1, lo := 0, w := 8 }, locs := [(l, 1)]
              bits := mxScale (mxEmax sl.enc) (v.blockVals h (fi / 32)) } : Put))
  return scales ++ parts

/-- A located write made: whole bytes, or a read-modify-write of its byte or group. -/
def Put.write (info : BitVec 64) (w : Put) : Mach Unit := do
  let p := w.part
  if p.whole then writePieces w.locs w.bits
  else
    let old ← peekPieces info p.ea w.locs
    let new := old % 2 ^ p.lo + w.bits % 2 ^ p.w * 2 ^ p.lo + old / 2 ^ (p.lo + p.w) * 2 ^ (p.lo + p.w)
    writePieces w.locs (if p.w = 10 then new % 2 ^ 30 else new)

/-- The bits a write has covered, each piece with its first bit and their number; PX10 bits 31:30 with any pixel. -/
def Put.covers (w : Put) : List (Loc × Nat × Nat) :=
  let p := w.part
  if p.whole then w.locs.map (fun x => (x.1, 0, 8 * x.2))
  else
    match w.locs with
    | [(l, n)] => (l, p.lo, p.w) :: (if p.w = 10 then [(l, 8 * n - 2, 2)] else [])
    | ls => (List.range ls.length).filterMap (fun b =>
        let lo := max p.lo (8 * b)
        let hi := min (p.lo + p.w) (8 * b + 8)
        if lo < hi then (ls[b]?).map (fun x => (x.1, lo - 8 * b, hi - lo)) else none)

/-- Writes of one element, none of which is made where one of them faults (R150). -/
def putAll (info told : BitVec 64) (ws : List Put) : Mach Unit := do
  let s ← get
  tryCatch (ws.forM (fun w => faultAs told (w.write info))) (fun e => do
    modify (fun t => s.setMe t.me)
    throw e)

/-- A store. A faulting element is never written (R150); one that both faults and raises an enabled flag takes the fault
(log 87, DESIGN CHOICE). With ord = 1 each element is at home before the next is stored (R148). -/
def vmStore (f : VmF) (form : Form) : Mach Unit := do
  let h ← hart
  if h.spent then finish
  else
    let v ← (h.vm f form false).resolve
    let els := h.span.filter (v.uses h)
    devicePass v .write f.scope.toNat els els
    releasePart f.scope.toNat
    let _ ← els.foldlM (fun (done : List (Loc × Nat × Nat)) i => do
      let h ← hart
      match v.slot h i with
      | none => return done
      | some sl =>
        let _ ← stopAt i (locateAll (v.accs h .write f.scope.toNat i))
        let (xs, fl) ← stopAt i ((List.range v.nk).foldlM (fun (acc : List Nat × Flags) k => do
          let (x, g) ← storeVal v sl i k
          return (acc.1 ++ [x], acc.2 ||| g)) ([], 0))
        if (fl &&& (← hart).te) != 0 then fpTrap i fl
        let ws ← stopAt i (storeLocs v sl f.scope.toNat i xs)
        stopAt i (putAll (vecInfo i 1) (v.addr h i) ws)
        let done := ws.flatMap Put.covers ++ done
        modify (fun s => s.cure done)
        if f.ord == 1 then releaseCaches f.scope.toNat
        modHart (fun h => { h with fflags := h.fflags ||| fl })
        return done) []
    finish

def effVst (f : VmF) : Mach Unit := vmStore f .unit
def effVsts (f : VmF) : Mach Unit := vmStore f .strided
def effVstx (f : VmF) : Mach Unit := vmStore f .indexed

/-! ### VPREF (R153) -/

/-- VPREF: the hints of active elements that cannot be followed are counted, the others are in flight, one for each stored part
of an element (log 103, DESIGN CHOICE). pol evict-first fills the LLC alone. -/
def effVpref (f : VmF) : Mach Unit := do
  let h ← hart
  if h.spent then finish
  else
    let form : Form := if f.vd.toNat % 4 = 1 then .strided else if f.vd.toNat % 4 = 2 then .indexed else .unit
    let v := h.vm f form false
    let s ← get
    if !v.sp then
      let lost (i : Nat) : Bool :=
        (v.parts h i).any (fun p => (p.pieces.any (fun x => s.hintLost x.1)) || p.ea.toNat % p.align != 0)
      let els := h.span.filter (v.uses h)
      let touched := els.flatMap (fun i => (v.parts h i).flatMap (fun p => p.pieces.map (fun x => x.1)))
      modify (fun s => s.walkedPages .read (form == .indexed) touched)
      dropHints (els.countP lost)
      (els.filter (fun i => !lost i)).forM (fun i =>
        (v.parts h i).forM (fun p => modify (fun s => s.hint p.ea p.n (if f.pol.toNat = 1 then 2 else 1))))
    finish

/-! ### VTRANS (R154, R155) -/

/-- A KV map's header. -/
structure KvMap where
  entries : Nat
  len : Nat
  w : Nat
  s : Nat
  bsh : Nat
  d : Nat
  deriving DecidableEq, Repr

/-- The map that four words give, unless it is malformed (R155). -/
def KvMap.ofWords (ws : List Nat) : Option KvMap :=
  let w2 := ws.getD 2 0
  let k : KvMap :=
    { entries := ws.getD 0 0, len := ws.getD 1 0, w := w2 % 2 ^ 16, s := w2 / 2 ^ 16 % 256, bsh := w2 / 2 ^ 24 % 256
      d := w2 / 2 ^ 32 % 2 ^ 16 }
  if 2 ^ 55 ≤ k.entries || k.entries % 8 != 0 || 2 ^ 48 ≤ k.len || k.w = 0 || k.bsh < 4 || 6 < k.bsh || k.d = 0
      || k.d % 32 != 0 || 2 ^ 48 ≤ w2 || ws.getD 3 0 != 0 then none
  else some k

/-- Bytes of a row (R154). -/
def rowBytes (tag d : Nat) : Nat := if tag = 1 then 2 * d else if tag = 3 || tag = 4 then d / 2 else d

/-- Aligned words read for an instruction, each with its own address on a fault (log 101, DESIGN CHOICE), once all of them
are located (R91). -/
def readWords (q : Req) (sp : Bool) (ea : BitVec 64) (cnt : Nat) : Mach (List Nat) := do
  let q := { q with n := 8, align := 8 }
  let at_ (i : Nat) : BitVec 64 := ea + BitVec.ofNat 64 (8 * i)
  let _ ← locateAll ((List.range cnt).map (fun i => { req := q, sp := sp, ea := at_ i, told := at_ i }))
  (List.range cnt).mapM (fun i => readMem q sp (at_ i))

/-- A request of vector-side work that reads or writes words. -/
def vecReq (need : Need) (j kind : Nat) : Req :=
  { need := need, n := 8, align := 8, bypass := false, info := vecInfo j kind, vec := true, walks := false }

/-- The entry of a map for a position: its address, unless the position names none (R155). -/
def KvMap.entryAt (k : KvMap) (p : Nat) : Option (BitVec 64) :=
  let j := p / 2 ^ k.bsh
  let slot := if j < k.s then j else k.s + (j - k.s) % k.w
  if k.len = 0 || k.len ≤ p || (k.s ≤ j && j + k.w ≤ (k.len - 1) / 2 ^ k.bsh) then none
  else some (BitVec.ofNat 64 (k.entries + 8 * slot))

/-- Position `i` of VTRANS. -/
def Hart.position (h : Hart) (reg i : Nat) : Nat := if h.mxm then h.getBytes reg 64 i 0 8 else h.getEl reg 8 i

/-- Whether one of the addresses read lies in device-class memory. -/
def State.readsDevice (s : State) (xs : List (Nat × BitVec 64)) : Bool :=
  (s.firstDevice (xs.map (fun x => (Need.read, x.2)))).isSome

/-- The access of one read of a map. -/
def mapAcc (kind : Nat) (x : Nat × BitVec 64) : Acc := { req := vecReq .read x.1 kind, sp := false, ea := x.2, told := x.2 }

/-- Reads of a map: `all` lists the addresses with their elements, `kind` how their faults are told. Their pages are walked,
but those of `seen`, which the instruction has walked already (R144); where one of `xs` lies in device-class memory, or `dev`
says that another of the instruction does, every page of `xs` is translated before any element, and the instruction never
resumes part-way (R151; log 87). -/
def deviceReads (seen : List (BitVec 64)) (all xs : List (Nat × BitVec 64)) (dev : Bool) (kind : Nat) : Mach Unit := do
  modify (fun s => s.walkedPages .read false (s.newPages seen (all.map (fun x => x.2))))
  let s ← get
  let d := s.firstDevice (xs.map (fun x => (Need.read, x.2)))
  if dev || d.isSome then
    translateAhead (xs.map (fun x => [mapAcc kind x]))
    let vs := s.me.vc.vstart.toNat
    if vs != 0 then raise cAccess (vecInfo vs kind ||| 0x4000#64) (d.getD 0)

/-- The words of a map's header. -/
def headerReads (vs : Nat) (a : BitVec 64) : List (Nat × BitVec 64) :=
  (List.range 4).map (fun q => (vs, a + BitVec.ofNat 64 (8 * q)))

/-- VTRANS and VTRANSFF. VDIRTY is set before the header is read, so where that faults too (log 102, DESIGN CHOICE). With
scope, the header read is an acquire, at home where its scope is system (R155, R245). -/
def vmTrans (f : VmF) (ff : Bool) : Mach Unit := do
  let h ← hart
  if h.spent then finish
  else
    let a := h.readS f.va
    let vs := h.vc.vstart.toNat
    if a.getLsbD 63 then raise cAccess (vecInfo vs 0) a
    if a.toNat % 8 != 0 then raise cAccess 0 a
    modHart (fun h => (h.dirty f.vd.toNat h.grp).dirty f.x.toNat h.grp)
    let head := headerReads vs a
    let dev := (← get).readsDevice head
    deviceReads [] head head false 0
    let ws ← stopAt vs (readWords { vecReq .read vs 0 with bypass := f.scope == 5 } false a 4)
    acquirePart f.scope.toNat
    match KvMap.ofWords ws with
    | none => raise cAccess 0 a
    | some k =>
      let blk := 2 ^ k.bsh
      let reads := h.span.filterMap (fun i => (k.entryAt (h.position f.vb.toNat i)).map (fun ea => (i, ea)))
      deviceReads (head.map (fun x => x.2)) reads (if ff then reads.filter (fun x => x.1 == vs) else reads) dev 0
      loopWhile h.span (fun i => do
        let s ← get
        let h := s.me
        let p := h.position f.vb.toNat i
        let at_ := k.entryAt p
        if ff && i != vs && (at_.elim false (s.devClass .read)) then
          modHart (fun h => h.setVl i)
          return false
        let e : Option Nat ← match at_ with
          | none => pure (some 0)
          | some ea =>
            tryCatch (do return some (← readMem (vecReq .read i 0) false ea)) (fun e => do
              match e with
              | .trap c _ ea =>
                if ff && i != vs && excusable c then
                  if c == cPageFault then trimPost ea
                  return none
                else
                  modHart (fun h => h.setVstart i)
                  throw e
              | e => throw e)
        match e with
        | none =>
          modHart (fun h => h.setVl i)
          return false
        | some e =>
          let tag := e / 2 % 16
          let fault := at_.isNone || e % 2 = 0 || tag = 0 || 5 < tag
          if fault && ff then
            modHart (fun h => h.setVl i)
            return false
          let addr := if fault then 0 else e % 2 ^ 55 / 64 * 64 + p % blk * rowBytes tag k.d
          let t := if fault then 0 else tag
          modHart (fun h =>
            let h := if h.mxm then (h.setBytes f.vd.toNat 64 i 0 64 addr).setBytes f.x.toNat 64 i 0 64 t
                     else (h.setEl f.vd.toNat 8 i addr).setEl f.x.toNat 1 i t
            h.setMask f.m.toNat i fault)
          return true)
      finish

def effVtrans (f : VmF) : Mach Unit := vmTrans f false
def effVtransff (f : VmF) : Mach Unit := vmTrans f true

/-! ### VSEGADD (R157) -/

/-- A sum by halving: neighbours in pairs, a lone last term passing on. -/
def pairUp (add : Nat → Nat → Nat × Flags) : List Nat → List Nat × Flags
  | a :: b :: t =>
    let (x, f) := add a b
    let (r, g) := pairUp add t
    (x :: r, f ||| g)
  | t => (t, 0)

def treeSum (add : Nat → Nat → Nat × Flags) : Nat → List Nat → Nat × Flags
  | 0, t => (t.headD 0, 0)
  | _ + 1, [] => (0, 0)
  | _ + 1, [x] => (x, 0)
  | n + 1, t =>
    let (r, f) := pairUp add t
    let (x, g) := treeSum add n r
    (x, f ||| g)

/-- The accesses of the sub-elements of element `i` of an indexed update; `spad` tells its space from its address. -/
def Vm.updates (v : Vm) (h : Hart) (spad : BitVec 64 → Bool) (i : Nat) : List Acc :=
  let at_ (k : Nat) : BitVec 64 := (v.part h (.el (etFmt v.et)) i k).ea
  (List.range v.nk).map (fun k =>
    { req := { need := .rmw, n := v.b, align := v.b, bypass := v.bypass, info := vecInfo i 2, vec := true, walks := false }
      sp := spad (at_ k), ea := at_ k, told := at_ 0 })

/-- The updates of one element pinned: located, not in device-class memory, and not poisoned where `scope` has them read. -/
def pinElement (scope : Nat) (as : List Acc) : Mach (List Loc) := do
  let ls ← placeAll as
  let s ← get
  as.forM (fun x => if !x.sp && s.devClass .rmw x.ea then raise cAccess x.req.info x.told else pure ())
  barrierAll as ls
  (as.zip ls).forM (fun (x, l) => do
    if (← get).locPoisoned (l.atomicAt scope) x.req.n then
      let _ ← readLoc x.req x.told (l.atomicAt scope))
  return ls

/-- Every update located, checked and pinned before the first (R157, R202, R308): sub-element, address and place. -/
def pinTargets (v : Vm) (scope : Nat) (spad : BitVec 64 → Bool) : Mach (List (Nat × Nat × BitVec 64 × Loc)) := do
  let h ← hart
  let els := h.span.filter (v.uses h)
  modify (fun s => s.walkedPages .rmw true
    ((els.flatMap (v.updates h spad)).filterMap (fun x => if x.sp then none else some x.ea)))
  let ts ← els.mapM (fun i => do
    let as := v.updates h spad i
    let ls ← stopAt 0 (pinElement scope as)
    return (List.range v.nk).zip ((as.map (fun x => x.ea)).zip ls) |>.map (fun x => (i, x)))
  return ts.flatten

/-- VSEGADD: one update for each distinct address; it never takes FP_TRAP. -/
def effVsegadd (f : VmF) : Mach Unit := do
  let h ← hart
  if h.spent then finish
  else
    let v := h.vm f .indexed true
    let t := etFmt f.et
    let ts ← pinTargets v f.scope.toNat (fun _ => v.sp)
    releasePart f.scope.toNat
    let env : FpEnv := { rm := h.frm, sat := false, fz := h.fz }
    let key (ea : BitVec 64) : Nat := ea.toNat % 2 ^ 55
    let addrs := ts.foldl (fun (acc : List (Nat × BitVec 64 × Loc × Nat)) (i, _, ea, l) =>
      if acc.any (fun x => x.1 == key ea) then acc else acc ++ [(key ea, ea, l, i)]) []
    addrs.forM (fun (a, ea, l, i) => do
      let xs := (ts.filter (fun (_, _, e, _) => key e == a)).map (fun (i, k, _, _) => v.get h i k)
      let (x, fl) := treeSum (El.add t env) xs.length xs
      let q : Req := { need := .rmw, n := v.b, align := v.b, bypass := v.bypass, info := vecInfo i 2, vec := true, walks := false }
      let old ← rmwLoc q ea l f.scope.toNat (fun old => (El.add t env old x).1)
      modHart (fun h => { h with fflags := h.fflags ||| fl ||| (El.add t env old x).2 }))
    finish

/-! ### Checks at issue (orders 11 and 12 of R83) -/

/-- The slot checks of R61 and R142, the pixel feature first (R390). -/
def slotCheck (fmt : BitVec 3) (et : BitVec 4) (packedOk : Bool) : Mach Unit := do
  let n := fmt.toNat
  if 1 ≤ n && n ≤ 4 then
    let s ← get
    let w := s.me.vc.mfc.get (Fin.ofNat 4 (n - 1))
    let e := mfcEnc w
    let px := 18 ≤ e && e ≤ 20
    if px && !s.accepts 5 then raise cFeature 0 0
    if e == 11 || 22 ≤ e || 6 ≤ (mfcRm w).toNat
        || (mfcScale w == 2 && !(e == 12 || e == 17 || e == 0))
        || (px && (mfcScale w != 0 || !(et == 1 || et == 5)))
        || ((px || e == 21) && !packedOk) then
      raise cIllegal (BitVec.ofNat 64 (0x0800 + (n - 1))) 0

/-- The index width against VL (R143). -/
def indexCheck (et : BitVec 4) (fmt : BitVec 3) : Mach Unit := do
  let h ← hart
  let wx := if (etFmt et).bytes = 8 || fmt.toNat = 5 then 8 else 4
  if !h.mxm && 384 * h.lanes * h.grp / wx < h.vl.toNat then illegal 0x04

end Sys2Proof.Machine
end

