-- ==== Sys2Proof/Machine/Atomic.lean ====
section
/-!
DEFINITION. The operations of AMO, CAS, VAMO and the remote atomics on old and new values (R101, R102, R202, R205), and
VAMO.
-/

namespace Sys2Proof.Machine

/-- fp32 addition of the atomics: nearest even, FZ = 0, no flag (R101). -/
def amoFadd (a b : Nat) : Nat :=
  let v : FpEnv := { rm := .rne, sat := false, fz := false }
  (El.add (.flt .fp32) v (a % 2 ^ 32) (b % 2 ^ 32)).1

/-- F of R101 on `w`-bit values: the new value. `signed` governs min and max. -/
def amoF (w : Nat) (signed : Bool) (op old x : Nat) : Nat :=
  let i := intOfBits signed w
  match op with
  | 0 => (old + x) % 2 ^ w
  | 1 => amoFadd old x
  | 2 => if i (x % 2 ^ w) < i old then x % 2 ^ w else old
  | 3 => if i old < i (x % 2 ^ w) then x % 2 ^ w else old
  | 4 => old &&& (x % 2 ^ w)
  | 5 => old ||| (x % 2 ^ w)
  | 6 => old ^^^ (x % 2 ^ w)
  | _ => x % 2 ^ w

/-- Operand bytes of a scalar or remote atomic. -/
def amoBytes (op : Nat) : Nat := if op = 1 then 4 else 8

/-- VAMO (R202). -/
def effVamo (f : AtF) : Mach Unit := do
  let h ← hart
  if h.spent then finish
  else
    let b := (etFmt f.et).bytes
    let v : Vm :=
      { vd := f.vd.toNat, x := 0, vb := f.vb.toNat, m := f.m, et := f.et, fmt := 0, form := .indexed
        base := (h.readS f.va).toNat, stride := 0, sp := false, bypass := false, nk := if h.mxm then 64 / b else 1
        rb := if h.mxm then 64 else b, tagRm := .rne }
    let ts ← pinTargets v f.scope.toNat isSpad
    if f.succ.toNat ≥ 2 then releasePart f.scope.toNat
    modHart (fun h => h.dirty v.vd h.grp)
    ts.forM (fun (i, k, ea, l) => do
      let x := v.get (← hart) i k
      let q : Req := { need := .rmw, n := b, align := b, bypass := false, info := vecInfo i 2, vec := true, walks := false }
      let old ← rmwLoc q ea l f.scope.toNat (fun old => amoF (8 * b) (etFmt f.et).isSigned f.op.toNat old x)
      modHart (fun h => v.put h i k old))
    if f.succ.toNat % 2 = 1 then acquirePart f.scope.toNat
    finish

end Sys2Proof.Machine
end

