-- ==== Sys2Proof/Machine/Header.lean ====
section
/-!
DEFINITION. The convoy header (R68), the unit codes that may cover an instruction (R69), and how a covered convoy's
conditions are ranked (R83).
-/

namespace Sys2Proof

/-- The number of instructions a header covers. -/
def headerCount (p : Parcel) : Nat := (p.extractLsb' 25 3).toNat + 2
/-- The code of slot `k`. -/
def headerSlot (p : Parcel) (k : Nat) : Nat := if k < 6 then (p.toNat / 2 ^ (22 - 3 * k)) % 8 else 7

/-- A violation in the header's own fields. -/
def headerBad (p : Parcel) : Bool :=
  let n := headerCount p
  let used := (List.range n).map (headerSlot p)
  6 < n || (List.range' n (6 - n)).any (fun k => headerSlot p k != 0) || used.contains 7
    || used.eraseDups.length != used.length || (p.extractLsb' 0 7) != 0

/-- The unit of an instruction: a code of R69, 8 where VALU and VFMA both match, 9 where it stands alone. -/
def Instr.unit (i : Instr) : Nat :=
  match i with
  | .vmul _ | .vmulh _ | .vfma _ | .vfms _ | .vfnma _ | .vdot _ => 8
  | .vadd _ | .vsub _ | .vdiv _ | .vrem _ | .vmin _ | .vmax _ | .vabs _ | .vneg _ | .vand _ | .vor _ | .vxor _ | .vnot _
  | .vsll _ | .vsrl _ | .vsra _ | .vadds _ | .vsubs _ | .vavg _ | .vsqrt _ | .vrsq _ | .vrcp _ | .vexp2 _ | .vlog2 _
  | .vclamp _ | .vscale _ | .vcvt _ | .vcmp _ | .vmerge _ | .vbcast _ | .vid _
  | .mand _ | .mor _ | .mxor _ | .mandn _ | .mnot _ | .mpop _ | .mfirst _ | .msetn _ | .vslideup _ | .vslidedn _
  | .vperm _ | .vcompress _ | .vexpand _ | .vrank _ | .vextr _ | .vins _ | .vredsum _ | .vredsumo _ | .vredmax _
  | .vredmin _ | .vconf _ => 0
  | .vld _ | .vlds _ | .vldx _ | .vldff _ | .vldxff _ | .vpref _ | .vtrans _ | .vtransff _ | .hld _ => 2
  | .vst _ | .vsts _ | .vstx _ | .vsegadd _ | .vamo _ | .hapnd _ => 3
  | .mxzero _ | .mxmac _ | .mxld _ | .mxst _ | .mxstkv _ | .mxrow _ | .mxrowadd _ | .mxscaler _ => 4
  | .xcopy _ | .xcopyff _ | .xinfl _ => 5
  | .lstep _ | .lrung _ | .lblend _ => 6
  | _ => 9

/-- Whether an instruction may be covered by a unit code. -/
def Instr.unitMatches (i : Instr) (u : Nat) : Bool := if i.unit = 8 then u ≤ 1 else i.unit == u

/-- Whether the instruction at a covered position has a second parcel: a 64-bit instruction, or a prefix with the parcel
it applies to (R67, R71). -/
def twoParcels (p : Parcel) : Bool := pTop p == 2 || (pTop p == 3 && pSub p == 1)

/-- What stands at the positions a header covers: none where it is no legal 64-bit instruction. The next position begins
after whatever stands there (log 71, DEDUCED). -/
def convoyMembers : Nat → List Parcel → List (Option Instr)
  | 0, _ => []
  | n + 1, [] => none :: convoyMembers n []
  | n + 1, p :: t =>
    if pTop p == 2 then
      match t with
      | q :: u => (decodeVector p q).toOption :: convoyMembers n u
      | [] => none :: convoyMembers n []
    else none :: convoyMembers n (if twoParcels p then t.drop 1 else t)

/-- The earlier of two conditions in R83's order, the first where their orders agree. -/
def Refuse.earlier (b : Option Refuse) (r : Refuse) : Option Refuse :=
  match b with
  | none => some r
  | some x => if r.order < x.order then some r else some x

/-- The conditions of the member in slot `k`, which is none where the position holds no legal 64-bit instruction: a scalar
instruction there, a privileged one too, is the header's fault of that slot alone, at order 5 (R83; log 110, DESIGN CHOICE).
-/
def slotRefuse (v : LegalEnv) (p : Parcel) (k : Nat) (m : Option Instr) : List Refuse :=
  match m with
  | none => [.convoy k]
  | some i => (if i.unitMatches (headerSlot p k) then [] else [Refuse.convoy k]) ++ (i.refuse v).toList

/-- The condition of a covered convoy that is raised: of the conditions of the header and of every position, the earliest
order, and in it the header's own fields, then the lowest slot (R83). -/
def convoyRefuse (v : LegalEnv) (p : Parcel) (ms : List (Option Instr)) : Option Refuse :=
  let own : List Refuse := if headerBad p then [.convoy 255] else []
  let each := ms.zipIdx.flatMap (fun e => slotRefuse v p e.2 e.1)
  (own ++ each).foldl Refuse.earlier none

end Sys2Proof
end

