-- ==== Sys2Proof/Machine/Pool.lean ====
section
/-!
DEFINITION. The pool of a core's decoupling queues (R281, R282) and the instructions its harts have issued (R85).
-/

namespace Sys2Proof.Machine

/-- Instructions that entries hold, one pool entry for each. -/
def entriesOf (es : List VEntry) (p : Instr → Bool) : Nat := es.foldl (fun n e => n + e.instrs.countP p) 0

/-- The entries of a hart's window that are issued: one reissued from a frame may wait for room (R85, R267). -/
def Hart.issuedWin (h : Hart) : List VEntry := h.win.filter VEntry.issued

/-- What the harts of a core hold of something, slot by slot. -/
def State.perSlot (s : State) (core : Nat) (f : Hart → Nat) : List Nat := (List.range 8).map (fun i => f (s.hartAt (core * 8 + i)))

/-- The lengths of a core's twelve queues: the hart queues by slot, then those of the matrix engine, the ladder unit, the
copy engine and the Halley ring port, whose posts go onto the ring at once. -/
def State.queueLens (s : State) (core : Nat) : List Nat :=
  let all (f : Hart → Nat) : Nat := (s.perSlot core f).sum
  s.perSlot core (fun h => entriesOf h.vq (fun _ => true))
    ++ [all (fun h => entriesOf h.issuedWin (fun i => i.unit == 4)), all (fun h => h.pend.length), all (fun h => h.xfers.length), 0]

/-- The places of the unit queues behind those of the eight harts. -/
abbrev qMatrix : Nat := 8
abbrev qLadder : Nat := 9
abbrev qCopy : Nat := 10

/-- QMIN and QCAP as the minimum and the cap of queue `i`. -/
def Core.queueMin (c : Core) (i : Nat) : Nat := if i < 8 then c.qmin.toNat % 2 ^ 12 else c.qmin.toNat / 2 ^ 16 % 2 ^ 12
def Core.queueCap (c : Core) (i : Nat) : Nat := if i < 8 then c.qcap.toNat % 2 ^ 13 else c.qcap.toNat / 2 ^ 16 % 2 ^ 13

/-- Whether queue `i` of a core receives `n` entries, one after the other (R282): below its minimum always, at or above it
while it is below its cap and the shared part has one free. -/
def State.queueHas (s : State) (core i n : Nat) : Bool :=
  let c := s.core core
  let lens := s.queueLens core
  let others := (List.range 12).filter (· != i)
  let shared := 4096 - 8 * c.queueMin 0 - 4 * c.queueMin 8 + (others.map (fun j => c.queueMin j - lens.getD j 0)).sum
  let taken := (others.map (fun j => lens.getD j 0 - c.queueMin j)).sum
  (List.range n).all (fun k =>
    let len := lens.getD i 0 + k
    len < c.queueMin i || (len < c.queueCap i && taken + (len - c.queueMin i) < shared))

/-- Vector-side instructions of a core issued and not retired (R85). -/
def State.issuedOn (s : State) (core : Nat) : Nat := (s.perSlot core (fun h => entriesOf h.issuedWin (fun _ => true))).sum

/-- Whether the moving core's window and the queue of its matrix engine receive instructions: at most 64 are issued and not
retired (R85, R282). -/
def State.receives (s : State) (ms : List Instr) : Bool :=
  s.issuedOn s.coreNo + ms.length ≤ 64 && s.queueHas s.coreNo qMatrix (ms.countP (fun i => i.unit == 4))

end Sys2Proof.Machine
end

