-- ==== Sys2Proof/Machine/Ladder.lean ====
section
/-!
DEFINITION. The effects of class LA: ladders, their descriptors and rungs in scratchpad, and the merges of the ladder
unit (R180 to R190, R363 to R370).
-/

namespace Sys2Proof.Machine

/-- Bytes of a scratchpad. -/
def Core.spadRead (k : Core) (o n : Nat) : Nat := ofBytes ((List.range n).map (fun i => Tab.get 0 k.spad (o + i)))
/-- Bytes written; whole words become clean. -/
def Core.spadWrite (k : Core) (o n x : Nat) : Core :=
  { k with spad := memSets k.spad o (bytesOf n x), spadPoison := unpoison k.spadPoison o n }

/-- A ladder as its descriptor gives it (R364). -/
structure Lad where
  core : Nat
  off : Nat                          -- offset of its region in the gang's allocation
  abs : Nat                          -- offset of its region in the core's scratchpad
  num : Nat
  n : Nat
  shape : Nat
  top : Nat
  op : Nat
  init : Bool
  z : Nat
  deriving DecidableEq, Repr

/-- Whether a shape word is well formed (R182). -/
def shapeOk (w : Nat) : Bool :=
  if 2 ^ 63 ≤ w then w - 2 ^ 63 < 2 ^ 12 else 1 ≤ w && w ≤ 49152
/-- Whether it is a tile. -/
def shapeTile (w : Nat) : Bool := 2 ^ 63 ≤ w
def shapeRows (w : Nat) : Nat := if shapeTile w then w % 64 + 1 else 1
def shapeCols (w : Nat) : Nat := if shapeTile w then w / 64 % 64 + 1 else w % 2 ^ 18
/-- Elements of a rung. -/
def shapeCount (w : Nat) : Nat := shapeRows w * shapeCols w
/-- Slot size of a shape (R364). -/
def slotSize (w : Nat) : Nat := (4 * shapeCount w + 255) / 256 * 256

/-- The launch of a hart. -/
def State.launchOf (s : State) (h : Hart) : Option Launch := (s.gang h.gang).bind (fun g => s.launch g.launch)

/-- Ladder `k` of the hart with index `i` of a launch, in an allocation of core `c` that begins at `base` (R363). -/
def State.ladOf (s : State) (c base : Nat) (l : Launch) (i k : Nat) : Lad :=
  let off := l.spad + (i * l.lads + k) * Config.ladderRegion
  let x := s.core c
  let a := base + off
  { core := c, off := off, abs := a, num := k, n := x.spadRead a 8 % 2 ^ 48, shape := x.spadRead (a + 8) 8
    top := x.spadRead (a + 16) 1 % 16, op := x.spadRead (a + 17) 1 % 4, init := x.spadRead (a + 18) 1 % 2 == 1
    z := x.spadRead (a + 20) 4 }

/-- Ladder `k` of the hart `key` (R363); none at or above LADS. -/
def State.lad (s : State) (key k : Nat) : Option Lad :=
  let h := s.hartAt key
  match s.gang h.gang, s.launchOf h with
  | some g, some l => if l.lads ≤ k then none else some (s.ladOf (key / 8) g.base l h.index k)
  | _, _ => none

/-- Words of rung `l`. -/
def State.rung (s : State) (d : Lad) (l : Nat) : List (BitVec 32) :=
  let c := s.core d.core
  (List.range (shapeCount d.shape)).map (fun i => BitVec.ofNat 32 (c.spadRead (d.abs + 256 + l * d.z + 4 * i) 4))

/-- Whether rung `l` holds poison. -/
def State.rungPoison (s : State) (d : Lad) (l : Nat) : Bool :=
  poisoned (s.core d.core).spadPoison (d.abs + 256 + l * d.z) (4 * shapeCount d.shape)

/-- Rung `l` written, clearing the slot's poison or, where `bad`, leaving the result poisoned (R369). -/
def State.putRung (s : State) (d : Lad) (l : Nat) (xs : List (BitVec 32)) (bad : Bool) : State :=
  let o := d.abs + 256 + l * d.z
  let c := s.core d.core
  let spad := (List.range xs.length).foldl (fun m i => memSets m (o + 4 * i) (bytesOf 4 (xs.getD i 0).toNat)) c.spad
  let clean := unpoison c.spadPoison o d.z
  let words := (List.range ((4 * xs.length + 7) / 8)).map (fun i => o / 8 + i)
  s.setCore d.core { c with spad := spad, spadPoison := if bad then words ++ clean else clean }

/-- N written. -/
def State.putN (s : State) (d : Lad) (n : Nat) : State := s.setCore d.core ((s.core d.core).spadWrite d.abs 8 n)

/-- Whether rung `l` is occupied at counter `n` under top `t`, with its span's start and length (R183). -/
def rungSpan (n t l : Nat) : Option (Nat × Nat) :=
  if l < t then (if n.testBit l then some (n / 2 ^ (l + 1) * 2 ^ (l + 1), 2 ^ l) else none)
  else if l = t then (if 2 ^ t ≤ n then some (0, n / 2 ^ t * 2 ^ t) else none)
  else none

/-- Combine of one element (R185). -/
def combine1 (op : Nat) (a b : BitVec 32) : BitVec 32 :=
  let v : FpEnv := { rm := .rne, sat := false, fz := false }
  let x := v.arg (.flt .fp32) a.toNat
  let y := v.arg (.flt .fp32) b.toNat
  let r := if op = 0 then Num.add .rne x y else Num.minMax (op == 1) x y
  BitVec.ofNat 32 (v.finish (.flt .fp32) r).1

/-- Combine, older first. -/
def combine (op : Nat) (a b : List (BitVec 32)) : List (BitVec 32) := List.zipWith (combine1 op) a b

/-- The identity of an op (R184). -/
def ladIdentity (op : Nat) : BitVec 32 := if op = 0 then 0 else if op = 1 then 0xFF800000#32 else 0x7F800000#32

/-- The merges of one counted step, at counter `n` before it (R184, R366). -/
def State.mergeStep (s : State) (d : Lad) (n : Nat) (carry : List (BitVec 32)) : State :=
  let (l, c, bad) := (List.range d.top).foldl
    (fun (st : Nat × List (BitVec 32) × Bool) i =>
      if st.1 = i && n.testBit i then (i + 1, combine d.op (s.rung d i) st.2.1, st.2.2 || s.rungPoison d i) else st)
    (0, carry, false)
  if l = d.top && 2 ^ d.top ≤ n then
    s.putRung d d.top (combine d.op (s.rung d d.top) c) (bad || s.rungPoison d d.top)
  else s.putRung d l c bad

/-- The pending merges of a core whose LSTEP retired first: the hart and the job (R367). -/
def State.nextMerge (s : State) (core : Nat) : Option (Nat × LadJob) :=
  s.harts.foldl
    (fun (best : Option (Nat × LadJob)) e =>
      match (if e.1 / 8 = core then e.2.pend.head? else none), best with
      | none, b => b
      | some j, some b => if b.2.seq < j.seq then some b else some (e.1, j)
      | some j, none => some (e.1, j)) none

/-- The merges of that LSTEP, performed. -/
def State.mergeNext (s : State) (core : Nat) : State :=
  match s.nextMerge core with
  | none => s
  | some (key, j) =>
    let s := match s.lad key j.lad with
      | some d => s.mergeStep d j.n j.carry
      | none => s
    let h := s.hartAt key
    s.setHart key { h with pend := h.pend.drop 1 }

/-- The pending merges of a core up to the LSTEP numbered `last`, one at a time in retirement order. -/
def State.mergeTo (s : State) (core last : Nat) : Nat → State
  | 0 => s
  | fuel + 1 =>
    match s.nextMerge core with
    | some (_, j) => if j.seq ≤ last then (s.mergeNext core).mergeTo core last fuel else s
    | none => s

/-- The pending merges of a hart's ladders that satisfy `p` have completed: the core's one ladder unit has performed every
older merge of the core before them (R186, R367). -/
def State.runMerges (s : State) (key : Nat) (p : Nat → Bool) : State :=
  match ((s.hartAt key).pend.filter (fun j => p j.lad)).getLast? with
  | none => s
  | some j =>
    let n := s.harts.foldl (fun n e => if e.1 / 8 = key / 8 then n + e.2.pend.length else n) 0
    s.mergeTo (key / 8) j.seq n

/-- Every pending merge of a hart (R190). -/
def State.drainLadders (s : State) (key : Nat) : State := s.runMerges key (fun _ => true)

/-- The ladder unit's queue receives a step once older merges have freed an entry (R282). -/
def State.ladRoom (s : State) (core : Nat) : Nat → State
  | 0 => s
  | fuel + 1 => if s.queueHas core qLadder 1 then s else (s.mergeNext core).ladRoom core fuel

/-- The moving hart's ladders as they are in `s`, the rest as in `u`: their steps and merges of instructions that are squashed
have not happened (R366, R369, R377). No load or store reaches them (R256). -/
def State.unladder (s u : State) : State :=
  match s.gang s.me.gang, s.launchOf s.me with
  | some g, some l =>
    let lo := g.base + l.spad + s.me.index * l.lads * Config.ladderRegion
    let inside (a : Nat) : Bool := lo ≤ a && a < lo + l.lads * Config.ladderRegion
    let a := s.core s.coreNo
    let b := u.core s.coreNo
    if l.lads = 0 then u
    else u.setCore s.coreNo
      { b with spad := (a.spad.filter (fun e => inside e.1)).foldl (fun m e => memSet m e.1 e.2) (b.spad.filter (fun e => !inside e.1))
               spadPoison := b.spadPoison.filter (fun w => !inside (8 * w)) ++ a.spadPoison.filter (fun w => inside (8 * w)) }
  | _, _ => u

/-- A ladder fault (R181). -/
def ladFault {α : Type} (reason k off : Nat) : Mach α :=
  raise cAccess (BitVec.ofNat 64 (0x2000 + reason * 256 + k)) (BitVec.ofNat 64 (2 ^ 63 + off))

/-- The address that a ladder fault of reason 1 reports, where there is no descriptor: the one that R363's formula gives a
ladder of that number (log 104, DESIGN CHOICE). -/
def State.ladOff (s : State) (key k : Nat) : Nat :=
  let h := s.hartAt key
  match s.launchOf h with
  | some l => l.spad + (h.index * l.lads + k) * Config.ladderRegion
  | none => 0

/-- The ladder an instruction names, with the faults it takes: reasons 1, 2 and 4. -/
def theLad (k : Nat) (needInit : Bool) (form : Option Bool) : Mach Lad := do
  let s ← get
  match s.lad s.cur k with
  | none => ladFault 1 k (s.ladOff s.cur k)
  | some d =>
    if needInit && !d.init then ladFault 2 k d.off
    match form with
    | some tile => if shapeTile d.shape != tile then ladFault 4 k d.off
    | none => pure ()
    return d

/-- An instruction that names a ladder waits for its merges (R186): they complete first. -/
def awaitLad (k : Nat) : Mach Unit := modify (fun s => s.runMerges s.cur (fun l => l == k))

/-- F of R180. -/
def ladLimit (h : Hart) (d : Lad) : Nat :=
  if h.mxm then min h.vl.toNat (shapeCount d.shape)
  else min (min h.vl.toNat (384 * h.lanes * h.grp / 4)) (shapeCount d.shape)

/-- fp32 word `i` of a vector operand. -/
def ladGet (h : Hart) (reg i : Nat) : Nat := if h.mxm then h.getBytes reg 64 i 0 4 else h.getEl reg 4 i

/-- LINIT (R182). -/
def effLinit (f : LaF) : Mach Unit := do
  let d ← theLad f.vd.toNat false none
  let w := ((← hart).readS f.va).toNat
  if !shapeOk w then ladFault 3 d.num d.off
  let t := f.rung.toNat
  if Config.ladderRegion < 256 + (t + 1) * slotSize w then ladFault 5 d.num d.off
  modHart (fun h => { h with pend := h.pend.filter (fun j => j.lad != d.num) })
  modify (fun s =>
    let c := s.core d.core
    let c := c.spadWrite d.abs 8 0
    let c := c.spadWrite (d.abs + 8) 8 w
    let c := c.spadWrite (d.abs + 16) 8 (t + f.op.toNat * 2 ^ 8 + 2 ^ 16 + slotSize w * 2 ^ 32)
    s.setCore d.core ((List.range 29).foldl (fun c i => c.spadWrite (d.abs + 24 + 8 * i) 8 0) c))
  finish

/-- LSTEP (R184, R366): the step is counted, its merges are left to the ladder unit. It is whole and captures from element
0 whatever VSTART holds: R59 has an instruction with VSTART at or past VL do nothing, R184 counts a step even with VL = 0
and names no VSTART (log 66, DESIGN CHOICE). -/
def effLstep (f : LaF) : Mach Unit := do
  let d ← theLad f.vd.toNat true (some !f.isVec)
  if d.n = 2 ^ 48 - 1 then ladFault 6 d.num d.off
  awaitLad d.num
  let h ← hart
  let e := shapeCount d.shape
  let idn := ladIdentity d.op
  let carry : List (BitVec 32) :=
    if h.vl = 0 && !h.vlUnset then List.replicate e idn
    else if f.isVec then
      (List.range e).map (fun i =>
        if i < ladLimit h d && h.activeBit f.m 0 i then BitVec.ofNat 32 (ladGet h f.vb.toNat i) else idn)
    else
      (List.range e).map (fun i =>
        BitVec.ofNat 32 (h.getAcc f.vb.toNat (i / shapeCols d.shape) (i % shapeCols d.shape)))
  modify (fun s => s.ladRoom d.core ((s.queueLens d.core).getD qLadder 0))
  let c := (← get).core d.core
  modify (fun s => (s.setCore d.core { c with steps := c.steps + 1 }).putN d (d.n + 1))
  modHart (fun h => { h with pend := h.pend ++ [{ lad := d.num, n := d.n, carry := carry, seq := c.steps }] })
  finish

/-- The elements or the region that LRUNG and LBLEND write (R187, R188). -/
def ladWrite (f : LaF) (d : Lad) (xs : List (BitVec 32)) : Mach Unit := do
  let h ← hart
  if f.isVec then
    if !h.spent then
      let els := (List.range' h.vc.vstart.toNat (ladLimit h d - h.vc.vstart.toNat)).filter (h.activeBit f.m 0)
      modHart (fun h => els.foldl (fun h i =>
        let x := (xs.getD i 0).toNat
        if h.mxm then h.setBytes f.vd.toNat 64 i 0 4 x else h.setEl f.vd.toNat 4 i x) (h.dirty f.vd.toNat h.grp))
  else
    modHart (fun h => (List.range (shapeCount d.shape)).foldl (fun h i =>
      h.setAcc f.vd.toNat (i / shapeCols d.shape) (i % shapeCols d.shape) (xs.getD i 0).toNat) h)

/-- A poisoned rung that would be read (R369). -/
def rungCheck (d : Lad) (l : Nat) : Mach Unit := do
  if (← get).rungPoison d l then
    modify State.usedPoison
    raise cPoison 0 (BitVec.ofNat 64 (2 ^ 63 + d.off + 256 + l * d.z))

/-- LRUNG (R187). -/
def effLrung (f : LaF) : Mach Unit := do
  let d ← theLad f.va.toNat true (some !f.isVec)
  awaitLad d.num
  let l := f.rung.toNat
  match rungSpan d.n d.top l with
  | none =>
    writeS f.vb 0x8000000000000000#64
    writeS f.x 0
  | some (start, len) =>
    rungCheck d l
    let xs := (← get).rung d l
    writeS f.vb (BitVec.ofNat 64 (start % 2 ^ 48 + l * 2 ^ 48))
    writeS f.x (BitVec.ofNat 64 len)
    ladWrite f d xs
  finish

/-- LBLEND (R188). -/
def effLblend (f : LaF) : Mach Unit := do
  let d ← theLad f.va.toNat true (some !f.isVec)
  awaitLad d.num
  let s ← get
  let h := s.me
  let v : FpEnv := { rm := .rne, sat := false, fz := false }
  let fp : Fmt := .flt .fp32
  let occ := (List.range (d.top + 1)).filter (fun l => (rungSpan d.n d.top l).isSome)
  occ.forM (rungCheck d)
  let t := occ.foldl
    (fun (t : List Nat) l =>
      let w := v.arg fp (ladGet h f.vb.toNat l)
      List.zipWith (fun t x => (v.finish fp (Num.fma .rne false false w (v.arg fp x) (v.arg fp t))).1) t
        ((s.rung d l).map BitVec.toNat))
    (List.replicate (shapeCount d.shape) 0)
  ladWrite f d (t.map (BitVec.ofNat 32))
  finish

/-- LCOUNT (R189). -/
def effLcount (f : LaF) : Mach Unit := do
  let d ← theLad f.va.toNat true none
  writeS f.vd (BitVec.ofNat 64 d.n)
  finish

/-- LSYNC (R189). -/
def effLsync (_ : LaF) : Mach Unit := do
  modify (fun s => s.drainLadders s.cur)
  finish

/-- LRESET (R189). -/
def effLreset (f : LaF) : Mach Unit := do
  let d ← theLad f.vd.toNat true none
  awaitLad d.num
  modify (fun s => s.putN d 0)
  finish

/-- A descriptor checked at resumption: a malformed one loses INIT (R370). -/
def State.checkLad (s : State) (d : Lad) : State :=
  let c := s.core d.core
  let tail := c.spadRead (d.abs + 24) 232
  let ok := c.spadRead d.abs 8 < 2 ^ 48 && c.spadRead (d.abs + 16) 1 < 16 && c.spadRead (d.abs + 17) 1 < 3
    && c.spadRead (d.abs + 18) 2 < 2 && tail == 0 && shapeOk d.shape && d.z == slotSize d.shape
    && 256 + (d.top + 1) * d.z ≤ Config.ladderRegion
  if d.init && !ok then s.setCore d.core (c.spadWrite (d.abs + 18) 1 0) else s

/-- Every ladder of a launch in an allocation checked, those of harts that have retired among them (R370). -/
def State.checkLads (s : State) (core base : Nat) (l : Launch) : State :=
  (List.range l.harts).foldl (fun s i => (List.range l.lads).foldl (fun s k => s.checkLad (s.ladOf core base l i k)) s) s

end Sys2Proof.Machine
end

