-- ==== Sys2Proof/Machine/Deflate.lean ====
section
/-!
DEFINITION. Inflating a raw DEFLATE stream (RFC 1951) as XINFL does (R219): input bits lowest first, output bytes, and
the subcode the stream stops with.
-/

namespace Sys2Proof.Deflate

/-- The progress of an inflation: the next bit, and the output, newest byte first, with its length. -/
structure Out where
  pos : Nat
  rev : List Byte
  len : Nat
  deriving DecidableEq, Repr

/-- A step of it, or the stop: the output so far and the subcode. -/
abbrev Res (α : Type) := Except (Out × Nat) α

/-- The input: its bits as a number, and how many there are. -/
structure Inp where
  bits : Nat
  size : Nat
  cap : Nat                          -- output bytes granted
  deriving DecidableEq, Repr

/-- `n` bits, lowest first; subcode 4 where the input ends. -/
def take (i : Inp) (o : Out) (n : Nat) : Res (Nat × Out) :=
  if i.size < o.pos + n then .error (o, 4)
  else .ok (i.bits / 2 ^ o.pos % 2 ^ n, { o with pos := o.pos + n })

/-- A byte of output; subcode 5 where it would pass the granted range. -/
def emit (i : Inp) (o : Out) (b : Byte) : Res Out :=
  if i.cap ≤ o.len then .error (o, 5) else .ok { o with rev := b :: o.rev, len := o.len + 1 }

/-- A canonical code: for each length 1 to 15 the number of its code words, and the symbols by length and value. -/
structure Code where
  counts : List Nat
  syms : List Nat
  deriving DecidableEq, Repr

/-- Whether a set of lengths is oversubscribed. -/
def overfull (counts : List Nat) : Bool :=
  (counts.foldl (fun (st : Bool × Nat) c => let left := 2 * st.2; (st.1 || left < c, left - c)) (false, 1)).1

/-- The code of a list of lengths; none where it is oversubscribed. -/
def Code.make (lens : List Nat) : Option Code :=
  let counts := (List.range' 1 15).map (fun l => lens.countP (· == l))
  if overfull counts then none
  else
    some { counts := counts
           syms := (List.range' 1 15).flatMap (fun l => (List.range lens.length).filter (fun s => lens.getD s 0 == l)) }

/-- A symbol read bit by bit; subcode 2 where no code word matches. -/
def Code.read (c : Code) (i : Inp) : List Nat → Nat → Nat → Nat → Out → Res (Nat × Out)
  | [], _, _, _, o => .error (o, 2)
  | n :: t, code, first, index, o => do
    let (b, o) ← take i o 1
    let code := code + b
    if code < first + n then return (c.syms.getD (index + (code - first)) 0, o)
    else c.read i t (2 * code) (2 * (first + n)) (index + n) o

def Code.next (c : Code) (i : Inp) (o : Out) : Res (Nat × Out) := c.read i c.counts 0 0 0 o

/-- Base lengths and extra bits of the length symbols 257 to 285. -/
def lenBase : List Nat :=
  [3, 4, 5, 6, 7, 8, 9, 10, 11, 13, 15, 17, 19, 23, 27, 31, 35, 43, 51, 59, 67, 83, 99, 115, 131, 163, 195, 227, 258]
def lenExtra : List Nat := [0, 0, 0, 0, 0, 0, 0, 0, 1, 1, 1, 1, 2, 2, 2, 2, 3, 3, 3, 3, 4, 4, 4, 4, 5, 5, 5, 5, 0]
/-- Base distances and extra bits of the distance symbols 0 to 29. -/
def distBase : List Nat :=
  [1, 2, 3, 4, 5, 7, 9, 13, 17, 25, 33, 49, 65, 97, 129, 193, 257, 385, 513, 769, 1025, 1537, 2049, 3073, 4097, 6145,
   8193, 12289, 16385, 24577]
def distExtra : List Nat :=
  [0, 0, 0, 0, 1, 1, 2, 2, 3, 3, 4, 4, 5, 5, 6, 6, 7, 7, 8, 8, 9, 9, 10, 10, 11, 11, 12, 12, 13, 13]

/-- A back-reference copied byte by byte. -/
def copy (i : Inp) (dist : Nat) : Nat → Out → Res Out
  | 0, o => .ok o
  | n + 1, o => do
    let o ← emit i o (o.rev.getD (dist - 1) 0)
    copy i dist n o

/-- The symbols of a compressed block up to its end. -/
def symbols (i : Inp) (lit dist : Code) : Nat → Out → Res Out
  | 0, o => .error (o, 4)
  | fuel + 1, o => do
    let o0 := o
    let (s, o) ← lit.next i o
    if s < 256 then
      let o ← emit i o (BitVec.ofNat 8 s)
      symbols i lit dist fuel o
    else if s = 256 then return o
    else if 285 < s then .error (o0, 2)
    else
      let (x, o) ← take i o (lenExtra.getD (s - 257) 0)
      let n := lenBase.getD (s - 257) 0 + x
      let (d, o) ← dist.next i o
      if 29 < d then .error (o, 2)
      else
        let (y, o) ← take i o (distExtra.getD d 0)
        let k := distBase.getD d 0 + y
        if o.len < k || 32768 < k then .error (o, 1)
        else
          let o ← copy i k n o
          symbols i lit dist fuel o

/-- The bytes of a stored block. -/
def stored (i : Inp) : Nat → Out → Res Out
  | 0, o => .ok o
  | n + 1, o => do
    let (b, o) ← take i o 8
    let o ← emit i o (BitVec.ofNat 8 b)
    stored i n o

/-- The codes of a fixed block. -/
def fixedLit : List Nat :=
  List.replicate 144 8 ++ List.replicate 112 9 ++ List.replicate 24 7 ++ List.replicate 8 8
def fixedDist : List Nat := List.replicate 32 5

/-- The order of the code-length code's lengths. -/
def clOrder : List Nat := [16, 17, 18, 0, 8, 7, 9, 6, 10, 5, 11, 4, 12, 3, 13, 2, 14, 1, 15]

/-- Code lengths of a dynamic block, read until `want` stand, newest first. A run without a length before it, or past the
end, is a bad code-length set (log 24). -/
def lengths (i : Inp) (cl : Code) (want : Nat) : Nat → List Nat → Out → Res (List Nat × Out)
  | 0, _, o => .error (o, 4)
  | fuel + 1, acc, o => do
    if want ≤ acc.length then
      if want < acc.length then .error (o, 7) else return (acc, o)
    else
      let (s, o) ← cl.next i o
      if s < 16 then lengths i cl want fuel (s :: acc) o
      else if s = 16 then
        match acc with
        | [] => .error (o, 7)
        | p :: _ =>
          let (n, o) ← take i o 2
          lengths i cl want fuel (List.replicate (3 + n) p ++ acc) o
      else
        let (n, o) ← take i o (if s = 17 then 3 else 7)
        lengths i cl want fuel (List.replicate ((if s = 17 then 3 else 11) + n) 0 ++ acc) o

/-- A code, or subcode 7. -/
def codeOr (o : Out) (lens : List Nat) : Res Code :=
  match Code.make lens with
  | some c => .ok c
  | none => .error (o, 7)

/-- The blocks of a stream. -/
def blocks (i : Inp) : Nat → Out → Res Out
  | 0, o => .error (o, 4)
  | fuel + 1, o => do
    let (final, o) ← take i o 1
    let (kind, o) ← take i o 2
    let o ←
      if kind = 0 then do
        let o := { o with pos := (o.pos + 7) / 8 * 8 }
        let (n, o) ← take i o 16
        let (c, o) ← take i o 16
        if n + c != 65535 then .error (o, 3)
        else stored i n o
      else if kind = 1 then do
        let lit ← codeOr o fixedLit
        let dist ← codeOr o fixedDist
        symbols i lit dist (i.size + 1) o
      else if kind = 2 then do
        let (hlit, o) ← take i o 5
        let (hdist, o) ← take i o 5
        let (hclen, o) ← take i o 4
        let (cls, o) ← take i o (3 * (hclen + 4))
        let lens := (List.range 19).map (fun s =>
          let k := (clOrder.takeWhile (fun x => x != s)).length
          if k < hclen + 4 then cls / 2 ^ (3 * k) % 8 else 0)
        let cl ← codeOr o lens
        let (acc, o) ← lengths i cl (hlit + 257 + hdist + 1) (i.size + 1) [] o
        let all := acc.reverse
        let lit ← codeOr o (all.take (hlit + 257))
        let dist ← codeOr o (all.drop (hlit + 257))
        symbols i lit dist (i.size + 1) o
      else .error (o, 6)
    if final = 1 then return o else blocks i fuel o

/-- A stream inflated into at most `cap` bytes: the output and the subcode, 0 at a normal end. -/
def inflate (input : List Byte) (cap : Nat) : List Byte × Nat :=
  let i : Inp := { bits := input.foldr (fun b a => b.toNat + 256 * a) 0, size := 8 * input.length, cap := cap }
  match blocks i (8 * input.length + 1) { pos := 0, rev := [], len := 0 } with
  | .ok o => (o.rev.reverse, 0)
  | .error (o, c) => (o.rev.reverse, c)

end Sys2Proof.Deflate
end

