-- ==== Sys2Proof/Machine/Copy.lean ====
section
/-!
DEFINITION. The effects of class EN and the copy engine: descriptors, pinning, transfers and their end (R215 to R221,
R252, R308).
-/

namespace Sys2Proof.Machine

/-! ### Status words (R220) -/

/-- A status word. -/
def statusWord (sub st len : Nat) : BitVec 64 := BitVec.ofNat 64 (len % 2 ^ 40 + st * 2 ^ 40 + sub * 2 ^ 48)
/-- ST of a status word. -/
def statusSt (w : BitVec 64) : Nat := (w.extractLsb' 40 8).toNat

/-- A tag as an index. -/
def tagFin (t : Nat) : Fin 8 := Fin.ofNat 8 t

/-! ### Positions of a copy (R216, R217) -/

/-- N_d and the strides of a descriptor's words. -/
def descN (desc : List Nat) (d : Nat) : Nat :=
  if d = 0 then desc.getD 2 0 else desc.getD (3 + (d - 1) / 2) 0 / 2 ^ (32 * ((d - 1) % 2)) % 2 ^ 32
def descSS (desc : List Nat) (d : Nat) : Int := intOfBits true 64 (desc.getD (5 + d) 0)
def descDS (desc : List Nat) (d : Nat) : Int := intOfBits true 64 (desc.getD (10 + d) 0)

/-- A copy's descriptor is well formed for `dims` dimensions (R216). -/
def descOk (desc : List Nat) (dims : Nat) : Bool :=
  1 ≤ descN desc 0 && descN desc 0 < 2 ^ 40 && desc.getD 5 0 / 2 ^ 32 == 0
    && (List.range' 1 5).all (fun d =>
      if d < dims then 1 ≤ descN desc d
      else descN desc d == 0 && descSS desc d == 0 && descDS desc d == 0)

/-- Positions in all. -/
def descCount (desc : List Nat) (dims : Nat) : Nat := (List.range dims).foldl (fun a d => a * descN desc d) 1

/-- The offset of the run that position `p` lies in. -/
def runOffset (desc : List Nat) (dims : Nat) (stride : Nat → Int) (p : Nat) : Int :=
  ((List.range' 1 (dims - 1)).foldl
    (fun (st : Nat × Int) d => (st.1 / descN desc d, st.2 + (st.1 % descN desc d : Nat) * stride d))
    (p / descN desc 0, 0)).2

/-- The slot a transfer converts with. -/
def Transfer.slot (t : Transfer) : Option Slot :=
  if t.fmt = 0 then none else some ({ Hart.reset with vc := t.vc }.slotOf (Fin.ofNat 4 (t.fmt.toNat - 1)))

/-- Bytes of a destination element. -/
def Transfer.dbytes (t : Transfer) : Nat := if t.fmt = 0 then 1 else (etFmt t.et).bytes

/-- The part of position `p` at the source. -/
def Transfer.src (t : Transfer) (p : Nat) : Part :=
  let base := BitVec.ofInt 64 (t.desc.getD 0 0 + runOffset t.desc t.dims (descSS t.desc) p)
  let k := p % descN t.desc 0
  match t.slot with
  | none => { ea := base + BitVec.ofNat 64 k, n := 1, align := 1, lo := 0, w := 8 }
  | some sl =>
    Vm.part { vd := 0, x := 0, vb := 0, m := 0, et := t.et, fmt := 0, form := .unit, base := base.toNat, stride := 0
              sp := false, bypass := false, nk := 1, rb := 1, tagRm := .rne } Hart.reset sl.enc k 0

/-- The part of position `p` at the destination. -/
def Transfer.dst (t : Transfer) (p : Nat) : Part :=
  let b := t.dbytes
  let a := (t.desc.getD 1 0 : Int) + runOffset t.desc t.dims (descDS t.desc) p + (p % descN t.desc 0 * b : Nat)
  { ea := BitVec.ofInt 64 a, n := b, align := min b 8, lo := 0, w := 8 * b }

/-- The scale bytes position `p` reads: address and count. The index of the scale is the position in the traversal of all
dimensions (log 106, DESIGN CHOICE). -/
def Transfer.scaleAt (t : Transfer) (p : Nat) : Option (BitVec 64 × Nat) :=
  match t.slot with
  | none => none
  | some sl =>
    if sl.scale = 2 then some (sl.src + BitVec.ofNat 64 (p / 32), 1)
    else if sl.scale = 3 then some (sl.src + BitVec.ofNat 64 (2 * (p % sl.ch)), 2)
    else none

/-- The least range that covers a copy's source or destination. -/
def coverRange (desc : List Nat) (dims base run : Nat) (stride : Nat → Int) : Bool × Nat × Nat :=
  let ext := (List.range' 1 (dims - 1)).map (fun d => (descN desc d - 1 : Nat) * stride d)
  let lo := ext.foldl (fun a x => a + min 0 x) (0 : Int)
  let hi := ext.foldl (fun a x => a + max 0 x) (run : Int)
  ((BitVec.ofNat 64 base).getLsbD 63, ((base % 2 ^ 55 : Nat) + lo).toNat, (hi - lo).toNat)

/-- Bytes of a run at the source. -/
def Transfer.srcRun (t : Transfer) : Nat :=
  let n := descN t.desc 0
  match t.slot with
  | none => n
  | some sl =>
    match sl.enc with
    | .el f => n * f.bytes
    | .nib _ => (n + 1) / 2
    | .grp _ k q _ => (n + k - 1) / k * q

/-! ### Pinning (R218) -/

/-- What pinning has gathered: pages, the distinct mappings they lie in. -/
structure Pins where
  pages : List (Nat × Nat × Bool)
  maps : List Nat
  deriving DecidableEq, Repr

/-- The TINFO of a transfer's fault. -/
def xferInfo : BitVec 64 := vecInfo 0 3

/-- The base of the mapping that holds an address. -/
def State.mapBase (s : State) (va : Nat) : Nat :=
  match s.leafFor s.coreNo s.me.ctx va with
  | .leaf e => va / pageSize (eSz e) * pageSize (eSz e)
  | _ => va

/-- Whether the page of an address is device-class or bypasses the CDC (R242). -/
def State.bypassPage (s : State) (va : Nat) : Bool :=
  match s.leafFor s.coreNo s.me.ctx va with
  | .leaf e => eDev e || ePol e == 3
  | _ => false

/-- One piece pinned. -/
def Pins.add (p : Pins) (s : State) (a : BitVec 64) (l : Loc) : Pins :=
  let va := a.toNat % 2 ^ 55
  let put (pa : Nat) : Pins :=
    { pages := if p.pages.any (fun x => x.1 == va / 0x10000) then p.pages
               else (va / 0x10000, pa - va % 0x10000, s.bypassPage va) :: p.pages
      maps := if p.maps.contains (s.mapBase va) then p.maps else s.mapBase va :: p.maps }
  match l with
  | .spad _ _ => p
  | .dram pa _ => put pa
  | .dev pa => put pa

/-- A part located and its pages pinned. -/
def pinPart (need : Need) (x : Part) (p : Pins) : Mach Pins := do
  let ls ← locPart need xferInfo (isSpad x.ea) false x.ea x
  let s ← get
  return (List.zip x.pieces ls).foldl (fun p e => p.add s e.1.1 e.2.1) p

/-- The parts of position `k`, pinned. Byte `k` of the source of a decompression and byte `k` of its destination are one position
(log 105, DESIGN CHOICE). -/
def Transfer.pinAt (t : Transfer) (k : Nat) (p : Pins) : Mach Pins := do
  let p ←
    if t.inflate then do
      let p ←
        if k < t.input then
          pinPart .read { ea := BitVec.ofNat 64 (t.desc.getD 0 0 + k), n := 1, align := 1, lo := 0, w := 8 } p
        else pure p
      if k < t.count then
        pinPart .write { ea := BitVec.ofNat 64 (t.desc.getD 1 0 + k), n := 1, align := 1, lo := 0, w := 8 } p
      else pure p
    else do
      let p ← pinPart .read (t.src k) p
      let p ← match t.scaleAt k with
        | some (a, n) => pinPart .read { ea := a, n := n, align := n, lo := 0, w := 8 * n } p
        | none => pure p
      pinPart .write (t.dst k) p
  return p

/-- The global addresses that position `k` touches, in the order in which they are pinned. -/
def Transfer.touches (t : Transfer) (k : Nat) : List (BitVec 64) :=
  (if t.inflate then
     (if k < t.input then [BitVec.ofNat 64 (t.desc.getD 0 0 + k)] else [])
       ++ (if k < t.count then [BitVec.ofNat 64 (t.desc.getD 1 0 + k)] else [])
   else
     (t.src k).pieces.map (fun x => x.1) ++ (t.scaleAt k).toList.map (fun x => x.1) ++ (t.dst k).pieces.map (fun x => x.1)).filter
    (fun a => !isSpad a)

/-- A descriptor fault (R216, R218). -/
def descFault {α : Type} (reason : Nat) (ea : BitVec 64) : Mach α :=
  raise cAccess (BitVec.ofNat 64 (0x5000 + reason * 256)) ea

/-- Every position pinned in traversal order: the pins and, where a fault trims the transfer, the position it stops
before (R218). -/
def Transfer.pinAll (t : Transfer) (ff : Bool) (desc : BitVec 64) : List Nat → Pins → Mach (Pins × Option Nat)
  | [], p => return (p, none)
  | k :: rest, p => do
    let got : Option Pins ← tryCatch (do return some (← t.pinAt k p)) (fun e => do
      match e with
      | .trap c _ a =>
        if ff && k != 0 && (c == cPageFault || c == cAccess) then
          if c == cPageFault then trimPost ((← get).absentByte (t.touches k) a)
          return none
        else
          modHart (fun h => h.setVstart 0)
          throw e
      | e => throw e)
    match got with
    | none => return (p, some k)
    | some p =>
      if 8192 < p.maps.length then descFault 2 desc
      else t.pinAll ff desc rest p

/-! ### The end of a transfer -/

/-- Where a byte of a transfer of the moving hart lies: at home where its page bypasses the CDC or its line holds an object
armed by now (R305). -/
def State.xferLoc (s : State) (t : Transfer) (a : BitVec 64) : Loc :=
  let va := a.toNat % 2 ^ 55
  if isSpad a then .spad s.coreNo (t.space + va)
  else
    match t.pages.find? (fun x => x.1 == va / 0x10000) with
    | some (_, f, home) =>
      let pa := f + va % 0x10000
      if Config.pcieBase ≤ f then .dev pa else .dram pa (home || s.armedLine pa)
    | none => .dram va true

/-- A value nothing constrains. -/
def State.free (s : State) (w : Nat) : State × Nat := ({ s with fresh := s.fresh + 1 }, Config.freeValue s.fresh % 2 ^ w)

/-- One byte as the moving hart's core reads it; one of the outbound window was read before the transfer was accepted (log
23). -/
def State.engineByte (s : State) (t : Transfer) (l : Loc) : State × Nat :=
  match l with
  | .dev pa => (s, ((t.window.find? (fun x => x.1 == pa)).map (fun x => x.2)).getD 0)
  | .dram pa true => let s := s.evictLine s.coreNo pa; (s, (s.homeByte pa).toNat)
  | l => (s, ofBytes (s.peek l 1))

/-- Bytes of a transfer's side, lowest first, and whether poison was met. -/
def State.engineRead (s : State) (t : Transfer) (a : BitVec 64) (n : Nat) : State × Nat × Bool :=
  (List.range n).foldl
    (fun (st : State × Nat × Bool) i =>
      let l := st.1.xferLoc t (a + BitVec.ofNat 64 i)
      let bad := st.1.locPoisoned l 1
      let (s, b) := st.1.engineByte t l
      (s, st.2.1 + b * 256 ^ i, st.2.2 || bad)) (s, 0, false)

/-- The words that hold `n` bytes at a location, poisoned: the mark travels with the data (R376), in a core's CDC where it
stands there (log 73). -/
def State.poisonAt (s : State) (l : Loc) (n : Nat) : State :=
  match l with
  | .spad c o =>
    let k := s.core c
    s.setCore c { k with spadPoison := poisonAll k.spadPoison (wordsAt o n) }
  | .dram pa home =>
    let k := s.core s.coreNo
    if home then { s with poison := poisonAll s.poison (wordsAt pa n) }
    else s.setCore s.coreNo { k with tainted := poisonAll k.tainted (wordsAt pa n) }
  | .dev _ => s

/-- A byte written at the destination, but not on an object armed since the transfer was accepted (R308). -/
def State.engineByteOut (s : State) (l : Loc) (b : Byte) : State :=
  if (s.clobbered l 1).isSome then s else s.poke l [b]

/-- Bytes written at the destination. -/
def State.engineWrite (s : State) (t : Transfer) (a : BitVec 64) (n x : Nat) : State :=
  (List.range n).foldl
    (fun s i => s.engineByteOut (s.xferLoc t (a + BitVec.ofNat 64 i)) (BitVec.ofNat 8 (x / 256 ^ i))) s

/-- The bytes that a transfer has written, `n` at each address listed, with whether what they came from was poisoned: the words
covered whole are clean again, and the mark travels with the data (R146, R376). -/
def State.engineMarks (s : State) (t : Transfer) (ws : List (BitVec 64 × Nat × Bool)) : State :=
  let at_ (w : BitVec 64 × Nat × Bool) : List Loc :=
    ((List.range w.2.1).map (fun i => s.xferLoc t (w.1 + BitVec.ofNat 64 i))).filter (fun l => (s.clobbered l 1).isNone)
  ((ws.filter (fun w => w.2.2)).flatMap at_).foldl (fun s l => s.poisonAt l 1)
    (s.cure ((ws.flatMap at_).map (fun l => (l, 0, 8))))

/-- The key of a byte, for the comparison of a transfer's source with its destination. -/
def Loc.byteKey (l : Loc) : Nat × Nat :=
  match l with
  | .spad c o => (c + 1, o)
  | .dram pa _ => (0, pa)
  | .dev pa => (0, pa)

/-- The bytes of the source. -/
def State.srcKeys (s : State) (t : Transfer) : List (Nat × Nat) :=
  (List.range t.count).flatMap (fun p =>
    let x := t.src p
    (List.range x.n).map (fun i => (s.xferLoc t (x.ea + BitVec.ofNat 64 i)).byteKey))

/-- The scale of position `p` (R38) and whether it was poisoned. -/
def State.engineScale (s : State) (t : Transfer) (sl : Slot) (p : Nat) : State × Num × Bool :=
  match t.scaleAt p with
  | none => (s, if sl.scale = 1 then fltDecode .fp32 (sl.src.toNat % 2 ^ 32) else .fin false 1 0, false)
  | some (a, n) =>
    let (s, x, bad) := s.engineRead t a n
    if sl.scale = 2 then
      let adj : Int := if sl.enc == .el (.i 8) then 6 else 0
      (s, if x = 255 then .nan false else .fin false 1 (x - 127 - adj), bad)
    else (s, fltDecode .fp16 x, bad)

/-- One position moved: the state, its flags, and whether what it read was poisoned. -/
def State.movePosition (s : State) (t : Transfer) (p : Nat) : State × Flags × Bool :=
  let x := t.src p
  let (s, raw, bad) := s.engineRead t x.ea x.n
  let bits := raw / 2 ^ x.lo % 2 ^ x.w
  match t.slot with
  | none => (s.engineWrite t (t.dst p).ea 1 bits, 0, bad)
  | some sl =>
    let (s, sigma, bad2) := s.engineScale t sl p
    let (y, g) := convIn sl (etFmt t.et) (t.vc.fctl.getLsbD 3) sigma bits
    (s.engineWrite t (t.dst p).ea t.dbytes y, g, bad || bad2)

/-- Destination bytes that are also source bytes end with any value (R217). -/
def State.blurOverlap (s : State) (t : Transfer) : State :=
  let keys := s.srcKeys t
  (List.range t.count).foldl (fun s p =>
    let d := t.dst p
    (List.range d.n).foldl (fun s i =>
      let a := d.ea + BitVec.ofNat 64 i
      if keys.contains (s.xferLoc t a).byteKey then
        let (s, b) := s.free 8
        s.engineWrite t a 1 b
      else s) s) s

/-- What a transfer does to memory: the state, the subcode, the destination bytes complete, and its flags. -/
def State.runTransfer (s : State) (t : Transfer) : State × Nat × Nat × Flags :=
  if t.inflate then
    let (s, x, bad) := s.engineRead t (BitVec.ofNat 64 (t.desc.getD 0 0)) t.input
    let (out, sub) := Deflate.inflate (bytesOf t.input x) t.count
    let dst := BitVec.ofNat 64 (t.desc.getD 1 0)
    let s := (s.engineWrite t dst out.length (ofBytes out)).engineMarks t [(dst, out.length, bad)]
    let sub := if t.trimmed && (sub = 4 || sub = 5) then 0 else sub
    let s :=
      if sub = 0 then s
      else (List.range' out.length (t.count - out.length)).foldl (fun s i =>
        let (s, b) := s.free 8
        s.engineWrite t (dst + BitVec.ofNat 64 i) 1 b) s
    (s, sub, out.length, 0)
  else
    let (s, fl, ws) := (List.range t.count).foldl (fun (st : State × Flags × List (BitVec 64 × Nat × Bool)) p =>
      let (s, g, bad) := st.1.movePosition t p
      (s, st.2.1 ||| g, ((t.dst p).ea, t.dbytes, bad) :: st.2.2)) (s, (0 : Flags), [])
    ((s.engineMarks t ws).blurOverlap t, 0, t.count * t.dbytes, fl)

/-- A hart's transfer ends (R220): its status word, its flags in FFLAGS, and its tag free. -/
def State.endNow (s : State) (key tag : Nat) : State :=
  let h := s.hartAt key
  match h.xfers.find? (fun t => t.tag == tag) with
  | none => s
  | some t =>
    let (s', sub, len, fl) := { s with cur := key }.runTransfer t
    let w := statusWord sub (if sub != 0 then 0x0D else if t.trimmed then 2 else 1) len
    let s' := { s' with cur := s.cur }
    let h := s'.hartAt key
    s'.setHart key { h with xfers := h.xfers.filter (fun x => x.tag != tag), tags := h.tags.set (tagFin tag) w
                            fflags := h.fflags ||| fl }

/-- Whether a transfer is held: a page of it lies in a channel whose contents are being copied (R382). -/
def State.xferHeld (s : State) (key tag : Nat) : Bool :=
  (s.hartAt key).xfers.any (fun t => t.tag == tag && t.pages.any (fun p => s.copying.contains (p.2.1 / Config.channelBytes)))

/-- A hart's transfer ends where nothing holds it. -/
def State.endTransfer (s : State) (key tag : Nat) : State := if s.xferHeld key tag then s else s.endNow key tag

/-- Every transfer of a hart that nothing holds ends, oldest first. -/
def State.endTransfers (s : State) (key : Nat) : State :=
  (s.hartAt key).xfers.foldl (fun s t => s.endTransfer key t.tag) s

/-- The moving hart's transfers end; it waits while one is held. -/
def endAll : Mach Unit := do
  modify (fun s => s.endTransfers s.cur)
  if !(← hart).xfers.isEmpty then throw .wait

/-! ### Instructions -/

/-- The lowest free tag; a transfer ends first while all eight are in flight, while fewer than two entries of the core's
interlock table are free, or while the copy engine's queue receives no entry (R218, R220, R282). -/
def freeTag : Mach Nat := do
  let s ← get
  let h := s.me
  let busy := s.harts.flatMap (fun e => if e.1 / 8 = s.coreNo then e.2.xfers.map (fun t => (e.1, t.tag)) else [])
  match (List.range 8).find? (fun k => !h.xfers.any (fun t => t.tag == k)) with
  | none =>
    match h.xfers with
    | t :: _ => throw (.busy s.cur t.tag)
    | [] => return 0
  | some k =>
    if 16 ≤ busy.length || !s.queueHas s.coreNo qCopy 1 then
      match busy with
      | (key, tag) :: _ => throw (.busy key tag)
      | [] => return k
    else return k

/-- A tag taken. -/
def takeTag (k : Nat) (w dst : BitVec 64) (d : BitVec 6) : Mach Unit := do
  modHart (fun h => { h with tags := h.tags.set (tagFin k) w, tagDst := h.tagDst.set (tagFin k) dst })
  writeS d (BitVec.ofNat 64 k)
  finish

/-- The descriptor's words (R216). -/
def readDesc (ea : BitVec 64) : Mach (List Nat) := stopAt 0 (do
  let _ ← place { need := .read, n := 8, align := 64, bypass := false, info := vecInfo 0 0, vec := true } (isSpad ea) ea
  faultAs ea (readWords { vecReq .read 0 0 with walks := true } (isSpad ea) ea 16))

/-- The bytes of a transfer's source and scales that lie in the PCIe window, read before the first byte moves: each read
completes once, and one in error raises ACCESS (R150, R218, R347; log 23). -/
def Transfer.readWindow (t : Transfer) : Mach Transfer := do
  let s ← get
  let side (a : BitVec 64) (n : Nat) : List (BitVec 64) := (List.range n).map (fun i => a + BitVec.ofNat 64 i)
  let as := if t.inflate then side (BitVec.ofNat 64 (t.desc.getD 0 0)) t.input
            else (List.range t.count).flatMap (fun k =>
              side (t.src k).ea (t.src k).n ++ (t.scaleAt k).toList.flatMap (fun x => side x.1 x.2))
  let ds := as.filterMap (fun a => match s.xferLoc t a with | .dev pa => some (a, pa) | _ => none)
  let ds := ds.foldl (fun (xs : List (BitVec 64 × Nat)) d => if xs.any (fun x => x.2 == d.2) then xs else xs ++ [d]) []
  let bytes ← ds.mapM (fun d => stopAt 0 (do
    let x ← readLoc { need := .read, n := 1, align := 1, bypass := true, info := xferInfo, vec := true } d.1 (.dev d.2)
    return (d.2, x)))
  return { t with window := bytes }

/-- Whether a transfer or its descriptor at an address touches device-class memory (R234); `mk` gives the transfer that
the words of the descriptor name. -/
def State.descDevice (s : State) (ea : BitVec 64) (mk : State → List Nat → Transfer) : Bool :=
  s.anyDevice ((List.range 16).map (fun i => ea + BitVec.ofNat 64 (8 * i)))
    || (match (readDesc ea).run s with
        | .ok desc _ =>
          let t := mk s desc
          (List.range (if t.inflate then max t.input t.count else t.count)).any (fun k => s.anyDevice (t.touches k))
        | .error _ _ => false)

/-- A transfer pinned and accepted. -/
def accept (t : Transfer) (ff : Bool) (ea : BitVec 64) (d : BitVec 6) : Mach Unit := do
  t.ranges.forM (fun r => interlock r.1 r.2.1 r.2.2)
  let total := if t.inflate then max t.input t.count else t.count
  modify (fun s => s.walkedPages .read false ((List.range total).flatMap t.touches))
  let (pins, cut) ← t.pinAll ff ea (List.range total) { pages := [], maps := [] }
  let t := match cut with
    | none => { t with pages := pins.pages }
    | some k => { t with pages := pins.pages, trimmed := true, count := min t.count k, input := min t.input k }
  let t ← t.readWindow
  modHart (fun h => { h with xfers := h.xfers ++ [t] })
  takeTag t.tag 0 (BitVec.ofNat 64 (t.desc.getD 1 0)) d

/-- The copy that a descriptor names. -/
def State.copyOf (s : State) (f : EnF) (tag : Nat) (desc : List Nat) : Transfer :=
  let h := s.me
  let dims := f.dims.toNat + 1
  let t : Transfer :=
    { tag := tag, inflate := false, trimmed := false, fmt := f.fmt, et := f.et, vc := h.vc
      count := descCount desc dims, input := 0, desc := desc, dims := dims, space := (s.spadOf h).1, pages := []
      window := [], ranges := [] }
  { t with ranges := [coverRange desc dims (desc.getD 0 0) t.srcRun (descSS desc),
                      coverRange desc dims (desc.getD 1 0) (descN desc 0 * t.dbytes) (descDS desc)] }

/-- XCOPY and XCOPYFF. -/
def copyOp (f : EnF) (ff : Bool) : Mach Unit := do
  let tag ← freeTag
  let h ← hart
  if h.vl = 0 then takeTag tag (statusWord 0 1 0) 0 f.vd
  else
    let ea := h.readS f.va
    let desc ← readDesc ea
    if !descOk desc (f.dims.toNat + 1) then descFault 1 ea
    accept ((← get).copyOf f tag desc) ff ea f.vd

def effXcopy (f : EnF) : Mach Unit := copyOp f false
def effXcopyff (f : EnF) : Mach Unit := copyOp f true

/-- The decompression that a descriptor names (R219). -/
def State.inflOf (s : State) (tag : Nat) (desc : List Nat) : Transfer :=
  let h := s.me
  let range := fun (a n : Nat) => ((BitVec.ofNat 64 a).getLsbD 63, a % 2 ^ 55, n)
  let slen := desc.getD 2 0
  let dcap := desc.getD 3 0
  { tag := tag, inflate := true, trimmed := false, fmt := 0, et := 0, vc := h.vc, count := dcap, input := slen
    desc := desc, dims := 1, space := (s.spadOf h).1, pages := [], window := []
    ranges := [range (desc.getD 0 0) slen, range (desc.getD 1 0) dcap] }

/-- XINFL (R219). -/
def effXinfl (f : EnF) : Mach Unit := do
  let tag ← freeTag
  let h ← hart
  if h.vl = 0 then takeTag tag (statusWord 0 1 0) 0 f.vd
  else
    let ea := h.readS f.va
    let desc ← readDesc ea
    let slen := desc.getD 2 0
    let dcap := desc.getD 3 0
    if slen = 0 || 2 ^ 40 ≤ slen || dcap = 0 || 2 ^ 40 ≤ dcap || (desc.drop 4).any (· != 0) then descFault 1 ea
    accept ((← get).inflOf tag desc) (f.ff == 1) ea f.vd

/-- Whether XCOPY or XINFL touches device-class memory (R234). -/
def State.copyDevice (s : State) (f : EnF) : Bool :=
  s.me.vl != 0 && s.descDevice (s.me.readS f.va) (fun s desc => s.copyOf f 0 desc)
def State.inflDevice (s : State) (f : EnF) : Bool :=
  s.me.vl != 0 && s.descDevice (s.me.readS f.va) (fun s desc => s.inflOf 0 desc)

/-- A tag operand, checked at issue (order 12 of R83). -/
def tagCheck (f : EnF) : Mach Unit := do
  if 8 ≤ ((← hart).readS f.va).toNat then illegal 0x02

/-- XWAIT: the transfer it waits for ends, once nothing holds it. -/
def effXwait (f : EnF) : Mach Unit := do
  let k := ((← hart).readS f.va).toNat
  modify (fun s => s.endTransfer s.cur k)
  let h ← hart
  if (← get).xferHeld (← get).cur k then throw .wait
  let w := h.tags.get (tagFin k)
  if f.vd = 0 && statusSt w = 0x0D then
    raise cEngineData (w.extractLsb' 48 4 |>.zeroExtend 64) (h.tagDst.get (tagFin k) + (w.extractLsb' 0 40).zeroExtend 64)
  writeS f.vd w
  finish

/-- XSTAT. -/
def effXstat (f : EnF) : Mach Unit := do
  let h ← hart
  writeS f.vd (h.tags.get (tagFin (h.readS f.va).toNat))
  finish

end Sys2Proof.Machine
end

