-- ==== Sys2Proof/Machine/Regs.lean ====
section
/-!
DEFINITION. Which registers an instruction reads and which it writes, for the errors of R379 and for the scalar results
that later scalar work waits for (R118).
-/

namespace Sys2Proof.Regs

/-- A scalar register. -/
def s (r : BitVec 6) : Nat × Nat := (0, r.toNat)
/-- A vector group of `g` registers. -/
def v (g : Nat) (r : BitVec 6) : List (Nat × Nat) := (List.range g).map (fun i => (1, r.toNat + i))
/-- A vector group or a scalar register. -/
def vs (os : BitVec 1) (g : Nat) (r : BitVec 6) : List (Nat × Nat) := if os == 1 then [s r] else v g r
/-- A mask register. -/
def m (r : BitVec 6) : Nat × Nat := (2, r.toNat)
/-- A governing mask; m0 is no register. -/
def k (r : BitVec 5) : List (Nat × Nat) := if r == 0 then [] else [(2, r.toNat)]
/-- An accumulator. -/
def acc (r : BitVec 6) : Nat × Nat := (3, r.toNat)

end Sys2Proof.Regs

namespace Sys2Proof

open Regs (s v vs m k acc)

/-- The registers read, for a grouping factor: kind 0 scalar, 1 vector, 2 mask, 3 accumulator (R379). -/
def Instr.reads (g : Nat) (i : Instr) : List (Nat × Nat) :=
  match i with
  | .add _ a b => [s a, s b]
  | .sub _ a b => [s a, s b]
  | .and _ a b => [s a, s b]
  | .or _ a b => [s a, s b]
  | .xor _ a b => [s a, s b]
  | .sll _ a b => [s a, s b]
  | .srl _ a b => [s a, s b]
  | .sra _ a b => [s a, s b]
  | .min _ a b => [s a, s b]
  | .max _ a b => [s a, s b]
  | .minn _ a b => [s a, s b]
  | .maxn _ a b => [s a, s b]
  | .mul _ a b => [s a, s b]
  | .mulh _ a b => [s a, s b]
  | .mulhn _ a b => [s a, s b]
  | .div _ a b => [s a, s b]
  | .divn _ a b => [s a, s b]
  | .rem _ a b => [s a, s b]
  | .remn _ a b => [s a, s b]
  | .clz _ a _ => [s a]
  | .ctz _ a _ => [s a]
  | .popc _ a _ => [s a]
  | .sel _ a _ => [s a]
  | .addi _ a _ => [s a]
  | .andi _ a _ => [s a]
  | .ori _ a _ => [s a]
  | .xori _ a _ => [s a]
  | .slli _ a _ _ => [s a]
  | .srli _ a _ _ => [s a]
  | .srai _ a _ _ => [s a]
  | .lih _ a _ => [s a]
  | .pcadd _ _ => []
  | .ldb _ a _ => [s a]
  | .ldbn _ a _ => [s a]
  | .ldh _ a _ => [s a]
  | .ldhn _ a _ => [s a]
  | .ldw _ a _ => [s a]
  | .ldwn _ a _ => [s a]
  | .ldd _ a _ => [s a]
  | .stb d a _ => [s d, s a]
  | .sth d a _ => [s d, s a]
  | .stw d a _ => [s d, s a]
  | .std d a _ => [s d, s a]
  | .cmpeq _ a b _ => [s a, s b]
  | .cmpne _ a b _ => [s a, s b]
  | .cmplt _ a b _ => [s a, s b]
  | .cmpge _ a b _ => [s a, s b]
  | .cmpltn _ a b _ => [s a, s b]
  | .cmpgen _ a b _ => [s a, s b]
  | .cmpand _ a b _ => [s a, s b]
  | .cmpieq _ a _ => [s a]
  | .cmpine _ a _ => [s a]
  | .cmpilt _ a _ => [s a]
  | .cmpige _ a _ => [s a]
  | .cmpiltn _ a _ => [s a]
  | .cmpigen _ a _ => [s a]
  | .cmpiand _ a _ => [s a]
  | .cand _ _ _ => []
  | .cor _ _ _ => []
  | .cxor _ _ _ => []
  | .cnot _ _ _ => []
  | .cget _ _ _ => []
  | .cfrom _ a _ => [s a]
  | .fadd _ a b _ => [s a, s b]
  | .fsub _ a b _ => [s a, s b]
  | .fmul _ a b _ => [s a, s b]
  | .fdiv _ a b _ => [s a, s b]
  | .fsqrt _ a _ _ => [s a]
  | .fmin _ a b _ => [s a, s b]
  | .fmax _ a b _ => [s a, s b]
  | .fcvt _ a _ _ => [s a]
  | .fclass _ a _ _ => [s a]
  | .fma d a b _ => [s d, s a, s b]
  | .fms d a b _ => [s d, s a, s b]
  | .fnma d a b _ => [s d, s a, s b]
  | .fcmpeq _ a b _ => [s a, s b]
  | .fcmpne _ a b _ => [s a, s b]
  | .fcmplt _ a b _ => [s a, s b]
  | .fcmpge _ a b _ => [s a, s b]
  | .bc _ _ => []
  | .bcn _ _ => []
  | .j _ _ => []
  | .jr _ a _ => [s a]
  | .amoadd _ a b _ _ => [s a, s b]
  | .amofadd _ a b _ _ => [s a, s b]
  | .amomin _ a b _ _ => [s a, s b]
  | .amomax _ a b _ _ => [s a, s b]
  | .amoand _ a b _ _ => [s a, s b]
  | .amoor _ a b _ _ => [s a, s b]
  | .amoxor _ a b _ _ => [s a, s b]
  | .amoswap _ a b _ _ => [s a, s b]
  | .cas d a b _ _ _ _ => [s d, s a, s b]
  | .fenceacq _ _ _ _ _ => []
  | .fencerel _ _ _ _ _ => []
  | .fencear _ _ _ _ _ => []
  | .fencesc _ _ _ _ _ => []
  | .rdctl _ _ _ => []
  | .wrctl _ a _ => [s a]
  | .trap _ _ _ => []
  | .eret _ => []
  | .yield _ => []
  | .halt _ => []
  | .qput _ a b _ => [s a, s b]
  | .ipost _ a _ => [s a]
  | .iwait _ a _ => [s a]
  | .pref _ a _ => [s a]
  | .vsetl f => [s f.va, s f.vb]
  | .vadd f => v g f.va ++ vs f.os g f.vb ++ k f.m
  | .vsub f => v g f.va ++ vs f.os g f.vb ++ k f.m
  | .vmul f => v g f.va ++ vs f.os g f.vb ++ k f.m
  | .vmulh f => v g f.va ++ vs f.os g f.vb ++ k f.m
  | .vdiv f => v g f.va ++ vs f.os g f.vb ++ k f.m
  | .vrem f => v g f.va ++ vs f.os g f.vb ++ k f.m
  | .vmin f => v g f.va ++ vs f.os g f.vb ++ k f.m
  | .vmax f => v g f.va ++ vs f.os g f.vb ++ k f.m
  | .vabs f => v g f.va ++ k f.m
  | .vneg f => v g f.va ++ k f.m
  | .vand f => v g f.va ++ vs f.os g f.vb ++ k f.m
  | .vor f => v g f.va ++ vs f.os g f.vb ++ k f.m
  | .vxor f => v g f.va ++ vs f.os g f.vb ++ k f.m
  | .vnot f => v g f.va ++ k f.m
  | .vsll f => v g f.va ++ vs f.os g f.vb ++ k f.m
  | .vsrl f => v g f.va ++ vs f.os g f.vb ++ k f.m
  | .vsra f => v g f.va ++ vs f.os g f.vb ++ k f.m
  | .vadds f => v g f.va ++ vs f.os g f.vb ++ k f.m
  | .vsubs f => v g f.va ++ vs f.os g f.vb ++ k f.m
  | .vavg f => v g f.va ++ vs f.os g f.vb ++ k f.m
  | .vfma f => v g f.vd ++ v g f.va ++ vs f.os g f.vb ++ k f.m
  | .vfms f => v g f.vd ++ v g f.va ++ vs f.os g f.vb ++ k f.m
  | .vfnma f => v g f.vd ++ v g f.va ++ vs f.os g f.vb ++ k f.m
  | .vsqrt f => v g f.va ++ k f.m
  | .vrsq f => v g f.va ++ k f.m
  | .vrcp f => v g f.va ++ k f.m
  | .vexp2 f => v g f.va ++ k f.m
  | .vlog2 f => v g f.va ++ k f.m
  | .vclamp f => v g f.va ++ vs f.os g f.vb ++ vs f.os g f.x ++ k f.m
  | .vscale f => v g f.va ++ vs f.os g f.vb ++ k f.m
  | .vcvt f => v g f.va ++ k f.m
  | .vdot f => v g f.vd ++ v g f.va ++ vs f.os g f.vb ++ k f.m
  | .vcmp f => v g f.va ++ vs f.os g f.vb ++ k f.m
  | .vmerge f => v g f.va ++ vs f.os g f.vb ++ [m f.x] ++ k f.m
  | .vbcast f => vs f.os g f.vb ++ k f.m
  | .vid f => k f.m
  | .mand f => [m f.va, m f.vb]
  | .mor f => [m f.va, m f.vb]
  | .mxor f => [m f.va, m f.vb]
  | .mandn f => [m f.va, m f.vb]
  | .mnot f => [m f.va]
  | .mpop f => [m f.va] ++ k f.m
  | .mfirst f => [m f.va] ++ k f.m
  | .msetn f => [s f.vb]
  | .vslideup f => v g f.va ++ [s f.vb] ++ k f.m
  | .vslidedn f => v g f.va ++ [s f.vb] ++ k f.m
  | .vperm f => v g f.va ++ v g f.vb ++ k f.m
  | .vcompress f => v g f.va ++ [m f.x] ++ k f.m
  | .vexpand f => v g f.va ++ [m f.x] ++ k f.m
  | .vrank f => [m f.va, s f.vb] ++ k f.m
  | .vextr f => v g f.va ++ [s f.vb]
  | .vins f => [s f.va, s f.vb]
  | .vredsum f => v g f.va ++ [s f.vb] ++ k f.m
  | .vredsumo f => v g f.va ++ [s f.vb] ++ k f.m
  | .vredmax f => v g f.va ++ [s f.vb] ++ k f.m
  | .vredmin f => v g f.va ++ [s f.vb] ++ k f.m
  | .vconf f => v g f.va ++ k f.m
  | .vld f => [s f.va] ++ k f.m
  | .vlds f => [s f.va, s f.vb] ++ k f.m
  | .vldx f => [s f.va] ++ v g f.vb ++ (if f.fmt == 5 then v g f.x else []) ++ k f.m
  | .vldff f => [s f.va] ++ k f.m
  | .vldxff f => [s f.va] ++ v g f.vb ++ (if f.fmt == 5 then v g f.x else []) ++ k f.m
  | .vst f => [s f.va] ++ v g f.vd ++ k f.m
  | .vsts f => [s f.va, s f.vb] ++ v g f.vd ++ k f.m
  | .vstx f => [s f.va] ++ v g f.vd ++ v g f.vb ++ (if f.fmt == 5 then v g f.x else []) ++ k f.m
  | .vpref f => [s f.va] ++ (if f.vd == 1 then [s f.vb] else if f.vd == 2 then v g f.vb else []) ++ k f.m
  | .vtrans f => [s f.va] ++ v g f.vb
  | .vtransff f => [s f.va] ++ v g f.vb
  | .vsegadd f => [s f.va] ++ v g f.vd ++ v g f.vb ++ k f.m
  | .mxenter _ => []
  | .mxleave _ => []
  | .mxsetc f => [s f.va]
  | .mxzero _ => []
  | .mxmac f => [acc f.vd] ++ v (2 ^ (f.g.toNat % 4)) f.va ++ v (2 ^ (f.g.toNat % 4)) f.vb
      ++ (if f.et == 10 || f.et == 11 then v (2 ^ (f.g.toNat % 4)) f.x else []) ++ k f.m
  | .mxld f => [s f.va, s f.vb] ++ k f.m
  | .mxst f => [acc f.vd, s f.va, s f.vb] ++ k f.m
  | .mxstkv f => [acc f.vd, s f.x] ++ v 4 f.va ++ v 4 f.vb ++ k f.m
  | .mxrow f => [acc f.va, s f.vb] ++ k f.m
  | .mxrowadd f => [acc f.vd, s f.vb] ++ v 1 f.va ++ k f.m
  | .mxscaler f => [acc f.vd] ++ v 1 f.va ++ v 1 f.vb ++ k f.m
  | .linit f => [s f.va]
  | .lstep f => (if f.et == 10 then v g f.vb else [acc f.vb]) ++ k f.m
  | .lrung f => k f.m
  | .lblend f => v g f.vb ++ k f.m
  | .lcount _ => []
  | .lsync _ => []
  | .lreset _ => []
  | .hinit f => [s f.va]
  | .hapnd f => [s f.va] ++ v g f.vd ++ k f.m
  | .hld f => [s f.va, s f.vb] ++ k f.m
  | .hspan f => [s f.va, s f.vb]
  | .hseal f => [s f.va]
  | .hresume f => [s f.va]
  | .hfree f => [s f.va]
  | .vamo f => [s f.va] ++ v g f.vd ++ v g f.vb ++ k f.m
  | .ramo f => [s f.va, s f.vb]
  | .rcas f => [s f.va, s f.vb, s f.vd]
  | .rstore f => [s f.va, s f.vb]
  | .rload f => [s f.va]
  | .rdrain _ => []
  | .vfence _ => []
  | .barinit f => [s f.va, s f.vb]
  | .bararr f => [s f.va]
  | .barwait f => [s f.va, s f.vb]
  | .barkill f => [s f.va]
  | .gbar _ => []
  | .xcopy f => [s f.va]
  | .xcopyff f => [s f.va]
  | .xinfl f => [s f.va]
  | .xwait f => [s f.va]
  | .xstat f => [s f.va]
  | .vfsave f => [s f.va]
  | .vfrest f => [s f.va]
  | .vsave f => [s f.va, s f.vb, s f.x]
  | .vrest f => [s f.va]
  | .vectorHandover _ => []
  | .decouplingIssue _ => []
  | .convoyIssue _ => []
  | .spotCheck _ _ => []
  | .matrixSpotCheck _ _ => []
  | .assayerArbitration _ _ _ => []
  | .instructionReplay _ _ => []
  | .poisonReissue _ => []
  | .trapEntry _ _ _ _ => []
  | .privilegeWatchdog _ => []
  | .preemptTaken _ => []
  | .hartRetirement _ => []
  | .streamFaultDelivery _ => []
  | .ctxOpen _ => []
  | .ctxSuspend _ => []
  | .ctxResume _ => []
  | .ctxKill _ => []
  | .queueOpen _ => []
  | .queueClose _ => []
  | .queueAppendDoorbell _ => []
  | .takeRecord => []
  | .wordDependencePoll => []
  | .placeGang => []
  | .timeSlice => []
  | .gangStart _ => []
  | .lanemapWithdraw _ _ => []
  | .lanemapReturn _ _ => []
  | .qminWrite _ _ => []
  | .qcapWrite _ _ => []
  | .pwrcapWrite _ _ => []
  | .feataccWrite _ => []
  | .powerWindow _ => []
  | .thermalThrottle _ _ => []
  | .thermalTrip _ => []
  | .halleyDelivery _ => []
  | .fullerMerge _ => []
  | .fullerDiscard _ => []
  | .ladderMerge _ => []
  | .transferEnd _ _ => []
  | .pageWalk _ _ _ => []
  | .inval => []
  | .invalComplete _ => []
  | .evict => []
  | .evictDrain _ => []
  | .pageCommandDoorbell _ => []
  | .pcbaseWrite _ => []
  | .pcsizeWrite _ => []
  | .bar0Write _ _ => []
  | .hostBar2Access _ _ _ => []
  | .outboundReadTimeout _ => []
  | .setWindow => []
  | .setRoute => []
  | .setPart => []
  | .setPwrcap => []
  | .firmwareUpdate _ => []
  | .portEnable _ => []
  | .portDisable _ => []
  | .lanesLocked _ _ => []
  | .trainingTimeout _ _ => []
  | .linkRetrain _ => []
  | .request _ => []
  | .response _ => []
  | .probe _ => []
  | .probeAnswer _ => []
  | .close _ => []
  | .closeAnswer _ => []
  | .acknowledgement _ => []
  | .retransmitTimer _ _ _ _ => []
  | .ackIdleTimer _ _ => []
  | .powerGood _ _ => []
  | .nodeIdAssign _ => []
  | .nodeIdTimeout => []
  | .suspectDecay => []
  | .scrub _ _ => []
  | .calibration _ _ => []
  | .channelCopyComplete _ _ => []
  | .telemetrySample => []
  | .cdcEviction _ _ => []
  | .spdmRequest _ => []
  | .pldmTelemetryRead => []
  | .firmwareRecovery => []
  | .outboundReadCompletion _ _ => []

/-- The registers written. -/
def Instr.writes (g : Nat) (i : Instr) : List (Nat × Nat) :=
  match i with
  | .add d _ _ => [s d]
  | .sub d _ _ => [s d]
  | .and d _ _ => [s d]
  | .or d _ _ => [s d]
  | .xor d _ _ => [s d]
  | .sll d _ _ => [s d]
  | .srl d _ _ => [s d]
  | .sra d _ _ => [s d]
  | .min d _ _ => [s d]
  | .max d _ _ => [s d]
  | .minn d _ _ => [s d]
  | .maxn d _ _ => [s d]
  | .mul d _ _ => [s d]
  | .mulh d _ _ => [s d]
  | .mulhn d _ _ => [s d]
  | .div d _ _ => [s d]
  | .divn d _ _ => [s d]
  | .rem d _ _ => [s d]
  | .remn d _ _ => [s d]
  | .clz d _ _ => [s d]
  | .ctz d _ _ => [s d]
  | .popc d _ _ => [s d]
  | .sel d _ _ => [s d]
  | .addi d _ _ => [s d]
  | .andi d _ _ => [s d]
  | .ori d _ _ => [s d]
  | .xori d _ _ => [s d]
  | .slli d _ _ _ => [s d]
  | .srli d _ _ _ => [s d]
  | .srai d _ _ _ => [s d]
  | .lih d _ _ => [s d]
  | .pcadd d _ => [s d]
  | .ldb d _ _ => [s d]
  | .ldbn d _ _ => [s d]
  | .ldh d _ _ => [s d]
  | .ldhn d _ _ => [s d]
  | .ldw d _ _ => [s d]
  | .ldwn d _ _ => [s d]
  | .ldd d _ _ => [s d]
  | .stb _ _ _ => []
  | .sth _ _ _ => []
  | .stw _ _ _ => []
  | .std _ _ _ => []
  | .cmpeq _ _ _ _ => []
  | .cmpne _ _ _ _ => []
  | .cmplt _ _ _ _ => []
  | .cmpge _ _ _ _ => []
  | .cmpltn _ _ _ _ => []
  | .cmpgen _ _ _ _ => []
  | .cmpand _ _ _ _ => []
  | .cmpieq _ _ _ => []
  | .cmpine _ _ _ => []
  | .cmpilt _ _ _ => []
  | .cmpige _ _ _ => []
  | .cmpiltn _ _ _ => []
  | .cmpigen _ _ _ => []
  | .cmpiand _ _ _ => []
  | .cand _ _ _ => []
  | .cor _ _ _ => []
  | .cxor _ _ _ => []
  | .cnot _ _ _ => []
  | .cget d _ _ => [s d]
  | .cfrom _ _ _ => []
  | .fadd d _ _ _ => [s d]
  | .fsub d _ _ _ => [s d]
  | .fmul d _ _ _ => [s d]
  | .fdiv d _ _ _ => [s d]
  | .fsqrt d _ _ _ => [s d]
  | .fmin d _ _ _ => [s d]
  | .fmax d _ _ _ => [s d]
  | .fcvt d _ _ _ => [s d]
  | .fclass d _ _ _ => [s d]
  | .fma d _ _ _ => [s d]
  | .fms d _ _ _ => [s d]
  | .fnma d _ _ _ => [s d]
  | .fcmpeq _ _ _ _ => []
  | .fcmpne _ _ _ _ => []
  | .fcmplt _ _ _ _ => []
  | .fcmpge _ _ _ _ => []
  | .bc _ _ => []
  | .bcn _ _ => []
  | .j d _ => [s d]
  | .jr d _ _ => [s d]
  | .amoadd d _ _ _ _ => [s d]
  | .amofadd d _ _ _ _ => [s d]
  | .amomin d _ _ _ _ => [s d]
  | .amomax d _ _ _ _ => [s d]
  | .amoand d _ _ _ _ => [s d]
  | .amoor d _ _ _ _ => [s d]
  | .amoxor d _ _ _ _ => [s d]
  | .amoswap d _ _ _ _ => [s d]
  | .cas d _ _ _ _ _ _ => [s d]
  | .fenceacq _ _ _ _ _ => []
  | .fencerel _ _ _ _ _ => []
  | .fencear _ _ _ _ _ => []
  | .fencesc _ _ _ _ _ => []
  | .rdctl d _ _ => [s d]
  | .wrctl _ _ _ => []
  | .trap _ _ _ => []
  | .eret _ => []
  | .yield _ => []
  | .halt _ => []
  | .qput d _ _ _ => [s d]
  | .ipost _ _ _ => []
  | .iwait _ _ _ => []
  | .pref _ _ _ => []
  | .vsetl f => [s f.vd]
  | .vadd f => v g f.vd
  | .vsub f => v g f.vd
  | .vmul f => v g f.vd
  | .vmulh f => v g f.vd
  | .vdiv f => v g f.vd
  | .vrem f => v g f.vd
  | .vmin f => v g f.vd
  | .vmax f => v g f.vd
  | .vabs f => v g f.vd
  | .vneg f => v g f.vd
  | .vand f => v g f.vd
  | .vor f => v g f.vd
  | .vxor f => v g f.vd
  | .vnot f => v g f.vd
  | .vsll f => v g f.vd
  | .vsrl f => v g f.vd
  | .vsra f => v g f.vd
  | .vadds f => v g f.vd
  | .vsubs f => v g f.vd
  | .vavg f => v g f.vd
  | .vfma f => v g f.vd
  | .vfms f => v g f.vd
  | .vfnma f => v g f.vd
  | .vsqrt f => v g f.vd
  | .vrsq f => v g f.vd
  | .vrcp f => v g f.vd
  | .vexp2 f => v g f.vd
  | .vlog2 f => v g f.vd
  | .vclamp f => v g f.vd
  | .vscale f => v g f.vd
  | .vcvt f => v g f.vd
  | .vdot f => v g f.vd
  | .vcmp f => [m f.vd]
  | .vmerge f => v g f.vd
  | .vbcast f => v g f.vd
  | .vid f => v g f.vd
  | .mand f => [m f.vd]
  | .mor f => [m f.vd]
  | .mxor f => [m f.vd]
  | .mandn f => [m f.vd]
  | .mnot f => [m f.vd]
  | .mpop f => [s f.vd]
  | .mfirst f => [s f.vd]
  | .msetn f => [m f.vd]
  | .vslideup f => v g f.vd
  | .vslidedn f => v g f.vd
  | .vperm f => v g f.vd
  | .vcompress f => v g f.vd
  | .vexpand f => v g f.vd
  | .vrank f => v g f.vd
  | .vextr f => [s f.vd]
  | .vins f => v g f.vd
  | .vredsum f => [s f.vd]
  | .vredsumo f => [s f.vd]
  | .vredmax f => [s f.vd]
  | .vredmin f => [s f.vd]
  | .vconf f => [m f.vd]
  | .vld f => v g f.vd
  | .vlds f => v g f.vd
  | .vldx f => v g f.vd
  | .vldff f => v g f.vd
  | .vldxff f => v g f.vd
  | .vst _ => []
  | .vsts _ => []
  | .vstx _ => []
  | .vpref _ => []
  | .vtrans f => v g f.vd ++ v g f.x ++ k f.m
  | .vtransff f => v g f.vd ++ v g f.x ++ k f.m
  | .vsegadd _ => []
  | .mxenter _ => []
  | .mxleave _ => []
  | .mxsetc f => [s f.vd]
  | .mxzero f => [acc f.vd]
  | .mxmac f => [acc f.vd]
  | .mxld f => [acc f.vd]
  | .mxst _ => []
  | .mxstkv _ => []
  | .mxrow f => v 1 f.vd
  | .mxrowadd f => [acc f.vd]
  | .mxscaler f => [acc f.vd]
  | .linit _ => []
  | .lstep _ => []
  | .lrung f => [s f.vb, s f.x] ++ (if f.et == 10 then v g f.vd else [acc f.vd])
  | .lblend f => (if f.et == 10 then v g f.vd else [acc f.vd])
  | .lcount f => [s f.vd]
  | .lsync _ => []
  | .lreset _ => []
  | .hinit _ => []
  | .hapnd f => [s f.vb]
  | .hld f => [s f.x] ++ v g f.vd
  | .hspan f => [s f.x]
  | .hseal _ => []
  | .hresume _ => []
  | .hfree _ => []
  | .vamo f => v g f.vd
  | .ramo f => [s f.vd]
  | .rcas f => [s f.vd]
  | .rstore _ => []
  | .rload f => [s f.vd]
  | .rdrain _ => []
  | .vfence _ => []
  | .barinit _ => []
  | .bararr f => [s f.vd]
  | .barwait _ => []
  | .barkill _ => []
  | .gbar _ => []
  | .xcopy f => [s f.vd]
  | .xcopyff f => [s f.vd]
  | .xinfl f => [s f.vd]
  | .xwait f => [s f.vd]
  | .xstat f => [s f.vd]
  | .vfsave f => [s f.vd]
  | .vfrest _ => []
  | .vsave _ => []
  | .vrest _ => []
  | .vectorHandover _ => []
  | .decouplingIssue _ => []
  | .convoyIssue _ => []
  | .spotCheck _ _ => []
  | .matrixSpotCheck _ _ => []
  | .assayerArbitration _ _ _ => []
  | .instructionReplay _ _ => []
  | .poisonReissue _ => []
  | .trapEntry _ _ _ _ => []
  | .privilegeWatchdog _ => []
  | .preemptTaken _ => []
  | .hartRetirement _ => []
  | .streamFaultDelivery _ => []
  | .ctxOpen _ => []
  | .ctxSuspend _ => []
  | .ctxResume _ => []
  | .ctxKill _ => []
  | .queueOpen _ => []
  | .queueClose _ => []
  | .queueAppendDoorbell _ => []
  | .takeRecord => []
  | .wordDependencePoll => []
  | .placeGang => []
  | .timeSlice => []
  | .gangStart _ => []
  | .lanemapWithdraw _ _ => []
  | .lanemapReturn _ _ => []
  | .qminWrite _ _ => []
  | .qcapWrite _ _ => []
  | .pwrcapWrite _ _ => []
  | .feataccWrite _ => []
  | .powerWindow _ => []
  | .thermalThrottle _ _ => []
  | .thermalTrip _ => []
  | .halleyDelivery _ => []
  | .fullerMerge _ => []
  | .fullerDiscard _ => []
  | .ladderMerge _ => []
  | .transferEnd _ _ => []
  | .pageWalk _ _ _ => []
  | .inval => []
  | .invalComplete _ => []
  | .evict => []
  | .evictDrain _ => []
  | .pageCommandDoorbell _ => []
  | .pcbaseWrite _ => []
  | .pcsizeWrite _ => []
  | .bar0Write _ _ => []
  | .hostBar2Access _ _ _ => []
  | .outboundReadTimeout _ => []
  | .setWindow => []
  | .setRoute => []
  | .setPart => []
  | .setPwrcap => []
  | .firmwareUpdate _ => []
  | .portEnable _ => []
  | .portDisable _ => []
  | .lanesLocked _ _ => []
  | .trainingTimeout _ _ => []
  | .linkRetrain _ => []
  | .request _ => []
  | .response _ => []
  | .probe _ => []
  | .probeAnswer _ => []
  | .close _ => []
  | .closeAnswer _ => []
  | .acknowledgement _ => []
  | .retransmitTimer _ _ _ _ => []
  | .ackIdleTimer _ _ => []
  | .powerGood _ _ => []
  | .nodeIdAssign _ => []
  | .nodeIdTimeout => []
  | .suspectDecay => []
  | .scrub _ _ => []
  | .calibration _ _ => []
  | .channelCopyComplete _ _ => []
  | .telemetrySample => []
  | .cdcEviction _ _ => []
  | .spdmRequest _ => []
  | .pldmTelemetryRead => []
  | .firmwareRecovery => []
  | .outboundReadCompletion _ _ => []

end Sys2Proof
end

