-- ==== Sys2Proof/Machine/VectorArith.lean ====
section
/-!
DEFINITION. The effects of class VA (R112 to R130): each instruction's effect once its legality is settled. The meanings
that Dispatch calls (Machine/ExecVector.lean) and the members of covered convoys (Machine/Header.lean) share them.
-/

namespace Sys2Proof.Machine

/-- The active elements of a VA or VP instruction. -/
def VaF.act (f : VaF) (h : Hart) (i : Nat) : Bool := h.activeBit f.m f.mi i

/-- What every VA instruction that writes a vector does around its elements (R51, R119, R139). -/
def vaWrite (f : VaF) (dst : Fmt) (extra : Flags) (body : Hart → Nat → Nat × Flags) : Mach Unit := do
  let h ← hart
  if h.spent then finish
  else
    let span := h.span
    modHart (fun h => h.dirty f.vd.toNat h.grp)
    elementwise (VaF.act f) extra (fun h i =>
      let (x, fl) := body h i
      (fl, fun h => h.setEl f.vd.toNat dst.bytes i x))
    if span.any (VaF.act f h) then advanceLfsr

/-- `d := op(a, b)`, vb a vector or a scalar; `sc` is the environment of a scalar's conversion (R118, R123). -/
def vaBin (f : VaF) (sc : FpEnv) (op : Fmt → El2) : Mach Unit := do
  let h ← hart
  let t := etFmt f.et
  let v := h.fpEnv f.rm f.sat
  let (b, fl) := opB h f.os t sc f.vb
  vaWrite f t fl (fun h i => op t v (h.getEl f.va.toNat t.bytes i) (if f.os == 1 then b i else h.getEl f.vb.toNat t.bytes i))

/-- The conversion environment of an instruction that marks rm and sat unused (R118). -/
def Hart.rneEnv (h : Hart) : FpEnv := { rm := .rne, sat := h.dsat, fz := h.fz }

/-- An instruction that uses rm and sat converts a scalar by them; the others to nearest with FCTL.DSAT. -/
def vaRounded (f : VaF) (op : Fmt → El2) : Mach Unit := do vaBin f ((← hart).fpEnv f.rm f.sat) op
def vaPlain (f : VaF) (op : Fmt → El2) : Mach Unit := do vaBin f (← hart).rneEnv op

/-- `d := op(a)`. -/
def vaUn (f : VaF) (op : Fmt → FpEnv → Nat → Nat × Flags) : Mach Unit := do
  let h ← hart
  let t := etFmt f.et
  let v := h.fpEnv f.rm f.sat
  vaWrite f t 0 (fun h i => op t v (h.getEl f.va.toNat t.bytes i))

/-- `d := op(a, b, d)`, reading d before it is written (R124). -/
def vaTer (f : VaF) (op : Fmt → FpEnv → Nat → Nat → Nat → Nat × Flags) : Mach Unit := do
  let h ← hart
  let t := etFmt f.et
  let v := h.fpEnv f.rm f.sat
  let (b, fl) := opB h f.os t v f.vb
  vaWrite f t fl (fun h i =>
    op t v (h.getEl f.va.toNat t.bytes i) (if f.os == 1 then b i else h.getEl f.vb.toNat t.bytes i)
      (h.getEl f.vd.toNat t.bytes i))

def effVadd (f : VaF) : Mach Unit := vaRounded f El.add
def effVsub (f : VaF) : Mach Unit := vaRounded f El.sub
def effVmul (f : VaF) : Mach Unit := vaRounded f El.mul
def effVmulh (f : VaF) : Mach Unit := vaPlain f El.mulh
def effVdiv (f : VaF) : Mach Unit := vaRounded f El.div
def effVrem (f : VaF) : Mach Unit := vaPlain f El.rem
def effVmin (f : VaF) : Mach Unit := vaPlain f (El.minMax false)
def effVmax (f : VaF) : Mach Unit := vaPlain f (El.minMax true)
def effVabs (f : VaF) : Mach Unit := vaUn f El.abs
def effVneg (f : VaF) : Mach Unit := vaUn f El.neg
def effVand (f : VaF) : Mach Unit := vaPlain f El.bitAnd
def effVor (f : VaF) : Mach Unit := vaPlain f El.bitOr
def effVxor (f : VaF) : Mach Unit := vaPlain f El.bitXor
def effVnot (f : VaF) : Mach Unit := vaUn f El.not
def effVsll (f : VaF) : Mach Unit := vaPlain f El.sll
def effVsrl (f : VaF) : Mach Unit := vaPlain f El.srl
def effVsra (f : VaF) : Mach Unit := vaPlain f El.sra
def effVadds (f : VaF) : Mach Unit := vaPlain f El.adds
def effVsubs (f : VaF) : Mach Unit := vaPlain f El.subs
def effVavg (f : VaF) : Mach Unit := vaPlain f El.avg
def effVfma (f : VaF) : Mach Unit := vaTer f (El.fma false false)
def effVfms (f : VaF) : Mach Unit := vaTer f (El.fma false true)
def effVfnma (f : VaF) : Mach Unit := vaTer f (El.fma true false)
def effVsqrt (f : VaF) : Mach Unit := vaUn f El.sqrt
def effVrsq (f : VaF) : Mach Unit := vaUn f El.rsq
def effVrcp (f : VaF) : Mach Unit := vaUn f El.rcp
def effVexp2 (f : VaF) : Mach Unit := vaUn f El.exp2
def effVlog2 (f : VaF) : Mach Unit := vaUn f El.log2

/-- VCLAMP: with os = 1 both bounds are scalars (R126). -/
def effVclamp (f : VaF) : Mach Unit := do
  let h ← hart
  let t := etFmt f.et
  let v := h.rneEnv
  let (lo, fl) := opB h f.os t v f.vb
  let (hi, fh) := opB h f.os t v f.x
  vaWrite f t (fl ||| fh) (fun h i =>
    El.clamp t v (h.getEl f.va.toNat t.bytes i)
      (if f.os == 1 then lo i else h.getEl f.vb.toNat t.bytes i)
      (if f.os == 1 then hi i else h.getEl f.x.toNat t.bytes i))

/-- VSCALE: n is a signed element of et's width, or a signed scalar (R126). For t6 the width is that of the container, 8
bits (log 84). -/
def effVscale (f : VaF) : Mach Unit := do
  let h ← hart
  let t := etFmt f.et
  let v := h.fpEnv f.rm f.sat
  let n := (h.readS f.vb).toInt
  vaWrite f t 0 (fun h i =>
    El.scale t v (h.getEl f.va.toNat t.bytes i)
      (if f.os == 1 then n else intOfBits true (8 * t.bytes) (h.getEl f.vb.toNat t.bytes i)))

/-- VCVT: elements below the VLMAX of both types (R127). -/
def effVcvt (f : VaF) : Mach Unit := do
  let h ← hart
  let t := etFmt f.et
  let d := etFmt f.aux4
  let v := h.fpEnv f.rm f.sat
  if h.spent then finish
  else
    let lim := min (h.vlmax t.bytes) (h.vlmax d.bytes)
    let act (h : Hart) (i : Nat) : Bool := VaF.act f h i && i < lim
    modHart (fun h => h.dirty f.vd.toNat h.grp)
    elementwise act 0 (fun h i =>
      let (x, fl) := convert t d v.rm v.sat v.fz (h.getEl f.va.toNat t.bytes i)
      (fl, fun h => h.setEl f.vd.toNat d.bytes i x))
    if h.span.any (VaF.act f h) then advanceLfsr

/-- The parts of a 32-bit field (R128). -/
def dotParts (st : Fmt) (x : Nat) : List Nat :=
  (List.range (4 / st.bytes)).map (fun q => x / 2 ^ (8 * st.bytes * q) % 2 ^ (8 * st.bytes))

/-- A sum of terms whose order the manual leaves open (R47). It is the exactly rounded sum where every order and
every rounding gives that (each term a multiple of one unit, their magnitudes together below 2^24 units); elsewhere a
free value of R47's bound, which `pick` proposes and the bound accepts (log 7). -/
def withinBound (k : Nat) (ts : List Num) (exact : Num) (cand : Num) : Bool :=
  match exact, cand with
  | .fin s m e, .fin t n q =>
    let mags := ts.map Num.abs
    let tot := (mags.foldl (fun a t => (Num.addX .rne a t).1) (.fin false 0 0))
    match tot with
    | .fin _ mt et =>
      let lg := (if k = 0 then 0 else k.log2 + 1) + 1
      let base := min (min e q) et
      let diff := ((Num.toIntAt base (.fin s m e)) - (Num.toIntAt base (.fin t n q))).natAbs
      decide (diff * 2 ^ 24 ≤ lg * Num.scaledTo mt et base)
    | _ => false
  | _, _ => false

/-- The least exponent among finite nonzero terms. -/
def unitOf (ts : List Num) : Int :=
  ts.foldl (fun u t => match t with | .fin _ m e => if m = 0 then u else min u e | _ => u) 1000000

/-- Whether every partial sum in every order is exact in fp32. -/
def allExact (ts : List Num) : Bool :=
  let u := unitOf ts
  let tot : Nat :=
    ts.foldl (fun a t => match t with | .fin _ m e => a + (if m = 0 then 0 else Num.scaledTo m e u) | _ => a) 0
  decide (tot < 2 ^ 24) && decide (-149 ≤ u)

/-- Whether a candidate lies on the side of the exact sum to which every rounding of a directed mode goes. Toward zero a
side is known only of terms of one sign. -/
def onSide (rm : Rm) (ts : List Num) (exact cand : Num) : Bool :=
  match rm with
  | .rne | .rna => true
  | .rdn => Num.cmp cand exact != .gt
  | .rup => Num.cmp cand exact != .lt
  | .rtz =>
    (ts.any Num.sign || Num.cmp cand exact != .gt) && (ts.any (fun t => !t.sign) || Num.cmp cand exact != .lt)

/-- The result of an unordered sum in fp32, within R47's bound for K = `k`; `rm` rounds it. With `all`, every rounding on
the way uses `rm` as well, so that a sum of two terms has one value (R137). A sum that overflows is what its one rounding
gives (R168). -/
def openSum (rm : Rm) (all fz : Bool) (k : Nat) (terms : List Num) : Mach (Nat × Flags) := do
  let env : FpEnv := { rm := rm, sat := false, fz := fz }
  let (x, fl) := El.exactSum rm terms
  let exact := env.finish (.flt .fp32) (x, fl)
  match x with
  | .fin _ _ _ =>
    if allExact terms || (all && terms.length ≤ 2) || (exact.2 &&& Flags.ov) != 0 then return exact
    else
      let c ← freshBits 32
      let y := fltDecode .fp32 c.toNat
      let kept := (fltEncode .fp32 rm false fz y).1 == c.toNat        -- no subnormal under FZ
      if kept && withinBound k terms x y && (!all || onSide rm terms x y) then return (c.toNat, exact.2)
      else return exact
  | _ => return exact

/-- VDOT (R128). -/
def effVdot (f : VaF) : Mach Unit := do
  let h ← hart
  let t := etFmt f.et
  let st := etFmt f.aux4
  let v := h.fpEnv f.rm f.sat
  let sb := (h.readS f.vb).toNat % 2 ^ 32
  if h.spent then finish
  else
    modHart (fun h => h.dirty f.vd.toNat h.grp)
    h.span.forM (fun i => do
      let h ← hart
      if VaF.act f h i then
        let a := dotParts st (h.getEl f.va.toNat 4 i)
        let b := dotParts st (if f.os == 1 then sb else h.getEl f.vb.toNat 4 i)
        let d := h.getEl f.vd.toNat 4 i
        let (x, fl) ←
          if t.isInt then
            let s := (a.zip b).foldl
              (fun s p => s + intOfBits st.isSigned st.bits p.1 * intOfBits st.isSigned st.bits p.2) (d : Int)
            pure (intBits 32 s, (0 : Flags))
          else
            let ps := (a.zip b).map (fun p => Num.mul (st.decode p.1) (st.decode p.2))
            let fl := ps.foldl (fun g p => g ||| p.2) (0 : Flags)
            let acc := v.arg (.flt .fp32) d
            let (x, g) ← openSum v.rm false v.fz a.length (acc :: ps.map (fun p => p.1))
            -- saturation turns an infinity into the largest finite number, with overflow (R40)
            let (y, o) := if v.sat then (Fmt.flt .fp32).encode v.rm true v.fz (fltDecode .fp32 x) else (x, 0)
            pure (y, fl ||| g ||| o)
        elementDone i fl (fun h => h.setEl f.vd.toNat 4 i x))
    finish
    if h.span.any (VaF.act f h) then advanceLfsr

/-- VCMP writes a mask (R129). -/
def effVcmp (f : VaF) : Mach Unit := do
  let h ← hart
  let t := etFmt f.et
  let c := (f.aux.extractLsb' 0 3).toNat
  let (b, fl) := opB h f.os t h.rneEnv f.vb
  if h.spent then finish
  else
    elementwise (VaF.act f) fl (fun h i =>
      let (r, g) := El.cmp c t h.fz (h.getEl f.va.toNat t.bytes i)
        (if f.os == 1 then b i else h.getEl f.vb.toNat t.bytes i)
      (g, fun h => h.setMask f.vd.toNat i r))
    if h.span.any (VaF.act f h) then advanceLfsr

/-- VMERGE selects by mask x (R130). -/
def effVmerge (f : VaF) : Mach Unit := do
  let h ← hart
  let t := etFmt f.et
  let (b, fl) := opB h f.os t h.rneEnv f.vb
  vaWrite f t fl (fun h i =>
    (if h.maskBit f.x.toNat i then (if f.os == 1 then b i else h.typedEl f.vb t i) else h.typedEl f.va t i, 0))

/-- VBCAST of element 0 or of a scalar; with sat = 1 a scalar is clamped to an integer type's range (R130). -/
def effVbcast (f : VaF) : Mach Unit := do
  let h ← hart
  let t := etFmt f.et
  let v := h.fpEnv f.rm f.sat
  let s := h.readS f.vb
  let (x, fl) : Nat × Flags :=
    if f.os == 0 then (h.typedEl f.vb t 0, 0)
    else if t.isInt && v.sat then
      (intBits t.bits (intClamp t.isSigned t.bits (if t.isSigned then s.toInt else (s.toNat : Int))), 0)
    else scalarEl t v s
  vaWrite f t fl (fun _ _ => (x, 0))

/-- VID (R130). -/
def effVid (f : VaF) : Mach Unit := do
  let t := etFmt f.et
  vaWrite f t 0 (fun _ i => (i % 2 ^ t.bits, 0))

end Sys2Proof.Machine
end

