-- ==== Sys2Proof/Machine/VectorPerm.lean ====
section
/-!
DEFINITION. The effects of class VP: masks, permutes, reductions and VCONF (R131 to R138).
-/

namespace Sys2Proof.Machine

/-- The number of elements below `n` that satisfy `p`. -/
def countBelow (n : Nat) (p : Nat → Bool) : Nat := (List.range n).countP p

/-- A mask operation over bits VSTART to VL − 1 (R131). -/
def maskOp (f : VaF) (bit : Hart → Nat → Bool) : Mach Unit := do
  let h ← hart
  if h.spent then finish
  else
    elementwise (fun _ _ => true) 0 (fun h i => (0, fun h' => h'.setMask f.vd.toNat i (bit h i)))
    advanceLfsr

def effMand (f : VaF) : Mach Unit := maskOp f (fun h i => h.maskBit f.va.toNat i && h.maskBit f.vb.toNat i)
def effMor (f : VaF) : Mach Unit := maskOp f (fun h i => h.maskBit f.va.toNat i || h.maskBit f.vb.toNat i)
def effMxor (f : VaF) : Mach Unit := maskOp f (fun h i => xor (h.maskBit f.va.toNat i) (h.maskBit f.vb.toNat i))
def effMandn (f : VaF) : Mach Unit := maskOp f (fun h i => h.maskBit f.va.toNat i && !h.maskBit f.vb.toNat i)
def effMnot (f : VaF) : Mach Unit := maskOp f (fun h i => !h.maskBit f.va.toNat i)

/-- MPOP counts the active set bits (R119, R132). -/
def effMpop (f : VaF) : Mach Unit := do
  let h ← hart
  let n := h.span.countP (fun i => VaF.act f h i && h.maskBit f.va.toNat i)
  writeS f.vd (BitVec.ofNat 64 n)
  if h.span.any (VaF.act f h) then advanceLfsr
  finish

/-- MFIRST: the lowest active set bit, or −1 (R119, R132). -/
def effMfirst (f : VaF) : Mach Unit := do
  let h ← hart
  match h.span.find? (fun i => VaF.act f h i && h.maskBit f.va.toNat i) with
  | some i => writeS f.vd (BitVec.ofNat 64 i)
  | none => writeS f.vd (-1)
  if h.span.any (VaF.act f h) then advanceLfsr
  finish

/-- MSETN (R132). -/
def effMsetn (f : VaF) : Mach Unit := do
  let n := (← readS f.vb).toNat
  maskOp f (fun _ i => i < n)

/-- A permute that moves patterns: element `i` takes what `src` gives, or keeps its value. -/
def permute (f : VaF) (src : Hart → Nat → Option Nat) : Mach Unit := do
  let h ← hart
  let t := etFmt f.et
  if h.spent then finish
  else
    modHart (fun h => h.dirty f.vd.toNat h.grp)
    elementwise (VaF.act f) 0 (fun h i =>
      (0, fun h' => match src h i with
        | some x => h'.setEl f.vd.toNat t.bytes i x
        | none => h'))
    if h.span.any (VaF.act f h) then advanceLfsr

/-- VSLIDEUP (R133). -/
def effVslideup (f : VaF) : Mach Unit := do
  let s := (← readS f.vb).toNat
  permute f (fun h i => if s ≤ i then some (h.typedEl f.va (etFmt f.et) (i - s)) else none)

/-- VSLIDEDN reads past VL up to VLMAX (R133). -/
def effVslidedn (f : VaF) : Mach Unit := do
  let s := (← readS f.vb).toNat
  permute f (fun h i => some (if i + s < h.vlmaxNow then h.typedEl f.va (etFmt f.et) (i + s) else 0))

/-- VPERM (R134). For t6 an index is the 8 bits of its container (log 84). -/
def effVperm (f : VaF) : Mach Unit := do
  let t := etFmt f.et
  permute f (fun h i =>
    let j := h.getEl f.vb.toNat t.bytes i
    some (if j < h.vlmaxNow then h.typedEl f.va t j else 0))

/-- VCOMPRESS: the k-th selected element goes to element k, for active k below their number (R135). -/
def effVcompress (f : VaF) : Mach Unit := do
  let h ← hart
  let t := etFmt f.et
  let sel := h.span.filter (fun i => h.maskBit f.x.toNat i)
  if h.spent then finish
  else
    modHart (fun h => h.dirty f.vd.toNat h.grp)
    (List.range sel.length).forM (fun k => do
      if VaF.act f h k && h.vc.vstart.toNat ≤ k then
        modHart (fun h' => h'.setEl f.vd.toNat t.bytes k (h.typedEl f.va t (sel.getD k 0))))
    finish
    if h.span.any (VaF.act f h) then advanceLfsr

/-- VEXPAND (R119, R135). -/
def effVexpand (f : VaF) : Mach Unit := do
  permute f (fun h i =>
    if h.maskBit f.x.toNat i then some (h.typedEl f.va (etFmt f.et) (countBelow i (fun j => h.maskBit f.x.toNat j)))
    else none)

/-- VRANK (R119, R135). -/
def effVrank (f : VaF) : Mach Unit := do
  let s := (← readS f.vb).toNat
  let t := etFmt f.et
  permute f (fun h i =>
    some ((s + countBelow i (fun j => VaF.act f h j && h.maskBit f.va.toNat j)) % 2 ^ t.bits))

/-- An element as a 64-bit scalar: sign-extended for i types, zero-extended for the others (R136). -/
def elScalar (t : Fmt) (x : Nat) : Word :=
  match t with
  | .i w => BitVec.ofInt 64 (intOfBits true w x)
  | _ => BitVec.ofNat 64 x

/-- VEXTR (R119, R136). An index below VSTART is read like any other below VL (log 100, DESIGN CHOICE). -/
def effVextr (f : VaF) : Mach Unit := do
  let h ← hart
  let t := etFmt f.et
  let i := (h.readS f.vb).toNat
  if h.spent then finish
  else
    writeS f.vd (if i < h.vl.toNat then elScalar t (h.typedEl f.va t i) else 0)
    advanceLfsr
    finish

/-- VINS (R136). Below VSTART the element takes no effect (R119). VDIRTY is set whether or not an element is written (R51,
log 14). -/
def effVins (f : VaF) : Mach Unit := do
  let h ← hart
  let t := etFmt f.et
  let i := (h.readS f.vb).toNat
  if h.spent then finish
  else
    if i < h.vl.toNat && h.vc.vstart.toNat ≤ i then
      let (x, fl) := scalarEl t (h.fpEnv f.rm f.sat) (h.readS f.va)
      wholeFlags fl
      modHart (fun h => h.setEl f.vd.toNat t.bytes i x)
    modHart (fun h => h.dirty f.vd.toNat h.grp)
    advanceLfsr
    finish

/-- The active elements of a reduction. -/
def redEls (f : VaF) (h : Hart) (t : Fmt) : List Nat :=
  (h.span.filter (VaF.act f h)).map (fun i => h.getEl f.va.toNat t.bytes i)

/-- A reduction (R119, R137). A float reduction of no active element writes the start's 32 bits as they are (log 100, DESIGN
CHOICE). `int` folds integers over the start, `flt` gives the fp32 result and flags from the elements' bits and type. -/
def reduce (f : VaF) (int : Bool → Int → List Int → Int)
    (flt : FpEnv → Nat → Fmt → List Nat → Mach (Nat × Flags)) : Mach Unit := do
  let h ← hart
  let t := etFmt f.et
  let s := h.readS f.vb
  if h.spent then
    writeS f.vd s
    finish
  else
    let els := redEls f h t
    if t.isInt then
      let start : Int := if t.isSigned then s.toInt else (s.toNat : Int)
      writeS f.vd (BitVec.ofInt 64 (int t.isSigned start (els.map (intOfBits t.isSigned t.bits))))
    else if els.isEmpty then writeS f.vd (BitVec.ofNat 64 (s.toNat % 2 ^ 32))
    else
      let v := h.fpEnv f.rm 0
      let (x, fl) ← flt { v with sat := false } (s.toNat % 2 ^ 32) t els
      wholeFlags fl
      writeS f.vd (BitVec.ofNat 64 x)
    if !els.isEmpty then advanceLfsr
    finish

/-- VREDSUM: within R47's bound (log 7). FZ acts on the fp32 start and on the result; whether it acts on the elements too
is open, for R137 says that FZ applies by R41 and R47 that it acts on nothing else (log 7). -/
def effVredsum (f : VaF) : Mach Unit :=
  reduce f (fun _ s xs => xs.foldl (· + ·) s) (fun v s t xs =>
    openSum v.rm true v.fz xs.length
      (v.arg (.flt .fp32) s :: xs.map (fun x => (t.decode x).flushIn (v.fz && Config.redsumFlushes) t)))

/-- VREDSUMO: one rounding a step, in ascending order; its elements are operands of R41 (R137). -/
def effVredsumo (f : VaF) : Mach Unit :=
  reduce f (fun _ s xs => xs.foldl (· + ·) s) (fun v s ty xs =>
    pure (xs.foldl
      (fun (t : Nat × Flags) x =>
        let (y, fl) := v.finish (.flt .fp32) (Num.add v.rm (v.arg (.flt .fp32) t.1) (v.arg ty x))
        (y, t.2 ||| fl)) (s, 0)))

/-- The greatest or least of the start and the elements. -/
def redExtreme (wantMax : Bool) (f : VaF) : Mach Unit :=
  reduce f (fun _ s xs => xs.foldl (if wantMax then max else min) s) (fun v s ty xs =>
    pure (xs.foldl
      (fun (t : Nat × Flags) x =>
        let (y, fl) := v.finish (.flt .fp32) (Num.minMax wantMax (v.arg (.flt .fp32) t.1) (v.arg ty x))
        (y, t.2 ||| fl)) (s, 0)))

def effVredmax (f : VaF) : Mach Unit := redExtreme true f
def effVredmin (f : VaF) : Mach Unit := redExtreme false f

/-- VCONF: the first occurrence of each distinct value among active elements (R119, R138). -/
def effVconf (f : VaF) : Mach Unit := do
  let h ← hart
  let t := etFmt f.et
  if h.spent then finish
  else
    elementwise (VaF.act f) 0 (fun h i =>
      let x := h.getEl f.va.toNat t.bytes i
      let dup := (List.range i).any (fun j => VaF.act f h j && h.getEl f.va.toNat t.bytes j == x)
      (0, fun h' => h'.setMask f.vd.toNat i !dup))
    if h.span.any (VaF.act f h) then advanceLfsr

end Sys2Proof.Machine
end

