-- ==== Sys2Proof/Machine/Stream.lean ====
section
/-!
DEFINITION. The effects of class HS and the Fuller: the registry of streams, appends and reads, combiners, merges and
discards (R191 to R200, R254, R255, R269, R351 to R362).
-/

namespace Sys2Proof.Machine

/-! ### Where a stream lies -/

/-- The stored format of the items, its element size, and N. -/
def Stream.enc (st : Stream) : Fmt := etFmt (st.fmt.extractLsb' 0 4)
def Stream.esize (st : Stream) : Nat := st.enc.bytes
def Stream.n (st : Stream) : Nat := st.isize / st.esize
/-- FMT.SAT, and FMT.RM with 101 to 111 as nearest even (R351). -/
def Stream.sat (st : Stream) : Bool := st.fmt.getLsbD 10
def Stream.rm (st : Stream) : Rm :=
  let c : BitVec 3 := st.fmt.extractLsb' 7 3
  Rm.ofCode .rne (if 5 ≤ c.toNat then 0 else c)
/-- The conversion between item words and elements, with σ (R194, R195). -/
def Stream.slot (st : Stream) (rm : Rm) (sat : Bool) : Slot :=
  { enc := .el st.enc, scale := if st.fmt.extractLsb' 5 2 == 1#2 then 1 else 0, src := st.tscale.zeroExtend 64, ch := 0
    rm := rm, sat := sat, raw := false }
/-- σ. -/
def Stream.sigma (st : Stream) : Num := fltDecode .fp32 st.tscale.toNat

/-- Ring slots of level `l` (R352). -/
def ringSlots (caps : List Nat) (l : Nat) : Nat := caps.getD l 0 + if l = 0 then 64 else 1
/-- Slots of the levels below `l`. -/
def slotsBelow (caps : List Nat) (l : Nat) : Nat := (List.range l).foldl (fun a i => a + ringSlots caps i) 0
/-- The address of the slot of sequence `q` of level `l` (R352). -/
def Stream.slotVa (st : Stream) (l q : Nat) : BitVec 64 :=
  st.rings + BitVec.ofNat 64 (st.isize * (slotsBelow st.caps l + q % ringSlots st.caps l))

/-- Where a byte of the header or the rings lies (R353, R356). -/
def Stream.loc (st : Stream) (va : BitVec 64) : Loc :=
  let a := va.toNat % 2 ^ 55
  match st.spadCore with
  | some c => .spad c (st.space + a)
  | none =>
    match st.pages.find? (fun p => p.1 == a / 0x10000) with
    | some p => .dram (p.2 + a % 0x10000) true
    | none => .dram a true

/-- Heads and tails of level `l`; HEAD_0 is stream time. -/
def Stream.head (st : Stream) (l : Nat) : Nat := if l = 0 then st.time else st.heads.getD l 0
def Stream.tail (st : Stream) (l : Nat) : Nat := st.tails.getD l 0
/-- The level word of level `l` (R352). -/
def Stream.word (st : Stream) (l : Nat) : Nat :=
  if l = 0 then st.tail 0 else (st.head l - st.tail l) * 2 ^ 47 + st.tail l

/-- The die whose Fuller holds a header at a location. -/
def locDie (l : Loc) : Nat :=
  match l with
  | .spad c _ => dieOf c
  | .dram pa _ => homeDie pa
  | .dev _ => 0
/-- The core and key that name a header. -/
def locKey (l : Loc) : Option Nat × Nat :=
  match l with
  | .spad c o => (some c, o)
  | .dram pa _ => (none, pa)
  | .dev pa => (none, pa)

/-- The registered stream whose header is at a location. -/
def State.streamAt (s : State) (l : Loc) : Option Stream :=
  (s.die (locDie l)).streams.find? (fun st => (st.spadCore, st.key) == locKey l)

/-- A stream's home die. -/
def Stream.die (st : Stream) : Nat :=
  match st.spadCore with
  | some c => dieOf c
  | none => homeDie st.key

/-- A registered stream replaced. -/
def State.putStream (s : State) (st : Stream) : State :=
  let d := s.die st.die
  s.setDie st.die { d with streams := d.streams.map (fun x => if x.seq == st.seq then st else x) }

/-- A field of the header written by the device (R353). -/
def State.mirror (s : State) (st : Stream) (off n x : Nat) : State :=
  match st.spadCore with
  | some c => s.poke (.spad c (st.key + off)) (bytesOf n x)
  | none => s.homeWrite (st.key + off) (bytesOf n x)

/-- STATE and FLT mirrored (R354). -/
def State.mirrorState (s : State) (st : Stream) : State := s.mirror st 6 2 (st.state + st.flt.toNat * 256)
/-- TIME mirrored. -/
def State.mirrorTime (s : State) (st : Stream) : State := s.mirror st 0x58 8 st.time
/-- A level word mirrored. -/
def State.mirrorLevel (s : State) (st : Stream) (l : Nat) : State := s.mirror st (0x80 + 8 * l) 8 (st.word l)

/-- The pair of a merge that is published retires (R254 step 4). -/
def State.retirePair (s : State) (st : Stream) : State :=
  match st.half with
  | none => s
  | some l =>
    let st := { st with half := none, tails := st.tails.set l (st.tail l + 2) }
    (s.putStream st).mirrorLevel st l

/-- A stream taken out of the registry: its header and rings keep the bytes they hold (R362). -/
def State.forgetStream (s : State) (st : Stream) : State :=
  let d := s.die st.die
  s.setDie st.die { d with streams := d.streams.filter (fun x => x.seq != st.seq) }

/-- A stream unregistered by HFREE or with its allocation, its merge in progress ended (R192, R353, R354). -/
def State.dropStream (s : State) (st : Stream) : State := ((s.retirePair st).forgetStream st).mirror st 6 2 0

/-- Every stream that satisfies `p` unregistered. -/
def State.dropStreams (s : State) (p : Stream → Bool) : State :=
  (s.dies.flatMap (fun e => e.2.streams.filter p)).foldl State.dropStream s

/-- The same where their context is killed: a merge in progress ends, and STATE is not written (R259, R362). -/
def State.forgetStreams (s : State) (p : Stream → Bool) : State :=
  (s.dies.flatMap (fun e => e.2.streams.filter p)).foldl (fun s st => (s.retirePair st).forgetStream st) s

/-! ### Combiners (R193, R199, R200) -/

/-- The effect of an instruction of the combiner subset. -/
def combEffect (i : Instr) : Option (Mach Unit) :=
  match i with
  | .vadd f => some (effVadd f) | .vsub f => some (effVsub f) | .vmul f => some (effVmul f)
  | .vdiv f => some (effVdiv f) | .vmin f => some (effVmin f) | .vmax f => some (effVmax f)
  | .vabs f => some (effVabs f) | .vneg f => some (effVneg f) | .vfma f => some (effVfma f)
  | .vfms f => some (effVfms f) | .vfnma f => some (effVfnma f) | .vsqrt f => some (effVsqrt f)
  | .vrcp f => some (effVrcp f) | .vexp2 f => some (effVexp2 f) | .vlog2 f => some (effVlog2 f)
  | .vclamp f => some (effVclamp f) | .vscale f => some (effVscale f) | .vcvt f => some (effVcvt f)
  | .vcmp f => some (effVcmp f) | .vmerge f => some (effVmerge f) | .vbcast f => some (effVbcast f)
  | .mand f => some (effMand f) | .mor f => some (effMor f) | .mnot f => some (effMnot f)
  | _ => none

/-- Whether a combiner may hold an instruction: the subset and the registers of R199. -/
def combAllows (i : Instr) : Bool :=
  (combEffect i).isSome
    && (i.reads 1 ++ i.writes 1).all (fun r => r.2 < if r.1 = 1 then 16 else 8)

/-- HALT, which ends a combiner. -/
def haltParcel : Parcel := 0x48000000#32

/-- The combiner's instructions from its parcels without the HALT; none where a check of R193 fails. -/
def combDecode (v : LegalEnv) : List Parcel → Option (List Instr)
  | [] => some []
  | [_] => none
  | p :: q :: t =>
    if pTop p == 2 then
      match decodeVector p q with
      | .error _ => none
      | .ok i => if (i.refuse v).isSome || !combAllows i then none else (combDecode v t).map (i :: ·)
    else
      match convoyRefuse v p (convoyMembers (headerCount p) (q :: t)) with
      | some _ => none
      | none => combDecode v (q :: t)

/-- A parcel of a combiner fetched; a fault is reported through R150 with j = 0. -/
def combFetch (a : BitVec 64) : Mach Parcel := do
  let q : Req := { need := .fetch, n := 4, align := 1, bypass := true, info := vecInfo 0 0, vec := true }
  stopAt 0 (do
    if a.getLsbD 63 then raise cAccess q.info a
    match ← locate q false a with
    | .dev _ => raise cAccess q.info a
    | l => return BitVec.ofNat 32 (← readLoc q a l))

/-- The parcels of a combiner up to its HALT, with at most 64 instructions before it; none where there is no such HALT
or a parcel begins no instruction a combiner may hold. -/
def combScan : Nat → Nat → Bool → BitVec 64 → Mach (Option (List Parcel))
  | 0, _, _, _ => return none
  | fuel + 1, cnt, header, a => do
    let p ← combFetch a
    if p == haltParcel then return some []
    else if pTop p == 2 then
      if cnt = 64 then return none
      else
        let q ← combFetch (a + 4)
        match ← combScan fuel (cnt + 1) false (a + 8) with
        | some t => return some (p :: q :: t)
        | none => return none
    else if pTop p == 3 && pSub p == 0 && !header then
      match ← combScan fuel cnt true (a + 4) with
      | some t => return some (p :: t)
      | none => return none
    else return none

/-- A history fault (R192): the reason and the header address. -/
def histFault {α : Type} (reason : Nat) (hdr : BitVec 64) : Mach α :=
  raise cAccess (BitVec.ofNat 64 (0x4000 + reason * 256)) hdr

/-- The combiner at an address, fetched and checked (R193 reason 4). -/
def combLoad (comb hdr : BitVec 64) : Mach (List Instr) := do
  if comb.toNat % 4 != 0 then histFault 4 hdr
  match ← combScan 130 0 false comb with
  | none => histFault 4 hdr
  | some ps =>
    match combDecode { feat := (← get).featacc, priv := false, mxm := false, g := 1, frame := false } ps with
    | none => histFault 4 hdr
    | some is => return is

/-- The outcome of a merge's computation: the coarse words, or a fault's index, flags and kind (R198). -/
inductive Merged
  | words (ws : List Nat)
  | fault (index : Nat) (flags : Nat) (kind : Nat)
  deriving DecidableEq, Repr

/-- The flags of a merge: inexact is never raised (R200). -/
def noNx (fl : Flags) : Flags := fl &&& 0x1E#5

/-- The hart of micro-lanes that runs a combiner: N lanes, VL = N, g = 1, K1 to K7 in s1 to s7, every trap but inexact
enabled (R63, R199). -/
def combHart (st : Stream) : Hart :=
  { Hart.reset with
    s := (Vector.replicate 64 0).mapIdx (fun i _ => if i = 0 then 0 else st.consts.getD (i - 1) 0)
    vl := BitVec.ofNat 18 st.n, et := st.cet, laneCur := st.n
    vc := { VCtl.reset with fctl := 0x1E0#10 } }

/-- Registers whose undefined contents a combiner may meet: filled with free values. -/
def combFill (code : List Instr) (n : Nat) : Mach Unit :=
  let rs := (2 :: (code.flatMap (fun i => i.reads 1)).filterMap (fun r => if r.1 = 1 && 2 ≤ r.2 then some r.2 else none))
  rs.eraseDups.forM (fun r => (List.range n).forM (fun i => do
    let x ← freshBits 64
    modHart (fun h => h.setEl r 8 i x.toNat)))

/-- The key in the table of harts under which the micro-lanes of a die run. -/
def fullerKey (d : Nat) : Nat := 4096 + 8 * d

/-- A combiner run on two decoded items. An instruction of it is carried out whole, and a flag that it raises on any element ends
the run there, with every flag that it raises (R43, R198, R200). -/
def combRun (st : Stream) (older newer : List Nat) : Mach (List Nat) := do
  let b := (etFmt st.cet).bytes
  modHart (fun _ => (List.range st.n).foldl
    (fun h k => (h.setEl 0 b k (older.getD k 0)).setEl 1 b k (newer.getD k 0)) (combHart st))
  combFill st.code st.n
  (List.range st.code.length).forM (fun j => do
    modHart (fun h => { h with fflags := 0, vc := { h.vc with fctl := 0 } })
    (combEffect (st.code.getD j (.halt 0))).getD (pure ())
    let fl := noNx (← hart).fflags
    if fl != 0 then raise cFpTrap (fl.setWidth 64) (BitVec.ofNat 64 j))
  let h ← hart
  return (List.range st.n).map (fun k => h.getEl 2 b k)

/-- The coarse item of two fine items' words (R199, R200). The state answered differs in its free values alone. -/
def State.combine (s : State) (st : Stream) (older newer : List Nat) : State × Merged :=
  let dec := fun (ws : List Nat) => ws.map (fun w => convIn (st.slot .rne false) (etFmt st.cet) false st.sigma w)
  let a := dec older
  let b := dec newer
  let fl := (a ++ b).foldl (fun g x => g ||| x.2) 0
  if noNx fl != 0 then (s, .fault 0xFE (noNx fl).toNat 1)
  else
    match (combRun st (a.map Prod.fst) (b.map Prod.fst)).run { s with cur := fullerKey st.die } with
    | .error (.trap _ info j) s' => ({ s with fresh := s'.fresh }, .fault j.toNat (info.toNat &&& 0x1E) 1)
    | .error _ s' => ({ s with fresh := s'.fresh }, .fault 0 0 1)
    | .ok ws s' =>
      let s := { s with fresh := s'.fresh }
      let out := ws.map (fun w => convOut (st.slot st.rm st.sat) (etFmt st.cet) false st.sigma w)
      let fl := out.foldl (fun g x => g ||| x.2) 0
      if (fl &&& Flags.ov) != 0 && !st.sat then (s, .fault 0xFF 0 2)
      else if noNx fl != 0 then (s, .fault 0xFF (noNx fl).toNat 1)
      else (s, .words (out.map Prod.fst))

/-! ### Coarsening (R254, R255, R355, R360) -/

/-- Bytes of an item at home. -/
def State.itemRead (s : State) (st : Stream) (l q : Nat) : List Nat :=
  (List.range st.n).map (fun k =>
    match st.loc (st.slotVa l q + BitVec.ofNat 64 (k * st.esize)) with
    | .spad c o => ofBytes (s.peek (.spad c o) st.esize)
    | .dram pa _ => s.homeRead pa st.esize
    | .dev _ => 0)

/-- Whether an item holds poison. -/
def State.itemPoison (s : State) (st : Stream) (l q : Nat) : Bool :=
  (List.range (st.isize / 64)).any (fun k =>
    match st.loc (st.slotVa l q + BitVec.ofNat 64 (64 * k)) with
    | .spad c o => poisoned (s.core c).spadPoison o 64
    | .dram pa _ => s.homePoisoned pa 64
    | .dev _ => false)

/-- An item written at home, without a core's cache. -/
def State.itemWrite (s : State) (st : Stream) (l q : Nat) (ws : List Nat) : State :=
  (List.range st.n).foldl (fun s k =>
    match st.loc (st.slotVa l q + BitVec.ofNat 64 (k * st.esize)) with
    | .spad c o => s.poke (.spad c o) (bytesOf st.esize (ws.getD k 0))
    | .dram pa _ => s.homeWrite pa (bytesOf st.esize (ws.getD k 0))
    | .dev _ => s) s

/-- The highest level over capacity (R355). -/
def Stream.overrun (st : Stream) : Option Nat :=
  (List.range st.levels).reverse.find? (fun l => st.caps.getD l 0 < st.head l - st.tail l)

/-- What the Fuller would do for a stream next. -/
inductive Work
  | none | retire | merge (l : Nat) | discard
  deriving DecidableEq, Repr

def Stream.work (st : Stream) (share : Nat) : Work :=
  if st.half.isSome then .retire
  else if st.state != 1 || share = 0 then .none
  else
    match st.overrun with
    | .none => .none
    | some l => if l + 1 = st.levels then .discard else .merge l

/-- The stream a die's Fuller serves next: one whose merge is not finished, or the next in turn (R355). -/
def Die.nextStream (d : Die) : Option Stream :=
  let busy := d.streams.filter (fun st => st.work d.fullerShare.toNat != .none)
  match busy.find? (fun st => st.half.isSome) with
  | some st => some st
  | none =>
    match busy.find? (fun st => d.turn ≤ st.seq) with
    | some st => some st
    | none => busy.head?

/-- The Fuller's turn passes on. -/
def State.passTurn (s : State) (d : Nat) (st : Stream) : State := s.setDie d { s.die d with turn := st.seq + 1 }

/-- HARTID of the hart that executed HINIT: the slot in which it is now, or was then where it is on no core (R268). -/
def State.hartNow (s : State) (st : Stream) : Nat :=
  ((s.harts.find? (fun e => e.2.gang == st.hart.1 && e.2.index == st.hart.2)).map (fun e => e.1 % 8)).getD st.owner.2

/-- A merge faults: FAULTED, the trap pending behind those not yet given, the record posted, and the Fuller's turn passed
on; the context and cause where the post failed. -/
def State.mergeFault (s : State) (st : Stream) (l index flags kind : Nat) : State × Option (Nat × BitVec 8) :=
  let info := index * 2 ^ 24 + flags * 2 ^ 16 + 2 ^ 15 + kind * 256 + l
  let st := { st with state := 3, flt := BitVec.ofNat 8 (kind * 16 + l), fault := st.fault ++ [BitVec.ofNat 64 info] }
  let s := ((s.putStream st).mirrorState st).passTurn st.die st
  let (s, e) := s.postRecord st.ctx 2 st.va.toNat info (st.owner.1.toNat + s.hartNow st * 2 ^ 20)
  (s, e.map (fun c => (st.ctx, c)))

/-- Steps 1 to 3 of R254 for the pair at level `l`. -/
def State.mergePair (s : State) (st : Stream) (l : Nat) : State × Option (Nat × BitVec 8) :=
  let q := st.tail l
  if s.itemPoison st l q || s.itemPoison st l (q + 1) then s.usedPoison.mergeFault st l 0xFE 0 3
  else
    match s.combine st (s.itemRead st l q) (s.itemRead st l (q + 1)) with
    | (s, .fault i fl kind) => s.mergeFault st l i fl kind
    | (s, .words ws) =>
      let s := s.itemWrite st (l + 1) (st.head (l + 1)) ws
      let st := { st with heads := st.heads.set (l + 1) (st.head (l + 1) + 1), half := some l }
      ((s.putStream st).mirrorLevel st (l + 1), none)

/-- One step of a die's Fuller that merges: the first publishes, the second retires the pair. -/
def State.fullerMergeStep (s : State) (d : Nat) : State × Option (Nat × BitVec 8) :=
  match (s.die d).nextStream with
  | none => (s, none)
  | some st =>
    match st.work (s.die d).fullerShare.toNat with
    | .retire => ((s.retirePair st).passTurn d st, none)
    | .merge l => s.mergePair st l
    | _ => (s, none)

/-- One step of a die's Fuller that discards the oldest item of a top level. -/
def State.fullerDiscardStep (s : State) (d : Nat) : State :=
  match (s.die d).nextStream with
  | none => s
  | some st =>
    match st.work (s.die d).fullerShare.toNat with
    | .discard =>
      let l := st.levels - 1
      let st := { st with tails := st.tails.set l (st.tail l + 1) }
      ((s.putStream st).mirrorLevel st l).passTurn d st
    | _ => s

/-! ### Instructions -/

/-- The header an HS instruction names, located (R191); a fault is taken by R150 with j = 0. -/
def hsHeader (f : HsF) (need : Need) (kind : Nat) : Mach (BitVec 64 × Loc) := do
  let ea ← readS f.va
  let q : Req := { need := need, n := 256, align := 256, bypass := true, info := vecInfo 0 kind, vec := true }
  stopAt 0 (do
    match ← place q (isSpad ea) ea with
    | .dev _ => raise cAccess q.info ea
    | l => return (ea, l))

/-- A field of a header: poison is reported by R150 with j = 0. -/
def hsField (ea : BitVec 64) (l : Loc) (n : Nat) : Mach Nat :=
  stopAt 0 (readLoc { need := .read, n := n, align := 1, bypass := true, info := vecInfo 0 0, vec := true } ea l)

/-- The registered stream an instruction names. -/
def hsStream (f : HsF) (need : Need) (kind : Nat) : Mach (BitVec 64 × Stream) := do
  let (ea, l) ← hsHeader f need kind
  match (← get).streamAt l with
  | none => histFault 1 ea
  | some st => return (ea, st)

/-- The pages of the ring area and the header, pinned (R353); a fault is taken by R150 with j = 0. -/
def pinStream (ea rings : BitVec 64) (size : Nat) : Mach (List (Nat × Nat)) := do
  let s ← get
  let pages := fun (a n : Nat) => List.range' (a / 0x10000) ((a + n - 1) / 0x10000 + 1 - a / 0x10000)
  let both := (pages (ea.toNat % 2 ^ 55) 256 ++ pages (rings.toNat % 2 ^ 55) size).eraseDups
  both.mapM (fun p => do
    let va := max (p * 0x10000) (if p = rings.toNat / 0x10000 then rings.toNat else if p = ea.toNat / 0x10000 then ea.toNat else 0)
    let bad (c : BitVec 8) : Mach (Nat × Nat) := stopAt 0 (raise c (vecInfo 0 0) (BitVec.ofNat 64 va))
    modify (fun t => t.walked s.coreNo s.me.ctx (p * 0x10000))
    match s.translate s.coreNo s.me.ctx .rmw (p * 0x10000) with
    | .ok x => if Config.pcieBase ≤ x.pa then bad cAccess else return (p, x.pa)
    | .cause c => bad c
    | .hold => throw .hold)

/-- The physical ranges of a stream in global space, page by page: first byte and length. -/
def pageSpans (pages : List (Nat × Nat)) (a n : Nat) : List (Nat × Nat) :=
  (List.range' (a / 0x10000) ((a + n - 1) / 0x10000 + 1 - a / 0x10000)).map (fun p =>
    let lo := max a (p * 0x10000)
    let hi := min (a + n) ((p + 1) * 0x10000)
    (((pages.find? (fun x => x.1 == p)).map Prod.snd).getD 0 + (lo - p * 0x10000), hi - lo))

/-- Bytes of a stream's ring area. -/
def Stream.ringBytes (st : Stream) : Nat := st.isize * slotsBelow st.caps st.levels

/-- The bytes that a registered stream reaches: the core for scratchpad, and ranges (R193, R211). -/
def Stream.spans (st : Stream) : Option Nat × List (Nat × Nat) :=
  match st.spadCore with
  | some c => (some c, [(st.key, 256), (st.space + st.rings.toNat % 2 ^ 55, st.ringBytes)])
  | none => (none, pageSpans st.pages (st.va.toNat % 2 ^ 55) 256 ++ pageSpans st.pages (st.rings.toNat % 2 ^ 55) st.ringBytes)

/-- Whether two ranges share a byte. -/
def meet (a b : Nat × Nat) : Bool := a.1 < b.1 + b.2 && b.1 < a.1 + a.2

/-- HINIT (R192, R193, R353). It is a release once every check has passed. -/
def effHinit (f : HsF) : Mach Unit := do
  let (ea, l) ← hsHeader f .rmw 0
  let sp := isSpad ea
  if (← get).streamAt l |>.isSome then histFault 2 ea
  let field (off n : Nat) : Mach Nat := hsField ea (l.off off) n
  let w0 ← field 0 6
  let comb ← field 8 8
  let fmtw ← field 0x10 4
  let tscale ← field 0x14 4
  let rings := BitVec.ofNat 64 (← field 0x18 8)
  let consts ← (List.range 7).mapM (fun i => field (0x20 + 8 * i) 8)
  let capsAll ← (List.range 16).mapM (fun i => field (0x60 + 2 * i) 2)
  let isize := w0 % 2 ^ 32
  let levels := w0 / 2 ^ 32 % 256
  let cet := BitVec.ofNat 4 (w0 / 2 ^ 40)
  let fmt := BitVec.ofNat 11 fmtw
  let caps := capsAll.take levels
  let size := isize * slotsBelow caps levels
  let s ← get
  let h := s.me
  let ra := rings.toNat % 2 ^ 55
  let enc := mfcEnc (fmt.zeroExtend 64)
  let (base, spadSize) := s.spadOf h
  if isize % 64 != 0 || isize < 64 || 65536 < isize || levels = 0 || 16 < levels || caps.contains 0
      || rings.toNat % 64 != 0 || 2 ≤ mfcScale (fmt.zeroExtend 64) || 16 ≤ enc || enc = 11 || cet = 11
      || isize % (etFmt (BitVec.ofNat 4 enc)).bytes != 0
      || 1024 ≤ (s.die (locDie l)).streams.length then histFault 3 ea
  if (rings.extractLsb' 55 8) != 0 then stopAt 0 (raise cAccess (vecInfo 0 0) rings)
  if isSpad rings != sp || 2 ^ 55 < ra + size || (sp && spadSize < ra + size)
      || meet (ea.toNat % 2 ^ 55, 256) (ra, size) then histFault 3 ea
  let pages ← if sp then pure [] else pinStream ea rings size
  let st : Stream :=
    { ctx := h.ctx, hart := (h.gang, h.index), owner := (h.gangId, s.cur % 8), va := ea
      spadCore := (locKey l).1, key := (locKey l).2, space := base, pages := pages
      seq := (s.die (locDie l)).registered, isize := isize, levels := levels, cet := cet, fmt := fmt
      tscale := BitVec.ofNat 32 tscale, rings := rings, consts := consts.map (BitVec.ofNat 64), caps := caps
      code := [], state := 1, flt := 0, time := 0, heads := List.replicate levels 0, tails := List.replicate levels 0
      half := none, fault := [] }
  let (spc, spans) := st.spans
  let hits := spans.any (fun r => match spc with
    | some c => (s.armedSpad c r.1 r.2).isSome
    | none => s.dies.any (fun d => d.2.armed.any (fun b => meet r (b, 64))))
  let self := match spans with
    | hd :: t => t.any (meet hd)
    | [] => false
  if hits || self then histFault 3 ea
  let code ← combLoad (BitVec.ofNat 64 comb) ea
  releasePart 4
  let st := { st with code := code }
  modify (fun s =>
    let d := s.die st.die
    let s := s.setDie st.die { d with streams := d.streams ++ [st], registered := d.registered + 1 }
    let s := (s.mirrorState st).mirrorTime st
    (List.range 16).foldl (fun s i => s.mirror st (0x80 + 8 * i) 8 0) s)
  finish

/-- Elements of a slab, in matrix mode, that HAPND and HLD count apart (R159). -/
def hsNk (h : Hart) (et : BitVec 4) : Nat := if h.mxm then 64 / (etFmt et).bytes else 1
def hsGet (h : Hart) (et : BitVec 4) (reg k : Nat) : Nat :=
  let b := (etFmt et).bytes
  if h.mxm then h.getBytes reg 64 (k / hsNk h et) (k % hsNk h et * b) b else h.getEl reg b k
def hsPut (h : Hart) (et : BitVec 4) (reg k x : Nat) : Hart :=
  let b := (etFmt et).bytes
  if h.mxm then h.setBytes reg 64 (k / hsNk h et) (k % hsNk h et * b) b x else h.setEl reg b k x

/-- A check at hand-over that cannot look its stream up waits with the instruction; a trap is left to the execution. -/
def unlessTrap (e : Stop) : Mach Unit :=
  match e with
  | .trap _ _ _ => pure ()
  | e => throw e

/-- HAPND's length, checked at issue (order 12 of R83): VL = 0 always, VL above N where its header names a stream. -/
def appendCheck (f : HsF) : Mach Unit := do
  let s ← get
  let h := s.me
  if h.vl = 0 then illegal 0x04
  match (hsStream f .read 1).run s with
  | .ok (_, st) _ => if st.n < h.vl.toNat * hsNk h f.et then illegal 0x04
  | .error e _ => unlessTrap e

/-- An asynchronous fault of the stream whose owner has retired, found at hand-over (R269). -/
def streamFaultCheck (f : HsF) : Mach Unit := do
  let s ← get
  let h := s.me
  match (hsStream f .read 0).run s with
  | .ok (_, st) _ =>
    let gone := match s.gang st.hart.1 with
      | some g => g.retired.getLsbD st.hart.2
      | none => true
    match st.fault with
    | info :: rest =>
      if gone && st.ctx == h.ctx && !h.priv then
        modify (fun s => s.putStream { st with fault := rest })
        raise cStreamFault info st.va
    | [] => pure ()
  | .error e _ => unlessTrap e

/-- HAPND (R192, R194, R361). A length that could not be checked at issue is checked here. -/
def effHapnd (f : HsF) : Mach Unit := do
  let (ea, st) ← hsStream f .rmw 1
  let h ← hart
  if st.n < h.vl.toNat * hsNk h f.et then illegal 0x04
  if h.spent then finish
  else
    if st.state = 2 then raise cStreamFault 0x900#64 ea
    if st.time = 2 ^ 48 - 1 then histFault 5 ea
    if ringSlots st.caps 0 ≤ st.time - st.tail 0 then
      if st.state = 3 then raise cStreamFault 0x800#64 ea else throw .hold
    let nk := hsNk h f.et
    let out := (List.range st.n).map (fun k =>
      if k < h.vl.toNat * nk && h.activeBit f.m 0 (k / nk) then
        convOut (st.slot st.rm st.sat) (etFmt f.et) h.fz st.sigma (hsGet h f.et f.vd.toNat k)
      else (0, 0))
    wholeFlags (out.zipIdx.foldl (fun g x => if h.vc.vstart.toNat ≤ x.2 / nk then g ||| x.1.2 else g) 0)
    releasePart 4
    (List.range st.n).forM (fun k =>
      writeLoc (st.loc (st.slotVa 0 st.time + BitVec.ofNat 64 (k * st.esize))) st.esize (out.getD k (0, 0)).1)
    modify (fun s =>
      let st := { st with time := st.time + 1 }
      (s.putStream st).mirrorTime st)
    writeS f.vb (BitVec.ofNat 64 st.time)
    finish

/-- The item that covers a time at a resolution (R195): level and sequence. -/
def Stream.covering (st : Stream) (tau res : Nat) : Option (Nat × Nat) :=
  if st.time ≤ tau then none
  else
    ((List.range' res (st.levels - res)).find? (fun l =>
      st.tail l ≤ tau / 2 ^ l && tau / 2 ^ l < st.head l)).map (fun l => (l, tau / 2 ^ l))

/-- Span(start, l). -/
def spanWord (start l : Nat) : Word := BitVec.ofNat 64 (start % 2 ^ 48 + l * 2 ^ 48)

/-- HLD (R195). -/
def effHld (f : HsF) : Mach Unit := do
  let (_, st) ← hsStream f .read 0
  acquirePart 4
  let h ← hart
  match st.covering (h.readS f.vb).toNat f.res.toNat with
  | none => writeS f.x 0x8000000000000000#64
  | some (l, q) => do
    let nk := hsNk h f.et
    let ks := (List.range (min st.n (h.vl.toNat * nk))).filter (fun k =>
      h.vc.vstart.toNat ≤ k / nk && h.activeBit f.m 0 (k / nk))
    let item := st.slotVa l q
    let xs ← ks.mapM (fun k => stopAt 0 (do
      let a := item + BitVec.ofNat 64 (k * st.esize)
      interlock (isSpad a) (a.toNat % 2 ^ 55) st.esize
      let w ← readLoc { need := .read, n := st.esize, align := 1, bypass := true, info := vecInfo 0 0, vec := true } a (st.loc a)
      let (x, fl) := convIn (st.slot st.rm st.sat) (etFmt f.et) h.fz st.sigma w
      return (k, x, fl)))
    wholeFlags (xs.foldl (fun g x => g ||| x.2.2) 0)
    modHart (fun h =>
      let h := if h.spent then h else h.dirty f.vd.toNat h.grp
      xs.foldl (fun h x => hsPut h f.et f.vd.toNat x.1 x.2.1) h)
    writeS f.x (spanWord (q * 2 ^ l) l)
  finish

/-- HSPAN (R195). -/
def effHspan (f : HsF) : Mach Unit := do
  let (_, st) ← hsStream f .read 0
  acquirePart 4
  match st.covering ((← hart).readS f.vb).toNat f.res.toNat with
  | none => writeS f.x 0x8000000000000000#64
  | some (l, q) => writeS f.x (spanWord (q * 2 ^ l) l)
  finish

/-- HSEAL (R192, R269): a merge of this model is published when it is seen. -/
def effHseal (f : HsF) : Mach Unit := do
  let (_, st) ← hsStream f .read 0
  if st.state != 2 then
    let st := { st with state := 2, flt := 0, fault := [] }
    modify (fun s => (s.putStream st).mirrorState st)
  finish

/-- The addresses that an HS instruction touches (R234): its header, the combiner that it loads, the item that it appends or
reads. -/
def State.hsTouches (s : State) (i : Instr) : List (BitVec 64) :=
  let h := s.me
  let comb (f : HsF) : List (BitVec 64) :=
    match (do
      let (ea, l) ← hsHeader f .read 0
      let a := BitVec.ofNat 64 (← hsField ea (l.off 8) 8)
      return (a, ((← combScan 130 0 false a).getD []).length) : Mach (BitVec 64 × Nat)).run s with
    | .ok (a, n) _ => (List.range (n + 1)).map (fun k => a + BitVec.ofNat 64 (4 * k))
    | .error _ _ => []
  let item (f : HsF) (slot : Stream → Option (Nat × Nat)) : List (BitVec 64) :=
    match (hsStream f .read 0).run s with
    | .ok (_, st) _ => ((slot st).map (fun q =>
        (List.range (st.isize / 64)).map (fun k => st.slotVa q.1 q.2 + BitVec.ofNat 64 (64 * k)))).getD []
    | .error _ _ => []
  match i with
  | .hinit f | .hresume f => h.readS f.va :: comb f
  | .hapnd f => h.readS f.va :: item f (fun st => some (0, st.time))
  | .hld f => h.readS f.va :: item f (fun st => st.covering (h.readS f.vb).toNat f.res.toNat)
  | .hspan f | .hseal f | .hfree f => [h.readS f.va]
  | _ => []

/-- HRESUME (R192, R360): a stream that is not ACTIVE is read after the release part, which brings the hart's repair home. -/
def effHresume (f : HsF) : Mach Unit := do
  let (ea, st) ← hsStream f .read 0
  if st.state != 1 then
    releasePart 4
    let field (off : Nat) : Mach Nat := hsField ea (st.loc (st.va + BitVec.ofNat 64 off)) 8
    let comb ← field 8
    let consts ← (List.range 7).mapM (fun i => field (0x20 + 8 * i))
    let code ← combLoad (BitVec.ofNat 64 comb) ea
    let st := { st with state := 1, flt := 0, code := code, consts := consts.map (BitVec.ofNat 64) }
    modify (fun s => (s.putStream st).mirrorState st)
  finish

/-- HFREE (R192, R362): a merge in progress ends first. -/
def effHfree (f : HsF) : Mach Unit := do
  let (_, st) ← hsStream f .read 0
  modify (fun s => s.dropStream st)
  finish

end Sys2Proof.Machine
end

