-- ==== Sys2Proof/Machine/Sync.lean ====
section
/-!
DEFINITION. The effects of class SY, the gang barrier register and the Halley ring (R110, R209 to R214, R299, R300, R303
to R312).
-/

namespace Sys2Proof.Machine

/-! ### Fences (R210) -/

/-- VFENCE: the hart's transfers end, and its writes reach the scope. Its vector-side accesses are performed already. -/
def vfence (scope : Nat) : Mach Unit := do
  endAll
  releaseCaches scope

def effVfence (f : SyF) : Mach Unit := do
  vfence f.scope.toNat
  finish

/-! ### Barrier objects -/

/-- What a barrier instruction asks of its object's bytes (R209). -/
def barReq : Req := { need := .rmw, n := 64, align := 64, bypass := true, info := vecInfo 0 2, vec := true }

/-- The object an instruction names, with the faults of R209, taken by R150 with j = 0. -/
def barObject (f : SyF) : Mach (BitVec 64 × Loc) := do
  let ea ← readS f.va
  stopAt 0 (do
    match ← place barReq (isSpad ea) ea with
    | .dev _ => raise cAccess barReq.info ea
    | l => return (ea, l))

/-- The number under which a waiting hart names an object. -/
def Loc.barKey (l : Loc) : Nat :=
  match l with
  | .spad c o => 2 ^ 48 + c * 2 ^ 24 + o
  | .dram pa _ => pa
  | .dev pa => pa

/-- Whether the device holds the object as armed (R304). -/
def State.isArmed (s : State) (l : Loc) : Bool :=
  match l with
  | .spad c o => (s.core c).armed.contains o
  | .dram pa _ => (s.die (homeDie pa)).armed.contains pa
  | .dev _ => false

/-- Armed objects of a core, those of gangs that are FORMING on it with them (R304, R306). -/
def State.armedOn (s : State) (core : Nat) : Nat :=
  s.gangs.foldl (fun n e => if e.2.state == .forming && e.2.core == core then n + e.2.objs else n) (s.core core).armed.length

/-- Whether its holder has no room for another (R304). -/
def State.armedFull (s : State) (l : Loc) : Bool :=
  match l with
  | .spad c _ => 64 ≤ s.armedOn c
  | .dram pa _ => 4096 ≤ (s.die (homeDie pa)).armed.length
  | .dev _ => true

/-- The object armed or disarmed. -/
def State.setArmed (s : State) (l : Loc) (on : Bool) : State :=
  match l with
  | .spad c o =>
    let k := s.core c
    s.setCore c { k with armed := k.armed.filter (· != o) ++ if on then [o] else [] }
  | .dram pa _ =>
    let d := s.die (homeDie pa)
    s.setDie (homeDie pa) { d with armed := d.armed.filter (· != pa) ++ if on then [pa] else [] }
  | .dev _ => s

/-- The waiters of an object continue, released or aborted; one that already does is a waiter no more (R307). -/
def State.wake (s : State) (key : Nat) (released : Bool) : State :=
  { s with harts := s.harts.map (fun e =>
      (e.1, if e.2.barWait == some key && e.2.barEnd.isNone then { e.2 with barEnd := some released } else e.2)) }

/-- Bytes of an object at its point of coherence. -/
def State.barGet (s : State) (l : Loc) (off : Nat) : Nat :=
  match l with
  | .dram pa _ => s.homeRead (pa + off) 4
  | l => ofBytes (s.peek (l.off off) 4)
/-- A field of it written. -/
def State.barPut (s : State) (l : Loc) (off n x : Nat) : State :=
  match l with
  | .dram pa _ => s.homeWrite (pa + off) (bytesOf n x)
  | l => s.poke (l.off off) (bytesOf n x)

/-- Whether an object overlaps a registered stream (R211). -/
def State.onStream (s : State) (l : Loc) : Bool :=
  s.dies.any (fun d => d.2.streams.any (fun st =>
    match l, st.spans with
    | .spad c o, (some c', rs) => c == c' && rs.any (meet (o, 64))
    | .dram pa _, (none, rs) => rs.any (meet (pa, 64))
    | _, _ => false))

/-- A barrier object's fault (R211, R304). -/
def barFault {α : Type} (reason : Nat) (ea : BitVec 64) : Mach α :=
  raise cAccess (BitVec.ofNat 64 (0x3000 + reason * 256)) ea

/-- BARINIT (R211, R304, R305, R307). -/
def effBarinit (f : SyF) : Mach Unit := do
  let (ea, l) ← barObject f
  let cnt := ((← hart).readS f.vb).toNat
  if cnt = 0 || 2 ^ 32 ≤ cnt then barFault 1 ea
  let s ← get
  if s.onStream l then barFault 3 ea
  if !s.isArmed l && s.armedFull l then barFault 2 ea
  releasePart 5
  modify (fun s =>
    let s := s.wake l.barKey false
    let s := match l with
      | .dram pa _ => s.evictLineAll pa
      | _ => s
    let s := s.barPut l 0 64 (cnt + 2 ^ 96)
    s.setArmed l true)
  finish

/-- BARKILL (R211, R307). -/
def effBarkill (f : SyF) : Mach Unit := do
  let (_, l) ← barObject f
  releasePart 5
  if (← get).isArmed l then
    modify (fun s => ((s.wake l.barKey false).barPut l 12 4 0).setArmed l false)
  finish

/-- The object's poison (R91 order 5, R209), taken by R150 with j = 0. -/
def barPoison (ea : BitVec 64) (l : Loc) : Mach Unit := do
  if (← get).locPoisoned l 16 then
    let _ ← stopAt 0 (readLoc { barReq with n := 16 } ea l)

/-- BARARR (R212, R307). -/
def effBararr (f : SyF) : Mach Unit := do
  let (ea, l) ← barObject f
  vfence f.scope.toNat
  if !(← get).isArmed l then raise cBarAbort 0 0
  barPoison ea l
  let s ← get
  let cnt := s.barGet l 0
  let arr := s.barGet l 4 + f.aux.toNat
  let gen := s.barGet l 8
  writeS f.vd (BitVec.ofNat 64 gen)
  if arr < cnt then modify (fun s => s.barPut l 4 4 arr)
  else modify (fun s => (s.barPut l 4 8 ((gen + 1) % 2 ^ 32 * 2 ^ 32)).wake l.barKey true)
  finish

/-- BARWAIT (R213, R307). -/
def effBarwait (f : SyF) : Mach Unit := do
  let (ea, l) ← barObject f
  let s ← get
  let h := s.me
  let done (x : Bool) : Mach Unit := do
    modHart (fun h => { h with barWait := none, barEnd := none })
    if x then acquirePart f.scope.toNat
    else if f.vd = 0 then raise cBarAbort 0 0
    modHart (fun h => h.writeC (f.vd.setWidth 3) x)
    finish
  match h.barEnd with
  | some x => done x
  | none =>
    if !s.isArmed l then done false
    else
      barPoison ea l
      if s.barGet l 8 != (h.readS f.vb).toNat then done true
      else
        modHart (fun h => { h with barWait := some l.barKey })
        throw .wait

/-! ### The gang barrier register (R214, R299, R300) -/

/-- Harts of a gang. -/
def State.hartsOf (s : State) (g : Gang) : Nat := ((s.launch g.launch).map Launch.harts).getD 1

/-- The generation advances where every hart has arrived or retired. -/
def Gang.settle (g : Gang) (harts : Nat) : Gang :=
  if g.arrived != 0 && (List.range harts).all (fun i => g.arrived.getLsbD i || g.retired.getLsbD i) then
    { g with arrived := 0, gen := g.gen + 1 }
  else g

/-- GBAR. -/
def effGbar (f : SyF) : Mach Unit := do
  let s ← get
  let h := s.me
  match s.gang h.gang with
  | none => finish
  | some g =>
    match h.gbar with
    | some gen =>
      if gen = g.gen then throw .wait
      else
        modHart (fun h => { h with gbar := none })
        acquirePart f.scope.toNat
        finish
    | none =>
      vfence f.scope.toNat
      let g' := ({ g with arrived := g.arrived ||| (1#8 <<< h.index) } : Gang).settle (s.hartsOf g)
      modify (fun s => s.setGang h.gang g')
      if g'.gen = g.gen then
        modHart (fun h => { h with gbar := some g.gen })
        throw .wait
      else
        acquirePart f.scope.toNat
        finish

/-! ### The Halley ring (R110, R310 to R312) -/

/-- Whether `a` is at or above `b` in the serial order. -/
def serialGe (a b : BitVec 32) : Bool := !(a - b).getLsbD 31

/-- A core's copy of a channel value. -/
def Core.halleyVal (c : Core) (key : Nat) : BitVec 32 := Tab.get 0xFFFFFFFF#32 c.halley key
/-- A copy raised by a post. -/
def Core.halleyRaise (c : Core) (key : Nat) (v : BitVec 32) : Core :=
  if serialGe v (c.halleyVal key) then { c with halley := Tab.set 0xFFFFFFFF#32 c.halley key v } else c

/-- IPOST: the context's value and the poster's own copy rise; the other cores' copies rise as the post is delivered. -/
def effIpost (a : BitVec 6) (i : BitVec 13) : Mach Unit := do
  releasePart 4
  let s ← get
  let h := s.me
  let v : BitVec 32 := (h.readS a).setWidth 32
  let ch := i.toNat % 16
  let key := h.ctx * 16 + ch
  let k := s.ctx h.ctx
  let old := Tab.get 0xFFFFFFFF#32 k.channels ch
  let k := if serialGe v old then { k with channels := Tab.set 0xFFFFFFFF#32 k.channels ch v } else k
  let s := (s.setCtx h.ctx k).setCore s.coreNo ((s.core s.coreNo).halleyRaise key v)
  let others := (List.range Config.cores).filter (· != s.coreNo)
  set { s with posts := s.posts ++ others.map (fun c => (c, key, v)) }

/-- IWAIT. -/
def effIwait (a : BitVec 6) (i : BitVec 13) : Mach Unit := do
  let s ← get
  let h := s.me
  if !serialGe ((s.core s.coreNo).halleyVal (h.ctx * 16 + i.toNat % 16)) ((h.readS a).setWidth 32) then throw .hold
  acquirePart 4

/-- The oldest post in flight to a core, delivered (R311). -/
def State.deliverPost (s : State) (core : Nat) : State :=
  match s.posts.find? (fun p => p.1 == core) with
  | none => s
  | some p =>
    let s := s.setCore core ((s.core core).halleyRaise p.2.1 p.2.2)
    { s with posts := s.posts.erase p }

end Sys2Proof.Machine
end

