-- ==== Sys2Proof/Machine/Link.lean ====
section
/-!
DEFINITION. Tabik Link: flits, the requester's channels and slots, the owner's receipts, and the effects of the remote
operations (R201 to R208, R247, R248, R270, R271, R331 to R343).
-/

namespace Sys2Proof.Machine

/-! ### Flits (R333, R334) -/

/-- One message. -/
structure Msg where
  dst : Nat
  src : Nat
  kind : Nat
  fst : Bool
  inc : BitVec 16
  ctx : Nat
  payload : List Byte                -- bytes 12 to 251
  deriving DecidableEq, Repr

/-- One byte into a CRC-32 register (the IEEE 802.3 polynomial, reflected). -/
def crcByte (c : BitVec 32) (b : Byte) : BitVec 32 :=
  (List.range 8).foldl (fun c _ => if c.getLsbD 0 then (c >>> 1) ^^^ 0xEDB88320#32 else c >>> 1)
    (c ^^^ b.zeroExtend 32)

/-- The CRC-32 register after some bytes; the match takes the register by value before the next byte. -/
def crcBytes (c : BitVec 32) : List Byte → BitVec 32
  | [] => c
  | b :: bs =>
    match (crcByte c b).toNat with
    | 0 => crcBytes 0 bs
    | n + 1 => crcBytes (BitVec.ofNat 32 (n + 1)) bs

/-- The CRC-32 of bytes. -/
def crc32 (bs : List Byte) : BitVec 32 := ~~~(crcBytes 0xFFFFFFFF#32 bs)

/-- A message without its CRC. -/
def Msg.body (m : Msg) : List Byte :=
  bytesOf 3 m.dst ++ bytesOf 3 m.src ++ bytesOf 1 m.kind ++ bytesOf 1 (if m.fst then 1 else 0) ++ bytesOf 2 m.inc.toNat
    ++ bytesOf 2 m.ctx ++ (m.payload ++ List.replicate (240 - m.payload.length) 0).take 240

/-- A message as a flit. -/
def Msg.flit (m : Msg) : Flit :=
  let b := m.body
  BitVec.ofNat 2048 (ofBytes (b ++ bytesOf 4 (crc32 b).toNat))

/-- `n` bytes of a flit. -/
def flitField (f : Flit) (off n : Nat) : Nat := f.toNat / 256 ^ off % 256 ^ n

/-- Payload bytes that a message type lists. -/
def listedPayload (kind : Nat) : List Nat :=
  match kind with
  | 1 => List.range' 12 34
  | 2 => List.range' 12 4 ++ List.range' 16 10
  | 7 => List.range' 16 4
  | _ => []

/-- A received flit: none where it is discarded (R333). -/
def flitOk (f : Flit) : Bool :=
  let kind := flitField f 6 1
  flitField f 252 4 == (crc32 (bytesOf 252 (flitField f 0 252))).toNat
    && 1 ≤ kind && kind ≤ 7
    && flitField f 0 3 < 2 ^ 20 && flitField f 3 3 < 2 ^ 20 && flitField f 7 1 < 2 && flitField f 10 2 < 2 ^ 12
    && (List.range' 12 240).all (fun i => (listedPayload kind).contains i || flitField f i 1 == 0)

/-- The message of a flit. -/
def flitMsg (f : Flit) : Msg :=
  { dst := flitField f 0 3, src := flitField f 3 3, kind := flitField f 6 1, fst := flitField f 7 1 == 1
    inc := BitVec.ofNat 16 (flitField f 8 2), ctx := flitField f 10 2, payload := bytesOf 240 (flitField f 12 240) }

/-- A field of a message's payload, by its byte in the flit. -/
def Msg.field (m : Msg) (off n : Nat) : Nat := ofBytes ((m.payload.drop (off - 12)).take n)

/-- A payload from fields at flit offsets. -/
def payloadOf (fields : List (Nat × Nat × Nat)) : List Byte :=
  bytesOf 240 (fields.foldl (fun a (off, n, x) => a + x % 256 ^ n * 256 ^ (off - 12)) 0)

/-! ### Areas of a context, for the device's own work -/

/-- A computation of the device; it ends early where an access to a context's area fails: the context and the cause. -/
abbrev Dev := EStateM (Nat × BitVec 8) State

/-- An area access. -/
def devArea {α : Type} (k : Nat) (f : State → Except (BitVec 8) α) : Dev α := do
  match f (← get) with
  | .ok x => return x
  | .error c => throw (k, c)

/-- A read of an area, with its walks (R317). -/
def devRead (k va n : Nat) : Dev Nat := do
  modify (fun s => s.walksOf k va n)
  devArea k (fun s => s.areaRead k va n)

/-- A write to an area. -/
def devPut (k va n x : Nat) : Dev Unit := do
  let s ← devArea k (fun s => s.areaWrite k va n x)
  set s

/-- The device's work inside an instruction: a failed area ends it (R258), and it waits while a channel is being copied (R382;
log 94). -/
def ofDev {α : Type} (m : Dev α) : Mach α := do
  if !(← get).copying.isEmpty then throw .hold
  match m.run (← get) with
  | .ok x s => do
    set s
    return x
  | .error (_, c) s => do
    set s
    throw (.area c)

/-! ### Channels and slots (R270) -/

/-- The address of channel entry `i`. -/
def Ctx.entry (c : Ctx) (i : Nat) : Nat := c.chanTab + 16 * i
/-- The address of the delivery slot of a serial. -/
def Ctx.slot (c : Ctx) (i : Nat) (serial : BitVec 32) : Nat := c.slotBase + 131072 * i + 32 * (serial.toNat % 4096)

/-- What the device keeps of a channel. -/
def State.chan (s : State) (k i : Nat) : Chan := Tab.get Chan.reset (s.ctx k).chans i
def State.setChan (s : State) (k i : Nat) (x : Chan) : State :=
  let c := s.ctx k
  s.setCtx k { c with chans := Tab.put c.chans i x }

/-- The channel entry toward a node: valid, or none. -/
def findChan (k node : Nat) : Dev (Option Nat) := do
  let c := (← get).ctx k
  (List.range c.chanCnt).foldlM (fun (a : Option Nat) i =>
    match a with
    | some _ => return a
    | none => do
      let w ← devRead k (c.entry i) 8
      return if 2 ^ 63 ≤ w && w % 2 ^ 20 = node then some i else none) none

/-- The lowest invalid entry. -/
def freeChan (k : Nat) : Dev (Option Nat) := do
  let c := (← get).ctx k
  (List.range c.chanCnt).foldlM (fun (a : Option Nat) i =>
    match a with
    | some _ => return a
    | none => do
      let w ← devRead k (c.entry i) 8
      return if w < 2 ^ 63 then some i else none) none

/-- The next serial to issue. -/
def nextSerial (k i : Nat) : Dev (BitVec 32) := do
  let c := (← get).ctx k
  return BitVec.ofNat 32 (← devRead k (c.entry i + 8) 4)

/-- The acknowledgement: the oldest serial without a result. -/
def Chan.ack (ch : Chan) (next : BitVec 32) : BitVec 32 :=
  match ch.sent.find? (fun x => x.instr != 4) with
  | some x => x.id
  | none => next

/-- The acknowledgement written to the entry. -/
def putAck (k i : Nat) : Dev Unit := do
  let s ← get
  let a := (s.chan k i).ack (← nextSerial k i)
  devPut k ((s.ctx k).entry i + 12) 4 a.toNat

/-- E of R337. -/
def Chan.e (ch : Chan) (serial : BitVec 32) : BitVec 16 :=
  match ch.inc with
  | some i => if serialGe serial ch.f then i else ch.oldInc
  | none => 0

/-! ### Sending -/

/-- A port is left out of every routing entry while it is neither UP nor DEGRADED (R332). -/
def State.portsUp (s : State) : Nat :=
  (List.range 8).foldl (fun a p =>
    match (Tab.get (PortState.down, 0, 0) s.ports p).1 with
    | .up | .degraded => a + 2 ^ p
    | _ => a) 0

/-- The ports toward a node (R331). -/
def State.route (s : State) (node : Nat) : Nat :=
  if Config.usableNodes ≤ node then 0 else (s.homeRead (Config.routingTable + node) 1) &&& s.portsUp

/-- The die that serves a channel at the owner (R340). -/
def channelDie (node ctx : Nat) : Nat := (node ^^^ ctx) % 4

/-- A message that leaves by a port, if one is allowed. -/
def State.emit (s : State) (m : Msg) : State :=
  if s.route m.dst = 0 then s else { s with outFlits := s.outFlits ++ [m.flit] }

/-! ### The owner (R340 to R342) -/

/-- Whether a window grants a request every byte with the access it needs: bit 0 read, 1 write, 2 atomic. -/
def State.windowOk (s : State) (node ctx pa n bit : Nat) : Bool :=
  s.windows.any (fun (_, w) =>
    w.first ≤ node && node ≤ w.last && w.ctx == ctx && w.base ≤ pa && pa + n ≤ w.base + w.len && w.rwa.getLsbD bit)

/-- A request performed at home, or refused: code and result (R247, R342). -/
def State.perform (s : State) (m : Msg) : State × Nat × Nat :=
  let pa := m.field 20 8 % 2 ^ 44
  let x := m.field 28 8
  let expected := m.field 36 8
  let instr := m.field 44 1
  let op := m.field 45 1 % 16
  let n := if instr = 1 then amoBytes op else 8
  let bit := if instr = 4 then 0 else if instr = 3 then 1 else 2
  if !s.windowOk m.src m.ctx pa n bit || pa % n != 0 || Config.dramEnd < pa + n
      || (instr != 4 && (s.armedGlobal pa n).isSome) || s.homePoisoned pa n then (s, 2, 0)
  else
    let old := s.homeRead pa n
    match instr with
    | 1 => (s.homeWrite pa (bytesOf n (amoF (8 * n) true op old x)), 1, old)
    | 2 => (if old = expected then s.homeWrite pa (bytesOf 8 x) else s, 1, old)
    | 3 => (s.homeWrite pa (bytesOf 8 x), 1, 0)
    | _ => (s, 1, old)

/-- The address of an entry of a die's spill area (R340, R388). -/
def spillAt (dn i : Nat) : Nat := 48 * dn * Config.channelBytes + Config.spillOffset + 32 * i

/-- An entry of the spill area as its 32 bytes hold it; the places of its fields are the model's (log 74, DESIGN CHOICE). -/
def Receipt.bytes (r : Receipt) : List Byte :=
  bytesOf 32 (r.node % 2 ^ 20 + r.ctx % 2 ^ 12 * 2 ^ 20 + r.serial.toNat * 2 ^ 32 + r.result.toNat * 2 ^ 64 + r.code.toNat * 2 ^ 128)

/-- The entry that stands at `i` of a die's spill area. -/
def State.spilled (s : State) (dn i : Nat) : Receipt :=
  let x := s.homeRead (spillAt dn i) 32
  { node := x % 2 ^ 20, ctx := x / 2 ^ 20 % 2 ^ 12, serial := BitVec.ofNat 32 (x / 2 ^ 32)
    result := BitVec.ofNat 64 (x / 2 ^ 64), code := BitVec.ofNat 8 (x / 2 ^ 128)
    bad := s.homePoisoned (spillAt dn i) 32 }

/-- The receipts that a die holds, on chip and spilled (R340). -/
def State.receipts (s : State) (dn : Nat) : List Receipt := (s.die dn).receipts ++ (s.die dn).spill.map (s.spilled dn)

/-- Receipts of a die dropped but for those that `p` keeps. -/
def State.keepReceipts (s : State) (dn : Nat) (p : Receipt → Bool) : State :=
  let d := s.die dn
  s.setDie dn { d with receipts := d.receipts.filter p, spill := d.spill.filter (fun i => p (s.spilled dn i)) }

/-- Whether a receipt belongs to a channel. -/
def Receipt.of (r : Receipt) (node ctx : Nat) : Bool := r.node == node && r.ctx == ctx

/-- The base of a channel raised, and the entries below it retired. -/
def State.raiseBase (s : State) (dn node ctx : Nat) (a : BitVec 32) : State × BitVec 32 :=
  let d := s.die dn
  let b := match d.bases.find? (fun b => b.1 == node && b.2.1 == ctx) with
    | none => a
    | some (_, _, b) => if serialGe a b then a else b
  ((s.setDie dn { d with bases := (node, ctx, b) :: d.bases.filter (fun x => !(x.1 == node && x.2.1 == ctx)) }).keepReceipts dn
    (fun r => !(r.of node ctx && !serialGe r.serial b)), b)

/-- The receipt of a serial, on chip or spilled (R340). -/
def State.receiptOf (s : State) (dn node ctx : Nat) (serial : BitVec 32) : Option Receipt :=
  (s.receipts dn).find? (fun r => r.of node ctx && r.serial == serial)

/-- The lowest entry of the spill area that is not in use. -/
def Die.freeSpill (d : Die) : Nat := ((List.range (d.spill.length + 1)).find? (fun i => !d.spill.contains i)).getD 0

/-- A receipt moved to the spill area (R340), its mark of poison with it (R376). -/
def State.spillReceipt (s : State) (dn : Nat) (r : Receipt) : State :=
  let i := (s.die dn).freeSpill
  let t := s.homeWrite (spillAt dn i) r.bytes
  let t := if r.bad then { t with poison := poisonAll t.poison (wordsAt (spillAt dn i) 32) } else t
  t.setDie dn { s.die dn with spill := i :: (s.die dn).spill }

/-- A receipt used: it stands on chip, and where the chip is full the least recently used entry moves to the spill area
(R340). -/
def State.useReceipt (s : State) (dn : Nat) (r : Receipt) : State :=
  let s := s.keepReceipts dn (fun x => !(x.of r.node r.ctx && x.serial == r.serial))
  let chip := r :: (s.die dn).receipts
  if Config.receiptChip < chip.length then
    let s := s.setDie dn { s.die dn with receipts := chip.dropLast }
    chip.getLast?.elim s (s.spillReceipt dn)
  else s.setDie dn { s.die dn with receipts := chip }

/-- Whether no receipt more can be kept. -/
def Die.receiptsFull (d : Die) : Bool :=
  Config.receiptChip + Config.receiptSpill ≤ d.receipts.length + d.spill.length

/-- The answer to a request (R334). -/
def State.answer (s : State) (m : Msg) (code result : Nat) : Msg :=
  { dst := m.src, src := s.nodeId.toNat, kind := 2, fst := false, inc := s.incarnation, ctx := m.ctx
    payload := payloadOf [(12, 4, m.field 12 4), (16, 8, result), (24, 1, code), (25, 1, m.field 44 1)] }

/-- A request handled by its channel die (R341): the state and the answer. A receipt whose words are marked as poisoned cannot say
what became of its serial: the answer is INDETERMINATE (R376; log 111, DESIGN CHOICE). -/
def State.serve (s : State) (m : Msg) : State × Msg :=
  let s := if m.fst then { s with telemetry := { s.telemetry with firsts := satAdd s.telemetry.firsts 1 } }
           else if m.field 44 1 != 4 then { s with telemetry := { s.telemetry with repeats := satAdd s.telemetry.repeats 1 } }
           else s
  if m.field 44 1 = 4 then
    let (s, code, r) := s.perform m
    (s, s.answer m code r)
  else
    let dn := channelDie m.src m.ctx
    let serial := BitVec.ofNat 32 (m.field 12 4)
    let (s, b) := s.raiseBase dn m.src m.ctx (BitVec.ofNat 32 (m.field 16 4))
    if !serialGe serial b then (s, s.answer m 3 0)
    else
      match s.receiptOf dn m.src m.ctx serial with
      | some r =>
        if r.bad then ((s.useReceipt dn r).usedPoison, s.answer m 5 0)
        else (s.useReceipt dn r, s.answer m r.code.toNat r.result.toNat)
      | none =>
        if m.inc != s.incarnation then (s, s.answer m 5 0)
        else if (s.die dn).receiptsFull then (s, s.answer m 4 0)
        else
          let (s, code, r) := s.perform m
          let rec1 : Receipt :=
            { node := m.src, ctx := m.ctx, serial := serial, code := BitVec.ofNat 8 code, result := BitVec.ofNat 64 r, bad := false }
          (s.useReceipt dn rec1, s.answer m code r)

/-- A close: entries and base dropped (R342). -/
def State.dropChannel (s : State) (node ctx : Nat) : State :=
  let dn := channelDie node ctx
  let s := s.keepReceipts dn (fun r => !r.of node ctx)
  let d := s.die dn
  s.setDie dn { d with bases := d.bases.filter (fun b => !(b.1 == node && b.2.1 == ctx)) }

/-- What an owner does with a message: the state and its answer, if it has one. -/
def State.owner (s : State) (m : Msg) : State × Option Msg :=
  let plain (kind : Nat) : Msg :=
    { dst := m.src, src := s.nodeId.toNat, kind := kind, fst := false, inc := s.incarnation, ctx := m.ctx, payload := [] }
  match m.kind with
  | 1 => let (s, a) := s.serve m; (s, some a)
  | 3 => (s, some (plain 4))
  | 5 => (s.dropChannel m.src m.ctx, some (plain 6))
  | 7 =>
    ((s.raiseBase (channelDie m.src m.ctx) m.src m.ctx (BitVec.ofNat 32 (m.field 16 4))).1, none)
  | _ => (s, none)

/-! ### The requester -/

/-- A delivery slot of a channel written: result, code and state. -/
def putSlot (k i : Nat) (serial : BitVec 32) (result code st : Nat) : Dev Unit := do
  let a := ((← get).ctx k).slot i serial
  devPut k a 8 result
  devPut k (a + 0x16) 1 code
  devPut k (a + 0x14) 1 st

/-- A request's result, a fault or its end by LINK_TIMEOUT (code 0), delivered to its slot or waiting hart. -/
def settle (k i : Nat) (x : Sent) (code result : Nat) : Dev Unit := do
  let s ← get
  let ch := s.chan k i
  set (s.setChan k i { ch with sent := ch.sent.filter (fun y => !(y.instr == x.instr && y.id == x.id)) })
  if x.instr = 4 then
    modify (fun s => { s with harts := s.harts.map (fun e =>
      (e.1, if e.2.rloadTag == some (i, x.id) && e.2.ctx == k then
              { e.2 with rload := some (BitVec.ofNat 8 code, BitVec.ofNat 64 result) } else e.2)) })
  else
    if x.instr = 3 then
      if code = 1 then putSlot k i x.id 0 1 0
      else
        putSlot k i x.id 0 code 3
        modify (fun s =>
          let ch := s.chan k i
          s.setChan k i { ch with held := ch.held ++ [{ x with code := BitVec.ofNat 8 code }] })
    else putSlot k i x.id result code 2
    putAck k i
    modify (fun s =>
      let ch := s.chan k i
      if ch.sent.any (fun y => y.instr != 4) then s else s.setChan k i { ch with ackDue := true })

/-- I and F after an answer (R336). The next serial to issue is that of the oldest request that waits, with every later one,
for its first transmission, where there is one (R335; log 75, DEDUCED). -/
def learn (k i : Nat) (inc : BitVec 16) (isProbe : Bool) : Dev Unit := do
  let entry ← nextSerial k i
  modify (fun s =>
    let ch := s.chan k i
    let next := ((((ch.sent.filter (fun x => x.instr != 4)).reverse.takeWhile (fun x => x.tries == 0)).getLast?).map
      (fun x => x.id)).getD entry
    if !isProbe && ch.inc == some inc then s
    else
      s.setChan k i { ch with inc := some inc, f := next
                              oldInc := if ch.inc == some inc then ch.oldInc else ch.inc.getD 0 })

/-- One transmission of a request, with E and A of this moment (R203, R337). -/
def transmit (k i : Nat) (x : Sent) : Dev Msg := do
  let ch := (← get).chan k i
  let a := ch.ack (← nextSerial k i)
  let m := flitMsg x.flit
  let x' := { x with tries := x.tries + 1 }
  modify (fun s =>
    let ch := s.chan k i
    s.setChan k i { ch with ackDue := ch.ackDue && x.instr == 4
                            sent := ch.sent.map (fun y => if y.instr == x.instr && y.id == x.id then x' else y) })
  if x.instr != 4 then devPut k (((← get).ctx k).slot i x.id + 0x17) 1 (min 255 x'.tries)
  return { m with fst := x.tries == 0 && x.instr != 4
                  inc := if x.instr = 4 then ch.inc.getD 0 else ch.e x.id
                  payload := payloadOf [(12, 4, m.field 12 4), (16, 4, a.toNat), (20, 8, m.field 20 8),
                                        (28, 8, m.field 28 8), (36, 8, m.field 36 8), (44, 2, m.field 44 2)] }

/-- Whether a context's harts may be on the device: it transmits then (R208, R271). -/
def State.onDevice (s : State) (k : Nat) : Bool := (s.ctx k).state == 1 || (s.ctx k).state == 2

/-- What a requester does with an answer (R204, R335, R336, R338); the requests it may now send. A response that nothing
awaits has no effect. -/
def requester (m : Msg) : Dev (List (Nat × Nat × Sent)) := do
  let k := m.ctx
  let s ← get
  match (s.ctx k).chans.find? (fun e => e.2.node == m.src && (m.kind == 4 || e.2.probing || e.2.closing || e.2.inc.isSome)) with
  | none => return []
  | some (i, ch) =>
    if m.kind = 2 then
      if ch.closing then
        if ch.inc != some m.inc then
          modify (fun s => s.setChan k i { s.chan k i with closing := false })
        return []
      else
        let id := BitVec.ofNat 32 (m.field 12 4)
        let instr := m.field 25 1
        let code := m.field 24 1
        match ch.sent.find? (fun x => x.id == id && x.instr == instr) with
        | some x =>
          if code = 1 || code = 2 || (code = 5 && instr != 4) then settle k i x code (m.field 16 8)
          learn k i m.inc false
          return []
        | none => return []
    else if m.kind = 4 then
      modify (fun s => s.setChan k i { s.chan k i with probing := false, probes := 0 })
      learn k i m.inc (ch.probing || ch.inc.isNone)
      return if s.onDevice k then ch.sent.filterMap (fun x => if x.tries = 0 then some (k, i, x) else none) else []
    else if m.kind = 6 then
      modify (fun s => s.setChan k i { s.chan k i with closing := false })
      return []
    else return []

/-- A message on its way. A message to the device's own node never reaches a port: it is served at once, and so is its
answer (R203, R331). -/
def deliver : Nat → Msg → Dev Unit
  | 0, _ => pure ()
  | fuel + 1, m => do
    let s ← get
    if m.dst != s.nodeId.toNat then set (s.emit m)
    else if m.kind % 2 = 1 then
      let (s, a) := s.owner m
      set s
      match a with
      | some a => deliver fuel a
      | none => pure ()
    else
      let more ← requester m
      more.forM (fun (k, i, x) => do
        let m ← transmit k i x
        deliver fuel m)

/-- Messages of one exchange with the own node: probe, answer, requests, answers. -/
def hops : Nat := 8

/-- A message of the requester without payload. -/
def State.plainMsg (s : State) (k i kind : Nat) (payload : List Byte) : Msg :=
  let ch := s.chan k i
  { dst := ch.node, src := s.nodeId.toNat, kind := kind, fst := false, inc := ch.inc.getD 0, ctx := k, payload := payload }

/-- A probe sent (R335). -/
def sendProbe (k i : Nat) : Dev Unit := do
  modify (fun s =>
    let ch := s.chan k i
    s.setChan k i { ch with probing := true, probes := ch.probes + 1 })
  deliver hops ((← get).plainMsg k i 3 [])

/-- A close sent (R271). -/
def sendClose (k i : Nat) : Dev Unit := do
  modify (fun s => s.setChan k i { s.chan k i with closing := true })
  deliver hops ((← get).plainMsg k i 5 [])

/-! ### Instructions -/

/-- TINFO of a remote operation's fault (R204). -/
def remoteInfo (node instr low : Nat) : BitVec 64 := BitVec.ofNat 64 (low + node * 2 ^ 32 + instr * 2 ^ 52)

/-- The fault a response code ends an operation with. -/
def remoteFault {α : Type} (instr : Nat) (addr : BitVec 64) (code : Nat) (serial : BitVec 32) : Mach α :=
  let node := (addr.extractLsb' 44 20).toNat
  let low := if instr = 4 then 0 else serial.toNat
  if code = 2 then raise cAccess (remoteInfo node instr 0x7100) addr
  else if code = 5 then raise cIndeterminate (remoteInfo node instr low) addr
  else raise cLinkTimeout (remoteInfo node instr low) addr

/-- The channel of an operation, taken where there is none (R270, R331, R335). -/
def remoteChan (addr : BitVec 64) (instr : Nat) : Mach Nat := do
  let s ← get
  let k := s.me.ctx
  let node := (addr.extractLsb' 44 20).toNat
  if node != s.nodeId.toNat && s.route node = 0 then raise cAccess (remoteInfo node instr 0x7300) addr
  match ← ofDev (findChan k node) with
  | some i => do
    let ch := (← get).chan k i
    if ch.inc.isNone && !ch.probing then ofDev (sendProbe k i)
    return i
  | none =>
    match ← ofDev (freeChan k) with
    | none => raise cAccess (remoteInfo node instr 0x7200) addr
    | some i => do
      ofDev (devPut k ((s.ctx k).entry i) 8 (2 ^ 63 + node))
      ofDev (devPut k ((s.ctx k).entry i + 8) 8 0)
      modify (fun s => s.setChan k i { Chan.reset with node := node, tag := (s.chan k i).tag })
      ofDev (sendProbe k i)
      return i

/-- A request built, once its delivery slot is free, and, where the owner's incarnation is known, sent (R203, R335): its
serial or tag. -/
def remoteIssue (f : AtF) (i instr : Nat) (addr : BitVec 64) (operand expected : Nat) : Mach (BitVec 32) := do
  let s ← get
  let h := s.me
  let k := h.ctx
  let ch := s.chan k i
  let id ← if instr = 4 then pure ch.tag else ofDev (nextSerial k i)
  if instr != 4 then
    let a := (s.ctx k).slot i id
    if 4096 ≤ (ch.sent.filter (fun x => x.instr != 4)).length then throw .hold
    if (← ofDev (devRead k (a + 0x14) 1)) != 0 then throw .hold
    ofDev (do
      devPut k ((s.ctx k).entry i + 8) 4 (id + 1).toNat
      devPut k a 8 0
      devPut k (a + 8) 4 id.toNat
      devPut k (a + 0x0C) 4 h.launch.toNat
      devPut k (a + 0x10) 4 (hartTag h s.cur)
      devPut k (a + 0x14) 4 (1 + instr * 256)
      devPut k (a + 0x18) 8 0)
  let body := payloadOf [(12, 4, id.toNat), (20, 8, addr.toNat % 2 ^ 44), (28, 8, operand), (36, 8, expected), (44, 1, instr),
                         (45, 1, f.op.toNat + f.succ.toNat * 16 + f.fail.toNat * 64)]
  let m : Msg := { dst := (addr.extractLsb' 44 20).toNat, src := s.nodeId.toNat, kind := 1, fst := false, inc := 0, ctx := k
                   payload := body }
  let x : Sent := { instr := instr, id := id, addr := addr, who := (h.gang, h.index), flit := m.flit, tries := 0, code := 0 }
  modify (fun s =>
    let ch := s.chan k i
    s.setChan k i { ch with sent := ch.sent ++ [x], tag := if instr = 4 then ch.tag + 1 else ch.tag })
  return id

/-- The first transmission of a request, unless it waits for a probe's answer. -/
def remoteSend (k i instr : Nat) (id : BitVec 32) : Mach Unit := do
  let ch := (← get).chan k i
  match ch.sent.find? (fun x => x.instr == instr && x.id == id) with
  | some x => if !ch.probing then ofDev (do deliver hops (← transmit k i x))
  | none => pure ()

/-- A release order precedes the request (R207, R247). -/
def remoteRelease (f : AtF) : Mach Unit := if 2 ≤ f.succ.toNat then releasePart f.scope.toNat else pure ()

/-- An acquire order acts once the result is there (R207); a failed RCAS has its failure order (R205, R241). -/
def remoteAcquire (f : AtF) (failed : Bool) : Mach Unit :=
  if (if failed then f.fail.toNat else f.succ.toNat) % 2 = 1 then acquirePart f.scope.toNat else pure ()

/-- The result of a remote operation on the own node is there: no older copy of those bytes is read (R249). -/
def ownNode (node : Nat) : Mach Unit :=
  modify (fun s => if node = s.nodeId.toNat then s.dropClean s.coreNo (fun _ => true) else s)

/-- A blocking RAMO or RCAS: issue, wait, complete from the slot (R205, R208, R271). -/
def remoteBlocking (f : AtF) (instr n : Nat) (operand expected : Word) : Mach Unit := do
  let h ← hart
  let k := h.ctx
  let addr := h.readS f.va
  let node := (addr.extractLsb' 44 20).toNat
  if addr.toNat % n != 0 then raise cMisalign (remoteInfo node instr 0) addr
  let mine (w : Option (Nat × BitVec 32)) : Mach (Option (Nat × BitVec 32)) := do
    match w with
    | none => return none
    | some (i, id) =>
      let s ← get
      let a := (s.ctx k).slot i id
      let slot ← ofDev (devRead k (a + 8) 4)
      let st ← ofDev (devRead k (a + 0x14) 2)
      return if slot = id.toNat && st / 256 = instr && (st % 256 = 1 || st % 256 = 2) && (s.chan k i).node = node
        then some (i, id) else none
  let (i, id) ← match ← mine h.remote with
    | some w => do
      if h.resend then
        modHart (fun h => { h with resend := false })
        let ch := (← get).chan k w.1
        match ch.sent.find? (fun x => x.instr == instr && x.id == w.2) with
        | some x => if !ch.probing then ofDev (do deliver hops (← transmit k w.1 x))
        | none => pure ()
      pure w
    | none => do
      let i ← remoteChan addr instr
      remoteRelease f
      let id ← remoteIssue f i instr addr operand.toNat expected.toNat
      modHart (fun h => { h with remote := some (i, id), resend := false })
      remoteSend k i instr id
      pure (i, id)
  let a := ((← get).ctx k).slot i id
  let st ← ofDev (devRead k (a + 0x14) 1)
  if st = 1 then throw .wait
  else
    let code ← ofDev (devRead k (a + 0x16) 1)
    let result ← ofDev (devRead k a 8)
    ofDev (devPut k (a + 0x14) 1 0)
    modHart (fun h => { h with remote := none, resend := false })
    if code = 1 then
      writeS f.vd (BitVec.ofNat 64 result)
      ownNode node
      remoteAcquire f (instr = 2 && result != expected.toNat)
      finish
    else remoteFault instr addr code id

/-- RAMO. -/
def effRamo (f : AtF) : Mach Unit := do
  remoteBlocking f 1 (amoBytes f.op.toNat) ((← hart).readS f.vb) 0

/-- RCAS. -/
def effRcas (f : AtF) : Mach Unit := do
  let h ← hart
  remoteBlocking f 2 8 (h.readS f.vb) (h.readS f.vd)

/-- RLOAD (R203, R205). -/
def effRload (f : AtF) : Mach Unit := do
  let h ← hart
  let addr := h.readS f.va
  if addr.toNat % 8 != 0 then raise cMisalign (remoteInfo (addr.extractLsb' 44 20).toNat 4 0) addr
  if h.rloadTag.isNone then
    let i ← remoteChan addr 4
    let tag ← remoteIssue f i 4 addr 0 0
    modHart (fun h => { h with rloadTag := some (i, tag), rload := none })
    remoteSend h.ctx i 4 tag
  match (← hart).rload with
  | none => throw .wait
  | some (code, x) =>
    modHart (fun h => { h with rloadTag := none, rload := none })
    if code = 1 then
      writeS f.vd x
      ownNode (addr.extractLsb' 44 20).toNat
      remoteAcquire f false
      finish
    else remoteFault 4 addr code.toNat 0

/-- The RSTORE of this hart that a probe's answer or a switch of the context still holds back, or has (R208, R335). -/
def heldStore (w : Option (Nat × BitVec 32)) : Mach (Option (Nat × BitVec 32)) := do
  match w with
  | none => return none
  | some (i, id) =>
    let s ← get
    let a := (s.ctx s.me.ctx).slot i id
    let serial ← ofDev (devRead s.me.ctx (a + 8) 4)
    let instr ← ofDev (devRead s.me.ctx (a + 0x15) 1)
    return if serial = id.toNat && instr = 3 then some (i, id) else none

/-- RSTORE (R206): it retires when its request is sent, which a probe's answer may hold back. -/
def effRstore (f : AtF) : Mach Unit := do
  let h ← hart
  let k := h.ctx
  let addr := h.readS f.va
  if addr.toNat % 8 != 0 then raise cMisalign (remoteInfo (addr.extractLsb' 44 20).toNat 3 0) addr
  let (i, id) ← match ← heldStore h.remote with
    | some w => do
      if ((← get).chan k w.1).sent.any (fun x => x.instr == 3 && x.id == w.2 && x.tries == 0) then remoteSend k w.1 3 w.2
      pure w
    | none => do
      let i ← remoteChan addr 3
      remoteRelease f
      let id ← remoteIssue f i 3 addr (h.readS f.vb).toNat 0
      remoteSend k i 3 id
      pure (i, id)
  let ch := (← get).chan k i
  let unsent (x : Sent) : Bool := x.instr == 3 && x.id == id && x.tries == 0
  if ch.sent.any unsent then
    modHart (fun h => { h with remote := some (i, id) })
    throw .wait
  modHart (fun h => { h with remote := none, resend := false })
  match ch.held.find? unsent with
  | some x =>
    modify (fun s => s.setChan k i { s.chan k i with held := (s.chan k i).held.erase x })
    ofDev (devPut k (((← get).ctx k).slot i id + 0x14) 1 0)
    remoteFault 3 addr 0 id
  | none => finish

/-- The hart's remote operations without a result (R206). -/
def State.remotePending (s : State) : Bool :=
  let h := s.me
  (s.ctx h.ctx).chans.any (fun e => e.2.sent.any (fun x => x.who == (h.gang, h.index)))

/-- The held fault with the lowest serial, taken at the instruction that meets it (R206). -/
def heldFault : Mach Unit := do
  let s ← get
  let h := s.me
  let all := (s.ctx h.ctx).chans.flatMap (fun e =>
    (e.2.held.filter (fun x => x.who == (h.gang, h.index))).map (fun x => (e.1, x)))
  match all with
  | [] => pure ()
  | hd :: tl =>
    let (i, x) := tl.foldl (fun m y => if serialGe y.2.id m.2.id then m else y) hd
    modify (fun s =>
      let ch := s.chan h.ctx i
      s.setChan h.ctx i { ch with held := ch.held.erase x })
    ofDev (devPut h.ctx (((← get).ctx h.ctx).slot i x.id + 0x14) 1 0)
    remoteFault 3 x.addr x.code.toNat x.id

/-- Every earlier remote operation of the hart has its result; then its held faults (R206). -/
def drainRemote : Mach Unit := do
  if (← get).remotePending then throw .hold
  heldFault

/-- RDRAIN: what its remote operations have written in the own node's memory is read from now on (R249). -/
def effRdrain (_ : AtF) : Mach Unit := do
  drainRemote
  acquirePart 5
  finish

end Sys2Proof.Machine
end

