-- ==== Sys2Proof/Machine/Matrix.lean ====
section
/-!
DEFINITION. The effects of class MX: matrix mode and the matrix engine (R161 to R178).
-/

namespace Sys2Proof.Machine

/-! ### Matrix mode -/

/-- MXENTER (R161): VL is unset until MXSETC. -/
def effMxenter (_ : MxF) : Mach Unit := modHart (fun h => { h with mxm := true, vl := 0, vlUnset := true }.setVstart 0)
/-- MXLEAVE (R163). -/
def effMxleave (_ : MxF) : Mach Unit := modHart (fun h => { h with mxm := false, vl := 0, vlUnset := false }.setVstart 0)
/-- The VL that MXSETC gives for a request. -/
def mxColumns (h : Hart) (request : Word) : Nat := min (min request.toNat 64) (6 * h.lanes)
/-- MXSETC (R164). -/
def effMxsetc (f : MxF) : Mach Unit :=
  modHart (fun h =>
    let n := mxColumns h (h.readS f.va)
    (({ h with vlUnset := false }.setVl n).writeS f.vd (BitVec.ofNat 64 n)).setVstart 0)
/-- An MXSETC that has answered at the sequencer, in its turn (R164). -/
def effMxsetcGiven (vl : BitVec 18) : Mach Unit :=
  modHart (fun h => ({ h with vlUnset := false }.setVl vl.toNat).setVstart 0)

/-! ### Operands (R77, R167) -/

/-- M, the number of rows. -/
def mxRows (f : MxF) : Nat := f.rows.toNat + 1
/-- G, the number of K-blocks. -/
def mxG (f : MxF) : Nat := 2 ^ (f.g.toNat % 4)

/-- A matrix operand type: its format and the bits an element takes in a slab. -/
def mxType (t : BitVec 4) : Fmt × Nat :=
  match t.toNat with
  | 0 => (.flt .fp32, 32) | 1 => (.flt .bf16, 16) | 2 => (.flt .fp16, 16)
  | 3 => (.flt .e4m3, 8) | 4 => (.flt .e5m2, 8) | 5 => (.tap 8, 8) | 6 => (.tap 6, 8)
  | 7 => (.i 8, 8) | 8 => (.i 4, 4) | 9 => (.flt .e2m1, 4) | 10 => (.flt .e4m3, 8) | _ => (.flt .e2m1, 4)

/-- The active columns (R165); a row has 64 words (R48). -/
def mxCols (f : MxF) (h : Hart) : List Nat := (List.range (min h.vl.toNat 64)).filter (h.activeBit f.m 0)

/-- The rows still to do (R176). -/
def mxSpan (f : MxF) (h : Hart) : List Nat :=
  List.range' h.vc.vstart.toNat (min (mxRows f) (h.spanEnd.getD (mxRows f)) - h.vc.vstart.toNat)

/-- Word 0 of a slab: where per-row and per-column fp32 operands stand (R171). -/
def Hart.slabWord (h : Hart) (reg i : Nat) : Nat := h.getBytes reg 64 i 0 4

/-- A value multiplied by the E8M0 scale in a byte (R34, R167). -/
def scaleBy (s : Nat) (x : Num) : Num :=
  if s = 255 then .nan false
  else
    match x with
    | .fin g m e => .fin g m (e + s - 127)
    | x => x

/-- Only fp32 has signalling NaNs here (R168). -/
def quiet (fmt : Fmt) (x : Num) : Num :=
  match x with
  | .nan s => .nan (s && fmt == .flt .fp32)
  | x => x

/-- The elements of one K-vector: slab `i` of the registers from `reg`, scaled where `sc` names scales, their bytes
from `off` of the slab. -/
def kvec (h : Hart) (t : BitVec 4) (kb g : Nat) (reg : Nat) (sc : Option (Nat × Nat)) (i : Nat) : List Num :=
  let (fmt, w) := mxType t
  (List.range g).flatMap (fun q =>
    let slab := h.getBytes (reg + q) 64 i 0 64
    (List.range kb).map (fun e =>
      let x := quiet fmt (fmt.decode (slab / 2 ^ (w * e) % 2 ^ w))
      match sc with
      | some (r, off) => scaleBy (h.getBytes (r + q) 64 i (off + e / 32) 1) x
      | none => x))

/-- The row and column that a check chooses with the value `f`, of rows `vs` to `m` − 1 and the columns listed (R178). -/
def checkedCell (f : BitVec 32) (vs m : Nat) (cols : List Nat) : Nat × Nat :=
  (vs + f.toNat % (m - vs), cols.getD (f.toNat / 256 % cols.length) 0)

/-- A retiring matrix arithmetic instruction is counted, and every sixteenth checked (R178): `agrees` compares what the
engine left at a row and column with what the scalar core recomputes. Without agreement the instruction does not retire;
the engine of this model computes right, and a check that fails is the event MATRIX_SPOT_CHECK. -/
def countMatrix (vs m : Nat) (cols : List Nat) (agrees : Hart → Nat → Nat → Bool) : Mach Unit := do
  let s ← get
  let k := s.core s.coreNo
  let n := k.mxCount + 1
  let due := n % 16 = 0
  let f := lfsrStep k.lfsr
  let (r, c) := checkedCell f vs m cols
  if due && s.me.spanEnd.isNone && !agrees s.me r c then throw .hold
  set (s.setCore s.coreNo { k with mxCount := n, lfsr := if due then f else k.lfsr })

/-- A row's flags: an enabled one stops the instruction before the row (R168). -/
def rowFlags (r : Nat) (fl : Flags) : Mach Unit := do
  if (fl &&& (← hart).te) != 0 then fpTrap r fl
  modHart (fun h => { h with fflags := h.fflags ||| fl })

/-- The products of row `i` and column `j` of MXMAC, with their flags. -/
def mxmacProducts (f : MxF) (h : Hart) (i j : Nat) : List (Num × Flags) :=
  let (_, wa) := mxType f.et
  let (_, wb) := mxType f.bt
  let kb := 512 / max wa wb
  let scaled := f.et.toNat == 10 || f.et.toNat == 11
  let sc (off : Nat) : Option (Nat × Nat) := if scaled then some (f.x.toNat, off) else none
  let a := kvec h f.et kb (mxG f) f.va.toNat (sc 0) i
  let b := kvec h f.bt kb (mxG f) f.vb.toNat (sc 32) j
  (a.zip b).map (fun p => Num.mul p.1 p.2)

/-- The terms of a float family's sum, the accumulator first. -/
def mxmacTerms (f : MxF) (h : Hart) (i j : Nat) : List Num :=
  let fp : Fmt := .flt .fp32
  (fp.decode (h.getAcc f.vd.toNat i j)).flushIn h.fz fp :: (mxmacProducts f h i j).map (fun p => p.1)

/-- The integer family's sum (R168). -/
def mxmacInt (f : MxF) (h : Hart) (i j : Nat) : Nat :=
  intBits 32 ((mxmacProducts f h i j).foldl (fun s p => s + Num.toIntAt 0 p.1)
    (intOfBits true 32 (h.getAcc f.vd.toNat i j)))

/-- Whether MXMAC's family is the integers. -/
def mxmacIsInt (f : MxF) : Bool := f.et.toNat == 7 || f.et.toNat == 8

/-- The comparison of R178 for MXMAC: two NaNs, one infinity, or a value within R47's bound; bits for integers. -/
def mxmacAgrees (f : MxF) (h0 h : Hart) (i j : Nat) : Bool :=
  let x := h.getAcc f.vd.toNat i j
  if mxmacIsInt f then x == mxmacInt f h0 i j
  else
    let ts := mxmacTerms f h0 i j
    let e := (El.exactSum .rne ts).1
    match fltDecode .fp32 x, e with
    | .nan _, .nan _ => true
    | .inf a, .inf b => a == b
    | .inf a, .fin b m q => a == b && ((fltEncode .fp32 .rne false h0.fz (.fin b m q)).2 &&& Flags.ov) != 0
    | y, e => withinBound ts.length ts e y || x == (fltEncode .fp32 .rne false h0.fz e).1

/-- MXMAC (R168). The float families sum in no given order (R47, K = G · Kb + 1; log 7). -/
def effMxmac (f : MxF) : Mach Unit := do
  let h0 ← hart
  let cols := mxCols f h0
  let rows := mxSpan f h0
  let acc := f.vd.toNat
  rows.forM (fun i => do
    let h ← hart
    let (new, fl) ← cols.foldlM (fun (st : List (Nat × Nat) × Flags) j => do
      if mxmacIsInt f then return (st.1 ++ [(j, mxmacInt f h i j)], st.2)
      else
        let g := (mxmacProducts f h i j).foldl (fun g p => g ||| p.2) (0 : Flags)
        let ts := mxmacTerms f h i j
        let (x, k) ← openSum .rne false h.fz ts.length ts
        return (st.1 ++ [(j, x)], st.2 ||| ((g ||| k) &&& (Flags.nv ||| Flags.ov)))) ([], 0)
    rowFlags i fl
    modHart (fun h => new.foldl (fun h p => h.setAcc acc i p.1 p.2) h))
  if !cols.isEmpty && !rows.isEmpty then countMatrix h0.vc.vstart.toNat (mxRows f) cols (mxmacAgrees f h0)
  finish

/-- MXZERO (R169): it is whole and sets every row whatever VSTART holds; R59 counts rows below VSTART as done, and R169
names no VSTART (log 65, DESIGN CHOICE). -/
def effMxzero (f : MxF) : Mach Unit := do
  modHart (fun h => { h with acc := (List.range (mxRows f)).foldl (fun a i => Tab.erase a (f.vd.toNat * 64 + i)) h.acc })
  finish

/-! ### Tiles in memory (R170) -/

/-- The address of column `j` of row `i`. -/
def mxEa (f : MxF) (h : Hart) (w i j : Nat) : BitVec 64 :=
  h.readS f.va + BitVec.ofNat 64 i * h.readS f.vb + BitVec.ofNat 64 (j * w)

/-- An access of row `i` of a matrix instruction of a kind, told at `told`. -/
def rowAcc (kind i : Nat) (need : Need) (told ea : BitVec 64) (n : Nat) : Acc :=
  { req := scaleReq need n false (vecInfo i kind), sp := isSpad ea, ea := ea, told := told }

/-- The first device-class address of some accesses. -/
def State.deviceOf (s : State) (xs : List Acc) : Option (BitVec 64) :=
  s.firstDevice ((xs.filter (fun x => !x.sp)).map (fun x => (x.req.need, x.ea)))

/-- The walks to the pages of some accesses, each distinct page once, and none for a page of `seen` (R144). -/
def State.walkedFor (s : State) (seen : List (BitVec 64)) (xs : List Acc) : State :=
  let of (w : Need) : List (BitVec 64) := (xs.filter (fun x => x.req.need == w && !x.sp)).map (fun x => x.ea)
  let rs := s.newPages seen (of .read)
  (s.walkedPages .read false rs).walkedPages .write false (s.newPages (seen ++ rs) (of .write))

/-- What comes before rows whose accesses are listed row by row: the walks to their pages, but those of `seen`; and, where one
is device-class or `dev` says that another access of the instruction is, the translation of every page before any row, an
instruction that never resumes part-way (R144, R151; log 87). -/
def devicePassAt (kind : Nat) (seen : List (BitVec 64)) (rows : List (List Acc)) (dev : Bool) : Mach Unit := do
  modify (fun s => s.walkedFor seen rows.flatten)
  let s ← get
  let d := s.deviceOf rows.flatten
  if dev || d.isSome then
    translateAhead rows
    let vs := s.me.vc.vstart.toNat
    if vs != 0 then raise cAccess (vecInfo vs kind ||| 0x4000#64) (d.getD 0)

/-- The accesses of row `i` of MXLD and MXST, whose words have `w` bytes. A fault of one tells its own address (log 101, DESIGN
CHOICE). -/
def tileRow (f : MxF) (h : Hart) (need : Need) (w i : Nat) : List Acc :=
  (mxCols f h).map (fun j => rowAcc (if need == .write then 1 else 0) i need (mxEa f h w i j) (mxEa f h w i j) w)

/-- Those of every row still to do. -/
def tileAccesses (f : MxF) (h : Hart) (need : Need) (w : Nat) : List (List Acc) :=
  (mxSpan f h).map (tileRow f h need w)

/-- MXLD (R170). -/
def effMxld (f : MxF) : Mach Unit := do
  let h ← hart
  let rows := mxSpan f h
  devicePassAt 0 [] (tileAccesses f h .read 4) false
  rows.forM (fun i => do
    let h ← hart
    let as := tileRow f h .read 4 i
    let ls ← stopAt i (locateAll as)
    let xs ← stopAt i ((as.zip ls).mapM (fun (x, l) => readLoc x.req x.told l))
    modHart (fun h => ((mxCols f h).zip xs).foldl (fun h p => h.setAcc f.vd.toNat i p.1 p.2) h))
  finish

/-- The writes of row `i` made together, each access with its value: all are located before the first. -/
def writeRow (i : Nat) (ws : List (Acc × Nat)) : Mach Unit := do
  let ls ← stopAt i (locateAll (ws.map (fun w => w.1)))
  let out := ls.zip ws
  out.forM (fun (l, x, v) => writeLoc l x.req.n v)
  modify (fun s => s.cure (out.map (fun (l, x, _) => (l, 0, 8 * x.req.n))))

/-- The word of row `i` and column `j` as MXST stores it, with its flags. -/
def storedWord (h : Hart) (f : MxF) (i j : Nat) : Nat × Flags :=
  let c := h.getAcc f.vd.toNat i j
  if f.et.toNat = 0 then (c, 0)
  else if f.et.toNat = 7 then ((convert (.i 32) (.i 8) .rne h.dsat false c).1, 0)
  else convert (.flt .fp32) (mxType f.et).1 h.frm h.dsat h.fz c

/-- MXST (R170). -/
def effMxst (f : MxF) : Mach Unit := do
  let h ← hart
  let w := (mxType f.et).1.bytes
  let rows := mxSpan f h
  devicePassAt 1 [] (tileAccesses f h .write w) false
  rows.forM (fun i => do
    let h ← hart
    let outs := (mxCols f h).map (storedWord h f i)
    let fl := outs.foldl (fun g o => g ||| o.2) (0 : Flags)
    let as := tileRow f h .write w i
    let _ ← stopAt i (locateAll as)
    if (fl &&& h.te) != 0 then fpTrap i fl
    writeRow i (as.zip (outs.map (fun o => o.1)))
    modHart (fun h => { h with fflags := h.fflags ||| fl }))
  finish

/-! ### Rows and scales (R171, R172) -/

/-- The columns a whole row instruction acts on. -/
def mxColSpan (f : MxF) (h : Hart) : List Nat := (h.span.filter (· < 64)).filter (h.activeBit f.m 0)

/-- MXROW (R171). -/
def effMxrow (f : MxF) : Mach Unit := do
  let h ← hart
  let r := (h.readS f.vb).toNat
  if !h.spent && r < 64 then
    modHart (fun h =>
      (mxColSpan f h).foldl (fun h j => h.setBytes f.vd.toNat 64 j 0 64 (h.getAcc f.va.toNat r j)) (h.dirty f.vd.toNat 1))
  finish

/-- MXROWADD (R171). -/
def effMxrowadd (f : MxF) : Mach Unit := do
  let h ← hart
  let r := (h.readS f.vb).toNat
  if !h.spent && r < 64 then
    let env : FpEnv := { rm := h.frm, sat := false, fz := h.fz }
    let fp : Fmt := .flt .fp32
    let sum (j : Nat) : Nat × Flags :=
      env.finish fp (Num.add env.rm (env.arg fp (h.getAcc f.vd.toNat r j)) (env.arg fp (h.slabWord f.va.toNat j)))
    let cols := mxColSpan f h
    wholeFlags (cols.foldl (fun g j => g ||| (sum j).2) (0 : Flags))
    modHart (fun h => cols.foldl (fun h j => h.setAcc f.vd.toNat r j (sum j).1) h)
    if !cols.isEmpty then countMatrix r (r + 1) cols (fun h _ c => h.getAcc f.vd.toNat r c == (sum c).1)
  finish

/-- One word of MXSCALER: the exact product rounded once, with every flag (R172). -/
def scaledWord (f : MxF) (h : Hart) (i j : Nat) : Nat × Flags :=
  let env : FpEnv := { rm := h.frm, sat := h.dsat, fz := h.fz }
  let fp : Fmt := .flt .fp32
  let c := h.getAcc f.vd.toNat i j
  let x := if f.et.toNat = 7 then Num.ofInt (intOfBits true 32 c) else env.arg fp c
  let (p, f1) := Num.mul x (env.arg fp (h.slabWord f.va.toNat i))
  let (q, f2) := Num.mul p (env.arg fp (h.slabWord f.vb.toNat j))
  env.finish fp (q, f1 ||| f2)

/-- A register past the one named that rows reach is read too, and its error is met (R379). -/
def checkRows (reg : Nat) (rows : List Nat) : Mach Unit := do
  let n := 6 * (← hart).lanes
  checkEcc ((rows.map (fun i => (1, reg + i / max 1 n))).eraseDups)

/-- MXSCALER (R172). A row whose slab of the row scales lies past the register is read from the one that follows, as R50 numbers
elements (log 88, DEDUCED). -/
def effMxscaler (f : MxF) : Mach Unit := do
  let h0 ← hart
  let cols := mxCols f h0
  let rows := mxSpan f h0
  checkRows f.va.toNat rows
  rows.forM (fun i => do
    let h ← hart
    let new := cols.map (fun j => (j, scaledWord f h i j))
    rowFlags i (new.foldl (fun g p => g ||| p.2.2) (0 : Flags))
    modHart (fun h => new.foldl (fun h p => h.setAcc f.vd.toNat i p.1 p.2.1) h))
  if !cols.isEmpty && !rows.isEmpty then
    countMatrix h0.vc.vstart.toNat (mxRows f) cols (fun h i j => h.getAcc f.vd.toNat i j == (scaledWord f h0 i j).1)
  finish

/-! ### MXSTKV (R173 to R175) -/

/-- The rotated row `u`. -/
def rotated (f : MxF) (h : Hart) (d i : Nat) : List (Nat × Flags) :=
  let fp : Fmt := .flt .fp32
  let env : FpEnv := { rm := .rne, sat := false, fz := h.fz }
  (List.range d).map (fun col =>
    let k := col / 2
    let ld (x : Nat) : Num := env.arg fp x
    let x := ld (h.getAcc f.vd.toNat i (2 * k))
    let y := ld (h.getAcc f.vd.toNat i (2 * k + 1))
    let c := ld (h.getBytes (f.va.toNat + k / 16) 64 i (4 * (k % 16)) 4)
    let s := ld (h.getBytes (f.va.toNat + 2 + k / 16) 64 i (4 * (k % 16)) 4)
    let (p, f1) := if col % 2 = 0 then Num.mul x c else Num.mul x s
    let (q, f2) := if col % 2 = 0 then Num.mul y s else Num.mul y c
    let (r, f3) := if col % 2 = 0 then Num.sub .rne p q else Num.add .rne p q
    let (b, f4) := env.finish fp (r, 0)
    (b, f1 ||| f2 ||| f3 ||| f4))

/-- The entry of a map that MXSTKV reads for a position (R174). -/
def KvMap.rowEntry (k : KvMap) (p : Nat) : BitVec 64 :=
  let q := p / 2 ^ k.bsh
  BitVec.ofNat 64 (k.entries + 8 * (if q < k.s then q else k.s + (q - k.s) % k.w))

/-- Where an entry sends the row of position `p`, and how its tag stores it; none where it is invalid. -/
def KvMap.dest (k : KvMap) (h : Hart) (rm : Rm) (p e : Nat) : Option (Nat × Slot) :=
  let tag := e / 2 % 16
  (if e % 2 = 1 then h.tagSlot rm tag else none).map (fun sl => (e % 2 ^ 55 / 64 * 64 + p % 2 ^ k.bsh * rowBytes tag k.d, sl))

/-- The bytes of one write of a row, and how many writes make the row. -/
def Slot.rowUnits (sl : Slot) (d : Nat) : Nat × Nat :=
  match sl.enc with
  | .nib _ => (1, d / 2)
  | .el t => (t.bytes, d)
  | _ => (1, d)

/-- The base of a row's scale bytes (R174). -/
def KvMap.scaleBase (k : KvMap) (sl : Slot) (p : Nat) : BitVec 64 := sl.src + BitVec.ofNat 64 (p * k.d / 32)

/-- The accesses of row `i` at the address `row`, stored by its tag: its data, and the scales it reads or writes. A fault of any
of them tells the address of the row (R150). -/
def KvMap.rowAccesses (k : KvMap) (i p row : Nat) (sl : Slot) : List Acc :=
  let (w, n) := sl.rowUnits k.d
  let acc (need : Need) (ea : BitVec 64) (n : Nat) : Acc := rowAcc 1 i need (BitVec.ofNat 64 row) ea n
  (List.range n).map (fun b => acc .write (BitVec.ofNat 64 (row + b * w)) w)
    ++ (if sl.scale == 2 then (List.range (k.d / 32)).map (fun b => acc .write (k.scaleBase sl p + BitVec.ofNat 64 b) 1)
        else (List.range k.d).filterMap (fun c => (sl.scaleAt c).map (fun x => acc .read x.1 x.2)))

/-- A word of DRAM as the moving hart would read it, without a fault. -/
def State.peekWord (s : State) (ea : BitVec 64) : Option Nat :=
  match s.translate s.coreNo s.me.ctx .read (ea.toNat % 2 ^ 55) with
  | .ok x =>
    if Config.pcieBase ≤ x.pa then none
    else some (ofBytes (s.peek (.dram x.pa false) 8))
  | _ => none

/-- The entries that MXSTKV reads: row and address. -/
def KvMap.rowEntries (k : KvMap) (f : MxF) (h : Hart) : List (Nat × BitVec 64) :=
  ((mxSpan f h).filter (h.activeBit f.m 0)).map (fun i => (i, k.rowEntry (h.getBytes f.vb.toNat 64 i 0 8)))

/-- What MXSTKV touches beyond the header, entry by entry and row by row, `word` giving the entries as far as they are known: up
to the first row that has no destination. -/
def KvMap.kvAccesses (k : KvMap) (f : MxF) (rm : Rm) (h : Hart) (word : Nat × BitVec 64 → Option Nat) : List (List Acc) :=
  let es := k.rowEntries f h
  let row (e : Nat × BitVec 64) : Option (List Acc) :=
    let p := h.getBytes f.vb.toNat 64 e.1 0 8
    ((word e).bind (k.dest h rm p)).map (fun x => k.rowAccesses e.1 p x.1 x.2)
  (es.takeWhile (fun e => (row e).isSome)).flatMap (fun e => [[mapAcc 1 e], (row e).getD []])
    ++ ((es.dropWhile (fun e => (row e).isSome)).take 1).map (fun e => [mapAcc 1 e])

/-- A computation whose trap is kept for later. -/
def attempt {α : Type} (m : Mach α) : Mach (Except Stop α) :=
  tryCatch (do return .ok (← m)) (fun e =>
    match e with
    | .trap c i a => return .error (.trap c i a)
    | e => throw e)

/-- Entries that lie in device-class memory, or beside such entries, are read before any row is translated, each once and in the
order of their rows, up to one that faults (R151). -/
def readAhead : List (Nat × BitVec 64) → Mach (List (Nat × Except Stop Nat))
  | [] => return []
  | e :: t => do
    match ← attempt (readMem (vecReq .read e.1 1) false e.2) with
    | .ok x => return (e.1, .ok x) :: (← readAhead t)
    | .error x => return [(e.1, .error x)]

/-- What comes before the rows of MXSTKV: the walks to its pages and, where its header or an entry or a row lies in device-class
memory, the translation of every page before any row (R144, R151). Answers the entries read ahead. -/
def kvAhead (f : MxF) (rm : Rm) (k : KvMap) (seen : List (BitVec 64)) (dev : Bool) :
    Mach (List (Nat × Except Stop Nat)) := do
  let s ← get
  let es := k.rowEntries f s.me
  if s.readsDevice es then
    deviceReads seen es es dev 1
    let xs ← readAhead es
    let word (e : Nat × BitVec 64) : Option Nat := (xs.find? (fun x => x.1 == e.1)).bind (fun x => x.2.toOption)
    devicePassAt 1 (seen ++ es.map (fun x => x.2)) (k.kvAccesses f rm s.me word) true
    return xs
  else
    devicePassAt 1 seen (k.kvAccesses f rm s.me (fun e => s.peekWord e.2)) dev
    return []

/-- The entry of row `i` at an address: the one read ahead, or a read of it now. -/
def kvEntry (early : List (Nat × Except Stop Nat)) (i : Nat) (ea : BitVec 64) : Mach Nat :=
  match early.find? (fun x => x.1 == i) with
  | some (_, .ok x) => pure x
  | some (_, .error e) => throw e
  | none => readMem (vecReq .read i 1) false ea

/-- The values that a row stores by its tag, the scale bytes of its blocks given, with the flags they raise. -/
def KvMap.rowValues (k : KvMap) (i row : Nat) (sl : Slot) (us : List (Nat × Flags)) (scales : List Nat) :
    Mach (List Nat × Flags) := do
  let h ← hart
  (List.range k.d).foldlM (fun (acc : List Nat × Flags) c => do
    let (u, g) := us.getD c (0, 0)
    let (x, g') ←
      if sl.scale == 2 then
        let s := scales.getD (c / 32) 0
        if s = 255 then pure ((0, 0) : Nat × Flags)
        else pure (convOut { sl with sat := true } (.flt .fp32) h.fz (.fin false 1 ((s : Int) - 127)) u)
      else do
        -- a poisoned scale poisons the row (R377, R378)
        let sigma ← stopAt i (scaleOf sl false (vecInfo i 1) (BitVec.ofNat 64 row) c)
        pure (convOut sl (.flt .fp32) h.fz sigma u)
    return (acc.1 ++ [x], acc.2 ||| g ||| g')) ([], 0)

/-- The values of a row as the writes of its data take them: nibbles in pairs. -/
def Slot.rowData (sl : Slot) (d : Nat) (xs : List Nat) : List Nat :=
  match sl.enc with
  | .nib _ => (List.range (d / 2)).map (fun b => xs.getD (2 * b) 0 % 16 + xs.getD (2 * b + 1) 0 % 16 * 16)
  | _ => xs

/-- One row of MXSTKV, once its entry is known. -/
def kvRow (f : MxF) (rm : Rm) (k : KvMap) (i e : Nat) : Mach Unit := do
  let h ← hart
  let p := h.getBytes f.vb.toNat 64 i 0 8
  match k.dest h rm p e with
  | none => stopAt i (raise cAccess (vecInfo i 1) (k.rowEntry p))
  | some (row, sl) =>
    let as := k.rowAccesses i p row sl
    let _ ← stopAt i (locateAll as)
    let us := rotated f h k.d i
    let fp : Fmt := .flt .fp32
    let scales := (List.range (k.d / 32)).map (fun b =>
      mxScale 2 (((us.drop (32 * b)).take 32).map (fun u => (fp.decode u.1).flushIn h.fz fp)))
    let outs ← k.rowValues i row sl us scales
    if (outs.2 &&& h.te) != 0 then fpTrap i outs.2
    writeRow i ((as.filter (fun x => x.req.need == .write)).zip
      (sl.rowData k.d outs.1 ++ (if sl.scale == 2 then scales else [])))
    modHart (fun h => { h with fflags := h.fflags ||| outs.2 })

/-- MXSTKV. -/
def effMxstkv (f : MxF) : Mach Unit := do
  let h0 ← hart
  let rows := mxSpan f h0
  if rows.isEmpty then finish
  else
    let a := h0.readS f.x
    let vs := h0.vc.vstart.toNat
    if a.getLsbD 63 then raise cAccess (vecInfo vs 0) a
    if a.toNat % 8 != 0 then raise cAccess 0 a
    let head := headerReads vs a
    let dev := (← get).readsDevice head
    deviceReads [] head head false 0
    let ws ← stopAt vs (readWords (vecReq .read vs 0) false a 4)
    match KvMap.ofWords ws with
    | none => raise cAccess 0 a
    | some k =>
      if 64 < k.d then raise cAccess 0 a
      let rm ← tagMode
      let early ← kvAhead f rm k (head.map (fun x => x.2)) dev
      rows.forM (fun i => do
        let h ← hart
        if h.activeBit f.m 0 i then
          let e ← stopAt i (kvEntry early i (k.rowEntry (h.getBytes f.vb.toNat 64 i 0 8)))
          kvRow f rm k i e)
      if rows.any (h0.activeBit f.m 0) then
        countMatrix vs (mxRows f) (List.range k.d) (fun h i c =>
          (rotated f h k.d i)[c]? == (rotated f h0 k.d i)[c]?)
      finish

/-- The row limit of MXMAC (R167). -/
def rowCheck (f : MxF) : Mach Unit := do
  if 6 * (← hart).lanes < mxRows f then illegal 0x04

end Sys2Proof.Machine
end

