-- ==== Sys2Proof/Machine/Ops.lean ====
section
/-!
DEFINITION. Taking an exception and returning from one (R106, R150, R260 to R267, R406), pre-emption and parking, the
retirement of harts, gangs and launches (R108, R285, R295, R299), and the kill of a context (R259, R260).
-/

namespace Sys2Proof.Machine

/-! ### The lane allocation table (R288) -/

/-- Field `k` of a register laid out as LANEMAP. -/
def lg (w : BitVec 64) (k : Nat) : Nat := w.toNat / 16 ^ k % 16
/-- Field `k` written. -/
def setLg (w : BitVec 64) (k v : Nat) : BitVec 64 :=
  BitVec.ofNat 64 (w.toNat % 16 ^ k + v % 16 * 16 ^ k + w.toNat / 16 ^ (k + 1) * 16 ^ (k + 1))

/-- The sixteen lane groups. -/
def groups : List Nat := List.range 16

/-- The groups a slot holds and no change of state has touched. -/
def Core.held (c : Core) (slot : Nat) : List Nat := groups.filter (fun k => lg c.laneMap k == slot + 1)

/-- A group that a slot no longer uses: a pending one takes the code that LANEDEST holds. With `all`, those it holds and
the pending ones become free (R290, R295, R299; log 32). -/
def Core.settleGroup (slot : Nat) (all : Bool) (c : Core) (k : Nat) : Core :=
  if all && lg c.laneMap k == slot + 1 then { c with laneMap := setLg c.laneMap k 0 }
  else if lg c.laneHold k == slot + 1 then
    { c with laneMap := if lg c.laneMap k = 9 then setLg c.laneMap k (if all then 0 else lg c.laneDest k) else c.laneMap
             laneHold := setLg c.laneHold k 0, laneDest := setLg c.laneDest k 0 }
  else c

/-- Every group of a slot. -/
def Core.settleSlot (c : Core) (slot : Nat) (all : Bool) : Core := groups.foldl (Core.settleGroup slot all) c

/-- The groups that a slot keeps past its VSETL: those it holds, or, where it holds none, the lowest `n` of those it still
uses, quarantined or release-pending, for its share never falls below 1 (R114, R290, R292; log 80, DESIGN CHOICE). -/
def Core.kept (c : Core) (slot n : Nat) : List Nat :=
  if (c.held slot).isEmpty then (groups.filter (fun k => lg c.laneHold k == slot + 1)).take n else c.held slot

/-! ### Descriptors in memory -/

/-- A context's state, with its mirror in the descriptor (R257). -/
def State.ctxState (s : State) (k st result cause : Nat) : State :=
  let s := s.setCtx k { s.ctx k with state := st }
  s.descWrite k 8 8 (st + result * 2 ^ 8 + cause * 2 ^ 16)

/-- A context's state changed by an event, its last result left as it is. -/
def State.ctxMove (s : State) (k st : Nat) : State :=
  let w := s.descRead k 8 8
  let s := s.setCtx k { s.ctx k with state := st }
  s.descWrite k 8 8 (w / 8 * 8 + st)

/-- The physical address of a queue's descriptor (R272). -/
def queuePa (q : Nat) : Nat := Config.queueTable + 64 * q

/-- A queue and its mirror in its descriptor. -/
def State.putQueue (s : State) (q : Nat) (x : Queue) : State :=
  let w := s.homeRead (queuePa q + 8) 8
  let s := s.setQueue q x
  let s := s.homeWrite (queuePa q + 8) (bytesOf 8 (w / 8 * 8 + x.state))
  let s := s.homeWrite (queuePa q + 0x28) (bytesOf 8 x.head)
  let s := if x.hostFed then s else s.homeWrite (queuePa q + 0x30) (bytesOf 8 x.tail)
  s.homeWrite (queuePa q + 0x38) (bytesOf 8 x.cdone)

/-- The result of a queue's command or the reason of its error, in STATE. -/
def State.queueNote (s : State) (q : Nat) (result reason : Option Nat) : State :=
  let w := s.homeRead (queuePa q + 8) 8
  let r := result.getD (w / 2 ^ 8 % 256)
  let e := reason.getD (w / 2 ^ 16 % 256)
  s.homeWrite (queuePa q + 8) (bytesOf 8 (w % 8 + r * 2 ^ 8 + e * 2 ^ 16))

/-- A CLOSING queue whose taken launches have all ended is FREE (R274). -/
def State.closeQueue (s : State) (q : Nat) : State :=
  let x := s.queue q
  if x.state = 2 && !s.launches.any (fun l => l.2.queue == q) then s.putQueue q { x with state := 0 } else s

/-! ### Gangs -/

/-- The scratchpad range of a gang's allocation, as a predicate on offsets. -/
def Gang.inAlloc (g : Gang) (o : Nat) : Bool := g.base ≤ o && o < g.base + g.size

/-- The harts of a gang that have not retired, by index. -/
def State.liveIdx (s : State) (g : Gang) : List Nat :=
  (List.range (s.hartsOf g)).filter (fun i => !g.retired.getLsbD i)

/-- Save blocks returned to a context's pool. -/
def State.freeBlocks (s : State) (k : Nat) (blocks : List (BitVec 64)) : State :=
  let c := s.ctx k
  s.setCtx k { c with used := c.used.filter (fun i => !blocks.contains (BitVec.ofNat 64 (c.save + 0x800000 * i))) }

/-- The save blocks of a hart: the one assigned to it, and those it has resumed from. -/
def Hart.block (h : Hart) : List (BitVec 64) :=
  (match h.pre with
   | .pending b | .saving b | .parked b => [b]
   | .none => []) ++ h.owed

/-- A placed gang leaves its core: slots, lane groups, allocation, barrier objects and streams in it (R296, R306,
R353). -/
def State.unplace (s : State) (n : Nat) (g : Gang) : State :=
  let hs := s.hartsOf g
  let s := s.dropStreams (fun st => st.spadCore == some g.core && st.space == g.base && 0 < g.size)
  let c := s.core g.core
  let c := (List.range hs).foldl (fun c i => c.settleSlot (g.slot + i) true) c
  let s := s.setCore g.core { c with armed := c.armed.filter (fun o => !g.inAlloc o) }
  let keys := (List.range hs).map (fun i => g.core * 8 + g.slot + i)
  { s with harts := s.harts.filter (fun e => !(keys.contains e.1 && e.2.gang == n))
           preempting := s.preempting.filter (· != n) }

/-- Whether a gang holds a place on a core. -/
def Gang.placed (g : Gang) : Bool := g.state != .preempted

/-- A SUSPENDING context with no gang placed is SUSPENDED (R259). -/
def State.suspendCheck (s : State) (k : Nat) : State :=
  if (s.ctx k).state = 2 && !s.gangs.any (fun e => e.2.placed && ((s.launch e.2.launch).map Launch.ctx) == some k) then
    s.ctxMove k 3
  else s

/-! ### The end of a context (R259, R260, R271) -/

/-- Closes that still want an answer: one toward a node whose routing entry is 0 counts as answered. -/
def State.closesOpen (s : State) (k : Nat) : Bool :=
  (s.ctx k).chans.any (fun e =>
    e.2.closing && (e.2.node == s.nodeId.toNat || s.homeRead (Config.routingTable + e.2.node) 1 != 0))

/-- A DYING context whose closes are all answered is FREE, its Halley values discarded (R259, R310). -/
def State.dyingCheck (s : State) (k : Nat) : State :=
  if (s.ctx k).state = 4 && !s.closesOpen k then
    let s := s.ctxMove k 0
    let s := s.setCtx k Ctx.reset
    { s with posts := s.posts.filter (fun p => p.2.1 / 16 != k), hints := s.hints.filter (fun x => x.ctx != k)
             frames := s.frames.filter (fun x => x.ctx != k)
             cores := s.cores.map (fun e => (e.1, { e.2 with halley := e.2.halley.filter (fun v => v.1 / 16 != k) })) }
  else s

/-- The harts of a context. -/
def State.hartsOfCtx (s : State) (k : Nat) : List Nat :=
  s.harts.filterMap (fun e => if e.2.ctx = k then some e.1 else none)

/-- A context killed: every hart stopped without saving, its launches, queues and streams ended, its channels closed.
`note` holds EPC and the hart of a record of kind 4. -/
def State.kill (s : State) (k result : Nat) (cause : BitVec 8) (note : Option (Nat × Nat)) : State :=
  let c := s.ctx k
  if c.state = 0 || c.state = 4 then s
  else
    let s := match note with
      | some (epc, who) => (s.postRecord k 4 epc cause.toNat who).1
      | none => s
    let s := (s.hartsOfCtx k).foldl (fun s key => (s.hartAt key).xfers.foldl (fun s t => s.endNow key t.tag) s) s
    let s := s.forgetStreams (fun st => st.ctx == k)
    let gs := s.gangs.filter (fun e => ((s.launch e.2.launch).map Launch.ctx) == some k)
    let s := gs.foldl (fun s e => if e.2.placed then s.unplace e.1 e.2 else s) s
    let s := { s with gangs := s.gangs.filter (fun e => !gs.any (fun x => x.1 == e.1))
                      launches := s.launches.filter (fun l => l.2.ctx != k) }
    let s := (s.queues.filter (fun q => q.2.owner == k && q.2.state != 0)).foldl
      (fun s q => s.putQueue q.1 { q.2 with state := 0 }) s
    let c := s.ctx k
    let s := s.setCtx k { c with used := [], chans := c.chans.map (fun e => (e.1, { e.2 with sent := [], held := [], probing := false })) }
    let s := s.ctxState k 4 result cause.toNat
    let s := c.chans.foldl (fun s e =>
      match (sendClose k e.1).run s with
      | .ok _ s => s
      | .error _ s => s) s
    s.dyingCheck k

/-- The failure of an access to a context's area (R258): by a hart, whose EPC and name the record then holds, or by the
device itself (R268). -/
def State.areaKill (s : State) (k : Nat) (cause : BitVec 8) (who : Option (Nat × Hart) := none) : State :=
  s.kill k 3 cause (some (match who with | some (key, h) => (h.epc.toNat, hartTag h key) | none => (0, 0)))

/-- The device's work outside an instruction. -/
def State.dev (s : State) (m : Dev Unit) : State :=
  match m.run s with
  | .ok _ s => s
  | .error (k, c) s => s.areaKill k c

/-- A posted record, or the kill of its context. -/
def State.posted (r : State × Option (Nat × BitVec 8)) : State :=
  match r.2 with
  | none => r.1
  | some (k, c) => r.1.areaKill k c

/-! ### Launches (R285) -/

/-- The leading run of completed sequences passed (R285 step 2). -/
def Queue.advance (q : Queue) : Nat → Queue
  | 0 => q
  | n + 1 =>
    if q.done.contains q.cdone then
      Queue.advance { q with cdone := q.cdone + 1, done := q.done.filter (· != q.cdone) } n
    else q

/-- The last gang of a launch has retired: DONE is written, then CDONE advances. -/
def State.complete (s : State) (l : Nat) (x : Launch) : State :=
  let put := fun (s : State) =>
    let s := { s with launches := Tab.erase s.launches l }
    let q := s.queue x.queue
    let s := s.putQueue x.queue (Queue.advance { q with done := x.seq :: q.done } (q.done.length + 1))
    s.closeQueue x.queue
  if x.done = 0 then put s
  else
    match s.areaWrite x.ctx x.done 8 x.doneVal.toNat with
    | .error c => s.areaKill x.ctx c
    | .ok s => put s

/-- A gang whose every hart has retired leaves; its launch may complete (R295). -/
def State.gangRetire (s : State) (n : Nat) (g : Gang) : State :=
  let s := if g.placed then s.unplace n g else s
  let s := { s with gangs := Tab.erase s.gangs n }
  match s.launch g.launch with
  | none => s
  | some l =>
    let l := { l with retired := l.retired + 1 }
    let s := s.setLaunch g.launch l
    let s := if l.retired = l.gangs then s.complete g.launch l else s
    s.suspendCheck l.ctx

/-! ### Parking (R264, R265, R306) -/

/-- The word of the device region at 0x03_0000. -/
def Hart.regionWord (h : Hart) : Nat :=
  h.vl.toNat + (if h.vlUnset then 2 ^ 18 else 0) + h.laneCur * 2 ^ 20 + h.et.toNat * 2 ^ 28 + h.g.toNat * 2 ^ 32
    + (if h.mxm then 2 ^ 34 else 0) + (if h.recPriv.headD false then 2 ^ 35 else 0)

/-- The accumulators as the words of a save block. -/
def Hart.accWords (h : Hart) : List Nat :=
  (List.range 512).flatMap (fun r => (List.range 32).map (fun j => (Tab.get 0 h.acc r).toNat / 2 ^ (64 * j) % 2 ^ 64))

/-- Poison that travels with words of an allocation into a save block (R376), but not onto an armed object, which keeps its
bytes (R308). -/
def State.poisonArea (s : State) (k va : Nat) : State :=
  match s.areaPa k .write va with
  | .ok pa => if (s.armedGlobal pa 8).isSome then s else { s with poison := poisonAll s.poison [pa / 8] }
  | .error _ => s

/-- While a gang is parked, the save block that holds its allocation: that of its lowest hart (R265). -/
def Gang.leadBlock (g : Gang) : Option Nat :=
  match g.saved with
  | [] => none
  | f :: t => some (t.foldl (fun a b => if b.1 < a.1 then b else a) f).2.1

/-- Every hart of a gang has parked or retired: the allocation and the list of armed objects are written, and the place is
given up. -/
def State.gangSave (s : State) (n : Nat) (g : Gang) : State :=
  match s.launch g.launch, g.leadBlock with
  | some l, some blk =>
    let c := s.core g.core
    let words := (List.range (g.size / 8)).map (fun i => c.spadRead (g.base + 8 * i) 8)
    let bad := (List.range (g.size / 8)).filter (fun i => poisoned c.spadPoison (g.base + 8 * i) 8)
    let objs := (c.armed.filter g.inAlloc).map (fun o => 2 ^ 63 + (o - g.base))
    let list := objs ++ if objs.length < 64 then [0] else []
    match (do let s ← s.areaPuts l.ctx (blk + 0x400000) words
              s.areaPuts l.ctx (blk + 0x600000) list : Except (BitVec 8) State) with
    | .error e => s.areaKill l.ctx e
    | .ok s =>
      let s := bad.foldl (fun s i => s.poisonArea l.ctx (blk + 0x400000 + 8 * i)) s
      let s := s.unplace n g
      let s := s.setGang n { g with state := .preempted, since := s.clock }
      s.suspendCheck l.ctx
  | _, _ => s

/-- A gang whose last unparked hart is gone. -/
def State.gangCheck (s : State) (n : Nat) : State :=
  match s.gang n with
  | none => s
  | some g =>
    let live := s.liveIdx g
    if live.isEmpty then s.gangRetire n g
    else if live.all (fun i => g.parkedHarts.any (fun p => p.1 == i)) then s.gangSave n g
    else s

/-- The hart at a key parks (R265 step 4). -/
def State.park (s : State) (key : Nat) (blk : BitVec 64) : State :=
  let s := (s.endTransfers key).drainLadders key
  let s := s.writeBack (key / 8)
  let h := s.hartAt key
  let region := List.range 8 |>.map (fun i => if i = 0 then h.regionWord else 0)
  match (do let s ← s.areaPuts h.ctx (blk.toNat + 0x10000) h.accWords
            s.areaPuts h.ctx (blk.toNat + 0x30000) region : Except (BitVec 8) State) with
  | .error e => s.areaKill h.ctx e (some (key, h))
  | .ok s =>
    match s.gang h.gang with
    | none => s
    | some g =>
      let h := { h with pre := .parked blk }
      let g := { g with saved := g.saved ++ [(h.index, blk.toNat, h.laneCur)], parkedHarts := g.parkedHarts ++ [(h.index, h)] }
      let s := { s with harts := Tab.erase s.harts key }
      (s.setGang h.gang g).gangCheck h.gang

/-! ### Retirement of a hart (R108, R299) -/

/-- The hart at a key retires, its pending merges complete (R370). -/
def State.retireHart (s : State) (key : Nat) : State :=
  let s := (s.drainLadders key).writeBack (key / 8)
  let h := s.hartAt key
  let s := s.freeBlocks h.ctx h.block
  let s := s.setCore (key / 8) ((s.core (key / 8)).settleSlot (key % 8) true)
  let s := { s with harts := Tab.erase s.harts key }
  match s.gang h.gang with
  | none => s
  | some g =>
    let g := ({ g with retired := g.retired ||| (1#8 <<< h.index) } : Gang)
    let g := g.settle (s.hartsOf g)
    (s.setGang h.gang g).gangCheck h.gang

/-! ### Taking a trap (R261, R406) -/

/-- The cause that forbids the fetch of the handler's first parcel, if any. -/
def State.handlerFault (s : State) (c k tvec : Nat) : Option (BitVec 8) :=
  match s.translate c k .fetch tvec with
  | .cause e => some e
  | .hold => none
  | .ok x => if Config.pcieBase ≤ x.pa then some cAccess
             else if s.dramPoisoned c x.pa 4 then some cPoison else none

/-- Entry to the handler: what was waiting is begun again after the return. The mode, and a remote wait, are recorded for this
entry beside those of the entries not returned from (R106, R261; log 33). -/
def State.enter (s : State) (cause : BitVec 8) (info addr : BitVec 64) (epc : BitVec 55) : State :=
  let h := s.me
  let tvec := (s.ctx h.ctx).tvec
  match s.handlerFault s.coreNo h.ctx tvec.toNat with
  | some e => s.kill h.ctx 4 e (some (epc.toNat, hartTag h s.cur))
  | none =>
    s.setMe { h with tcause := cause, tinfo := info, taddr := addr, epc := epc, recPriv := h.priv :: h.recPriv, priv := true
                     privSince := s.clock, pc := tvec, remote := none, resend := false, away := h.remote :: h.away
                     barWait := none, barEnd := none, devReads := [], devUsed := 0, devWait := none
                     devError := false }

/-- A trap of the moving hart, whose resume point is `epc`. In privileged mode it kills the context (R260). -/
def State.trapAt (s : State) (cause : BitVec 8) (info addr : BitVec 64) (epc : BitVec 55) : State :=
  let h := s.me
  if h.priv then s.kill h.ctx 4 cause (some (epc.toNat, hartTag h s.cur))
  else s.enter cause info addr epc

/-- A precise trap at the current instruction. -/
def State.takeTrap (s : State) (cause : BitVec 8) (info addr : BitVec 64) : State := s.trapAt cause info addr s.me.pc

/-! ### Entries of the vector side (R85, R114, R177) -/

/-- What the moving hart hands over or issues at its PC, with the operands and control registers it captures. -/
def Hart.entry (h : Hart) (covered : Bool) (ms : List Instr) : VEntry :=
  { instrs := ms, covered := covered, pc := h.pc, s := h.s, vc := h.vc, passed := false, again := false, seq := 0, given := none
    share := [], issued := false, held := 0 }

/-- The lane groups that the moving hart's next VSETL grants (R290). -/
def State.nextGrant (s : State) : List Nat := (s.core s.coreNo).kept (s.cur % 8) (s.me.laneNext / 4)

/-- An entry as its core issues it: the next in its order (R177), a VSETL with what NEXT then names (R65). -/
def State.asIssued (s : State) (e : VEntry) : VEntry :=
  { e with seq := (s.core s.coreNo).issues, issued := true, share := s.nextGrant }

/-- The moving hart's window once its core has issued one entry of it. -/
def State.issuing (s : State) (win : List VEntry) : State :=
  let c := s.core s.coreNo
  (s.setCore s.coreNo { c with issues := c.issues + 1 }).setMe { s.me with win := win }

/-- An entry joins the moving hart's window as the next that its core issues (R177). -/
def State.pushWin (s : State) (e : VEntry) : State := s.issuing (s.me.win ++ [s.asIssued e])

/-- Whether every entry of the hart's window is issued. -/
def Hart.allIssued (h : Hart) : Bool := h.win.all VEntry.issued

/-- The scalar register that a VSETL or an MXSETC answers. -/
def answerReg (i : Instr) : Option (BitVec 6) :=
  match i with
  | .vsetl f => some f.vd
  | .mxsetc f => some f.vd
  | _ => none

/-- The scalar registers once a VSETL or an MXSETC that has answered and not retired is discarded: it has had no effect. -/
def Hart.ungive (h : Hart) : Hart :=
  h.win.foldr (fun e h =>
    match e.given, e.instrs with
    | some _, [i] => (answerReg i).elim h (fun d => h.writeS d (e.s.get d.toFin))
    | _, _ => h) h

/-! ### Pre-emption (R262, R263) -/

/-- The control registers at the resume point: those in force there, with the VSTART that the instruction at it captured
(R55, R85). -/
def Hart.resumeCtl (h : Hart) : VCtl :=
  match h.vq with
  | v :: _ => { h.vc with vstart := v.vc.vstart }
  | [] => h.vc

/-- Where the hart resumes, and whether a frame is then held: the precise stop, where nothing after its oldest unretired
vector-side instruction has retired, and the imprecise one. A handler that has a frame still held keeps it (R263, R327). -/
def Hart.stop (h : Hart) : Hart × BitVec 55 × Bool :=
  match h.win ++ h.vq with
  | [] => (h, h.pc, h.frame.isSome)
  | e :: _ =>
    if h.win.any VEntry.passed then
      let epc := match h.vq with
        | v :: _ => v.pc
        | [] => h.pc
      ({ h with frame := some h.win, win := [], vq := [], vc := h.resumeCtl }, epc, true)
    else ({ h.ungive.setVstart e.vc.vstart.toNat with win := [], vq := [] }, e.pc, false)

/-- A pending pre-emption is taken: entry for saving (R263). An RLOAD's execution ends; a RAMO or RCAS is reissued
later (R208). -/
def State.takePreempt (s : State) (blk : BitVec 64) : State :=
  let h0 := s.me
  let (h, epc, imprecise) := h0.stop
  let s := match h0.rloadTag with
    | some (i, tag) =>
      let ch := s.chan h0.ctx i
      s.setChan h0.ctx i { ch with sent := ch.sent.filter (fun x => !(x.instr == 4 && x.id == tag)) }
    | none => s
  let s := s.setMe { h with pre := .saving blk, rloadTag := none, rload := none }
  s.enter cPreempt (if imprecise then 0x8000#64 else 0) blk epc

/-- Free save blocks of a context's pool, lowest first. -/
def Ctx.freeSaves (c : Ctx) : List Nat := (List.range c.saveCnt).filter (fun i => !c.used.contains i)

/-! ### Return from exception, YIELD and HALT (R106 to R108) -/

/-- ERET: the recorded mode, EPC, and the frame reissued ahead of it (R223, R266, R267): its entries issue again in their
order, each where the core receives it (R85, R282). -/
def State.eret (s : State) : State :=
  let h := s.me
  let s := s.freeBlocks h.ctx (h.owed.take 1)
  let w := h.away.headD none
  s.setMe { h with pc := h.epc, priv := h.recPriv.headD false, recPriv := h.recPriv.tail, privSince := s.clock, frame := none
                   win := h.win ++ (h.frame.getD []).map (fun e => { e with issued := false })
                   remote := w, resend := w.isSome, away := h.away.tail, owed := h.owed.drop 1 }

/-- YIELD at `next`, the address after it. One that parks the hart waits while a transfer of it is held, or what it must write
(R265, R382; log 94). -/
def State.yield (s0 : State) (next : BitVec 55) : State :=
  let h := { s0.me with waitCount := 0, readySince := s0.clock, privSince := s0.clock, pc := next }
  let s := s0.setMe h
  if !h.priv then s
  else
    match h.pre with
    | .saving blk =>
      if (s.endTransfers s.cur).me.xfers.isEmpty && s.copying.isEmpty then s.park s.cur blk
      else s0.endTransfers s0.cur
    | .pending blk => s.takePreempt blk
    | _ => s

end Sys2Proof.Machine
end

