-- ==== Sys2Proof/Machine/SV.lean ====
section
/-!
DEFINITION. The effects of class SV: VSETL (R112 to R114), the opaque frame in memory (R222, R223) and the images of
VSAVE and VREST (R224).
-/

namespace Sys2Proof.Machine

/-! ### VSETL -/

/-- Bits of the lane groups listed. -/
def groupMask (gs : List Nat) : BitVec 16 := gs.foldl (fun w k => w ||| (1#16 <<< k)) 0

/-- The first registers of the groups that a keep mask names, under a grouping. -/
def keptGroups (g : Nat) (keep : Word) : List Nat := (List.range (64 / g)).map (· * g) |>.filter (fun n => keep.getLsbD n)

/-- The registers of group `n` that hold one of its first `k` elements of `b` bytes, on `lanes` lanes. -/
def keptRegs (lanes b k n : Nat) : List Nat :=
  if k = 0 then [] else (List.range ((((k - 1) / lanes + 1) * b + 383) / 384)).map (n + ·)

/-- The registers re-laid over new lanes (R65, R113): the first `k` elements of each kept group, every other byte
undefined (log 6). -/
def relay (lanes k : Nat) (keep : Word) : Mach Unit := do
  let h ← hart
  let b := (etFmt h.et).bytes
  let keys := (List.range lanes).flatMap (fun l => (List.range 64).map (fun r => sliceKey r l))
  let fill ← keys.mapM (fun key => do return (key, ← freshBits 3072))
  let ns := keptGroups h.grp keep
  let bare := { h with laneCur := lanes, v := fill.filter (fun p => p.2 != 0) }
  let new := ns.foldl (fun x n => (List.range k).foldl (fun x i => x.setEl n b i (h.getEl n b i)) x) bare
  let regs := ns.flatMap (keptRegs lanes b k)
  modHart (fun _ => { new with vdirty := h.vdirty &&& BitVec.ofNat 64 (regs.foldl (fun w r => w ||| 2 ^ r) 0) })

/-- The VL that a VSETL gives under a grant of `lanes` lanes (R49, R113). -/
def grantedVl (f : SvF) (lanes : Nat) (request : Word) : Nat :=
  min request.toNat (384 * lanes * 2 ^ f.g.toNat / (etFmt f.et).bytes)

/-- VSETL under the groups `ks` (R113): the hart's other pending groups take their new codes (R290). -/
def effVsetlAt (f : SvF) (ks : List Nat) : Mach Unit := do
  let s ← get
  let h := s.me
  let c := s.core s.coreNo
  let slot := s.cur % 8
  let c' := (groups.filter (fun k => !ks.contains k)).foldl (Core.settleGroup slot false) c
  let gmap := groupMask ks
  let lanes := 4 * ks.length
  let vl := grantedVl f lanes (h.readS f.va)
  set (s.setCore s.coreNo c')
  if gmap != h.gmap then
    relay lanes (min (min h.vl.toNat vl) (384 * lanes * h.grp / (etFmt h.et).bytes)) (h.readS f.vb)
  modHart (fun h =>
    (({ h with laneCur := lanes, gmap := gmap, et := f.et, g := f.g }.setVl vl).writeS f.vd (BitVec.ofNat 64 vl)).setVstart 0)

/-- VSETL that executes as it reaches the sequencer: under what NEXT names then (R65). -/
def effVsetl (f : SvF) : Mach Unit := do effVsetlAt f (← get).nextGrant

/-- A VSETL whose grant stood when it reached the sequencer, and which has answered there, in its turn (R114). -/
def effVsetlGiven (f : SvF) (vl : BitVec 18) : Mach Unit :=
  modHart (fun h => ({ h with et := f.et, g := f.g }.setVl vl.toNat).setVstart 0)

/-! ### Whole areas (R222) -/

/-- What an SV instruction asks of its area: kind 0 reads, 1 writes. -/
def areaReq (need : Need) (kind n : Nat) : Req :=
  { need := need, n := n, align := n, bypass := false, info := vecInfo 0 kind, vec := true }

/-- The words of an area of `n` 64-byte pieces, every piece translated first; a fault leaves VSTART 0. -/
def areaPlace (need : Need) (kind : Nat) (ea : BitVec 64) (n : Nat) : Mach (List (BitVec 64 × Loc)) := do
  let ps ← (List.range n).mapM (fun i => stopAt 0 (do
    let a := ea + BitVec.ofNat 64 (64 * i)
    let l ← locate (areaReq need kind 64) (isSpad a) a
    return (a, l)))
  return ps.flatMap (fun (a, l) => (List.range 8).map (fun j => (a + BitVec.ofNat 64 (8 * j), l.off (8 * j))))

/-- The words read. -/
def areaGet (ls : List (BitVec 64 × Loc)) : Mach (List Nat) :=
  ls.mapM (fun (a, l) => stopAt 0 (readLoc (areaReq .read 0 8) a l))

/-- Words written. -/
def areaSet (ls : List (BitVec 64 × Loc)) (ws : List Nat) : Mach Unit :=
  (ls.zip ws).forM (fun (p, w) => writeLoc p.2 8 w)

/-- An address that names no area still has its form checked, with VSTART 0. -/
def areaForm (kind : Nat) (ea : BitVec 64) : Mach Unit := stopAt 0 (do
  if (ea.extractLsb' 55 8) != 0 then raise cAccess (vecInfo 0 kind) ea
  if ea.toNat % 64 != 0 then raise cMisalign (vecInfo 0 kind) ea)

/-- The refusal of a save image (R223, R224). -/
def imageFault {α : Type} (reason : Nat) (ea : BitVec 64) : Mach α := do
  modHart (fun h => h.setVstart 0)
  raise cAccess (BitVec.ofNat 64 (0x6000 + reason * 256)) ea

/-! ### VFSAVE and VFREST (R223) -/

/-- VFSAVE: a frame takes 256 bytes for each instruction, its size in the low bits of the first word and the rest
opaque (log 9). -/
def effVfsave (f : SvF) : Mach Unit := do
  let ea ← readS f.va
  match (← hart).frame with
  | none => do
    areaForm 1 ea
    writeS f.vd 0
    finish
  | some es => do
    let size := 256 * es.length
    let ls ← areaPlace .write 1 ea (size / 64)
    let ws ← (List.range (size / 8)).mapM (fun i => do
      let x ← freshBits 64
      return if i = 0 then x.toNat / 65536 * 65536 + size else x.toNat)
    areaSet ls ws
    modify (fun s => { s with frames := { ctx := s.me.ctx, words := ws, entries := es } :: s.frames })
    modHart (fun h => { h with frame := none }.writeS f.vd (BitVec.ofNat 64 size))
    finish

/-- VFREST: the bytes of a frame that VFSAVE wrote in this context. -/
def effVfrest (f : SvF) : Mach Unit := do
  let ea ← readS f.va
  let first ← areaPlace .read 0 ea 1
  let size := (← areaGet (first.take 1)).headD 0 % 65536
  if size = 0 || 16384 < size || size % 256 != 0 then imageFault 1 ea
  let ls ← areaPlace .read 0 ea (size / 64)
  let ws ← areaGet ls
  let s ← get
  match s.frames.find? (fun x => x.ctx == s.me.ctx && x.words == ws) with
  | none => imageFault 1 ea
  | some x => do
    modHart (fun h => { h with frame := some x.entries })
    finish

/-! ### VSAVE and VREST (R224) -/

/-- The numbers of the bits set. -/
def bitList (n x : Nat) : List Nat := (List.range n).filter x.testBit

/-- `n` words of a number. -/
def wordsOf (n x : Nat) : List Nat := (List.range n).map (fun i => x / 2 ^ (64 * i) % 2 ^ 64)
/-- The number of words. -/
def ofWords (ws : List Nat) : Nat := ws.foldr (fun w a => w + 2 ^ 64 * a) 0

/-- The 64-byte pieces of a save image whose registers and masks two words name. -/
def Hart.imagePieces (h : Hart) (regs masks : Word) : Nat :=
  1 + 6 * h.lanes * ((bitList 64 regs.toNat).length + (bitList 24 (masks.toNat / 2 * 2)).length)

/-- The addresses of `n` pieces of 64 bytes. -/
def pieces64 (ea : BitVec 64) (n : Nat) : List (BitVec 64) := (List.range n).map (fun i => ea + BitVec.ofNat 64 (64 * i))

/-- VSAVE. It reads the registers that it saves (R379). -/
def effVsave (f : SvF) : Mach Unit := do
  let h ← hart
  let ea := h.readS f.va
  let rs := bitList 64 (h.readS f.vb).toNat
  let ms := bitList 24 ((h.readS f.x).toNat / 2 * 2)
  let L := h.lanes
  checkEcc (rs.map (fun r => (1, r)) ++ ms.map (fun m => (2, m)))
  let ls ← areaPlace .write 1 ea (h.imagePieces (h.readS f.vb) (h.readS f.x))
  let head := [(h.readS f.vb).toNat, (h.readS f.x).toNat % 2 ^ 24 / 2 * 2, L, 0, 0, 0, 0, 0]
  let regs := rs.flatMap (fun r => (List.range L).flatMap (fun l => wordsOf 48 (Tab.get 0 h.v (sliceKey r l)).toNat))
  let masks := ms.flatMap (fun m => wordsOf (48 * L) (Tab.get 0 h.m m).toNat)
  areaSet ls (head ++ regs ++ masks)
  finish

/-- A register's lane slices set from words. -/
def Hart.putSlices (h : Hart) (r : Nat) (ws : List Nat) : Hart :=
  { h with v := (List.range h.lanes).foldl (fun v l =>
      Tab.set 0 v (sliceKey r l) (BitVec.ofNat 3072 (ofWords ((ws.drop (48 * l)).take 48)))) h.v }

/-- The low 3,072 · L bits of a mask set from words; the bits above keep their values. -/
def Hart.putMask (h : Hart) (m : Nat) (ws : List Nat) : Hart :=
  let k := 3072 * h.lanes
  { h with m := Tab.set 0 h.m m (BitVec.ofNat 196608 ((Tab.get 0 h.m m).toNat / 2 ^ k * 2 ^ k + ofWords ws % 2 ^ k)) }

/-- VREST. The registers that its image holds are written (R379). -/
def effVrest (f : SvF) : Mach Unit := do
  let h ← hart
  let ea := h.readS f.va
  let L := h.lanes
  let first ← areaPlace .read 0 ea 1
  let hd ← areaGet first
  let rs := bitList 64 (hd.getD 0 0)
  let ms := bitList 24 (hd.getD 1 0)
  if hd.getD 2 0 != L || (hd.drop 3).any (· != 0) || hd.getD 1 0 % 2 = 1 || 2 ^ 24 ≤ hd.getD 1 0 then imageFault 2 ea
  let ls ← areaPlace .read 0 (ea + 64) (6 * L * (rs.length + ms.length))
  let ws ← areaGet ls
  let n := 48 * L
  modHart (fun h =>
    let h := (List.range rs.length).foldl (fun h i => (h.putSlices (rs.getD i 0) ((ws.drop (n * i)).take n)).dirty (rs.getD i 0) 1) h
    ((List.range ms.length).foldl (fun h i => h.putMask (ms.getD i 0) ((ws.drop (n * (rs.length + i))).take n)) h).wrote
      (rs.map (fun r => (1, r)) ++ ms.map (fun m => (2, m))))
  finish

end Sys2Proof.Machine
end

