-- ==== Sys2Proof/Machine/Sched.lean ====
section
/-!
DEFINITION. The scheduler: context and queue commands (R259, R274, R275), launch records and their dependences (R277 to
R283), the placing, starting, resuming and pre-emption of gangs (R262, R266, R284 to R287, R295 to R297, R306), and the
shares of lane groups (R288 to R292).
-/

namespace Sys2Proof.Machine

/-! ### Lane groups (R288 to R290) -/

/-- The groups a slot holds or still uses. -/
def Core.uses (c : Core) (slot : Nat) : List Nat :=
  groups.filter (fun k => lg c.laneMap k == slot + 1 || lg c.laneHold k == slot + 1)

/-- Whether a group is free. -/
def Core.freeGroups (c : Core) : List Nat := groups.filter (fun k => lg c.laneMap k == 0)

/-- A held group made release-pending, to take `dest` at its holder's next VSETL. -/
def Core.release (c : Core) (slot k dest : Nat) : Core :=
  { c with laneMap := setLg c.laneMap k 9, laneHold := setLg c.laneHold k (slot + 1), laneDest := setLg c.laneDest k dest }

/-- The hart slots of a gang's harts that have not retired. -/
def State.liveSlots (s : State) (g : Gang) : List Nat := (s.liveIdx g).map (g.slot + ·)

/-- q: the least number of groups of a hart of the gang. -/
def State.share (s : State) (g : Gang) : Nat :=
  (s.liveSlots g).foldl (fun q i => min q ((s.core g.core).held i).length) 16

/-- LANES.NEXT of a gang's harts changed. -/
def State.mapNext (s : State) (n : Nat) (f : Nat → Nat → Nat) : State :=
  { s with harts := s.harts.map (fun e => (e.1, if e.2.gang = n then { e.2 with laneNext := f e.1 e.2.laneNext } else e.2)) }

/-- LANES.NEXT of a gang's harts, lowered to what the next VSETL of each grants. -/
def State.lowerNext (s : State) (n : Nat) : State :=
  s.mapNext n (fun key x => min x (4 * ((s.core (key / 8)).kept (key % 8) (x / 4)).length))

/-- A gang's share falls to `q`, at least 1: each hart's groups beyond it become release-pending, the highest first, and
LANES.NEXT is 4 · q on every hart (R290). -/
def State.shrink (s : State) (n : Nat) (g : Gang) (q dest : Nat) : State :=
  let c := (s.liveSlots g).foldl (fun c i => ((c.held i).drop q).foldl (fun c k => c.release i k dest) c) (s.core g.core)
  (s.setCore g.core c).mapNext n (fun _ _ => 4 * q)

/-! ### Starting a gang (R284, R266, R295 to R297, R306) -/

/-- A hart placed in its slot, with its lanes; its context is the last to have held their groups (R298). -/
def State.seat (s : State) (n : Nat) (g : Gang) (i : Nat) (h : Hart) : State :=
  let c := s.core g.core
  let us := c.uses (g.slot + i)
  let s := s.setCore g.core { c with users := us.foldl (fun t k => Tab.put t k (h.ctx + 1)) c.users }
  let key := g.core * 8 + g.slot + i
  let d := s.die (dieOf g.core)
  let s := s.setDie (dieOf g.core) { d with twice := d.twice.filter (· != key), replays := d.replays.filter (·.hart != key) }
  s.setHart key
    { h with gang := n, gangId := g.gangId, index := i, laneCur := 4 * us.length
             laneNext := 4 * (c.kept (g.slot + i) 1).length
             gmap := groupMask us, privSince := s.clock, readySince := s.clock, waitCount := 0 }

/-- The harts of a new gang start at ENTRY, over an allocation of zeros. -/
def State.startNew (s : State) (n : Nat) (g : Gang) (l : Launch) : State :=
  let c := s.core g.core
  let s := s.setCore g.core
    { c with spad := c.spad.filter (fun e => !g.inAlloc e.1)
             spadPoison := c.spadPoison.filter (fun w => !g.inAlloc (8 * w)) }
  let h : Hart := { Hart.reset with ctx := l.ctx, launch := l.number, pc := l.entry, s := Hart.reset.s.set 1 l.args }
  (List.range l.harts).foldl (fun s i => s.seat n g i h) s

/-- A word of an area with whether it is poisoned. -/
def State.areaWordP (s : State) (k va : Nat) : Except (BitVec 8) (Nat × Bool) := do
  let pa ← s.areaPa k .read va
  return (s.homeRead pa 8, s.homePoisoned pa 8)

/-- The listed armed objects: words up to the first without bit 63, at most 64. -/
def State.armedList (s : State) (k va : Nat) : Nat → Except (BitVec 8) (List Nat)
  | 0 => return []
  | n + 1 => do
    let w ← s.areaRead k va 8
    if w < 2 ^ 63 then return []
    else return w % 2 ^ 21 :: (← s.armedList k (va + 8) n)

/-- Free bits drawn outside an instruction. -/
def drawBits (w : Nat) (s : State) : BitVec w × State :=
  (BitVec.ofNat w (Config.freeValue s.fresh), { s with fresh := s.fresh + 1 })

/-- A vector of free words. -/
def drawWords (s : State) : Vector Word 64 × State :=
  (List.range 64).foldl (fun (p : Vector Word 64 × State) i =>
    let (x, s) := drawBits 64 p.2
    (p.1.setIfInBounds i x, s)) (Hart.reset.s, s)

/-- A store of free values at the keys listed. -/
def drawTab (w : Nat) (keys : List Nat) (s : State) : Tab (BitVec w) × State :=
  let (t, s) := keys.foldl (fun (p : Tab (BitVec w) × State) k =>
    let (x, s) := drawBits w p.2
    (if x = 0 then p.1 else (k, x) :: p.1, s)) ([], s)
  (t.reverse, s)

/-- Lanes of a slot whose group no other context has held last (R298). -/
def Core.ownLanes (c : Core) (slot k : Nat) : List Nat :=
  let us := c.uses slot
  (List.range (4 * us.length)).filter (fun l => Tab.get 0 c.users (us.getD (l / 4) 0) == k + 1)

/-- What the handler restores at resumption, before it does: nothing says what it holds (R266), but for the register
slices of the lanes that another context held last, which are 0 (R298). -/
def Hart.unrestored (h : Hart) (lanes : List Nat) (s : State) : Hart × State :=
  let (xs, s) := drawWords s
  let (cb, s) := drawBits 8 s
  let (v, s) := drawTab 3072 (lanes.flatMap (fun l => (List.range 64).map (fun r => sliceKey r l))) s
  let (m, s) := drawTab 196608 ((List.range 23).map (· + 1)) s
  let (vs, s) := drawBits 18 s
  let (by_, s) := drawBits 32 s
  let (fc, s) := drawBits 10 s
  let (fl, s) := drawBits 5 s
  let (epc, s) := drawBits 53 s
  let (c, s) := (List.range 4).foldl (fun (p : (Vector (BitVec 64) 4 × Vector (BitVec 64) 4) × State) i =>
    let (a, s) := drawBits 64 p.2
    let (b, s) := drawBits 64 s
    ((p.1.1.setIfInBounds i (a &&& 0xFFFF07FF#64), p.1.2.setIfInBounds i (b &&& 0x807FFFFFFFFFFFFF#64)), s))
    ((Vector.replicate 4 0, Vector.replicate 4 0), s)
  let fc := if 5 ≤ fc.toNat % 8 then fc &&& 0x3F8#10 else fc
  ({ h with s := xs, cb := cb ||| 1, v := v, m := m, vc := { vstart := vs, vbyp := by_, mfc := c.1, mfcsb := c.2, fctl := fc }
            fflags := fl, epc := epc ++ 0#2 }, s)

/-- A parked hart resumed: the device's regions of its block read back, PREEMPT entered (R266). An uncorrectable error in an
accumulator goes with it (R379). -/
def State.resumeHart (s : State) (n : Nat) (g : Gang) (i blk : Nat) (h : Hart) : Except (BitVec 8) State := do
  let s := s.walksOf h.ctx (blk + 0x10000) 0x20040
  let ws ← s.areaWords h.ctx (blk + 0x10000) 16384
  let r ← s.areaRead h.ctx (blk + 0x30000) 8
  let acc := (List.range 512).filterMap (fun k =>
    let x := BitVec.ofNat 2048 (ofWords ((ws.drop (32 * k)).take 32))
    if x = 0 then none else some (k, x))
  let lanes := r / 2 ^ 20 % 256
  let (h, s) := h.unrestored ((s.core g.core).ownLanes (g.slot + i) h.ctx) s
  let b := BitVec.ofNat 64 blk
  let h : Hart :=
    { h with acc := acc, vl := BitVec.ofNat 18 r, vlUnset := r.testBit 18, et := BitVec.ofNat 4 (r / 2 ^ 28)
             g := BitVec.ofNat 2 (r / 2 ^ 32), mxm := r.testBit 34, recPriv := r.testBit 35 :: h.recPriv.tail, vdirty := 0, frame := none
             priv := true, pc := (s.ctx h.ctx).tvec, tcause := cPreempt, tinfo := 1, taddr := b, pre := .none
             owed := b :: h.owed, pend := [], xfers := [], vq := [], win := [], ecc := h.ecc.filter (·.1 == 3) }
  let s := s.seat n g i h
  let key := g.core * 8 + g.slot + i
  return s.setHart key { s.hartAt key with laneCur := lanes }

/-- The harts of a parked gang resume, over the allocation and the armed objects that were saved. -/
def State.startAgain (s : State) (n : Nat) (g : Gang) (l : Launch) : Except (BitVec 8) State := do
  match g.leadBlock with
  | none => return s
  | some blk =>
    let s := (s.walksOf l.ctx (blk + 0x400000) g.size).walksOf l.ctx (blk + 0x600000) 8
    let ws ← (List.range (g.size / 8)).mapM (fun i => s.areaWordP l.ctx (blk + 0x400000 + 8 * i))
    let objs := (← s.armedList l.ctx (blk + 0x600000) 64).take g.objs
    let c := s.core g.core
    let c := { c with spad := c.spad.filter (fun e => !g.inAlloc e.1)
                      spadPoison := c.spadPoison.filter (fun w => !g.inAlloc (8 * w)) }
    let c := (List.range ws.length).foldl (fun c i =>
      let (x, bad) := ws.getD i (0, false)
      let c := if x = 0 then c else c.spadWrite (g.base + 8 * i) 8 x
      if bad then { c with spadPoison := (g.base / 8 + i) :: c.spadPoison } else c) c
    let s := s.setCore g.core { c with armed := c.armed ++ objs.map (g.base + ·) }
    let s ← g.saved.foldlM (fun (s : State) (i, b, _) =>
      match g.parkedHarts.find? (fun p => p.1 == i) with
      | some p => s.resumeHart n g i b p.2
      | none => return s) s
    let g' := { g with saved := [], parkedHarts := [], objs := 0 }
    let s := s.setGang n g'
    return s.checkLads g.core g.base l

/-- GANG_START: the allocation of a FORMING gang is ready and its harts start (R295). Its placing is an acquire at system
scope (R284). -/
def State.gangStart (s : State) (n : Nat) : State :=
  match s.gang n with
  | none => s
  | some g =>
    match s.launch g.launch with
    | none => s
    | some l =>
      if g.state != .forming then s
      else
        let g := { g with state := .active }
        let s := (s.dropClean g.core (fun _ => true)).setGang n g
        if g.saved.isEmpty then s.startNew n g l
        else
          match s.startAgain n g l with
          | .ok s => s
          | .error e => s.areaKill l.ctx e

/-! ### Pre-empting a gang (R262) -/

/-- A placed gang whose harts have not all been told to save. -/
def State.willing (s : State) (n : Nat) (g : Gang) : Bool :=
  g.placed && !s.harts.any (fun e => e.2.gang == n && e.2.pre != .none) && g.saved.isEmpty

/-- Whether the pool holds a save block for each hart of a gang. -/
def State.canSave (s : State) (g : Gang) : Bool :=
  match s.launch g.launch with
  | some l => (s.liveIdx g).length ≤ (s.ctx l.ctx).freeSaves.length
  | none => false

/-- A gang's harts are to be pre-empted, each with a free save block; nothing changes where the pool holds too few
(R262). A FORMING gang starts first. Answers whether it was done. -/
def State.preemptGang (s : State) (n : Nat) : State × Bool :=
  let s := s.gangStart n
  match s.gang n with
  | none => (s, false)
  | some g =>
    match s.launch g.launch with
    | none => (s, false)
    | some l =>
      let c := s.ctx l.ctx
      let keys := s.harts.filterMap (fun e => if e.2.gang = n && e.2.pre == .none then some e.1 else none)
      let free := c.freeSaves
      if free.length < keys.length then (s, false)
      else
        let s := s.setCtx l.ctx { c with used := c.used ++ free.take keys.length }
        ((List.zip keys free).foldl (fun s (key, i) =>
          s.setHart key { s.hartAt key with pre := .pending (BitVec.ofNat 64 (c.save + 0x800000 * i)) }) s, true)

/-- Whether a slot has no group left but quarantined ones, beside any release-pending (R292). -/
def Core.stranded (c : Core) (slot : Nat) : Bool :=
  (c.held slot).isEmpty && groups.any (fun k => lg c.laneMap k == 14 && lg c.laneHold k == slot + 1)

/-- A gang that must move: its core is withdrawn, or a hart of it has no group but quarantined ones (R292). -/
def State.mustMove (s : State) (n : Nat) (g : Gang) : Bool :=
  s.willing n g && ((s.core g.core).withdrawn || (s.liveSlots g).any (s.core g.core).stranded)

/-- The pre-emptions of R292 that save blocks now allow. -/
def State.moveGangs (s : State) : State :=
  s.gangs.foldl (fun s e => if s.mustMove e.1 e.2 then (s.preemptGang e.1).1 else s) s

/-- A gang's share reckoned again after one of its groups changed state; it was `old` (R290, R292). It never falls below 1:
a hart that holds no group goes on with what it still uses (log 80, DESIGN CHOICE). -/
def State.reshare (s : State) (n old : Nat) : State :=
  match s.gang n with
  | none => s
  | some g =>
    let q := max 1 (s.share g)
    if !g.placed then s
    else (if q < old then s.shrink n g q 0 else s.lowerNext n).moveGangs

/-- The gang that holds a slot of a core. -/
def State.gangOf (s : State) (core slot : Nat) : Option Nat :=
  (s.gangs.find? (fun e => e.2.placed && e.2.core == core && e.2.slot ≤ slot && slot < e.2.slot + s.hartsOf e.2)).map (·.1)

/-- One field of a WRCTL of LANEMAP (R289). -/
def Core.laneField (c : Core) (k v : Nat) : Core :=
  let cur := lg c.laneMap k
  if v = 13 && cur = 0 then { c with laneMap := setLg c.laneMap k 13 }
  else if v = 13 && 1 ≤ cur && cur ≤ 8 then c.release (cur - 1) k 13
  else if v = 0 && cur = 13 then { c with laneMap := setLg c.laneMap k 0 }
  else c

/-- A WRCTL of LANEMAP: every field, then the shares of the core's gangs. -/
def State.laneWrite (s : State) (core : Nat) (w : BitVec 64) : State :=
  let t := s.setCore core (groups.foldl (fun c k => c.laneField k (lg w k)) (s.core core))
  s.gangs.foldl (fun t e => if e.2.core = core then t.reshare e.1 (s.share e.2) else t) t

/-! ### Suspect scores and quarantine (R292, R373, R375) -/

/-- A unit's score. -/
def Core.score (c : Core) (u : Nat) : Nat := Tab.get 0 c.scores u

/-- Quarantined lane groups of a core. -/
def Core.qlg (c : Core) : Nat := (groups.filter (fun k => lg c.laneMap k == 14)).length

/-- A PLDM event sent (R393): 1 for REPLACE_REQUESTED, 2 for "capacity changed". -/
def State.pldmEvent (s : State) (n : Nat) : State := { s with replies := s.replies ++ [(4, [n])] }

/-- REPLACE_REQUESTED set, with its event the first time (R375, R393). -/
def State.requestReplace (s : State) : State :=
  if s.telemetry.replace then s else { s with telemetry := { s.telemetry with replace := true } }.pldmEvent 1

/-- R375's first two conditions: too many quarantined lane groups of one die, or withdrawn cores. -/
def State.worn (s : State) : Bool :=
  (List.range 4).any (fun d => 8 < (List.range 48).foldl (fun a i => a + (s.core (48 * d + i)).qlg) 0)
    || 2 ≤ (List.range Config.cores).countP (fun c => (s.core c).withdrawn)

/-- The counts of the feature words have changed (R375). -/
def State.capacityChanged (s : State) : State := (if s.worn then s.requestReplace else s).pldmEvent 2

/-- Scores written to the non-volatile store (R373). -/
def State.storeScores (s : State) : State := { s with nvScores := s.cores.map (fun e => (e.1, e.2.scores)) }

/-- A unit quarantined: 0–15 a lane group, 16 the scalar core, 17 the matrix engine (R292). -/
def State.quarantine (s : State) (core u : Nat) : State :=
  let c := s.core core
  let s :=
    if 16 ≤ u then (s.setCore core { c with withdrawn := true }).moveGangs
    else
      let cur := lg c.laneMap u
      let hold := if 1 ≤ cur && cur ≤ 8 then cur else if cur = 9 then lg c.laneHold u else 0
      let t := s.setCore core { c with laneMap := setLg c.laneMap u 14, laneHold := setLg c.laneHold u hold
                                       laneDest := setLg c.laneDest u 0 }
      if hold = 0 then t
      else
        match t.gangOf core (hold - 1) with
        | some n => t.reshare n (((s.gang n).map s.share).getD 0)
        | none => t
  s.storeScores.capacityChanged

/-- A score set; one of 128 or more quarantines its unit at once and then stays (R373). -/
def State.setScore (s : State) (core u v : Nat) : State :=
  let c := s.core core
  if 128 ≤ c.score u then s
  else
    let s := s.setCore core { c with scores := Tab.set 0 c.scores u (min v 255) }
    if 128 ≤ v then s.quarantine core u else s

/-- A judgement against a unit. -/
def State.judge (s : State) (core u : Nat) : State := s.setScore core u ((s.core core).score u + 16)

/-! ### Launch records (R277 to R279) -/

/-- A launch record: its sixteen words. -/
structure Rec where
  words : List Nat
  deriving DecidableEq, Repr

/-- A field at a byte offset, none across a word. -/
def Rec.field (r : Rec) (off n : Nat) : Nat := r.words.getD (off / 8) 0 / 256 ^ (off % 8) % 256 ^ n

/-- The two words of a dependence. -/
def Rec.dep (r : Rec) (k : Nat) : Nat × Nat := (r.words.getD (6 + 2 * k) 0, r.words.getD (7 + 2 * k) 0)

/-- Zero fields of a dependence (R279). -/
def depReserved (d : Nat × Nat) : Bool :=
  match d.1 / 2 ^ 62 with
  | 0 => d.1 != 0 || d.2 != 0
  | 1 => d.1 / 2 ^ 60 % 4 != 0 || d.2 != 0
  | 2 => d.1 / 2 ^ 55 % 128 != 0
  | _ => false

/-- A reserved field is nonzero (R277). -/
def Rec.reserved (r : Rec) : Bool :=
  r.field 0x1C 4 != 0 || r.words.getD 14 0 != 0 || r.words.getD 15 0 != 0 || 8 ≤ r.field 0x16 1 || 4 ≤ r.field 0x17 1
    || (List.range 4).any (fun k => depReserved (r.dep k))

/-- The reason for which a record fails at the head of queue `q`, as sequence `seq` (R278). -/
def State.recordFails (s : State) (q : Nat) (r : Rec) (seq : Nat) : Option Nat :=
  let k := (s.queue q).owner
  let harts := r.field 0x14 1
  let lgrp := r.field 0x15 1
  let lads := r.field 0x16 1
  let spad := r.field 0x18 4
  let gangs := r.field 0x10 4
  let deps := (List.range 4).map r.dep
  let untrans (va : Nat) : Bool := match s.areaPa k .write va with | .ok _ => false | .error _ => true
  if r.reserved || r.field 0 8 % 4 != 0 || 2 ^ 55 ≤ r.field 0 8 || gangs = 0 || 2 ^ 20 < gangs || harts = 0 || 8 < harts
      || lgrp = 0 || 16 < lgrp || lgrp % harts != 0 || 4 < lads || spad % 4096 != 0 || Config.spadBytes < spad
      || r.field 0x20 8 % 8 != 0 || (lads != 0 && !s.accepts 1)
      || deps.any (fun d => d.1 / 2 ^ 62 == 3 || (d.1 / 2 ^ 62 == 2 && d.1 % 8 != 0)) then some 2
  else if Config.spadBytes < spad + harts * lads * Config.ladderRegion
      || !(List.range Config.cores).any (fun c => !(s.core c).withdrawn && lgrp ≤ 16 - (s.core c).qlg) then some 3
  else if deps.any (fun d => d.1 / 2 ^ 62 == 1 && d.1 / 2 ^ 48 % 4096 == q && seq ≤ d.1 % 2 ^ 48) then some 4
  else if deps.any (fun d => d.1 / 2 ^ 62 == 1 && s.homeRead (queuePa (d.1 / 2 ^ 48 % 4096) + 0x10) 8 % 4096 != k) then some 5
  else if deps.any (fun d => d.1 / 2 ^ 62 == 2 && untrans (d.1 % 2 ^ 55)) || (r.field 0x20 8 != 0 && untrans (r.field 0x20 8)) then
    some 6
  else none

/-- The record at a queue's head. -/
def State.headRecord (s : State) (q : Queue) : Except (BitVec 8) Rec := do
  return { words := ← s.areaWords q.owner (q.ring + 128 * (q.head % q.size)) 16 }

/-- Addresses of a record's word dependences. -/
def Rec.wordDeps (r : Rec) : List Nat :=
  (List.range 4).filterMap (fun k => if (r.dep k).1 / 2 ^ 62 = 2 then some ((r.dep k).1 % 2 ^ 55) else none)

/-- The dependences of a record that are met now; a word is read only where `words` says so. -/
def State.metNow (s : State) (q : Queue) (r : Rec) (words : Bool) : List Nat :=
  (List.range 4).filter (fun k =>
    q.met.contains k ||
      (let d := r.dep k
       match d.1 / 2 ^ 62 with
       | 0 => true
       | 1 => decide (d.1 % 2 ^ 48 < (s.queue (d.1 / 2 ^ 48 % 4096)).cdone)
       | 2 => words && (match s.areaRead q.owner (d.1 % 2 ^ 55) 8 with | .ok x => decide (d.2 ≤ x) | .error _ => false)
       | _ => false))

/-- Dependences of the head records of OPEN queues read again (R279). -/
def State.pollWith (s : State) (words : Bool) (p : Queue → Bool) : State :=
  s.queues.foldl (fun s e =>
    let q := s.queue e.1
    if q.state = 1 && q.head < q.tail && p q then
      match s.headRecord q with
      | .error c => s.areaKill q.owner c
      | .ok r =>
        let s := if words then r.wordDeps.foldl (fun s a => s.walksOf q.owner a 8) s else s
        s.setQueue e.1 { q with met := s.metNow q r words }
    else s) s

/-- Word dependences read again, for the context that rang or for every one. -/
def State.pollWords (s : State) (k : Option Nat) : State :=
  s.pollWith true (fun q => match k with | some k => q.owner == k | none => true)

/-! ### Taking a record (R278, R280, R283) -/

/-- A record that has reached the head of an OPEN queue is checked, once: where it fails the queue goes to ERROR (R278). -/
def State.checkHead (s : State) (n : Nat) : State :=
  let q := s.queue n
  if q.state = 1 && q.head < q.tail && !q.checked then
    let s := s.walksOf q.owner (q.ring + 128 * (q.head % q.size)) 128
    match s.headRecord q with
    | .error c => s.areaKill q.owner c
    | .ok r =>
      let done := r.field 0x20 8
      let s := (r.wordDeps ++ if done = 0 then [] else [done]).foldl (fun s a => s.walksOf q.owner a 8) s
      match s.recordFails n r q.head with
      | some reason => (s.putQueue n { q with state := 3 }).queueNote n none (some reason)
      | none => s.setQueue n { q with checked := true }
  else s

/-- The ready queues with their head records. -/
def State.ready (s : State) : List (Nat × Rec) :=
  s.queues.filterMap (fun e =>
    let q := e.2
    if q.state = 1 && q.checked && (s.ctx q.owner).state = 1 && q.head < q.tail && q.met.length = 4 then
      match s.headRecord q with
      | .ok r => some (e.1, r)
      | .error _ => none
    else none)

/-- The launch of a taken record. -/
def State.take (s : State) (n : Nat) (r : Rec) : State :=
  let q := s.queue n
  let c := s.ctx q.owner
  let l : Launch :=
    { ctx := q.owner, queue := n, seq := q.head, number := c.launches, entry := BitVec.ofNat 55 (r.field 0 8)
      args := BitVec.ofNat 64 (r.field 8 8), gangs := r.field 0x10 4, harts := r.field 0x14 1, lgrp := r.field 0x15 1
      lads := r.field 0x16 1, prio := r.field 0x17 1, spad := r.field 0x18 4, done := r.field 0x20 8
      doneVal := BitVec.ofNat 64 (r.field 0x28 8), since := s.clock, placed := 0, retired := 0 }
  let s := s.setCtx q.owner { c with launches := c.launches + 1 }
  let s := s.putQueue n { q with head := q.head + 1, met := [], checked := false }
  { s.setLaunch s.nextLaunch l with nextLaunch := s.nextLaunch + 1, rr := Tab.put s.rr l.prio (n + 1) }.checkHead n

/-- TAKE_RECORD: the head of a ready queue of the best priority is taken, round-robin
among equals. -/
def State.takeRecord (s : State) : State :=
  let s := s.pollWith false (fun _ => true)
  let rs := s.ready
  let best := rs.foldl (fun b r => min b (r.2.field 0x17 1)) 4
  let ps := rs.filter (fun r => r.2.field 0x17 1 == best)
  match ps.filter (fun r => Tab.get 0 s.rr best ≤ r.1) ++ ps with
  | [] => s
  | (n, r) :: _ => s.take n r

/-! ### Placing a gang (R286, R287) -/

/-- The gang a launch would have placed next: a pre-empted one first. -/
def State.waitingGang (s : State) (n : Nat) (l : Launch) : Option (Option (Nat × Gang)) :=
  let back := s.gangs.filter (fun e => e.2.launch == n && e.2.state == .preempted)
  match back with
  | [] => if l.placed < l.gangs then some none else none
  | b :: t => some (some (t.foldl (fun a x => if x.2.gangId < a.2.gangId then x else a) b))

/-- The gang at the head of the scheduler's order. -/
def State.nextWaiting (s : State) : Option (Nat × Launch × Option (Nat × Gang)) :=
  (s.launches.filterMap (fun e =>
    if (s.ctx e.2.ctx).state = 1 then (s.waitingGang e.1 e.2).map (fun g => (e.1, e.2, g)) else none)).foldl
    (fun b x => match b with
      | none => some x
      | some y => if x.2.1.prio < y.2.1.prio then some x else some y) none

/-- Hart slots of a core that gangs hold. -/
def State.usedSlots (s : State) (core : Nat) : List Nat :=
  (s.gangs.filter (fun e => e.2.placed && e.2.core == core)).flatMap (fun e => List.range' e.2.slot (s.hartsOf e.2))

/-- The lowest base for an allocation on a core. -/
def State.spadFit (s : State) (core size : Nat) : Option Nat :=
  let rs := (s.gangs.filter (fun e => e.2.placed && e.2.core == core)).map (fun e => (e.2.base, e.2.size))
  let cands := 0 :: rs.map (fun r => (r.1 + r.2 + 4095) / 4096 * 4096)
  let ok := cands.filter (fun b => b + size ≤ Config.spadBytes && rs.all (fun r => b + size ≤ r.1 || r.1 + r.2 ≤ b))
  ok.foldl (fun b x => match b with | none => some x | some y => some (min x y)) none

/-- The groups each hart needs, the allocation's size, and the armed objects that come with it. -/
def State.needs (s : State) (l : Launch) (g : Option (Nat × Gang)) : List Nat × Nat × Nat :=
  match g with
  | none => (List.replicate l.harts (l.lgrp / l.harts), l.spad + l.harts * l.lads * Config.ladderRegion, 0)
  | some (_, g) =>
    let need := (List.range l.harts).map (fun i =>
      match g.saved.find? (fun x => x.1 == i) with | some x => x.2.2 / 4 | none => 0)
    let objs := match g.leadBlock with
      | none => 0
      | some blk => match s.armedList l.ctx (blk + 0x600000) 64 with | .ok xs => xs.length | .error _ => 0
    (need, g.size, objs)

/-- Whether a core fits: the first slot and the base. -/
def State.fitsCore (s : State) (core : Nat) (need : List Nat) (size objs : Nat) : Option (Nat × Nat) :=
  let c := s.core core
  let used := s.usedSlots core
  let p := (List.range 4).foldl (fun a i => if 2 ^ i < need.length then 2 ^ (i + 1) else a) 1
  let slot := ((List.range 8).filter (fun x => x % p == 0 && x + need.length ≤ 8)).find?
    (fun x => (List.range' x need.length).all (fun y => !used.contains y))
  if c.withdrawn || c.freeGroups.length < need.foldl (· + ·) 0 || (0 < objs && 64 < s.armedOn core + objs) then none
  else
    match slot, s.spadFit core size with
    | some x, some b => some (x, b)
    | _, _ => none

/-- The die a launch prefers. -/
def State.preferred (s : State) (l : Launch) : Nat :=
  if l.args = 0 then 0
  else match s.areaPa l.ctx .read l.args.toNat with
    | .ok pa => homeDie pa
    | .error _ => 0

/-- The core chosen, with the first slot and the base. -/
def State.chooseCore (s : State) (l : Launch) (need : List Nat) (size objs : Nat) : Option (Nat × Nat × Nat) :=
  let on (d : Nat) : Option (Nat × Nat × Nat) :=
    let fits := (List.range' (48 * d) 48).filterMap (fun c => (s.fitsCore c need size objs).map (fun f => (c, f.1, f.2)))
    let rank (c : Nat) : Nat := (8 - (s.usedSlots c).length) * 32 + (s.core c).freeGroups.length
    fits.foldl (fun b x => match b with
      | none => some x
      | some y => if rank y.1 < rank x.1 then some x else some y) none
  let d := s.preferred l
  (List.range 4).foldl (fun b i => match b with | none => on ((d + i) % 4) | some x => some x) none

/-- A gang placed: slots, the lowest free lane groups in hart order, and the allocation; it is FORMING (R295). -/
def State.putGang (s : State) (n : Nat) (l : Launch) (g : Option (Nat × Gang)) (at_ : Nat × Nat × Nat) (need : List Nat)
    (size objs : Nat) : State :=
  let (core, slot, base) := at_
  let c := s.core core
  let (map, _) := (List.range need.length).foldl (fun (p : BitVec 64 × List Nat) i =>
    let k := need.getD i 0
    ((p.2.take k).foldl (fun m x => setLg m x (slot + i + 1)) p.1, p.2.drop k)) (c.laneMap, c.freeGroups)
  let s := s.setCore core { c with laneMap := map }
  match g with
  | some (key, g) =>
    s.setGang key { g with state := .forming, core := core, slot := slot, base := base, placedAt := s.clock, objs := objs }
  | none =>
    let s := s.setLaunch n { l with placed := l.placed + 1 }
    let g : Gang :=
      { launch := n, gangId := BitVec.ofNat 20 l.placed, state := .forming, core := core, slot := slot, base := base, size := size
        gen := 0, arrived := 0, retired := 0, placedAt := s.clock, since := s.clock, saved := [], parkedHarts := []
        objs := 0 }
    { s.setGang s.nextGang g with nextGang := s.nextGang + 1 }

/-- A pre-emption by R287, where none is in progress on the gang's core. -/
def State.preemptBy (s : State) (n : Nat) (g : Gang) : State :=
  if s.preempting.any (fun m => (s.gang m).map Gang.core == some g.core) then s
  else { (s.preemptGang n).1 with preempting := n :: s.preempting }

/-- The pre-emption of R287 for a waiting gang of priority `p`: the most recently placed gang of a numerically greater
priority whose context has the save blocks. -/
def State.bump (s : State) (p : Nat) : State :=
  let cands := s.gangs.filter (fun e =>
    s.willing e.1 e.2 && s.canSave e.2 && ((s.launch e.2.launch).map (fun l => decide (p < l.prio))) == some true)
  match cands with
  | [] => s
  | c :: t =>
    let e := t.foldl (fun a x => if a.2.placedAt ≤ x.2.placedAt then x else a) c
    s.preemptBy e.1 e.2

/-- The walks that placing a gang makes: to the page of ARGS and to the list of armed objects (R286, R306, R317). -/
def State.placeWalks (s : State) (l : Launch) (g : Option (Nat × Gang)) : State :=
  let s := if l.args = 0 then s else s.walksOf l.ctx l.args.toNat 1
  match g.bind (fun g => g.2.leadBlock) with
  | some blk => s.walksOf l.ctx (blk + 0x600000) 8
  | none => s

/-- PLACE_GANG. While the controller throttles, no new gang is placed (R291). -/
def State.placeGang (s : State) : State :=
  match s.nextWaiting with
  | none => s
  | some (n, l, g) =>
    if 0 < s.throttle && g.isNone then s
    else
      let s := s.placeWalks l g
      let (need, size, objs) := s.needs l g
      match s.chooseCore l need size objs with
      | some p => s.putGang n l g p need size objs
      | none => s.bump l.prio

/-- The clocks of a time slice. -/
def slice : Nat := 2 ^ 23

/-- Whether an unplaced gang of a launch has waited a time slice: one that was never placed, since its record was taken. -/
def State.waitedSlice (s : State) (n : Nat) (l : Launch) : Bool :=
  (l.placed < l.gangs && l.since + slice ≤ s.clock)
    || s.gangs.any (fun e => e.2.launch == n && e.2.state == .preempted && e.2.since + slice ≤ s.clock)

/-- TIME_SLICE (R287). -/
def State.timeSlice (s : State) : State :=
  let waits := s.launches.filter (fun e => (s.ctx e.2.ctx).state == 1 && s.waitedSlice e.1 e.2)
  let cands := s.gangs.filter (fun e =>
    s.willing e.1 e.2 && s.canSave e.2 && decide (e.2.placedAt + slice ≤ s.clock) &&
      waits.any (fun w => w.1 != e.2.launch && ((s.launch e.2.launch).map Launch.prio) == some w.2.prio))
  match cands with
  | [] => s
  | c :: t =>
    let e := t.foldl (fun a x => if x.2.placedAt < a.2.placedAt then x else a) c
    s.preemptBy e.1 e.2

/-! ### Power (R291) -/

/-- One 1 ms window, over the cap or not, below 95 % of it or not. -/
def State.powerStep (s : State) (above low : Bool) : State :=
  if above then
    let s := { s with under := 0 }
    let cands := s.gangs.filter (fun e => e.2.placed && 1 < s.share e.2 && !(s.liveIdx e.2).isEmpty)
    let prio (g : Gang) : Nat := ((s.launch g.launch).map Launch.prio).getD 0
    match cands with
    | [] => { s with throttle := min 4 (s.throttle + 1) }
    | c :: t =>
      let e := t.foldl (fun a x =>
        if prio a.2 < prio x.2 || (prio a.2 == prio x.2 && a.2.placedAt ≤ x.2.placedAt) then x else a) c
      s.shrink e.1 e.2 (s.share e.2 - 1) 12
  else if !low then { s with under := 0 }
  else
    let s := { s with under := s.under + 1 }
    if 0 < s.throttle then { s with throttle := s.throttle - 1 }
    else if s.under < 10 then s
    else
      match s.cores.find? (fun e => groups.any (fun k => lg e.2.laneMap k == 12)) with
      | none => s
      | some (c, x) =>
        match groups.find? (fun k => lg x.laneMap k == 12) with
        | none => s
        | some k => s.setCore c { x with laneMap := setLg x.laneMap k 0 }

/-! ### Context commands (R257 to R259) -/

/-- A power of two from 16 to 65,536. -/
def sizeOk (n : Nat) : Bool := (List.range' 4 13).any (fun k => n == 2 ^ k)

/-- The descriptor's fields, where every one is valid. -/
def State.descriptor (s : State) (k : Nat) : Option Ctx :=
  let f := s.descRead k
  let c : Ctx :=
    { Ctx.reset with
      state := 1, ptroot := f 0x10 8, tvec := BitVec.ofNat 55 (f 0x18 8), save := f 0x20 8, saveCnt := f 0x28 4
      chanCnt := f 0x2C 4, chanTab := f 0x30 8, slotBase := f 0x38 8, fsq := f 0x40 8, fsqSize := f 0x48 4 }
  if c.ptroot % 0x10000 = 0 && c.ptroot < 2 ^ 44 && f 0x18 8 % 4 = 0 && f 0x18 8 != 0 && f 0x18 8 < 2 ^ 55
      && c.save % 0x800000 = 0 && c.save < 2 ^ 55 && 1 ≤ c.saveCnt && c.saveCnt ≤ 65535 && 1 ≤ c.chanCnt && c.chanCnt ≤ 1024
      && c.chanTab % 64 = 0 && c.chanTab < 2 ^ 55 && c.slotBase % 0x20000 = 0 && c.slotBase < 2 ^ 55 && c.fsq % 64 = 0
      && c.fsq < 2 ^ 55 && sizeOk c.fsqSize && (List.range' 12 20).all (fun i => f (8 * i) 8 == 0)
  then some c else none

/-- OPEN: the state and the result, none where the context has been killed. -/
def State.openCtx (s : State) (k : Nat) : State × Option Nat :=
  match s.descriptor k with
  | none => (s, some 2)
  | some c =>
    let s := { s.setCtx k c with opened := true }
    let s := (s.descWrite k 0x50 8 0).descWrite k 0x4C 4 0
    let zero := (List.range c.chanCnt).foldlM (fun (s : State) i => do
      let s := s.walksOf k (c.entry i) 8
      let w ← s.areaRead k (c.entry i) 8
      s.areaWrite k (c.entry i) 8 (w % 2 ^ 63)) s
    match zero with
    | .ok s => (s, some 0)
    | .error e => (s.areaKill k e, none)

/-- SUSPEND. A gang that is FORMING starts first, which may kill the context. The save blocks counted are those that harts without
one need (log 108, DESIGN CHOICE). -/
def State.suspendCtx (s : State) (k : Nat) : State × Option Nat :=
  let c := s.ctx k
  let gs := s.gangs.filter (fun e => e.2.placed && ((s.launch e.2.launch).map Launch.ctx) == some k)
  if gs.isEmpty then (s.setCtx k { c with state := 3 }, some 0)
  else
    let s1 := gs.foldl (fun s e => s.gangStart e.1) s
    let need := (s1.harts.filter (fun e => e.2.ctx == k && e.2.pre == .none)).length
    if (s1.ctx k).state != 1 then (s1, none)
    else if c.freeSaves.length < need then (s, some 3)
    else
      let s1 := s1.setCtx k { s1.ctx k with state := 2 }
      ((gs.foldl (fun s e => (s.preemptGang e.1).1) s1), some 0)

/-- The state of a context and the result of a command written to STATE; a kill has written its own (R259). -/
def State.ctxResult (s : State) (k cmd : Nat) : Option Nat → State
  | none => s
  | some r =>
    let cause := if cmd = 1 && r = 0 then 0 else s.descRead k 8 8 / 2 ^ 16 % 256
    s.descWrite k 8 8 ((s.ctx k).state + r * 2 ^ 8 + cause * 2 ^ 16)

/-- A context command acted on (R259). -/
def State.ctxAct (s : State) (k cmd : Nat) : State :=
  let st := (s.ctx k).state
  let done (r : State × Option Nat) : State := r.1.ctxResult k cmd r.2
  if 4 < cmd then done (s, some 2)
  else if cmd = 1 && st = 0 then done (s.openCtx k)
  else if cmd = 2 && st = 1 then done (s.suspendCtx k)
  else if cmd = 3 && st = 3 then done (s.setCtx k { s.ctx k with state := 1 }, some 0)
  else if cmd = 4 && (st = 1 || st = 2 || st = 3) then s.kill k 0 0 none
  else done (s, some 1)

/-- The context doorbell: the command in CMD is acted on and CMD cleared (R259); the words that the context's records
depend on are read again (R279). -/
def State.ctxDoorbell (s : State) (k : Nat) : State :=
  let cmd := s.descRead k 0 8
  (if cmd = 0 then s else (s.descWrite k 0 8 0).ctxAct k cmd).pollWords (some k)

/-- The driver writes a command and rings. -/
def State.ctxCommand (s : State) (k cmd : Nat) : State := (s.descWrite k 0 8 cmd).ctxDoorbell k

/-! ### Queue commands and appends (R272 to R275) -/

/-- OPEN of a FREE queue. -/
def State.openQueue (s : State) (q : Nat) : State × Nat :=
  let f (off n : Nat) : Nat := s.homeRead (queuePa q + off) n
  let own := f 0x10 8
  let k := own % 4096
  if own / 4096 % 16 != 0 || 2 ^ 17 ≤ own || f 0x18 8 % 128 != 0 || 2 ^ 55 ≤ f 0x18 8 || !sizeOk (f 0x20 4) || f 0x24 4 != 0
      || (s.ctx k).state != 1 then (s, 2)
  else
    let s := s.putQueue q
      { Queue.reset with state := 1, owner := k, hostFed := own.testBit 16, ring := f 0x18 8, size := f 0x20 4 }
    (s.homeWrite (queuePa q + 0x30) (bytesOf 8 0), 0)

/-- A queue command acted on (R274). The error reason stands until the queue is opened again (log 109, DESIGN CHOICE). -/
def State.queueAct (s : State) (q cmd : Nat) : State :=
  let x := s.queue q
  if 2 < cmd then s.queueNote q (some 2) none
  else if cmd = 1 && x.state = 0 then
    let (s, r) := s.openQueue q
    s.queueNote q (some r) (if r = 0 then some 0 else none)
  else if cmd = 2 && (x.state = 1 || x.state = 3) then
    ((s.putQueue q { x with state := 2 }).queueNote q (some 0) none).closeQueue q
  else s.queueNote q (some 1) none

/-- The command in a queue's CMD acted on; a doorbell of its context, so the words are read again (R274, R279). -/
def State.queueDoorbell (s : State) (q : Nat) : State :=
  let cmd := s.homeRead (queuePa q) 8
  let s := if cmd = 0 then s else (s.homeWrite (queuePa q) (bytesOf 8 0)).queueAct q cmd
  s.pollWords (some (s.queue q).owner)

/-- The driver writes a command and rings. -/
def State.queueCommand (s : State) (q cmd : Nat) : State := (s.homeWrite (queuePa q) (bytesOf 8 cmd)).queueDoorbell q

/-- The queue doorbell register of the host port (R275, R345). -/
def State.queueRing (s : State) (v : BitVec 64) : State :=
  let q := v.toNat % 4096
  if v.toNat / 4096 % 8 != 0 then { s with telemetry := { s.telemetry with dropped := satAdd s.telemetry.dropped 1 } }
  else if v.getLsbD 15 then s.queueDoorbell q
  else
    let x := s.queue q
    let tail := v.toNat / 2 ^ 16
    let s :=
      if x.state != 1 || !x.hostFed || tail ≤ x.tail then s
      else if x.size < tail - x.head then (s.putQueue q { x with state := 3 }).queueNote q none (some 1)
      else (s.setQueue q { x with tail := tail }).checkHead q
    s.pollWords (some x.owner)

/-- The status of a QPUT (R109, R276). -/
def State.appendStatus (s : State) (k q : Nat) (r : Rec) : Nat :=
  let x := s.queue q
  if 4096 ≤ q || x.state != 1 || x.owner != k || x.hostFed then 2
  else if r.reserved then 3
  else if x.size ≤ x.tail - x.head then 1
  else 0

/-- A record appended. -/
def State.append (s : State) (k q : Nat) (r : Rec) : Except (BitVec 8) State := do
  let x := s.queue q
  let s ← s.areaPuts k (x.ring + 128 * (x.tail % x.size)) r.words
  return (s.putQueue q { x with tail := x.tail + 1 }).checkHead q

end Sys2Proof.Machine
end

