-- ==== Sys2Proof/Machine/Scalar.lean ====
section
/-!
DEFINITION. The effects of the scalar instructions that are not system instructions (R84 to R103): arithmetic, memory,
compares, condition bits, branches, floating point, atomics and fences.
-/

namespace Sys2Proof.Machine

/-! ### Immediates and lengths -/

/-- The sign-extended immediate of SI and SC, with a prefix's bits where there is one (R71, R88). -/
def immValue (i : Imm13) : Word :=
  match i.hi with
  | none => i.f.signExtend 64
  | some p => (p ++ i.f).signExtend 64
/-- The sign-extended displacement of SJ. -/
def dispValue (i : Imm19) : Word :=
  match i.hi with
  | none => i.f.signExtend 64
  | some p => (p ++ i.f).signExtend 64

/-- Bytes of an instruction as it stands in memory: a prefix belongs to it. -/
def instrBytes (i : Instr) : Nat := 4 * (encode i).length

/-- A program counter as a register value. -/
def pcWord (p : BitVec 55) : Word := p.setWidth 64
/-- The address after an instruction of `n` bytes. -/
def Hart.after (h : Hart) (n : Nat) : BitVec 55 := h.pc + BitVec.ofNat 55 n

/-! ### Integer arithmetic (R87, R88) -/

/-- A result of two registers. -/
def alu2 (d a b : BitVec 6) (f : Word → Word → Word) : Mach Unit :=
  modHart (fun h => h.writeS d (f (h.readS a) (h.readS b)))
/-- A result of one register and an immediate. -/
def aluI (d a : BitVec 6) (x : Word) (f : Word → Word → Word) : Mach Unit :=
  modHart (fun h => h.writeS d (f (h.readS a) x))

/-- Signed minimum and maximum. -/
def smin (x y : Word) : Word := if y.toInt < x.toInt then y else x
def smax (x y : Word) : Word := if x.toInt < y.toInt then y else x
def umin (x y : Word) : Word := if y.toNat < x.toNat then y else x
def umax (x y : Word) : Word := if x.toNat < y.toNat then y else x
/-- The high half of a product. -/
def mulHi (x y : Int) : Word := BitVec.ofInt 64 (x * y / 2 ^ 64)
/-- Quotients and remainders with R46's corners. -/
def sdivW (x y : Word) : Word := BitVec.ofInt 64 (El.intDiv (.i 64) x.toInt y.toInt)
def udivW (x y : Word) : Word := BitVec.ofInt 64 (El.intDiv (.n 64) x.toNat y.toNat)
def sremW (x y : Word) : Word := BitVec.ofInt 64 (El.intRem (.i 64) x.toInt y.toInt)
def uremW (x y : Word) : Word := BitVec.ofInt 64 (El.intRem (.n 64) x.toNat y.toNat)
/-- Leading zeros, trailing zeros and ones. -/
def clzW (x : Word) : Word := BitVec.ofNat 64 (64 - Num.bitLen x.toNat)
def ctzW (x : Word) : Word := BitVec.ofNat 64 (((List.range 64).find? (fun i => x.getLsbD i)).getD 64)
def popcW (x : Word) : Word := BitVec.ofNat 64 ((List.range 64).countP (fun i => x.getLsbD i))

/-- A shift count. -/
def shiftOf (y : Word) : Nat := y.toNat % 64

def effAdd (d a b : BitVec 6) : Mach Unit := alu2 d a b (· + ·)
def effSub (d a b : BitVec 6) : Mach Unit := alu2 d a b (· - ·)
def effAnd (d a b : BitVec 6) : Mach Unit := alu2 d a b (· &&& ·)
def effOr (d a b : BitVec 6) : Mach Unit := alu2 d a b (· ||| ·)
def effXor (d a b : BitVec 6) : Mach Unit := alu2 d a b (· ^^^ ·)
def effSll (d a b : BitVec 6) : Mach Unit := alu2 d a b (fun x y => x <<< shiftOf y)
def effSrl (d a b : BitVec 6) : Mach Unit := alu2 d a b (fun x y => x >>> shiftOf y)
def effSra (d a b : BitVec 6) : Mach Unit := alu2 d a b (fun x y => x.sshiftRight (shiftOf y))
def effMin (d a b : BitVec 6) : Mach Unit := alu2 d a b smin
def effMax (d a b : BitVec 6) : Mach Unit := alu2 d a b smax
def effMinn (d a b : BitVec 6) : Mach Unit := alu2 d a b umin
def effMaxn (d a b : BitVec 6) : Mach Unit := alu2 d a b umax
def effMul (d a b : BitVec 6) : Mach Unit := alu2 d a b (· * ·)
def effMulh (d a b : BitVec 6) : Mach Unit := alu2 d a b (fun x y => mulHi x.toInt y.toInt)
def effMulhn (d a b : BitVec 6) : Mach Unit := alu2 d a b (fun x y => mulHi x.toNat y.toNat)
def effDiv (d a b : BitVec 6) : Mach Unit := alu2 d a b sdivW
def effDivn (d a b : BitVec 6) : Mach Unit := alu2 d a b udivW
def effRem (d a b : BitVec 6) : Mach Unit := alu2 d a b sremW
def effRemn (d a b : BitVec 6) : Mach Unit := alu2 d a b uremW
def effClz (d a : BitVec 6) : Mach Unit := modHart (fun h => h.writeS d (clzW (h.readS a)))
def effCtz (d a : BitVec 6) : Mach Unit := modHart (fun h => h.writeS d (ctzW (h.readS a)))
def effPopc (d a : BitVec 6) : Mach Unit := modHart (fun h => h.writeS d (popcW (h.readS a)))
/-- SEL: sb names a condition bit. -/
def effSel (d a b : BitVec 6) : Mach Unit :=
  modHart (fun h => if h.readC (b.setWidth 3) then h.writeS d (h.readS a) else h)

def effAddi (d a : BitVec 6) (i : Imm13) : Mach Unit := aluI d a (immValue i) (· + ·)
def effAndi (d a : BitVec 6) (i : Imm13) : Mach Unit := aluI d a (immValue i) (· &&& ·)
def effOri (d a : BitVec 6) (i : Imm13) : Mach Unit := aluI d a (immValue i) (· ||| ·)
def effXori (d a : BitVec 6) (i : Imm13) : Mach Unit := aluI d a (immValue i) (· ^^^ ·)
def effSlli (d a n : BitVec 6) : Mach Unit := modHart (fun h => h.writeS d (h.readS a <<< n.toNat))
def effSrli (d a n : BitVec 6) : Mach Unit := modHart (fun h => h.writeS d (h.readS a >>> n.toNat))
def effSrai (d a n : BitVec 6) : Mach Unit := modHart (fun h => h.writeS d ((h.readS a).sshiftRight n.toNat))
/-- LIH. -/
def effLih (d a : BitVec 6) (i : Imm13) : Mach Unit :=
  aluI d a (immValue i) (fun x y => (y.setWidth 32 : BitVec 32) ++ (x.setWidth 32 : BitVec 32))
/-- PCADD: the PC is that of the prefix where there is one. -/
def effPcadd (d : BitVec 6) (i : Imm19) : Mach Unit :=
  modHart (fun h => h.writeS d (pcWord h.pc + 4 * dispValue i))

/-! ### Loads and stores (R89 to R91) -/

/-- What a scalar access of `n` bytes asks: kind 0 load, 1 store, 2 AMO or CAS. -/
def scalarReq (need : Need) (n kind : Nat) : Req :=
  { need := need, n := n, align := n, bypass := false, info := BitVec.ofNat 64 kind, vec := false }

/-- What a scalar load asks: at home where a fence after it makes it an acquire at system scope (R245). -/
def State.loadReq (s : State) (n : Nat) : Req := { scalarReq .read n 0 with bypass := s.acquireAhead }

/-- A load. -/
def scalarLoad (n : Nat) (signed : Bool) (d a : BitVec 6) (i : Imm13) : Mach Unit := do
  let ea := (← readS a) + immValue i
  let x ← readMem ((← get).loadReq n) (isSpad ea) ea
  writeS d (BitVec.ofInt 64 (intOfBits signed (8 * n) x))

/-- A store. -/
def scalarStore (n : Nat) (d a : BitVec 6) (i : Imm13) : Mach Unit := do
  let ea := (← readS a) + immValue i
  let x ← readS d
  writeMem (scalarReq .write n 1) (isSpad ea) ea x.toNat

def effLdb (d a : BitVec 6) (i : Imm13) : Mach Unit := scalarLoad 1 true d a i
def effLdbn (d a : BitVec 6) (i : Imm13) : Mach Unit := scalarLoad 1 false d a i
def effLdh (d a : BitVec 6) (i : Imm13) : Mach Unit := scalarLoad 2 true d a i
def effLdhn (d a : BitVec 6) (i : Imm13) : Mach Unit := scalarLoad 2 false d a i
def effLdw (d a : BitVec 6) (i : Imm13) : Mach Unit := scalarLoad 4 true d a i
def effLdwn (d a : BitVec 6) (i : Imm13) : Mach Unit := scalarLoad 4 false d a i
def effLdd (d a : BitVec 6) (i : Imm13) : Mach Unit := scalarLoad 8 true d a i
def effStb (d a : BitVec 6) (i : Imm13) : Mach Unit := scalarStore 1 d a i
def effSth (d a : BitVec 6) (i : Imm13) : Mach Unit := scalarStore 2 d a i
def effStw (d a : BitVec 6) (i : Imm13) : Mach Unit := scalarStore 4 d a i
def effStd (d a : BitVec 6) (i : Imm13) : Mach Unit := scalarStore 8 d a i

/-- PREF at a level: 0 the scalar data cache, 1 the CDC, 2 the LLC. A hint that cannot be followed is counted, one to
scratchpad is not (R93). -/
def effPref (d a : BitVec 6) (i : Imm13) : Mach Unit := do
  let ea := (← readS a) + immValue i
  if !isSpad ea then
    modify (fun s => s.walkedPages .read true (if (ea.extractLsb' 55 9) != 0 then [] else [ea]))
    if (← get).hintLost ea then dropHints 1 else modify (fun s => s.hint ea 1 (d.toNat % 4))

/-! ### Compares and condition bits (R94, R95) -/

/-- A condition code of R94. -/
def condHolds (cond : Nat) (x y : Word) : Bool :=
  match cond with
  | 0 => x == y
  | 1 => x != y
  | 2 => decide (x.toInt < y.toInt)
  | 3 => decide (y.toInt ≤ x.toInt)
  | 4 => decide (x.toNat < y.toNat)
  | 5 => decide (y.toNat ≤ x.toNat)
  | _ => (x &&& y) != 0

/-- CMP and CMPI. -/
def compareS (cond : Nat) (c : BitVec 3) (a b : BitVec 6) : Mach Unit :=
  modHart (fun h => h.writeC c (condHolds cond (h.readS a) (h.readS b)))
def compareI (cond : Nat) (c : BitVec 3) (a : BitVec 6) (i : Imm13) : Mach Unit :=
  modHart (fun h => h.writeC c (condHolds cond (h.readS a) (immValue i)))

def effCmpeq (c : BitVec 3) (a b : BitVec 6) : Mach Unit := compareS 0 c a b
def effCmpne (c : BitVec 3) (a b : BitVec 6) : Mach Unit := compareS 1 c a b
def effCmplt (c : BitVec 3) (a b : BitVec 6) : Mach Unit := compareS 2 c a b
def effCmpge (c : BitVec 3) (a b : BitVec 6) : Mach Unit := compareS 3 c a b
def effCmpltn (c : BitVec 3) (a b : BitVec 6) : Mach Unit := compareS 4 c a b
def effCmpgen (c : BitVec 3) (a b : BitVec 6) : Mach Unit := compareS 5 c a b
def effCmpand (c : BitVec 3) (a b : BitVec 6) : Mach Unit := compareS 6 c a b
def effCmpieq (c : BitVec 3) (a : BitVec 6) (i : Imm13) : Mach Unit := compareI 0 c a i
def effCmpine (c : BitVec 3) (a : BitVec 6) (i : Imm13) : Mach Unit := compareI 1 c a i
def effCmpilt (c : BitVec 3) (a : BitVec 6) (i : Imm13) : Mach Unit := compareI 2 c a i
def effCmpige (c : BitVec 3) (a : BitVec 6) (i : Imm13) : Mach Unit := compareI 3 c a i
def effCmpiltn (c : BitVec 3) (a : BitVec 6) (i : Imm13) : Mach Unit := compareI 4 c a i
def effCmpigen (c : BitVec 3) (a : BitVec 6) (i : Imm13) : Mach Unit := compareI 5 c a i
def effCmpiand (c : BitVec 3) (a : BitVec 6) (i : Imm13) : Mach Unit := compareI 6 c a i

/-- A condition bit computed from two others. -/
def copBits (d a b : BitVec 6) (f : Bool → Bool → Bool) : Mach Unit :=
  modHart (fun h => h.writeC (d.setWidth 3) (f (h.readC (a.setWidth 3)) (h.readC (b.setWidth 3))))

def effCand (d a b : BitVec 6) : Mach Unit := copBits d a b (· && ·)
def effCor (d a b : BitVec 6) : Mach Unit := copBits d a b (· || ·)
def effCxor (d a b : BitVec 6) : Mach Unit := copBits d a b (· != ·)
def effCnot (d a : BitVec 6) : Mach Unit := copBits d a a (fun x _ => !x)
/-- CGET: bit 0 reads 1. -/
def effCget (d : BitVec 6) : Mach Unit := modHart (fun h => h.writeS d ((h.cb ||| 1).setWidth 64))
def effCfrom (d a : BitVec 6) : Mach Unit := modHart (fun h => h.writeC (d.setWidth 3) (h.readS a != 0))

/-! ### Branches and jumps (R96): these set the PC themselves -/

/-- The PC set. -/
def jumpTo (p : BitVec 55) : Mach Unit := modHart (fun h => { h with pc := p })

/-- A displacement in parcels from the instruction's address. -/
def Hart.target (h : Hart) (disp : Word) : BitVec 55 := h.pc + (4 * disp).setWidth 55

/-- BC and BCN. -/
def branch (neg : Bool) (c : BitVec 3) (disp : BitVec 21) : Mach Unit := do
  let h ← hart
  jumpTo (if h.readC c != neg then h.target (disp.signExtend 64) else h.after 4)
def effBc (c : BitVec 3) (disp : BitVec 21) : Mach Unit := branch false c disp
def effBcn (c : BitVec 3) (disp : BitVec 21) : Mach Unit := branch true c disp

/-- J: the link is the address after the instruction. -/
def effJ (d : BitVec 6) (i : Imm19) : Mach Unit := do
  let h ← hart
  writeS d (pcWord (h.after (instrBytes (.j d i))))
  jumpTo (h.target (dispValue i))

/-- JR. R96 gives its MISALIGN no TINFO: 0 (log 91, DESIGN CHOICE). -/
def effJr (d a : BitVec 6) (i : BitVec 13) : Mach Unit := do
  let h ← hart
  let t := h.readS a + i.signExtend 64
  if t.toNat % 4 != 0 then raise cMisalign 0 t
  writeS d (pcWord (h.after 4))
  jumpTo (t.setWidth 55)

/-! ### Floating point (R97 to R100) -/

/-- fp32. -/
abbrev fp32 : Fmt := .flt .fp32

/-- The environment of FALU and FFMA: no saturation. -/
def Hart.scalarEnv (h : Hart) (rm : BitVec 3) : FpEnv := { rm := Rm.ofCode h.frm rm, sat := false, fz := h.fz }

/-- The fp32 pattern in a register. -/
def Hart.fpS (h : Hart) (r : BitVec 6) : Nat := (h.readS r).toNat % 2 ^ 32

/-- A result with its flags: an enabled trap leaves the destination unchanged. -/
def fpWrite (d : BitVec 6) (r : Nat × Flags) : Mach Unit := do
  scalarFlags r.2
  writeS d (BitVec.ofNat 64 r.1)

/-- An operation of two fp32 registers. -/
def fp2 (d a b : BitVec 6) (rm : BitVec 3) (op : Fmt → El2) : Mach Unit := do
  let h ← hart
  fpWrite d (op fp32 (h.scalarEnv rm) (h.fpS a) (h.fpS b))

def effFadd (d a b : BitVec 6) (rm : BitVec 3) : Mach Unit := fp2 d a b rm El.add
def effFsub (d a b : BitVec 6) (rm : BitVec 3) : Mach Unit := fp2 d a b rm El.sub
def effFmul (d a b : BitVec 6) (rm : BitVec 3) : Mach Unit := fp2 d a b rm El.mul
def effFdiv (d a b : BitVec 6) (rm : BitVec 3) : Mach Unit := fp2 d a b rm El.div
def effFsqrt (d a : BitVec 6) (rm : BitVec 3) : Mach Unit := do
  let h ← hart
  fpWrite d (El.sqrt fp32 (h.scalarEnv rm) (h.fpS a))
/-- FMIN and FMAX ignore rm. -/
def effFmin (d a b : BitVec 6) : Mach Unit := fp2 d a b 0 (El.minMax false)
def effFmax (d a b : BitVec 6) : Mach Unit := fp2 d a b 0 (El.minMax true)

/-- ±(sa · sb) ± sd, rounded once. -/
def fp3 (d a b : BitVec 6) (rm : BitVec 3) (negProd negAdd : Bool) : Mach Unit := do
  let h ← hart
  fpWrite d (El.fma negProd negAdd fp32 (h.scalarEnv rm) (h.fpS a) (h.fpS b) (h.fpS d))
def effFma (d a b : BitVec 6) (rm : BitVec 3) : Mach Unit := fp3 d a b rm false false
def effFms (d a b : BitVec 6) (rm : BitVec 3) : Mach Unit := fp3 d a b rm false true
def effFnma (d a b : BitVec 6) (rm : BitVec 3) : Mach Unit := fp3 d a b rm true false

/-- FCVT: sb holds the direction and the other type. -/
def effFcvt (d a b : BitVec 6) (rm : BitVec 3) : Mach Unit := do
  let h ← hart
  let t := etFmt (b.setWidth 4)
  let rm := Rm.ofCode h.frm rm
  if b.getLsbD 4 then fpWrite d (convert t fp32 rm h.dsat h.fz ((h.readS a).toNat % 2 ^ t.bits))
  else
    let (x, fl) := convert fp32 t rm h.dsat h.fz (h.fpS a)
    scalarFlags fl
    writeS d (elScalar t x)

/-- The class bit of an fp32 pattern (R98). -/
def fpClass (x : Nat) : Nat :=
  let neg := x / 2 ^ 31 = 1
  let e := x / 2 ^ 23 % 256
  let f := x % 2 ^ 23
  if e = 255 then
    if f = 0 then (if neg then 0 else 7) else if f < 2 ^ 22 then 8 else 9
  else if e = 0 then
    if f = 0 then (if neg then 3 else 4) else (if neg then 2 else 5)
  else if neg then 1 else 6
def effFclass (d a : BitVec 6) : Mach Unit := do
  let h ← hart
  writeS d (BitVec.ofNat 64 (2 ^ fpClass (h.fpS a)))

/-- FCMP. -/
def fpCompare (cond : Nat) (c : BitVec 3) (a b : BitVec 6) : Mach Unit := do
  let h ← hart
  let (x, fl) := El.cmp cond fp32 h.fz (h.fpS a) (h.fpS b)
  scalarFlags fl
  modHart (fun h => h.writeC c x)
def effFcmpeq (c : BitVec 3) (a b : BitVec 6) : Mach Unit := fpCompare 0 c a b
def effFcmpne (c : BitVec 3) (a b : BitVec 6) : Mach Unit := fpCompare 1 c a b
def effFcmplt (c : BitVec 3) (a b : BitVec 6) : Mach Unit := fpCompare 2 c a b
def effFcmpge (c : BitVec 3) (a b : BitVec 6) : Mach Unit := fpCompare 3 c a b

/-! ### Atomics (R101, R102) -/

/-- The vector scope code of a two-bit scalar one (R74). -/
def scopeOf (sc : BitVec 2) : Nat := sc.toNat + 2

/-- The parts of an order code at a vector scope code: the release part precedes the access, the acquire part follows
it (R74, R238). -/
def orderRelease (order : BitVec 2) (scope : Nat) : Mach Unit := if 2 ≤ order.toNat then releasePart scope else pure ()
def orderAcquire (order : BitVec 2) (scope : Nat) : Mach Unit :=
  if order.toNat % 2 = 1 then acquirePart scope else pure ()

/-- AMO. -/
def amo (op : Nat) (d a b : BitVec 6) (order scope : BitVec 2) : Mach Unit := do
  let ea ← readS a
  let x ← readS b
  let n := amoBytes op
  let q := scalarReq .rmw n 2
  let l ← locate q (isSpad ea) ea
  orderRelease order (scopeOf scope)
  let old ← rmwLoc q ea l (scopeOf scope) (fun old => amoF (8 * n) true op old x.toNat)
  orderAcquire order (scopeOf scope)
  writeS d (BitVec.ofNat 64 old)
def effAmoadd (d a b : BitVec 6) (o s : BitVec 2) : Mach Unit := amo 0 d a b o s
def effAmofadd (d a b : BitVec 6) (o s : BitVec 2) : Mach Unit := amo 1 d a b o s
def effAmomin (d a b : BitVec 6) (o s : BitVec 2) : Mach Unit := amo 2 d a b o s
def effAmomax (d a b : BitVec 6) (o s : BitVec 2) : Mach Unit := amo 3 d a b o s
def effAmoand (d a b : BitVec 6) (o s : BitVec 2) : Mach Unit := amo 4 d a b o s
def effAmoor (d a b : BitVec 6) (o s : BitVec 2) : Mach Unit := amo 5 d a b o s
def effAmoxor (d a b : BitVec 6) (o s : BitVec 2) : Mach Unit := amo 6 d a b o s
def effAmoswap (d a b : BitVec 6) (o s : BitVec 2) : Mach Unit := amo 7 d a b o s

/-- CAS: the order is `succ` where it writes and `fail` where it does not (R102, R241). -/
def effCas (d a b : BitVec 6) (succ fail scope : BitVec 2) : Mach Unit := do
  let ea ← readS a
  let expected ← readS d
  let new ← readS b
  let q := scalarReq .rmw 8 2
  let l ← locate q (isSpad ea) ea
  let l := l.atomicAt (scopeOf scope)
  let old ← readLoc q ea l
  if old = expected.toNat then
    orderRelease succ (scopeOf scope)
    writeLoc l 8 new.toNat
  orderAcquire (if old = expected.toNat then succ else fail) (scopeOf scope)
  writeS d (BitVec.ofNat 64 old)

/-! ### Fences (R103) -/

/-- A fence: the hart's transfers end; a release reaches its scope, and at system scope waits for the remote operations
and takes their held faults (R206), after which no older copy of bytes of the own node is read (R249); an acquire makes the
core's clean lines invalid (R238). -/
def fenceOp (acquire release : Bool) (scope : Nat) : Mach Unit := do
  if release && scope = 5 then drainRemote
  endAll
  if release then releaseCaches scope
  if acquire || (release && scope = 5) then acquirePart scope
def effFenceacq (scope : BitVec 3) : Mach Unit := fenceOp true false scope.toNat
def effFencerel (scope : BitVec 3) : Mach Unit := fenceOp false true scope.toNat
def effFencear (scope : BitVec 3) : Mach Unit := fenceOp true true scope.toNat
def effFencesc (scope : BitVec 3) : Mach Unit := fenceOp true true scope.toNat

end Sys2Proof.Machine
end

