-- ==== Sys2Proof/Machine/Control.lean ====
section
/-!
DEFINITION. The effects of the system instructions: the control registers (R54 to R64, R104), TRAP, ERET, YIELD, HALT and
QPUT (R105 to R109).
-/

namespace Sys2Proof.Machine

/-! ### Reading control registers (R56) -/

/-- Usable DRAM in GiB: 1,984 MiB of each channel whose range is not reserved, whole GiB of it (R375, R388, R389; log 89,
DEDUCED). -/
def State.usableGib (s : State) : Nat := (Config.cores - s.lostChan.length) * 1984 / 1024

/-- FEAT0 (R389). -/
def State.feat0 (s : State) : BitVec 64 :=
  let gone := (List.range Config.cores).filter (fun c => (s.core c).withdrawn)
  let lost := s.cores.foldl (fun a e => if e.2.withdrawn then a else a + e.2.qlg) 0
  BitVec.ofNat 64 (Config.cores - gone.length + (3072 - lost - 16 * gone.length) * 2 ^ 8 + s.usableGib * 2 ^ 20 + 2 ^ 32)

/-- FEAT0 to FEAT3. -/
def State.featWord (s : State) (k : Nat) : BitVec 64 :=
  match k with
  | 0 => s.feat0
  | 1 => Config.features.setWidth 64
  | _ => 0

/-- SUSPECT (R374): of units with the highest score, the lowest (log 25). -/
def Core.suspect (c : Core) : BitVec 64 :=
  let qlg := groups.foldl (fun a k => if lg c.laneMap k = 14 then a + 2 ^ k else a) 0
  let ok (u : Nat) : Bool := c.score u < 128 && !(u < 16 && qlg.testBit u)
  let (u, v) := ((List.range 18).filter ok).foldl (fun (b : Nat × Nat) u => if b.2 < c.score u then (u, c.score u) else b) (0, 0)
  BitVec.ofNat 64 (v + u * 2 ^ 8 + c.mism.toNat * 2 ^ 16 + (if c.withdrawn then 2 ^ 35 else 0) + qlg * 2 ^ 36)

/-- VGRP and LANES (R58). -/
def Hart.vgrp (h : Hart) : BitVec 64 :=
  BitVec.ofNat 64 (h.g.toNat + h.et.toNat * 2 ^ 4 + if h.mxm then 2 ^ 8 else 0)
def Hart.lanesReg (h : Hart) : BitVec 64 :=
  BitVec.ofNat 64 (h.laneCur % 256 + h.laneNext % 256 * 2 ^ 8 + h.gmap.toNat * 2 ^ 16)

/-- The value RDCTL reads at an assigned index. -/
def State.readCtl (s : State) (i : Nat) : BitVec 64 :=
  let h := s.me
  let c := s.core s.coreNo
  match i with
  | 0x000 => BitVec.ofNat 64 (s.cur % 8)
  | 0x001 => h.gangId.setWidth 64
  | 0x002 => BitVec.ofNat 64 s.coreNo
  | 0x003 => BitVec.ofNat 64 (dieOf s.coreNo)
  | 0x004 => s.nodeId.setWidth 64
  | 0x005 => BitVec.ofNat 64 h.ctx
  | 0x010 => if h.vlUnset then 0 else h.vl.setWidth 64
  | 0x011 => h.vgrp
  | 0x012 => h.vc.vstart.setWidth 64
  | 0x013 => h.lanesReg
  | 0x014 => h.vdirty
  | 0x015 => h.vc.vbyp.setWidth 64
  | 0x020 => h.vc.mfc.get 0
  | 0x021 => h.vc.mfc.get 1
  | 0x022 => h.vc.mfc.get 2
  | 0x023 => h.vc.mfc.get 3
  | 0x024 => h.vc.mfcsb.get 0
  | 0x025 => h.vc.mfcsb.get 1
  | 0x026 => h.vc.mfcsb.get 2
  | 0x027 => h.vc.mfcsb.get 3
  | 0x030 => h.vc.fctl.setWidth 64
  | 0x031 => h.fflags.setWidth 64
  | 0x040 => (h.cb ||| 1).setWidth 64
  | 0x050 => h.tcause.setWidth 64
  | 0x051 => h.tinfo
  | 0x052 => pcWord h.epc
  | 0x053 => h.taddr
  | 0x060 => (s.ctx h.ctx).hintdrop.setWidth 64
  | 0x100 => c.laneMap
  | 0x101 => s.pwrcap.setWidth 64
  | 0x102 => c.qmin
  | 0x103 => c.qcap
  | 0x104 => c.laneHold
  | 0x105 => c.laneDest
  | 0x110 => c.suspect
  | 0x120 => s.featWord 0
  | 0x121 => s.featWord 1
  | 0x122 => s.featWord 2
  | 0x123 => s.featWord 3
  | 0x124 => s.featacc.setWidth 64
  | 0x130 => if s.accepts 0 then (s.die (dieOf s.coreNo)).fullerShare.setWidth 64 else 0
  | _ => 0

/-! ### Writing control registers -/

/-- Bits of a slot that are not zero fields (R60), and of a scale base (R62). -/
def mfcMask : BitVec 64 := 0xFFFF07FF#64
def mfcsbMask : BitVec 64 := 0x807FFFFFFFFFFFFF#64

/-- FCTL as stored: RM 101 to 111 become 000 (R63). -/
def fctlStored (x : BitVec 64) : BitVec 10 :=
  let w : BitVec 10 := x.setWidth 10
  if 5 ≤ w.toNat % 8 then w &&& 0x3F8#10 else w

/-- Whether QMIN and QCAP together satisfy R281. -/
def queueLimitsOk (qmin qcap : BitVec 64) : Bool :=
  let hmin := qmin.toNat % 2 ^ 12
  let umin := qmin.toNat / 2 ^ 16 % 2 ^ 12
  let hcap := qcap.toNat % 2 ^ 13
  let ucap := qcap.toNat / 2 ^ 16 % 2 ^ 13
  8 * hmin + 4 * umin ≤ 4096 && 1 ≤ hmin && hmin ≤ hcap && hcap ≤ 4096 && 1 ≤ umin && umin ≤ ucap && ucap ≤ 4096

/-- QMIN of a core written, where the limits allow it. -/
def State.setQmin (s : State) (core : Nat) (v : BitVec 64) : Option State :=
  let c := s.core core
  let w := v &&& 0x0FFF0FFF#64
  if queueLimitsOk w c.qcap then some (s.setCore core { c with qmin := w }) else none
/-- QCAP of a core written, where the limits allow it. -/
def State.setQcap (s : State) (core : Nat) (v : BitVec 64) : Option State :=
  let c := s.core core
  let w := v &&& 0x1FFF1FFF#64
  if queueLimitsOk c.qmin w then some (s.setCore core { c with qcap := w }) else none
/-- PWRCAP written, from 600 to 2,400 W (R386). -/
def State.setPwrcap (s : State) (v : BitVec 64) : Option State :=
  let w : BitVec 12 := v.setWidth 12
  if 600 ≤ w.toNat && w.toNat ≤ 2400 then some { s with pwrcap := w } else none
/-- FEATACC written, until a context has been opened (R390). -/
def State.setFeatacc (s : State) (v : BitVec 64) : State :=
  if s.opened then s else { s with featacc := v.setWidth 7 &&& Config.features }

/-- A control-register write that stores nothing raises ILLEGAL_INSTR. -/
def orIllegal (f : State → Option State) : Mach Unit := do
  match f (← get) with
  | some s => set s
  | none => illegal 0x02

/-- One of the four slots written. -/
def VCtl.setMfc (v : VCtl) (k : Fin 4) (x : BitVec 64) : VCtl := { v with mfc := v.mfc.set k (x &&& mfcMask) }
def VCtl.setMfcsb (v : VCtl) (k : Fin 4) (x : BitVec 64) : VCtl := { v with mfcsb := v.mfcsb.set k (x &&& mfcsbMask) }

/-- A write of the vector side's control registers. -/
def setVc (f : VCtl → VCtl) : Mach Unit := modHart (fun h => { h with vc := f h.vc })

/-- WRCTL at an assigned writable index. -/
def writeCtl (i : Nat) (x : BitVec 64) : Mach Unit := do
  let s ← get
  match i with
  | 0x012 => setVc (fun v => { v with vstart := x.setWidth 18 })
  | 0x014 => modHart (fun h => { h with vdirty := x })
  | 0x015 => setVc (fun v => { v with vbyp := x.setWidth 32 })
  | 0x020 => setVc (fun v => v.setMfc 0 x)
  | 0x021 => setVc (fun v => v.setMfc 1 x)
  | 0x022 => setVc (fun v => v.setMfc 2 x)
  | 0x023 => setVc (fun v => v.setMfc 3 x)
  | 0x024 => setVc (fun v => v.setMfcsb 0 x)
  | 0x025 => setVc (fun v => v.setMfcsb 1 x)
  | 0x026 => setVc (fun v => v.setMfcsb 2 x)
  | 0x027 => setVc (fun v => v.setMfcsb 3 x)
  | 0x030 => setVc (fun v => { v with fctl := fctlStored x })
  | 0x031 => modHart (fun h => { h with fflags := x.setWidth 5 })
  | 0x040 => modHart (fun h => { h with cb := x.setWidth 8 ||| 1 })
  | 0x050 => modHart (fun h => { h with tcause := x.setWidth 8 })
  | 0x051 => modHart (fun h => { h with tinfo := x })
  | 0x052 => modHart (fun h => { h with epc := (x.extractLsb' 2 53) ++ 0#2 })
  | 0x053 => modHart (fun h => { h with taddr := x })
  | 0x060 => set (s.setCtx s.me.ctx { s.ctx s.me.ctx with hintdrop := x.setWidth 32 })
  | 0x100 => set (s.laneWrite s.coreNo x)
  | 0x101 => orIllegal (fun s => s.setPwrcap x)
  | 0x102 => orIllegal (fun s => s.setQmin s.coreNo x)
  | 0x103 => orIllegal (fun s => s.setQcap s.coreNo x)
  | 0x124 => set (s.setFeatacc x)
  | 0x130 =>
    if s.accepts 0 then
      let d := dieOf s.coreNo
      set (s.setDie d { s.die d with fullerShare := x.setWidth 4 })
  | _ => pure ()

/-- RDCTL. -/
def effRdctl (d : BitVec 6) (i : BitVec 13) : Mach Unit := do
  let x := (← get).readCtl i.toNat
  writeS d x

/-- WRCTL. -/
def effWrctl (a : BitVec 6) (i : BitVec 13) : Mach Unit := do
  let x ← readS a
  writeCtl i.toNat x

/-! ### TRAP, ERET, YIELD and HALT (R105 to R108): these leave the PC where their rule puts it -/

/-- TRAP. -/
def effTrap (i : BitVec 13) : Mach Unit := raise cTrapInstr (i.setWidth 64) 0

/-- ERET: a pre-emption that waited for the freed block may now be taken (R292). -/
def effEret : Mach Unit := modify (fun s => (s.eret).moveGangs)

/-- YIELD: the address after it is 4 bytes on. -/
def effYield : Mach Unit := modify (fun s => s.yield (s.me.after 4))

/-- HALT: the drain of R108, then the hart retires. What its core and its launch must write waits while a channel is being copied
(R382; log 94). -/
def effHalt : Mach Unit := do
  if !(← get).copying.isEmpty then throw .hold
  drainRemote
  endAll
  modify (fun s => (s.retireHart s.cur).moveGangs)

/-! ### QPUT (R109) -/

/-- QPUT: the record is read whole; an append is a release at device scope, a refused one nothing. -/
def effQput (d a b : BitVec 6) : Mach Unit := do
  let ea ← readS b
  let q := scalarReq .read 128 0
  if isSpad ea then raise cAccess q.info ea
  let l ← locate q false ea
  let ws ← (List.range 16).mapM (fun i => readLoc { q with n := 8 } ea (l.off (8 * i)))
  let n := ((← readS a)).toNat
  let st := (← get).appendStatus (← hart).ctx n { words := ws }
  if st = 0 then
    releasePart 4
    set (← ownArea (fun s k => s.append k n { words := ws }))
  writeS d (BitVec.ofNat 64 st)
  modify (fun s => s.pollWords (some s.me.ctx))

end Sys2Proof.Machine
end

