-- ==== Sys2Proof/Machine/Pipe.lean ====
section
/-!
DEFINITION. How a hart moves: fetch and decode (R66 to R71, R83), the checks at hand-over (orders 11 and 12 of R83), the
retirement of an instruction, covered convoys (R70, R121), the scalar core running ahead of the vector side (R85, R406)
and the points at which pre-emption and asynchronous faults are taken (R262, R269).
-/

namespace Sys2Proof.Machine

/-! ### Fetch (R66, R67) -/

/-- What stands at a program counter. -/
inductive Fetched
  | one (i : Instr)
  | convoy (ms : List Instr)
  deriving DecidableEq, Repr

/-- Why a fetch ends, and the address of the last parcel it asked for. -/
abbrev FetchStop := Stop × BitVec 55

/-- One parcel: its fault is reported at `at_`, as an instruction fetch (R67, R91). `k` counts the outbound reads
taken. -/
def State.parcelAt (s : State) (va : BitVec 55) (at_ : BitVec 64) (k : Nat) : Except FetchStop (Parcel × Nat) :=
  match s.translate s.coreNo s.me.ctx .fetch va.toNat with
  | .cause c => .error (.trap c 3 at_, va)
  | .hold => .error (.hold, va)
  | .ok x =>
    if Config.pcieBase ≤ x.pa then
      match s.me.devReads[k]? with
      | some w => .ok (w.setWidth 32, k + 1)
      | none => if s.me.devError then .error (.trap cAccess 0x8003#64 at_, va) else .error (.post x.pa 4, va)
    else if s.dramPoisoned s.coreNo x.pa 4 || (wordsAt x.pa 4).any (s.core s.coreNo).ibad.contains then
      .error (.trap cPoison 3 at_, va)
    else .ok (BitVec.ofNat 32 (ofBytes ((List.range 4).map (fun i => s.byteAt s.coreNo (x.pa + i)))), k)

/-- The parcels at the positions a header covers, whatever stands there, with the address after them (R67, R68). -/
def State.memberParcels (s : State) : Nat → BitVec 55 → Nat → Except FetchStop (List Parcel × BitVec 55 × Nat)
  | 0, va, k => .ok ([], va, k)
  | n + 1, va, k => do
    let (p, k) ← s.parcelAt va (va.setWidth 64) k
    if twoParcels p then
      let (q, k) ← s.parcelAt (va + 4) (va.setWidth 64) k
      let (t, e, k) ← s.memberParcels n (va + 8) k
      return (p :: q :: t, e, k)
    else
      let (t, e, k) ← s.memberParcels n (va + 4) k
      return (p :: t, e, k)

/-- A condition of R83 as a trap. -/
def Refuse.stop (r : Refuse) : Stop := .trap r.cause r.info 0

/-- What decoding refuses, as a condition of R83. -/
def decodeRefuse (e : DecodeError) : Refuse :=
  match e with
  | .prefixMisuse => .prefixMisuse
  | .badCode => .code
  | _ => .unassigned

/-- A prefix with a parcel after it that it may not stand before: the two are ranked as one instruction, so that orders 2 and
3 of what the parcel holds come before the misuse (R71, R83). -/
def misused (v : LegalEnv) (q : Parcel) : Refuse :=
  match (if pTop q = 2 then decodeVector q 0 else if pTop q < 2 then decodeScalar none q else .error .unassigned) with
  | .ok i => (({ feat := (i.viol v).feat, priv := (i.viol v).priv } : Viol).first).getD .prefixMisuse
  | .error _ => .prefixMisuse

/-- What decoding refuses of the parcels of one instruction, as a condition of R83. -/
def refusedOne (v : LegalEnv) (ws : List Parcel) (e : DecodeError) : Refuse :=
  match e, ws with
  | .prefixMisuse, [_, q] => misused v q
  | e, _ => decodeRefuse e

/-- Decoded parcels of one instruction, the last of them at `va`. -/
def decodedOne (v : LegalEnv) (va : BitVec 55) (ws : List Parcel) : Except FetchStop Fetched :=
  match decode ws with
  | .ok (i, _) => .ok (.one i)
  | .error e => .error (Refuse.stop (refusedOne v ws e), va)

/-- The hart as a VSETL that has been handed over and has not executed will leave VGRP: what stands after it is decoded so. -/
def Hart.decodes (h : Hart) : Hart :=
  (h.win ++ h.vq).foldl (fun h e => e.instrs.foldl (fun h i =>
    match i with
    | .vsetl f => { h with et := f.et, g := f.g }
    | _ => h) h) h

/-- What the legality of the instruction at the PC reads. -/
def State.decodeEnv (s : State) : LegalEnv := { s.legalEnv with g := s.me.decodes.grp }

/-- What the moving hart's PC names, with the outbound reads the fetch took. Every parcel is fetched before the conditions
of R83 are judged, so a fetch fault at any of them comes first (log 72, DESIGN CHOICE). -/
def State.fetch (s : State) : Except FetchStop (Fetched × Nat) := do
  let pc := s.me.pc
  let here := pc.setWidth 64
  let (w, k) ← s.parcelAt pc here 0
  if twoParcels w then
    let (q, k) ← s.parcelAt (pc + 4) here k
    return (← decodedOne s.decodeEnv (pc + 4) [w, q], k)
  else if pTop w = 3 && pSub w = 0 then
    let n := min (headerCount w) 6
    let (ws, e, k) ← s.memberParcels n (pc + 4) k
    let ms := convoyMembers n ws
    match convoyRefuse s.decodeEnv w ms with
    | some r => throw (Refuse.stop r, e - 4)
    | none => return (.convoy (ms.filterMap id), k)
  else return (← decodedOne s.decodeEnv pc [w], k)

/-- Bytes of what was fetched. -/
def Fetched.bytes : Fetched → Nat
  | .one i => instrBytes i
  | .convoy ms => 4 + 8 * ms.length

/-- The walks of a fetch whose last parcel is at `last`, one for each page (R317, log 76). -/
def State.fetchWalks (s : State) (last : BitVec 55) : State :=
  let pc := s.me.pc
  (pc :: if pc.toNat / 0x10000 = last.toNat / 0x10000 then [] else [last]).foldl
    (fun s va => s.walked s.coreNo s.me.ctx va.toNat) s

/-- A fetch that has ended so at a parcel: poison that it met, in the parcel or in a page table, is counted (R384). -/
def State.fetchUsed (s : State) (e : Stop) (last : BitVec 55) : State :=
  match e, s.leafFor s.coreNo s.me.ctx last.toNat with
  | .trap c _ _, .leaf x => if c == cPoison && !ePoison x then s.usedPoison else s
  | .trap c _ _, _ => if c == cPoison then s.usedPoison else s
  | _, _ => s

/-- The state in which a fetched instruction begins: its walks are made and the outbound reads of its fetch taken. -/
def State.fetched (s : State) (f : Fetched) (k : Nat) : State :=
  let s := s.fetchWalks (s.me.pc + BitVec.ofNat 55 (f.bytes - 4))
  if k = 0 then s else s.setMe { s.me with devUsed := k }

/-! ### Device-class memory (R151, R234) -/

/-- Whether a vector-side instruction touches device-class memory (R151, R234), as far as what it touches is known without reading
such memory. -/
def State.meetsDevice (s : State) (i : Instr) : Bool :=
  let h := s.me
  let vm (f : VmF) (form : Form) (need : Need) : Bool :=
    let v := h.vm f form false
    (s.firstDevice ((h.span.filter (v.uses h)).flatMap (v.touches h need))).isSome
  let header (a : BitVec 64) (more : KvMap → Bool) : Bool :=
    (s.firstDevice ((headerReads 0 a).map (fun x => (Need.read, x.2)))).isSome
      || ((((headerReads 0 a).mapM (fun x => s.peekWord x.2)).bind KvMap.ofWords).elim false more)
  match i with
  | .vld f | .vldff f => vm f .unit .read
  | .vlds f => vm f .strided .read
  | .vldx f | .vldxff f => vm f .indexed .read
  | .vst f => vm f .unit .write
  | .vsts f => vm f .strided .write
  | .vstx f => vm f .indexed .write
  | .vtrans f | .vtransff f =>
    header (h.readS f.va) (fun k => h.span.any (fun i => (k.entryAt (h.position f.vb.toNat i)).elim false (s.devClass .read)))
  | .mxld f => (s.deviceOf (tileAccesses f h .read 4).flatten).isSome
  | .mxst f => (s.deviceOf (tileAccesses f h .write (mxType f.et).1.bytes).flatten).isSome
  | .mxstkv f => header (h.readS f.x) (fun k =>
      s.readsDevice (k.rowEntries f h) || (s.deviceOf (k.kvAccesses f .rne h (fun e => s.peekWord e.2)).flatten).isSome)
  | .hinit _ | .hapnd _ | .hld _ | .hspan _ | .hseal _ | .hresume _ | .hfree _ => s.anyDevice (s.hsTouches i)
  | .barinit f | .bararr f | .barwait f | .barkill f => s.anyDevice [h.readS f.va]
  | .xcopy f | .xcopyff f => s.copyDevice f
  | .xinfl f => s.inflDevice f
  | .vsave f => s.anyDevice (pieces64 (h.readS f.va) (h.imagePieces (h.readS f.vb) (h.readS f.x)))
  | .vrest f =>
    let a := h.readS f.va
    let word (i : Nat) : Word := BitVec.ofNat 64 ((s.peekWord (a + BitVec.ofNat 64 (8 * i))).getD 0)
    s.anyDevice (pieces64 a (h.imagePieces (word 0) (word 1)))
  | .vfsave f => s.anyDevice (pieces64 (h.readS f.va) (4 * (h.frame.getD []).length))
  | .vfrest f =>
    let a := h.readS f.va
    s.anyDevice (pieces64 a (max 1 (((s.peekWord a).getD 0) % 65536 / 64)))
  | _ => false

/-! ### What kind of instruction -/

/-- The effect of a vector-side instruction. -/
def vecEffect (i : Instr) : Mach Unit :=
  match i with
  | .vsetl f => effVsetl f
  | .vadd f => effVadd f
  | .vsub f => effVsub f
  | .vmul f => effVmul f
  | .vmulh f => effVmulh f
  | .vdiv f => effVdiv f
  | .vrem f => effVrem f
  | .vmin f => effVmin f
  | .vmax f => effVmax f
  | .vabs f => effVabs f
  | .vneg f => effVneg f
  | .vand f => effVand f
  | .vor f => effVor f
  | .vxor f => effVxor f
  | .vnot f => effVnot f
  | .vsll f => effVsll f
  | .vsrl f => effVsrl f
  | .vsra f => effVsra f
  | .vadds f => effVadds f
  | .vsubs f => effVsubs f
  | .vavg f => effVavg f
  | .vfma f => effVfma f
  | .vfms f => effVfms f
  | .vfnma f => effVfnma f
  | .vsqrt f => effVsqrt f
  | .vrsq f => effVrsq f
  | .vrcp f => effVrcp f
  | .vexp2 f => effVexp2 f
  | .vlog2 f => effVlog2 f
  | .vclamp f => effVclamp f
  | .vscale f => effVscale f
  | .vcvt f => effVcvt f
  | .vdot f => effVdot f
  | .vcmp f => effVcmp f
  | .vmerge f => effVmerge f
  | .vbcast f => effVbcast f
  | .vid f => effVid f
  | .mand f => effMand f
  | .mor f => effMor f
  | .mxor f => effMxor f
  | .mandn f => effMandn f
  | .mnot f => effMnot f
  | .mpop f => effMpop f
  | .mfirst f => effMfirst f
  | .msetn f => effMsetn f
  | .vslideup f => effVslideup f
  | .vslidedn f => effVslidedn f
  | .vperm f => effVperm f
  | .vcompress f => effVcompress f
  | .vexpand f => effVexpand f
  | .vrank f => effVrank f
  | .vextr f => effVextr f
  | .vins f => effVins f
  | .vredsum f => effVredsum f
  | .vredsumo f => effVredsumo f
  | .vredmax f => effVredmax f
  | .vredmin f => effVredmin f
  | .vconf f => effVconf f
  | .vld f => effVld f
  | .vlds f => effVlds f
  | .vldx f => effVldx f
  | .vldff f => effVldff f
  | .vldxff f => effVldxff f
  | .vst f => effVst f
  | .vsts f => effVsts f
  | .vstx f => effVstx f
  | .vpref f => effVpref f
  | .vtrans f => effVtrans f
  | .vtransff f => effVtransff f
  | .vsegadd f => effVsegadd f
  | .mxenter f => effMxenter f
  | .mxleave f => effMxleave f
  | .mxsetc f => effMxsetc f
  | .mxzero f => effMxzero f
  | .mxmac f => effMxmac f
  | .mxld f => effMxld f
  | .mxst f => effMxst f
  | .mxstkv f => effMxstkv f
  | .mxrow f => effMxrow f
  | .mxrowadd f => effMxrowadd f
  | .mxscaler f => effMxscaler f
  | .linit f => effLinit f
  | .lstep f => effLstep f
  | .lrung f => effLrung f
  | .lblend f => effLblend f
  | .lcount f => effLcount f
  | .lsync f => effLsync f
  | .lreset f => effLreset f
  | .hinit f => effHinit f
  | .hapnd f => effHapnd f
  | .hld f => effHld f
  | .hspan f => effHspan f
  | .hseal f => effHseal f
  | .hresume f => effHresume f
  | .hfree f => effHfree f
  | .vamo f => effVamo f
  | .ramo f => effRamo f
  | .rcas f => effRcas f
  | .rstore f => effRstore f
  | .rload f => effRload f
  | .rdrain f => effRdrain f
  | .vfence f => effVfence f
  | .barinit f => effBarinit f
  | .bararr f => effBararr f
  | .barwait f => effBarwait f
  | .barkill f => effBarkill f
  | .gbar f => effGbar f
  | .xcopy f => effXcopy f
  | .xcopyff f => effXcopyff f
  | .xinfl f => effXinfl f
  | .xwait f => effXwait f
  | .xstat f => effXstat f
  | .vfsave f => effVfsave f
  | .vfrest f => effVfrest f
  | .vsave f => effVsave f
  | .vrest f => effVrest f
  | _ => pure ()

/-- Whether an instruction is vector-side. -/
def isVector (i : Instr) : Bool :=
  match i with
  | .vsetl _ | .vadd _ | .vsub _ | .vmul _ | .vmulh _ | .vdiv _ | .vrem _ | .vmin _ | .vmax _ | .vabs _ | .vneg _
  | .vand _ | .vor _ | .vxor _ | .vnot _ | .vsll _ | .vsrl _ | .vsra _ | .vadds _ | .vsubs _ | .vavg _ | .vfma _
  | .vfms _ | .vfnma _ | .vsqrt _ | .vrsq _ | .vrcp _ | .vexp2 _ | .vlog2 _ | .vclamp _ | .vscale _ | .vcvt _
  | .vdot _ | .vcmp _ | .vmerge _ | .vbcast _ | .vid _ | .mand _ | .mor _ | .mxor _ | .mandn _ | .mnot _ | .mpop _
  | .mfirst _ | .msetn _ | .vslideup _ | .vslidedn _ | .vperm _ | .vcompress _ | .vexpand _ | .vrank _ | .vextr _
  | .vins _ | .vredsum _ | .vredsumo _ | .vredmax _ | .vredmin _ | .vconf _ | .vld _ | .vlds _ | .vldx _
  | .vldff _ | .vldxff _ | .vst _ | .vsts _ | .vstx _ | .vpref _ | .vtrans _ | .vtransff _ | .vsegadd _
  | .mxenter _ | .mxleave _ | .mxsetc _ | .mxzero _ | .mxmac _ | .mxld _ | .mxst _ | .mxstkv _ | .mxrow _
  | .mxrowadd _ | .mxscaler _ | .linit _ | .lstep _ | .lrung _ | .lblend _ | .lcount _ | .lsync _ | .lreset _
  | .hinit _ | .hapnd _ | .hld _ | .hspan _ | .hseal _ | .hresume _ | .hfree _ | .vamo _ | .ramo _ | .rcas _
  | .rstore _ | .rload _ | .rdrain _ | .vfence _ | .barinit _ | .bararr _ | .barwait _ | .barkill _ | .gbar _
  | .xcopy _ | .xcopyff _ | .xinfl _ | .xwait _ | .xstat _ | .vfsave _ | .vfrest _ | .vsave _ | .vrest _ => true
  | _ => false

/-- Element-wise instructions (R44, R120, R159), the fault-only-first forms apart. -/
def elementWise (i : Instr) : Bool :=
  match i with
  | .mpop _ | .mfirst _ | .vslidedn _ | .vperm _ | .vcompress _ | .vextr _ | .vins _ | .vredsum _ | .vredsumo _
  | .vredmax _ | .vredmin _ | .vsegadd _ | .vldff _ | .vldxff _ | .vtransff _ => false
  | .vlds f => f.ff == 0
  | .hld _ | .hapnd _ | .vamo _ => false
  | _ => i.unit ≤ 3 || i.unit == 8

/-- Vector-side instructions that set or trim VL, or change the mode. -/
def setsVl (i : Instr) : Bool :=
  match i with
  | .vsetl _ | .mxenter _ | .mxleave _ | .mxsetc _ | .vldff _ | .vldxff _ | .vtransff _ => true
  | .vlds f => f.ff == 1
  | _ => false

/-! ### The checks at hand-over -/

/-- Order 11 of R83. R153 has VPREF trap at decode alone, while R61 and R83 check its slot at issue: it is checked here
(log 79, DEDUCED). -/
def slotIssue (i : Instr) : Mach Unit :=
  match i with
  | .vld f | .vldff f | .vst f => slotCheck f.fmt f.et true
  | .vlds f | .vldx f | .vldxff f | .vsts f | .vstx f | .vpref f => slotCheck f.fmt f.et false
  | .xcopy f | .xcopyff f => slotCheck f.fmt f.et true
  | _ => pure ()

/-- Order 12 of R83, with the asynchronous faults found at hand-over (R269). VPREF is checked as the loads of its mode are
(R143, R162; log 79, DEDUCED). The vector forms of LRUNG and LBLEND need VL, whatever ladder the operand names: the form is
tested here, the ladder's shape later (log 92, DEDUCED). -/
def valueIssue (i : Instr) : Mach Unit :=
  match i with
  | .mand _ | .mor _ | .mxor _ | .mandn _ | .mnot _ | .mpop _ | .mfirst _ | .msetn _ => needVl
  | .vld _ | .vlds _ | .vldff _ | .vst _ | .vsts _ | .vtrans _ | .vtransff _ => needVl
  | .vldx f | .vldxff f | .vstx f | .vsegadd f => do
    needVl
    indexCheck f.et f.fmt
  | .vpref f => do
    needVl
    if f.vd.toNat % 4 = 2 then indexCheck f.et f.fmt
  | .vamo f => do
    needVl
    indexCheck f.et 0
  | .mxmac f => do
    needVl
    rowCheck f
  | .mxld _ | .mxst _ | .mxrow _ | .mxrowadd _ | .mxscaler _ => needVl
  | .lstep f | .lrung f | .lblend f => if f.isVec then needVl else pure ()
  | .hapnd f => do
    needVl
    appendCheck f
    streamFaultCheck f
  | .hld f => do
    needVl
    streamFaultCheck f
  | .hinit f | .hspan f | .hseal f | .hresume f | .hfree f => streamFaultCheck f
  | .xcopy _ | .xcopyff _ | .xinfl _ => needVl
  | .xwait f | .xstat f => tagCheck f
  | _ => pure ()

/-- What a decoded instruction must pass before it begins: the conditions of its fields (R83), registers with an
uncorrectable error (R379), the checks at hand-over. -/
def gate (i : Instr) : Mach Unit := do
  let s ← get
  match i.refuse s.legalEnv with
  | some r => throw (Refuse.stop r)
  | none => pure ()
  checkEcc (i.reads s.me.grp)
  slotIssue i
  valueIssue i

/-- The same for the members of a covered convoy, whose fields the fetch has judged. -/
def gateAll (ms : List Instr) : Mach Unit := do
  let s ← get
  ms.forM (fun i => checkEcc (i.reads s.me.grp))
  ms.forM slotIssue
  ms.forM valueIssue

/-! ### Retirement -/

/-- The fields of a VA or VP instruction. -/
def vaOf (i : Instr) : Option VaF :=
  match i with
  | .vadd f | .vsub f | .vmul f | .vmulh f | .vdiv f | .vrem f | .vmin f | .vmax f | .vabs f | .vneg f | .vand f
  | .vor f | .vxor f | .vnot f | .vsll f | .vsrl f | .vsra f | .vadds f | .vsubs f | .vavg f | .vfma f | .vfms f
  | .vfnma f | .vsqrt f | .vrsq f | .vrcp f | .vexp2 f | .vlog2 f | .vclamp f | .vscale f | .vcvt f | .vdot f
  | .vcmp f | .vmerge f | .vbcast f | .vid f | .mand f | .mor f | .mxor f | .mandn f | .mnot f | .mpop f
  | .mfirst f | .msetn f | .vslideup f | .vslidedn f | .vperm f | .vcompress f | .vexpand f | .vrank f | .vextr f
  | .vins f | .vredsum f | .vredsumo f | .vredmax f | .vredmin f | .vconf f => some f
  | _ => none

/-- Elements that the mask of a VA or VP instruction lets through: mask operations have no inactive ones. -/
def vaElements (h : Hart) (i : Instr) (f : VaF) : List Nat :=
  match i with
  | .mand _ | .mor _ | .mxor _ | .mandn _ | .mnot _ | .msetn _ => h.span
  | _ => h.span.filter (VaF.act f h)

/-- Whether an instruction of the hart `h` writes any element, row or column of the vector, mask and accumulator registers that it
names: none is active where this is false. -/
def Hart.writesAny (h : Hart) (i : Instr) : Bool :=
  match i with
  | .vld f | .vlds f | .vldx f | .vldff f | .vldxff f => h.span.any (h.activeBit f.m 0)
  | .vtrans _ | .vtransff _ | .hld _ => !h.span.isEmpty
  | .mxmac f | .mxld f | .mxscaler f => !(mxSpan f h).isEmpty && !(mxCols f h).isEmpty
  | .mxrow f | .mxrowadd f => !(mxColSpan f h).isEmpty && decide ((h.readS f.vb).toNat < 64)
  | .lrung f | .lblend f => !f.isVec || !h.span.isEmpty
  | .vins f => h.span.contains (h.readS f.vb).toNat
  | i => (vaOf i).elim true (fun f => !(vaElements h i f).isEmpty)

/-- The registers that an instruction of the hart `h` has written (R379): those it names, but where nothing is active the
scalar ones alone. -/
def Hart.wroteRegs (h : Hart) (i : Instr) : List (Nat × Nat) :=
  if h.writesAny i then i.writes h.grp else (i.writes h.grp).filter (fun r => r.1 == 0)

/-- How a step's computation ends, from the state `s` before it. -/
def conclude (s : State) (r : EStateM.Result Stop State Unit) : Host.Outcome State Fault Refusal :=
  match r with
  | .ok _ t => .next t
  | .error (.trap c i a) t => .next (t.takeTrap c i a)
  | .error .hold _ => .next s
  | .error .wait t => .next t
  | .error (.post pa n) _ =>
    .next ({ s with outReads := s.outReads ++ [(s.cur, s.pcieAddr pa, n)] }.setMe { s.me with devWait := some (pa, n) })
  | .error (.busy key tag) _ => .next (s.endTransfer key tag)
  | .error (.area c) t => .next (t.areaKill s.me.ctx c (some (s.cur, s.me)))

/-- The hart past an instruction that wrote the registers `rs`: those hold no error, outbound reads are used up, and the
PC has moved `n` bytes on. -/
def Hart.past (h : Hart) (rs : List (Nat × Nat)) (n : Nat) : Hart :=
  { (h.wrote rs) with devReads := [], devUsed := 0, pc := h.after n }

/-- The moving hart passes an instruction that began at the hart `h0`, where it still is that hart. -/
def complete (h0 : Hart) (i : Instr) (n : Nat) : Mach Unit := do
  let s ← get
  if s.live s.cur && s.me.gang == h0.gang && s.me.index == h0.index then
    modHart (fun h => h.past (h0.wroteRegs i) n)

/-- The LFSR and the count of checks of the moving core as they were: what has not retired is not checked (R139,
R178). -/
def State.uncheck (s t : State) : State :=
  let a := s.core s.coreNo
  let b := t.core s.coreNo
  if a.lfsr = b.lfsr && a.mxCount = b.mxCount then t
  else t.setCore s.coreNo { b with lfsr := a.lfsr, mxCount := a.mxCount }

/-- Whether poison that instructions consume has them issued once more (R377). HLD is handled by R195, and what touches
device-class memory is never performed again (R234). -/
def State.retries (s : State) (ms : List Instr) : Bool :=
  ms.all (fun i => isVector i && !(match i with | .hld _ => true | _ => false) && !s.meetsDevice i)

/-- Whether poison reported at an address is that of its bytes, and not of its page, whose access raises DATA_POISON at once
(R324, R326), nor of a walk, which is read again by itself (R319). -/
def State.bytesPoison (s : State) (a : BitVec 64) : Bool :=
  isSpad a || (match s.leafFor s.coreNo s.me.ctx (a.toNat % 2 ^ 55) with | .leaf e => !ePoison e | _ => false)

/-- A squash (R377): what was performed in memory stays, as the state `u` has it, and the registers are those of the hart
`h`. Its ladders are as the window found them: no step and no merge of the window has happened (R366, R369). -/
def State.squashed (s u : State) (h : Hart) : State := s.uncheck ((s.unladder u).setMe h)

/-- How a vector-side instruction or convoy that begins at the PC ends. One that consumes poison is squashed, and issued once
more from the replay queue (R377). -/
def concludeAt (s : State) (covered : Bool) (ms : List Instr) (n : Nat) (r : EStateM.Result Stop State Unit) :
    Host.Outcome State Fault Refusal :=
  match r with
  | .error (.trap c i a) t =>
    if c = cPoison && s.bytesPoison a && s.retries ms then
      let h := s.me
      let g := { h with devReads := [], devUsed := 0, vc := { h.vc with vstart := 0 }, pc := h.after n }
      .next ((s.squashed t g).pushWin { h.entry covered ms with again := true })
    else conclude s (.error (.trap c i a) t)
  | r => conclude s r

/-- An instruction of the moving hart: `n` is what the PC advances by, 0 where the effect sets the PC. -/
def retire (i : Instr) (n : Nat) (eff : Mach Unit) (s : State) : Host.Outcome State Fault Refusal :=
  concludeAt s false [i] n ((do
    gate i
    eff
    complete s.me i n : Mach Unit).run s)

/-! ### Covered convoys (R70, R121) -/

/-- The members in order, each from the convoy's VSTART. -/
def members (ms : List Instr) (v0 : BitVec 18) : Mach Unit :=
  ms.forM (fun i => do
    modHart (fun h => { h with vc := { h.vc with vstart := v0 } })
    let h0 ← hart
    vecEffect i
    modHart (fun h => h.wrote (h0.wroteRegs i)))

/-- Poison that a convoy has met is counted, whatever of the convoy is undone (R384). -/
def State.convoyUsed (s : State) (e : Stop) : State :=
  match e with
  | .trap c _ a => if c == cPoison && s.bytesPoison a then s.usedPoison else s
  | _ => s

/-- The members run to `bound`, and stopped there by the trap met, where one was. A trap at element j of a convoy of
element-wise members stops all of them at the boundary of j's element group (R70); any other convoy is stopped before
its first element. A member may meet a trap below the boundary of another's: the lowest is taken. -/
def convoyGo (ms : List Instr) (s0 : State) : Nat → Option Nat → Option Stop → EStateM.Result Stop State Unit
  | fuel, bound, met =>
    let v0 := s0.me.vc.vstart
    match (members ms v0).run (if bound.isNone then s0 else s0.setMe { s0.me with spanEnd := bound }) with
    | .ok _ t =>
      match met with
      | none => .ok () t
      | some e => .error e ((s0.uncheck (t.setMe ({ t.me with spanEnd := none }.setVstart (bound.getD 0)))).convoyUsed e)
    | .error (.trap c i a) t =>
      if ms.all elementWise && 0 < s0.me.lanes then
        match fuel with
        | 0 => .error (.trap c i a) (s0.convoyUsed (.trap c i a))
        | fuel + 1 =>
          convoyGo ms s0 fuel (some (max v0.toNat (t.me.vc.vstart.toNat / s0.me.lanes * s0.me.lanes)))
            (some (.trap c i a))
      else .error (.trap c i a) (s0.convoyUsed (.trap c i a))
    | .error e _ => .error e s0

/-- A covered convoy whose members have passed their checks. -/
def convoyRun (ms : List Instr) : Mach Unit := fun s => convoyGo ms s 6 none none

/-- A covered convoy at the moving hart's PC. -/
def retireConvoy (ms : List Instr) (s : State) : Host.Outcome State Fault Refusal :=
  concludeAt s true ms (4 + 8 * ms.length) ((do
    gateAll ms
    convoyRun ms
    modHart (fun h => { h with devReads := [], devUsed := 0, pc := h.after (4 + 8 * ms.length) }) : Mach Unit).run s)

/-- The rows of a matrix instruction that stops at a row boundary (R176). -/
def rowsOf (i : Instr) : Option Nat :=
  match i with
  | .mxmac f | .mxld f | .mxst f | .mxstkv f | .mxscaler f => some (mxRows f)
  | _ => none

/-- A vector-side instruction or a covered convoy that has begun, stopped by a pre-emption at an element-group or row
boundary (R70, R120, R176): the state, and the boundary, which is a free value. Where it cannot be stopped part-way nothing
of it is done; one that meets device-class memory is not (R151), and a VPREF always completes (R153). -/
def State.partRun (s : State) (e : VEntry) : State × Nat :=
  let v0 := e.vc.vstart.toNat
  let h := s.me
  let g := { h with s := e.s, vc := e.vc, pc := e.pc }
  let rows := match e.instrs with
    | [i] => rowsOf i
    | _ => none
  let whole (i : Instr) : Bool := (s.setMe g).meetsDevice i || (match i with | .vpref _ => true | _ => false)
  if (e.instrs.all elementWise || rows.isSome) && !e.instrs.any whole then
    let top := rows.getD h.vl.toNat
    let unit := if rows.isSome then 1 else max 1 h.lanes
    let b := (v0 + Config.freeValue s.fresh % (top + 1)) / unit * unit
    let t := { s with fresh := s.fresh + 1 }
    if b ≤ v0 || top ≤ b then (t, v0)
    else
      match (members e.instrs e.vc.vstart).run (t.setMe { g with spanEnd := some b }) with
      | .ok _ u => (s.uncheck (u.setMe { u.me with spanEnd := none, s := h.s, vc := h.vc, pc := h.pc }), b)
      | .error _ _ => (t, v0)
  else (s, v0)

end Sys2Proof.Machine
end

