-- ==== Sys2Proof/Machine/Ahead.lean ====
section
/-!
DEFINITION. The decoupled sides of a hart: hand-over, issue and execution of its vector side (R85, R121, R234, R282,
R293), the scalar core running ahead of it (R84, R85, R232, R406), and the points at which pre-emption and asynchronous
faults are taken (R140, R262, R269).
-/

namespace Sys2Proof.Machine

/-! ### Hand-over (R85, R282) -/

/-- Nothing of the hart's vector side is left to do. -/
def Hart.idleQueue (h : Hart) : Bool := h.win.isEmpty && h.vq.isEmpty

/-- Scalar registers that entries still in the queue or the window will write; a VSETL that has answered owes nothing. -/
def Hart.owes (h : Hart) : List Nat :=
  (h.win ++ h.vq).flatMap (fun e =>
    if e.given.isSome then []
    else e.instrs.flatMap (fun i => (i.writes h.grp).filterMap (fun r => if r.1 = 0 then some r.2 else none)))

/-- Whether an instruction meets a register still owed. -/
def Hart.clash (h : Hart) (i : Instr) : Bool :=
  ((i.reads h.grp) ++ (i.writes h.grp)).any (fun r => r.1 == 0 && h.owes.contains r.2)

/-- The condition bits that a scalar instruction reads or writes. -/
def bitsOf (i : Instr) : List Nat :=
  match i with
  | .cmpeq c _ _ _ | .cmpne c _ _ _ | .cmplt c _ _ _ | .cmpge c _ _ _ | .cmpltn c _ _ _ | .cmpgen c _ _ _ | .cmpand c _ _ _
  | .cmpieq c _ _ | .cmpine c _ _ | .cmpilt c _ _ | .cmpige c _ _ | .cmpiltn c _ _ | .cmpigen c _ _ | .cmpiand c _ _
  | .fcmpeq c _ _ _ | .fcmpne c _ _ _ | .fcmplt c _ _ _ | .fcmpge c _ _ _ | .bc c _ | .bcn c _ => [c.toNat]
  | .cand d a b | .cor d a b | .cxor d a b | .cnot d a b | .cget d a b | .cfrom d a b => [d.toNat, a.toNat, b.toNat]
  | .sel _ _ b => [b.toNat]
  | .rdctl _ _ i | .wrctl _ _ i => if i = 0x40 then List.range 8 else []
  | _ => []

/-- Whether an instruction meets a condition bit that a BARWAIT of the vector side will write. -/
def Hart.clashBit (h : Hart) (i : Instr) : Bool :=
  (h.win ++ h.vq).any (fun e => e.instrs.any (fun j =>
    match j with
    | .barwait f => f.vd != 0 && (bitsOf i).contains f.vd.toNat
    | _ => false))

/-- Whether the hart's vector side holds an instruction that `p` names. -/
def Hart.pends (h : Hart) (p : Instr → Bool) : Bool := (h.win ++ h.vq).any (fun e => e.instrs.any p)

/-- The progress index of a vector register: the leading elements that its pending producer has completed, none where it
reads as complete (R48, R53). Producers pending between steps are the entries of the window and of the opaque frame, each
with its own VSTART. -/
def Hart.progress (h : Hart) (r : Nat) : Option (BitVec 18) :=
  ((h.frame.getD [] ++ h.win).reverse.find? (fun e => e.instrs.any (fun i => (i.writes h.grp).contains (1, r)))).map
    (fun e => e.vc.vstart)

/-- RAMO, RCAS and RLOAD hold the hart until their results arrive (R205, R406). -/
def holdsHart (i : Instr) : Bool :=
  match i with
  | .ramo _ | .rcas _ | .rload _ => true
  | _ => false

/-- HINIT and HFREE change which streams there are, which the checks of an HS instruction at hand-over look up. -/
def changesStreams (i : Instr) : Bool :=
  match i with
  | .hinit _ | .hfree _ => true
  | _ => false

/-- MXENTER and MXLEAVE change VGRP.MXM. -/
def changesMode (i : Instr) : Bool :=
  match i with
  | .mxenter _ | .mxleave _ => true
  | _ => false

/-- VFSAVE and VFREST give up or bring back a frame, which decides what is legal after them (R222). -/
def movesFrame (i : Instr) : Bool :=
  match i with
  | .vfsave _ | .vfrest _ => true
  | _ => false

/-- VSETL sets VGRP as its fields say, which decoding knows at once. -/
def isVsetl (i : Instr) : Bool := match i with | .vsetl _ => true | _ => false

/-- Whether a check at hand-over reads VL: the index width or the append length (R83, R143, R194). -/
def checksVl (i : Instr) : Bool :=
  match i with
  | .vldx _ | .vldxff _ | .vstx _ | .vsegadd _ | .vpref _ | .vamo _ | .hapnd _ => true
  | _ => false

/-- HS instructions look their stream up at hand-over. -/
def namesStream (i : Instr) : Bool :=
  match i with
  | .hapnd _ | .hld _ | .hspan _ | .hseal _ | .hresume _ => true
  | _ => false

/-- Whether what the PC names must wait for the vector side before it is handed over: for a VL, a register or a stream that
its checks read, or because the hart is held. -/
def Hart.mustWait (h : Hart) (ms : List Instr) : Bool :=
  h.pends (fun i => (setsVl i && !isVsetl i) || movesFrame i) || (h.pends isVsetl && ms.any checksVl) || h.pends holdsHart || ms.any h.clash
    || (h.pends changesStreams && ms.any namesStream)

/-- An instruction or convoy handed over: its operands and control registers are captured, and the PC passes it. With nothing
of its vector side left it is the hart's next convoy from now on (R293). -/
def State.handOver (s : State) (f : Fetched) : State :=
  let h := s.me
  let (ms, covered, n) := match f with
    | .one i => ([i], false, 8)
    | .convoy ms => (ms, true, 4 + 8 * ms.length)
  let check : Mach Unit := match f with
    | .one i => gate i
    | .convoy ms => gateAll ms
  if h.mustWait ms || !s.queueHas s.coreNo (s.cur % 8) ms.length then s
  else
    match check.run (s.setMe h.decodes) with
    | .error _ _ => s
    | .ok _ _ =>
      (s.fetched f 0).setMe
        { h with vq := h.vq ++ [h.entry covered ms]
                 readySince := if h.idleQueue then s.clock else h.readySince
                 waitCount := if h.idleQueue then 0 else h.waitCount
                 vc := { h.vc with vstart := 0 }, pc := h.after n }

/-! ### Issue to the vector sequencer (R85, R234, R282) -/

/-- The hart as it stood when it handed an entry over, as far as the entry captured it. -/
def State.captured (s : State) (e : VEntry) : State := s.setMe { s.me with s := e.s, vc := e.vc }

/-- Whether an entry has a device-class access ahead. -/
def State.entryDevice (s : State) (e : VEntry) : Bool := e.instrs.any (s.captured e).meetsDevice

/-- Whether an entry can issue behind those of the window that are issued: the core receives it, and one that touches
device-class memory issues alone (R85, R234, R282). -/
def State.canIssue (s : State) (e : VEntry) : Bool :=
  let w := s.me.issuedWin
  s.receives e.instrs && (w.isEmpty || !(s.entryDevice e || w.any s.entryDevice))

/-- What an entry answers as it reaches the sequencer: the register and the VL of an MXSETC (R164), and of a VSETL whose
grant does not change (R114). Behind a VSETL that has not answered, the grant may change. -/
def State.answersEarly (s : State) (e : VEntry) : Option (BitVec 6 × BitVec 18) :=
  let h := s.me
  let request (f : BitVec 6) : Word := if f = 0 then 0 else e.s.get f.toFin
  if e.given.isSome || h.issuedWin.any (fun x => x.given.isNone && x.instrs.any isVsetl) then none
  else
    match e.instrs with
    | [.vsetl f] =>
      if groupMask s.nextGrant = h.gmap then some (f.vd, BitVec.ofNat 18 (grantedVl f h.laneCur (request f.va))) else none
    | [.mxsetc f] => some (f.vd, BitVec.ofNat 18 (mxColumns h (request f.va)))
    | _ => none

/-- An entry reaches the vector sequencer: it takes its place in the window, between the issued entries and `rest`, and
answers what it can answer there. -/
def State.toSequencer (s : State) (e : VEntry) (rest : List VEntry) : State :=
  let put (e : VEntry) : State := s.issuing (s.me.issuedWin ++ s.asIssued e :: rest)
  match s.answersEarly e with
  | none => put e
  | some (d, vl) =>
    let u := put { e with given := some vl }
    u.setMe (u.me.writeS d (vl.setWidth 64))

/-- The hart's oldest entry that is not issued, issued where it can be: one of a reissued frame first (R267), then the
oldest of the decoupling queue. -/
def State.issueNext (s : State) : State :=
  let h := s.me
  match h.win.filter (fun e => !e.issued), h.vq with
  | e :: rest, _ => if s.canIssue e then s.toSequencer e rest else s
  | [], e :: t => if s.canIssue e then (s.setMe { h with vq := t }).toSequencer e [] else s
  | [], [] => s

/-- Whether a failed check of the hart's instruction awaits the Assayer: it does not retire, and no pre-emption is taken
(R140, R262). -/
def State.arbitrating (s : State) (key : Nat) : Bool :=
  (s.die (dieOf (key / 8))).failed.any (fun f => f.hart == key)

/-- Whether the hart of a slot can move. -/
def State.canMove (s : State) (key : Nat) : Bool :=
  s.live key && (s.hartAt key).devWait.isNone && !s.arbitrating key

/-- Whether an instruction of the matrix engine waits for another hart's that the core issued before it: the engine serves
them in issue order (R177). One at the PC, with no place yet, comes last. -/
def State.engineBusy (s : State) (ms : List Instr) (seq : Option Nat) : Bool :=
  ms.any (fun i => i.unit == 4)
    && (List.range 8).any (fun k =>
      let key := s.coreNo * 8 + k
      key != s.cur && (s.hartAt key).issuedWin.any (fun e =>
        e.instrs.any (fun i => i.unit == 4) && (match seq with | some n => decide (e.seq < n) | none => true)))

/-- Whether an entry of the window cannot execute yet, being not issued or kept from the matrix engine. -/
def State.notYet (s : State) (e : VEntry) : Bool := !e.issued || s.engineBusy e.instrs (some e.seq)

/-! ### Execution of an entry (R406) -/

/-- What an instruction does to memory, as the orders of R103 and R227 ask: whether it reads, and whether it writes. -/
def memUse (i : Instr) : Bool × Bool :=
  match i with
  | .vpref _ | .mxmac _ | .mxzero _ | .mxrow _ | .mxrowadd _ | .mxscaler _ | .mxenter _ | .mxleave _ | .mxsetc _ | .vsetl _
  | .linit _ | .lstep _ | .lrung _ | .lblend _ | .lcount _ | .lsync _ | .lreset _ => (false, false)
  | .vld _ | .vlds _ | .vldx _ | .vldff _ | .vldxff _ | .vtrans _ | .vtransff _ | .hld _ | .hspan _ | .mxld _ | .vfrest _
  | .vrest _ => (true, false)
  | .vst _ | .vsts _ | .vstx _ | .mxst _ | .vfsave _ | .vsave _ => (false, true)
  | i => if i.unit == 0 || i.unit == 8 then (false, false) else (true, true)

/-- The hart after an entry, `h0` being the hart before it: its own registers, with what the entry has written. -/
def Hart.rejoin (h0 h : Hart) (e : VEntry) : Hart :=
  let rs := e.instrs.flatMap ({ h0 with s := e.s, vc := e.vc } : Hart).wroteRegs
  let own := if e.given.isSome then [] else rs.filter (fun r => r.1 == 0 && r.2 != 0)
  { h.wrote rs with
      s := own.foldl (fun s r => s.set (Fin.ofNat 64 r.2) (h.s.get (Fin.ofNat 64 r.2))) h0.s
      vc := h0.vc, pc := h0.pc }

/-- A trap of the entry `e`, with `rest` issued after it. Where a later scalar instruction has retired, the entries
issued form the opaque frame and the hart stops at its resume point, with TINFO bit 15 set but where a serial fills it
(R204); otherwise the trap is precise (R406). -/
def State.entryTrap (s : State) (h0 : Hart) (e : VEntry) (rest : List VEntry) (stop : BitVec 18) (c : BitVec 8)
    (i a : BitVec 64) : State :=
  let late : BitVec 64 := if c == cLinkTimeout || c == cIndeterminate then 0 else 0x8000
  let h := { s.me with s := if e.passed then h0.s else h0.ungive.s, vc := h0.resumeCtl, pc := h0.pc, win := [], vq := [] }
  if e.passed then
    let epc := match h0.vq with
      | v :: _ => v.pc
      | [] => h0.pc
    let held := { e with vc := { e.vc with vstart := stop } }
    (s.setMe { h with frame := some (held :: rest) }).trapAt c (i ||| late) a epc
  else (s.setMe { h with vc := { h.vc with vstart := stop } }).trapAt c i a e.pc

/-- What executes when an entry's turn comes: a register that holds an uncorrectable error by now raises MACHINE_CHECK
(R379); its scalar operands were captured at hand-over. A VSETL takes the groups that NEXT named at the sequencer (R65).
What an entry stores after a release fence has passed it reaches the scope of the fence (R103, R238). -/
def VEntry.run (e : VEntry) (grp : Nat) : Mach Unit := do
  e.instrs.forM (fun i => checkEcc ((i.reads grp).filter (fun r => r.1 != 0)))
  match e.given, e.instrs with
  | some vl, [.vsetl f] => effVsetlGiven f vl
  | some vl, [.mxsetc _] => effMxsetcGiven vl
  | none, [.vsetl f] => effVsetlAt f e.share
  | _, _ => if e.covered then convoyRun e.instrs else e.instrs.forM vecEffect
  if e.instrs.any (fun i => (memUse i).2) then releaseCaches e.held

/-- Whether poison that an entry consumes has it issued once more (R377). -/
def State.retriesEntry (s : State) (e : VEntry) : Bool := !e.again && (s.captured e).retries e.instrs

/-- The moving hart once its instruction begins: its wait begins anew (R293). -/
def State.unwaited (s : State) : Hart := { s.me with waitCount := 0, readySince := s.clock }

/-- The oldest entry of the window executes, where its turn has come. Where it consumes poison for the first time, the window is
squashed and issued again (R377). -/
def State.runHead (s : State) : Host.Outcome State Fault Refusal :=
  let h0 := s.unwaited
  match h0.win with
  | [] => .next s
  | e :: rest =>
    if s.notYet e then .next s
    else
      match (e.run h0.grp).run (s.setMe { h0 with s := e.s, vc := e.vc, pc := e.pc, win := rest }) with
      | .ok _ t => .next (t.setMe { h0.rejoin t.me e with devReads := [], devUsed := 0 })
      | .error (.trap c i a) t =>
        if c = cPoison && s.bytesPoison a && s.retriesEntry e then
          .next (s.squashed t { h0 with win := { e with again := true } :: rest })
        else .next (t.entryTrap h0 e rest t.me.vc.vstart c i a)
      | .error .wait t => .next (t.setMe { t.me with s := h0.s, vc := h0.vc, pc := h0.pc, win := h0.win })
      | .error x t => conclude s (.error x t)

/-- The hart's oldest vector-side instruction past hand-over executes: it is issued first where it is not. -/
def State.runEntry (s : State) : Host.Outcome State Fault Refusal :=
  (if s.me.win.head?.elim false VEntry.issued then s else s.issueNext).runHead

/-! ### The points at which others come first (R140, R262, R269) -/

/-- Whether a pre-emption is to be taken now (R111, R140, R262): not in privileged mode, nor before the instruction in
progress retires, where its outbound read is done, its wait at a barrier has ended, it was arbitrated, or it is issued once
more after poison (R267). -/
def State.midway (s : State) : Bool :=
  let h := s.me
  !h.devReads.isEmpty || h.devError || h.barEnd.isSome || h.win.any VEntry.again
    || (s.die (dieOf s.coreNo)).replays.any (fun r => r.hart == s.cur)

/-- An asynchronous fault of a stream that the moving hart initialised, to be taken now: the stream and its oldest fault
(R269). -/
def State.asyncFault (s : State) : Option (Stream × BitVec 64) :=
  let h := s.me
  if h.priv || s.midway || h.barWait.isSome || h.gbar.isSome || h.rloadTag.isSome || h.remote.isSome then none
  else s.dies.findSome? (fun d => d.2.streams.findSome? (fun st =>
    if st.ctx == h.ctx && st.hart == (h.gang, h.index) then st.fault.head?.map (fun i => (st, i)) else none))

/-- A pending pre-emption that is to be taken now, with its save block. -/
def State.preDue (s : State) : Option (BitVec 64) :=
  match s.me.pre with
  | .pending blk => if s.me.priv || s.midway then none else some blk
  | _ => none

/-- Whether nothing later of the hart begins, because a pre-emption or an asynchronous fault comes first (R262, R269). -/
def State.due (s : State) : Bool := s.preDue.isSome || s.asyncFault.isSome

/-! ### The issue stage (R121, R293) -/

/-- Whether the issue stage prefers hart `a` to hart `b`: the top age of 1,024 clocks first, the higher count first, then
the one ready first (R293). -/
def Hart.before (a b : Hart) : Bool :=
  if (1024 ≤ a.waitCount) != (1024 ≤ b.waitCount) then 1024 ≤ a.waitCount
  else if 1024 ≤ a.waitCount then b.waitCount < a.waitCount
  else a.readySince < b.readySince

/-- Whether the hart's oldest vector-side instruction has begun and waits in its course: at a barrier, for a remote operation,
or for an outbound read. -/
def Hart.begun (h : Hart) : Bool :=
  h.barWait.isSome || h.barEnd.isSome || h.gbar.isSome || h.rloadTag.isSome || h.remote.isSome || !h.devReads.isEmpty
    || h.devError

/-- Whether the hart at a key has a convoy ready for its core's issue stage: its oldest, which has not begun and could, so that
to run it changes something. Those before it in the hart are complete by then, so every register it reads is, and no
convoy that has begun keeps a unit from it (R121; log 112, DEDUCED). -/
def State.issueReady (s : State) (key : Nat) : Bool :=
  let t : State := { s with cur := key }
  s.canMove key && !t.me.idleQueue && !t.me.begun && t.preDue.isNone
    && (match t.runEntry with | .next u => u != t | _ => true)

/-- The hart whose convoy a core's issue stage chooses, among those with one ready; ties go to the lowest slot (R293). -/
def State.chosen (s : State) (core : Nat) : Option Nat :=
  ((List.range 8).map (core * 8 + ·)).foldl (fun (b : Option Nat) k =>
    if !s.issueReady k then b
    else
      match b with
      | none => some k
      | some j => if (s.hartAt k).before (s.hartAt j) then some k else b) none

/-- Whether a convoy of the moving hart may start or go on: one that has begun, the one the issue stage chooses, or the one at
the PC while no hart of the core has one ready (R293). -/
def State.starts (s : State) : Bool :=
  s.me.begun || s.chosen s.coreNo == if s.me.idleQueue then none else some s.cur

/-- Whether the vector-side instructions that the PC names may start: the issue stage, the window and the matrix engine
receive them (R85, R177, R282, R293). -/
def State.startsAt (s : State) (ms : List Instr) : Bool := s.starts && s.receives ms && !s.engineBusy ms none

/-! ### Running ahead (R84, R85, R232, R406) -/

/-- Scalar instructions without a memory access that run ahead of the vector side. RDCTL of VL, VSTART, VDIRTY and FFLAGS
waits for all of it (R55), that of VGRP and of LANES for what sets them, and a value that waits on nothing is read or written
at once (R84). -/
def runsAhead (h : Hart) (i : Instr) : Bool :=
  match i with
  | .add _ _ _ | .sub _ _ _ | .and _ _ _ | .or _ _ _ | .xor _ _ _ | .sll _ _ _ | .srl _ _ _ | .sra _ _ _ | .min _ _ _
  | .max _ _ _ | .minn _ _ _ | .maxn _ _ _ | .mul _ _ _ | .mulh _ _ _ | .mulhn _ _ _ | .div _ _ _ | .divn _ _ _
  | .rem _ _ _ | .remn _ _ _ | .clz _ _ _ | .ctz _ _ _ | .popc _ _ _ | .sel _ _ _ | .addi _ _ _ | .andi _ _ _
  | .ori _ _ _ | .xori _ _ _ | .slli _ _ _ _ | .srli _ _ _ _ | .srai _ _ _ _ | .lih _ _ _ | .pcadd _ _
  | .cmpeq _ _ _ _ | .cmpne _ _ _ _ | .cmplt _ _ _ _ | .cmpge _ _ _ _ | .cmpltn _ _ _ _ | .cmpgen _ _ _ _
  | .cmpand _ _ _ _ | .cmpieq _ _ _ | .cmpine _ _ _ | .cmpilt _ _ _ | .cmpige _ _ _ | .cmpiltn _ _ _ | .cmpigen _ _ _
  | .cmpiand _ _ _ | .cand _ _ _ | .cor _ _ _ | .cxor _ _ _ | .cnot _ _ _ | .cget _ _ _ | .cfrom _ _ _
  | .fadd _ _ _ _ | .fsub _ _ _ _ | .fmul _ _ _ _ | .fdiv _ _ _ _ | .fsqrt _ _ _ _ | .fmin _ _ _ _ | .fmax _ _ _ _
  | .fcvt _ _ _ _ | .fclass _ _ _ _ | .fma _ _ _ _ | .fms _ _ _ _ | .fnma _ _ _ _
  | .fcmpeq _ _ _ _ | .fcmpne _ _ _ _ | .fcmplt _ _ _ _ | .fcmpge _ _ _ _
  | .bc _ _ | .bcn _ _ | .j _ _ | .jr _ _ _ | .iwait _ _ _ | .pref _ _ _ => true
  | .rdctl _ _ i =>
    !(i == 0x10 || i == 0x12 || i == 0x14 || i == 0x31) && !(i == 0x11 && h.pends (fun j => isVsetl j || changesMode j))
      && !(i == 0x13 && h.pends isVsetl)
  | .wrctl _ _ _ => true
  | .yield _ => !h.priv || h.pre == .none
  | _ => false

/-- Whether every later access of the hart waits for a vector-side instruction: an acquire (R195, R227), VFENCE and BARARR,
which performs one (R210, R212), RDRAIN (R249), and XWAIT, whose transfer ends first. -/
def acquires (i : Instr) : Bool :=
  match i with
  | .vld f | .vlds f | .vldx f | .vldff f | .vldxff f | .vtrans f | .vtransff f => f.scope != 0
  | .vamo f => f.scope != 0 && f.succ.getLsbD 0
  | .hld _ | .hspan _ | .bararr _ | .barwait _ | .gbar _ | .vfence _ | .rdrain _ | .xwait _ => true
  | _ => false

/-- Whether an instruction may be overtaken by the hart's later scalar accesses, whatever bytes they touch (R148, R232). -/
def overtakable (i : Instr) : Bool :=
  match i with
  | .vld f | .vlds f | .vldx f | .vldff f | .vldxff f | .vst f | .vsts f | .vstx f | .vsegadd f => f.ovt == 1
  | i => memUse i == (false, false)

/-- What a scalar instruction does to memory where it is an access (R227): whether it writes, and whether it is a release. -/
def scalarAccess (i : Instr) : Option (Bool × Bool) :=
  match i with
  | .ldb _ _ _ | .ldbn _ _ _ | .ldh _ _ _ | .ldhn _ _ _ | .ldw _ _ _ | .ldwn _ _ _ | .ldd _ _ _ => some (false, false)
  | .stb _ _ _ | .sth _ _ _ | .stw _ _ _ | .std _ _ _ => some (true, false)
  | .amofadd _ _ _ o _ | .amoadd _ _ _ o _ | .amomin _ _ _ o _ | .amomax _ _ _ o _ | .amoand _ _ _ o _ | .amoor _ _ _ o _
  | .amoxor _ _ _ o _ | .amoswap _ _ _ o _ | .cas _ _ _ o _ _ _ => some (true, o.getLsbD 1)
  | .qput _ _ _ _ | .ipost _ _ _ => some (true, true)
  | _ => none

/-- The address of a scalar access to memory, and what it needs there. -/
def Hart.accessOf (h : Hart) (i : Instr) : Option (Need × BitVec 64) :=
  match i with
  | .ldb _ a x | .ldbn _ a x | .ldh _ a x | .ldhn _ a x | .ldw _ a x | .ldwn _ a x | .ldd _ a x => some (.read, h.readS a + immValue x)
  | .stb _ a x | .sth _ a x | .stw _ a x | .std _ a x => some (.write, h.readS a + immValue x)
  | .amofadd _ a _ _ _ | .amoadd _ a _ _ _ | .amomin _ a _ _ _ | .amomax _ a _ _ _ | .amoand _ a _ _ _ | .amoor _ a _ _ _
  | .amoxor _ a _ _ _ | .amoswap _ a _ _ _ | .cas _ a _ _ _ _ _ => some (.rmw, h.readS a)
  | _ => none

/-- An entry carried out from a state: how it ends early, if it does, and the state then. -/
def State.stepped (s : State) (e : VEntry) : Option Stop × State :=
  let h0 := s.me
  match (e.run h0.grp).run (s.setMe { h0 with s := e.s, vc := e.vc, pc := e.pc }) with
  | .ok _ t => (none, t.setMe (h0.rejoin t.me e))
  | .error x t => (some x, t.setMe { t.me with s := h0.s, vc := h0.vc, pc := h0.pc })

/-- A scalar instruction that runs ahead has retired: the hart has gone on, with nothing awaited, in its mode but after
ERET. Any other ending of it (a trap, a wait) is left until the vector side is empty. -/
def State.hasPassed (s t : State) (i : Instr) : Bool :=
  let h := s.me
  let g := t.me
  t.live s.cur && g.gang == h.gang && g.index == h.index && g.devWait.isNone && g.pc != h.pc
    && (g.priv == h.priv || (match i with | .eret _ => true | _ => false))

/-- Whether a scalar access and an entry of the window make one state in either order: they meet in no byte, and nothing
else orders them (R148, R227). -/
def State.commutes (s : State) (run : Instr → State → Host.Outcome State Fault Refusal) (i : Instr) (e : VEntry) : Bool :=
  let b := s.stepped e
  match run i s, run i b.2 with
  | .next t, .next u =>
    let a := t.stepped e
    s.hasPassed t i && b.2.hasPassed u i && a.1 == b.1 && a.2 == u
  | _, _ => false

/-- Whether a scalar access passes every entry of a window, those before an entry having been carried out. -/
def State.passes (s : State) (run : Instr → State → Host.Outcome State Fault Refusal) (i : Instr) : List VEntry → Bool
  | [] => true
  | e :: t => (e.instrs.all overtakable || s.commutes run i e) && (s.stepped e).2.passes run i t

/-- Whether the entries of a window, one after another, retire without a trap. -/
def State.goesWell (s : State) : List VEntry → Bool
  | [] => true
  | e :: t => (s.stepped e).1.isNone && (s.stepped e).2.goesWell t

/-- Whether a scalar access may pass a window as far as device-class memory goes: it keeps its place behind any other access to
such memory (R227), and what it reads there is read once nothing before it can trap (R91). -/
def State.deviceMay (s : State) (i : Instr) (w : List VEntry) : Bool :=
  match s.me.accessOf i with
  | none => true
  | some (need, ea) =>
    isSpad ea || !s.devClass need ea || (!w.any s.entryDevice && (need == .write || s.goesWell w))

/-- Accesses of class VM that a release fence need not wait for: later writes wait for them instead (R103). -/
def heldBack (i : Instr) : Bool :=
  memUse i == (false, false)
    || (match i with
        | .vld _ | .vlds _ | .vldx _ | .vldff _ | .vldxff _ | .vst _ | .vsts _ | .vstx _ | .vsegadd _ => true
        | _ => false)

/-- Whether the scalar instruction may retire while the vector side has work left, all of it issued (R84, R85). A FENCE
waits for the reads that its kind orders before every later access; before later writes alone it orders what it passes (R103). A
release waits for every access (R227), any access for the acquires before it and for the entries that its bytes meet, and a
write for the entries that a release fence has passed. ERET waits for the frame, and for what may trap in the mode that it
leaves; the window and the frame that it issues again hold 64 instructions at most (R85). -/
def State.mayPass (s : State) (run : Instr → State → Host.Outcome State Fault Refusal) (i : Instr) : Bool :=
  let w := s.me.win
  let none_ (p : Instr → Bool) : Bool := w.all (fun e => e.instrs.all (fun j => !p j))
  let noReads := none_ (fun j => (memUse j).1)
  let release := none_ (fun j => !heldBack j)
  runsAhead s.me i
    || (match i with
        | .fenceacq _ _ _ _ _ => noReads
        | .fencerel _ _ _ _ _ => release
        | .fencear _ _ _ _ _ | .fencesc _ _ _ _ _ => noReads && release
        | .eret _ =>
          none_ movesFrame && s.goesWell w && entriesOf (w ++ s.me.frame.getD []) (fun _ => true) ≤ 64
        | i =>
          match scalarAccess i with
          | none => false
          | some (writes, rel) =>
            none_ acquires && !(writes && w.any (fun e => e.held != 0)) && (!rel || none_ (fun j => memUse j != (false, false)))
              && s.deviceMay i w && s.passes run i w)

/-- The scope of a FENCE that orders what stands before it before every later write, 0 for anything else (R103). -/
def releaseScope (i : Instr) : Nat :=
  match i with
  | .fencerel _ _ _ scope _ | .fencear _ _ _ scope _ | .fencesc _ _ _ scope _ => scope.toNat
  | _ => 0

/-- The entries of a window as a scalar instruction that retires ahead of them leaves them: passed, and where it is a
release fence, their accesses held before any later write (R103, R232). -/
def passedBy (i : Instr) (w : List VEntry) : List VEntry :=
  w.map (fun e =>
    { e with passed := true
             held := if e.instrs.any (fun j => memUse j != (false, false)) then max e.held (releaseScope i) else e.held })

/-- The hart's next instruction while its vector side has work left: a vector-side one is handed over, a scalar one
retires where nothing of the queue is left to issue and it owes the vector side nothing. -/
def State.aheadTurn (s : State) (run : Instr → State → Host.Outcome State Fault Refusal) :
    Host.Outcome State Fault Refusal :=
  let h := s.me
  if !s.canMove s.cur || s.due then .next s
  else
    match s.fetch with
    | .ok (.one i, 0) =>
      if isVector i then .next (s.handOver (.one i))
      else if h.vq.isEmpty && h.allIssued && !h.pends holdsHart && !h.clash i && !h.clashBit i && s.mayPass run i then
        match run i ((s.setMe { h with win := passedBy i h.win }).fetched (.one i) 0) with
        | .next t => .next (if s.hasPassed t i then t else s)
        | o => o
      else .next s
    | .ok (.convoy ms, 0) => .next (s.handOver (.convoy ms))
    | _ => .next s

/-! ### The turn of a hart -/

/-- An arbitrated instruction, the hart's oldest of the vector side, waits no more once it has retired or trapped: a hand-over
of it, or of one after it, is no such end (R140). -/
def State.replayed (s : State) (o : Host.Outcome State Fault Refusal) : Host.Outcome State Fault Refusal :=
  let dn := dieOf s.coreNo
  if !(s.die dn).replays.any (fun r => r.hart == s.cur) then o
  else
    match o with
    | .next t =>
      let h := s.me
      let g := t.me
      let left (h : Hart) : Nat := (h.win ++ h.vq).length
      if t.live s.cur && g.gang == h.gang && g.index == h.index && g.priv == h.priv && left h ≤ left g
          && (0 < left g || g.pc == h.pc) then .next t
      else .next (t.setDie dn { t.die dn with replays := (t.die dn).replays.filter (fun r => r.hart != s.cur)
                                              twice := (t.die dn).twice.filter (· != s.cur) })
    | o => o

/-- That fault taken. -/
def State.takeStreamFault (s : State) (st : Stream) (info : BitVec 64) : State :=
  (s.putStream { st with fault := st.fault.drop 1 }).takeTrap cStreamFault info st.va

/-- What the PC names, executed; what is vector-side, once it may start. -/
def State.fetchTurn (s : State) (run : Instr → State → Host.Outcome State Fault Refusal) :
    Host.Outcome State Fault Refusal :=
  match s.fetch with
  | .error (e, last) => conclude s (.error e ((s.fetchWalks last).fetchUsed e last))
  | .ok (f, k) =>
    match f with
    | .one i => if isVector i && !s.startsAt [i] then .next s else run i (s.fetched f k)
    | .convoy ms => if s.startsAt ms then retireConvoy ms (s.fetched f k) else .next s

/-- The moving hart's next act: a pre-emption or an asynchronous fault that waits for it, what its vector side has left
to do, or the instruction at its PC. Of the two, both due at one boundary, the pre-emption comes first here; the event
STREAM_FAULT_DELIVERY takes the fault first (log 107, DESIGN CHOICE). -/
def State.hartTurn (s : State) (run : Instr → State → Host.Outcome State Fault Refusal) :
    Host.Outcome State Fault Refusal :=
  if !s.canMove s.cur then .next s
  else
    match s.preDue with
    | some blk => .next (s.takePreempt blk)
    | none =>
      s.replayed
        (if !s.me.idleQueue then (if s.starts then s.runEntry else .next s)
         else
           match s.asyncFault with
           | some (st, i) => .next (s.takeStreamFault st i)
           | none => s.fetchTurn run)

/-- An act of another hart or agent, after which the same hart moves on. -/
def State.as (s : State) (key : Nat) (f : State → Host.Outcome State Fault Refusal) : Host.Outcome State Fault Refusal :=
  match f { s with cur := key } with
  | .next t => .next { t with cur := s.cur }
  | o => o

end Sys2Proof.Machine
end

