-- ==== Sys2Proof/Machine/HartEvents.lean ====
section
/-!
DEFINITION. The events of a hart: hand-over, issue and retirement of its vector side, checks that fail with their
arbitration and replay (R139, R140, R178, R371, R372, R377), trap entry, the watchdog, pre-emption (R260 to R269), and the
scheduler's events that a hart's control registers bring about (R281, R289, R386).
-/

namespace Sys2Proof.Machine

/-- An event of the hart at a key, where that hart can move. -/
def State.byHart (s : State) (key : Nat) (f : State → Host.Outcome State Fault Refusal) : Host.Outcome State Fault Refusal :=
  if s.canMove key then s.as key (fun s => s.replayed (f s)) else .next s

/-- An event that begins an instruction of the hart: not where a pre-emption or an asynchronous fault comes first (R262,
R269). -/
def State.byHartNext (s : State) (key : Nat) (f : State → Host.Outcome State Fault Refusal) :
    Host.Outcome State Fault Refusal :=
  s.byHart key (fun s => if s.due then .next s else f s)

/-- An event of what the hart's vector side has in hand: an asynchronous fault comes first only where that is nothing. -/
def State.byVector (s : State) (key : Nat) (f : State → Host.Outcome State Fault Refusal) :
    Host.Outcome State Fault Refusal :=
  s.byHart key (fun s =>
    if s.preDue.isSome || (s.me.idleQueue && s.asyncFault.isSome) then .next s else f s)

/-- What the PC names, where the fetch takes no outbound read. -/
def State.peekFetch (s : State) : Option Fetched :=
  match s.fetch with
  | .ok (f, 0) => some f
  | _ => none

/-- VECTOR_HANDOVER (R85): the vector-side instruction or covered convoy at the PC. -/
def evVectorHandover (key : Nat) (s : State) : Host.Outcome State Fault Refusal :=
  s.byHartNext key (fun s =>
    match s.peekFetch with
    | some (.one i) => .next (if isVector i then s.handOver (.one i) else s)
    | some (.convoy ms) => .next (s.handOver (.convoy ms))
    | none => .next s)

/-- DECOUPLING_ISSUE (R85, R282): the oldest entry of the hart's queue, or of a frame that is issued again, leaves it for the
vector sequencer, where there is room for it. -/
def evDecouplingIssue (key : Nat) (s : State) : Host.Outcome State Fault Refusal :=
  s.byVector key (fun s => .next s.issueNext)

/-- The vector-side instruction or covered convoy that the PC names as an entry, where it passes its checks. -/
def State.pcEntry (s : State) : Option VEntry :=
  match s.peekFetch with
  | some (.one i) =>
    if isVector i && (match (gate i).run s with | .ok _ _ => true | _ => false) then some (s.me.entry false [i]) else none
  | some (.convoy ms) => if (match (gateAll ms).run s with | .ok _ _ => true | _ => false) then some (s.me.entry true ms) else none
  | none => none

/-- The hart's oldest vector-side instruction executes, where the issue stage starts it (R293): one past hand-over, or the one at
its PC, where the core receives it. -/
def State.vectorTurn (s : State) : Host.Outcome State Fault Refusal :=
  if !s.me.idleQueue then (if s.starts then s.runEntry else .next s)
  else
    match s.peekFetch with
    | some (.one i) => if isVector i && s.startsAt [i] then retire i 8 (vecEffect i) (s.fetched (.one i) 0) else .next s
    | some (.convoy ms) => if s.startsAt ms then retireConvoy ms (s.fetched (.convoy ms) 0) else .next s
    | none => .next s

/-- CONVOY_ISSUE (R121, R293): the units are free and the inputs complete at once. -/
def evConvoyIssue (key : Nat) (s : State) : Host.Outcome State Fault Refusal := s.byVector key State.vectorTurn

/-! ### Checks that fail -/

/-- The hart's oldest vector-side instruction, with the hart as it captured its operands. One at the PC that its checks
refuse is none (R83, R139). -/
def State.oldest (s : State) : Option (List Instr × Hart) :=
  let h := s.me
  match h.win ++ h.vq ++ s.pcEntry.toList with
  | e :: _ => some (e.instrs, { h with s := e.s, vc := e.vc })
  | [] => none

/-- The lane group that holds an element: lanes are counted in ascending order over the groups granted, four to a group
(R3, R50, R139). -/
def Hart.groupOf (h : Hart) (i : Nat) : Nat :=
  ((groups.filter (fun k => h.gmap.getLsbD k)).getD (i % max 1 h.lanes / 4) 0)

/-- A check of the moving hart's core that fails against a unit (R371, R374); `f` is the LFSR after its step. -/
def State.checkFails (s : State) (unit : Nat) (f : BitVec 32) (again : Bool) : State :=
  let c := s.core s.coreNo
  let s := s.setCore s.coreNo { c with lfsr := f, mism := BitVec.ofNat 16 (min (c.mism.toNat + 1) 65535) }
  let d := s.die (dieOf s.coreNo)
  s.setDie (dieOf s.coreNo) { d with failed := d.failed ++ [{ core := s.coreNo, unit := unit, hart := s.cur, again := again }] }

/-- The lane groups judged wrong for the hart's instruction that is to be replayed; none where it is not (R372). -/
def State.wrongFor (s : State) (key : Nat) : Option (List Nat) :=
  ((s.die (dieOf (key / 8))).replays.find? (fun r => r.hart == key)).map Replay.wrong

/-- The healthy lane group that the Assayer lends for a replay: the core's lowest-numbered with a score below 128 that was
not judged wrong (R372). -/
def Core.lent (c : Core) (wrong : List Nat) : Option Nat := groups.find? (fun k => c.score k < 128 && !wrong.contains k)

/-- The lane group that a check of the moving hart's element `i` is attributed to: where it lies (R139), or in a replay the
group lent (R372). -/
def State.checkedGroup (s : State) (h : Hart) (i : Nat) : Nat :=
  match s.wrongFor s.cur with
  | some wrong => ((s.core s.coreNo).lent wrong).getD (h.groupOf i)
  | none => h.groupOf i

/-- The failed check of a VA or VP instruction: the element the LFSR chooses names the lane group (R139). In a covered
convoy any such member's may fail, which one being open; those before it have drawn for their own. -/
def State.laneFails (s : State) : State :=
  match s.oldest with
  | none => s
  | some (ms, h) =>
    let js := (List.range ms.length).filter (fun j => (ms[j]?.bind vaOf).isSome)
    let (j, s) := match js with
      | [j] => (j, s)
      | js => (js.getD (Config.freeValue s.fresh % max 1 js.length) 0, { s with fresh := s.fresh + 1 })
    match (members (ms.take j) h.vc.vstart).run (s.setMe h), ms[j]?.bind (fun i => (vaOf i).map (fun f => (i, f))) with
    | .ok _ t, some (i, f) =>
      let h := { t.me with vc := h.vc }
      let es := vaElements h i f
      let r := lfsrStep (t.core s.coreNo).lfsr
      if es.isEmpty then s else s.checkFails (s.checkedGroup h (es.getD (r.toNat % es.length) 0)) r false
    | _, _ => s

/-- SPOT_CHECK (R139): where the bits agree the instruction retires, otherwise it does not and the Assayer is called
(R140). -/
def evSpotCheck (key : Nat) (agrees : Bool) (s : State) : Host.Outcome State Fault Refusal :=
  s.byVector key (fun s =>
    match s.oldest with
    | some (ms, _) =>
      if ms.any (fun i => (vaOf i).isSome) then (if agrees then s.vectorTurn else .next s.laneFails) else .next s
    | none => .next s)

/-- Matrix arithmetic (R178). -/
def isMatrixArith (i : Instr) : Bool :=
  match i with
  | .mxmac _ | .mxrowadd _ | .mxscaler _ | .mxstkv _ => true
  | _ => false

/-- Whether the instruction's execution brings the core's count of matrix arithmetic to a multiple of 16 (R178). -/
def State.matrixDue (s : State) : Bool :=
  match s.vectorTurn with
  | .next t =>
    let n := (t.core s.coreNo).mxCount
    n != (s.core s.coreNo).mxCount && n % 16 == 0
  | _ => false

/-- The failed check of a matrix arithmetic instruction. -/
def State.engineFails (s : State) (again : Bool) : State := s.checkFails 17 (lfsrStep (s.core s.coreNo).lfsr) again

/-- Whether the engine has been judged wrong for the hart's instruction (R372). -/
def State.wrongBefore (s : State) : Bool := (s.die (dieOf s.coreNo)).twice.contains s.cur

/-- MATRIX_SPOT_CHECK (R178): every sixteenth matrix arithmetic instruction is checked. -/
def evMatrixSpotCheck (key : Nat) (agrees : Bool) (s : State) : Host.Outcome State Fault Refusal :=
  s.byVector key (fun s =>
    match s.oldest with
    | some (ms, _) =>
      if ms.any isMatrixArith then
        if agrees then s.vectorTurn
        else .next (if s.matrixDue then s.engineFails s.wrongBefore else s)
      else .next s
    | none => .next s)

/-- INSTRUCTION_REPLAY (R140, R372): the whole instruction runs again, and its check with it. Of a covered convoy with a
failed check every member runs and is checked again, those before the failing one too (log 90, DESIGN CHOICE). -/
def evInstructionReplay (key : Nat) (agrees : Bool) (s : State) : Host.Outcome State Fault Refusal :=
  s.byVector key (fun s =>
    if agrees then s.vectorTurn
    else
      match s.oldest with
      | some (ms, _) =>
        if ms.any (fun i => (vaOf i).isSome) then .next s.laneFails
        else if ms.any isMatrixArith then .next (s.engineFails s.wrongBefore)
        else .next s
      | none => .next s)

/-- The helper of an arbitration for a core: the next enabled core of the die in ascending number, wrapping, and its
lowest-numbered lane group that is not quarantined (R371). -/
def State.helper (s : State) (core : Nat) : Option (Nat × Nat) :=
  let d := dieOf core * 48
  ((List.range' 1 47).map (fun i => d + (core - d + i) % 48)).findSome? (fun c =>
    if (s.core c).withdrawn then none else (groups.find? (fun k => lg (s.core c).laneMap k != 14)).map (fun k => (c, k)))

/-- The verdict, by which of the two results, which differ, agrees with the third execution (R371). -/
def verdict (unitAgrees scalarAgrees : Bool) : Verdict :=
  if scalarAgrees then .unit else if unitAgrees then .scalar else .both

/-- ASSAYER_ARBITRATION (R371, R372): the oldest failed check of the die is judged by a third execution on a helper core,
which says who is wrong; with no helper it waits. The instruction is replayed before its hart is pre-empted (R140). An
engine judged wrong a second time for the same instruction, whatever was judged between, is quarantined, and the instruction
raises MACHINE_CHECK. -/
def evAssayerArbitration (dn : Nat) (v : Verdict) (s : State) : Host.Outcome State Fault Refusal :=
  let d := s.die dn
  match d.failed with
  | [] => .next s
  | f :: rest =>
    if (s.helper f.core).isNone then .next s
    else
      let unitWrong := v != .scalar
      let engine := unitWrong && f.unit == 17
      let wrong := (s.wrongFor f.hart).getD [] ++ if unitWrong && f.unit < 16 then [f.unit] else []
      let s := s.setDie dn { d with failed := rest
                                    replays := if engine && f.again || !s.live f.hart then d.replays
                                               else { hart := f.hart, wrong := wrong } :: d.replays.filter (fun r => r.hart != f.hart)
                                    twice := if !engine then d.twice else d.twice.filter (· != f.hart) ++ if f.again then [] else [f.hart] }
      let s := if unitWrong && !(engine && f.again) then s.judge f.core f.unit else s
      let s := if v != .unit then s.judge f.core 16 else s
      if engine && f.again && s.live f.hart then
        s.as f.hart (fun s =>
          let (h, epc, late) := s.me.stop
          let s := (s.setMe (h.setVstart 0)).trapAt cMachineCheck (if late then 0xA000#64 else 0x2000#64) 0 epc
          .next (s.setScore f.core 17 128))
      else .next s

/-- The entries of the hart's window as they first issued; what the PC names, where nothing is issued and it may start. -/
def State.window (s : State) : List VEntry :=
  if s.me.idleQueue then s.pcEntry.toList.filter (fun e => s.startsAt e.instrs) else s.me.win

/-- What the window leaves behind where one of its instructions consumes poison for the first time, and that one's place. One that
cannot execute yet ends it. -/
def State.consumed (s : State) : List VEntry → Nat → Option (State × Nat)
  | [], _ => none
  | e :: t, n =>
    if !s.me.idleQueue && s.notYet e then none
    else
      match (e.run s.me.grp).run (s.setMe { s.me with s := e.s, vc := e.vc, pc := e.pc }) with
      | .ok _ u => u.consumed t (n + 1)
      | .error (.trap c _ a) u => if c = cPoison && s.bytesPoison a && s.retriesEntry e then some (u, n) else none
      | .error _ _ => none

/-- A window squashed and issued again from the VSTART at which each entry first issued, entry `k` of it having consumed
poison (R377). What the PC named has been issued by then. -/
def State.reissued (s u : State) (k : Nat) : State :=
  let h := s.me
  let mark (w : List VEntry) : List VEntry := w.zipIdx.map (fun e => if e.2 = k then { e.1 with again := true } else e.1)
  if h.idleQueue then
    s.window.foldl (fun t e => t.pushWin { e with again := true })
      (s.squashed u { h with vc := { h.vc with vstart := 0 }, pc := h.after (match s.peekFetch with | some f => f.bytes | none => 0) })
  else s.squashed u { h with win := mark h.win }

/-- POISON_REISSUE (R377): where an instruction of the window consumes poison, the window is squashed, and its entries are
issued again; their memory effects are performed again then (R233). An instruction that executes and consumes poison brings
this about by itself. -/
def evPoisonReissue (key : Nat) (s : State) : Host.Outcome State Fault Refusal :=
  s.byVector key (fun s => .next (match s.consumed s.window 0 with
    | some (u, k) => s.reissued u k
    | none => s))

/-! ### Traps, pre-emption and retirement -/

/-- The causes that an instruction's trap may have: those R57 assigns, but PREEMPT, which has its own entry (R263), and
WATCHDOG, which is never taken as a trap. -/
def trapCause (c : BitVec 8) : Bool := 1 ≤ c.toNat && c.toNat ≤ 0x12 && c != cPreempt && c != cWatchdog

/-- TRAP_ENTRY (R261): earlier vector-side instructions retire first, and a wait at a barrier that has ended (R307). -/
def evTrapEntry (key : Nat) (cause : BitVec 8) (info addr : BitVec 64) (s : State) : Host.Outcome State Fault Refusal :=
  s.byHartNext key (fun s =>
    if !s.me.idleQueue || s.me.barEnd.isSome then s.vectorTurn
    else if trapCause cause then .next (s.takeTrap cause info addr)
    else .next s)

/-- PRIVILEGE_WATCHDOG (R260). -/
def evPrivilegeWatchdog (key : Nat) (s : State) : Host.Outcome State Fault Refusal :=
  let h := s.hartAt key
  .next (if s.live key && h.priv && h.privSince + 2 ^ 24 ≤ s.clock then
           s.kill h.ctx 4 cWatchdog (some (h.epc.toNat, hartTag h key))
         else s)

/-- PREEMPT_TAKEN (R262): at a boundary, or part-way in the vector-side instruction that executes: the oldest issued one, or
the one at the PC. -/
def evPreemptTaken (key : Nat) (s : State) : Host.Outcome State Fault Refusal :=
  s.byHart key (fun s =>
    match s.preDue with
    | none => .next s
    | some blk =>
      let s := match s.me.win, s.me.idleQueue, s.pcEntry with
        | e :: rest, _, _ =>
          if s.notYet e then s
          else
            let (t, b) := s.partRun e
            t.setMe { t.me with win := { e with vc := { e.vc with vstart := BitVec.ofNat 18 b } } :: rest }
        | [], true, some e =>
          if s.startsAt e.instrs then
            let (t, b) := s.partRun e
            t.setMe (t.me.setVstart b)
          else s
        | [], _, _ => s
      .next (s.takePreempt blk))

/-- HART_RETIREMENT (R108): the HALT at the PC, once its drain has ended. -/
def evHartRetirement (key : Nat) (s : State) : Host.Outcome State Fault Refusal :=
  s.byHartNext key (fun s =>
    match s.peekFetch with
    | some (.one (.halt z)) => if s.me.idleQueue then retire (.halt z) 0 effHalt (s.fetched (.one (.halt z)) 0) else .next s
    | _ => .next s)

/-- STREAM_FAULT_DELIVERY (R269). It takes the fault before a pre-emption that is due at the same boundary (log 107, DESIGN
CHOICE). -/
def evStreamFaultDelivery (key : Nat) (s : State) : Host.Outcome State Fault Refusal :=
  s.byHart key (fun s =>
    if !s.me.idleQueue then .next s
    else
      match s.asyncFault with
      | some (st, i) => .next (s.takeStreamFault st i)
      | none => .next s)

/-! ### Control registers of a core, written by one of its harts -/

/-- A write by a hart: outside privileged mode it raises PRIVILEGE (R83), and one that the register's rule refuses
ILLEGAL_INSTR (R281, R386). What stands before it on the vector side retires first (R261). -/
def State.ctlEvent (s : State) (key : Nat) (f : State → Option State) : Host.Outcome State Fault Refusal :=
  s.byHartNext key (fun s =>
    if !s.me.idleQueue then s.vectorTurn
    else if !s.me.priv then .next (s.takeTrap cPrivilege 0 0)
    else
      match f s with
      | some t => .next t
      | none => .next (s.takeTrap cIllegal 0x200#64 0))

/-- QMIN_WRITE (R281). -/
def evQminWrite (key : Nat) (v : BitVec 64) (s : State) : Host.Outcome State Fault Refusal :=
  s.ctlEvent key (fun s => s.setQmin s.coreNo v)
/-- QCAP_WRITE (R281). -/
def evQcapWrite (key : Nat) (v : BitVec 64) (s : State) : Host.Outcome State Fault Refusal :=
  s.ctlEvent key (fun s => s.setQcap s.coreNo v)
/-- PWRCAP_WRITE (R386). -/
def evPwrcapWrite (key : Nat) (v : BitVec 64) (s : State) : Host.Outcome State Fault Refusal :=
  s.ctlEvent key (fun s => s.setPwrcap v)

/-- A code written to one field of LANEMAP by a hart (R289). -/
def State.laneEvent (s : State) (key k v : Nat) : Host.Outcome State Fault Refusal :=
  s.ctlEvent key (fun s =>
    some (if k < 16 then s.laneWrite s.coreNo (setLg (s.core s.coreNo).laneMap k v) else s))
/-- LANEMAP_WITHDRAW (R289). -/
def evLanemapWithdraw (key k : Nat) (s : State) : Host.Outcome State Fault Refusal := s.laneEvent key k 13
/-- LANEMAP_RETURN (R289). -/
def evLanemapReturn (key k : Nat) (s : State) : Host.Outcome State Fault Refusal := s.laneEvent key k 0

end Sys2Proof.Machine
end

