-- ==== Sys2Proof/Machine/Pages.lean ====
section
/-!
DEFINITION. Page walks that fill a core's translation cache (R319, R320), the page-command ring and its commands INVAL
and EVICT (R322 to R325, R346).
-/

namespace Sys2Proof.Machine

/-! ### Walks (R317, R319, R320) -/

/-- A leaf found by a walk, with the node it stands in and its level. -/
structure Found where
  entry : BitVec 64
  node : Nat
  lvl : Nat
  deriving DecidableEq, Repr

/-- The leaf for an address, where there is a valid one and no entry on the way is poisoned. -/
def State.findLeaf (s : State) (va : Nat) : Nat → Nat → Option Found
  | lvl, node =>
    let a := node + 8 * (va / 2 ^ (13 * lvl + 16) % 8192)
    if Config.dramEnd ≤ a || s.homePoisoned a 8 then none
    else
      let e := BitVec.ofNat 64 (s.homeRead a 8)
      if !eV e || eBad lvl e then none
      else if eLeaf e then some { entry := e, node := node, lvl := lvl }
      else
        match lvl with
        | 0 => none
        | l + 1 => s.findLeaf va l (eFrame e)

/-- PAGE_WALK: the walk's leaf enters the core's cache, and a HOME that does not name the frame's die is counted. -/
def State.pageWalk (s : State) (core k va : Nat) : State :=
  if Config.cores ≤ core || (s.ctx k).state = 0 then s
  else
    match s.findLeaf va 2 (s.ctx k).ptroot with
    | none => s
    | some f =>
      let size := pageSize (eSz f.entry)
      let base := va / size * size
      let s := s.homeCheck k va
      let c := s.core core
      if c.tlb.any (fun x => x.ctx == k && x.base == base) then s
      else s.setCore core { c with tlb := { ctx := k, base := base, size := size, entry := f.entry } :: c.tlb }

/-! ### The ring (R346) -/

/-- A write of the host port that has no effect is counted (R345, R346). -/
def State.countDrop (s : State) : State := { s with telemetry := { s.telemetry with dropped := satAdd s.telemetry.dropped 1 } }

/-- PCBASE_WRITE. -/
def State.setPcbase (s : State) (v : BitVec 64) : State :=
  if s.pchead != s.pctail || v.toNat % 32 != 0 then s.countDrop else { s with pcbase := v.toNat }
/-- PCSIZE_WRITE. -/
def State.setPcsize (s : State) (v : BitVec 64) : State :=
  if s.pchead != s.pctail || !sizeOk v.toNat then s.countDrop else { s with pcsize := v.toNat }
/-- PAGE_COMMAND_DOORBELL. -/
def State.pageDoorbell (s : State) (v : BitVec 64) : State :=
  if v.toNat ≤ s.pctail then s
  else if s.pcsize < v.toNat - s.pchead then s.countDrop
  else { s with pctail := v.toNat }

/-- The address of the record with a sequence number. -/
def State.recordPa (s : State) (seq : Nat) : Nat := s.pcbase + 32 * (seq % s.pcsize)

/-- The STATUS of a record written, where the record lay when it was taken. -/
def State.pageStatus (s : State) (p : PageCmd) (st : Nat) : State := s.devWrite (p.recAt + 1) (bytesOf 1 st)

/-! ### What holds a page -/

/-- Whether the pinned page, the whole of the one that its 64 KiB unit lies in (R315), meets a range of a context. -/
def State.pinMeets (s : State) (k va n unit : Nat) : Bool :=
  let base := s.pageOf k (unit * 0x10000)
  let size := match s.walkFrom (unit * 0x10000) 2 (s.ctx k).ptroot with
    | .leaf e => pageSize (eSz e)
    | _ => 0x10000
  base < va + n && va < base + size

/-- Whether a stream registration pins a page of a range of a context (R353). -/
def State.streamPins (s : State) (k va n : Nat) : Bool :=
  s.dies.any (fun d => d.2.streams.any (fun st => st.ctx == k && st.pages.any (fun p => s.pinMeets k va n p.1)))

/-- Whether a transfer in flight pins one (R218). -/
def State.transferPins (s : State) (k va n : Nat) : Bool :=
  s.harts.any (fun e => e.2.ctx == k && e.2.xfers.any (fun t => t.pages.any (fun p => s.pinMeets k va n p.1)))

/-- Whether the completion word of a launch that has not ended pins one (R283). -/
def State.donePins (s : State) (k va n : Nat) : Bool :=
  s.launches.any (fun e => e.2.ctx == k && e.2.done != 0 && va ≤ e.2.done && e.2.done < va + n)

/-- Whether an access of a context is in flight: an outbound read that is not complete (R347). -/
def State.readsOut (s : State) (k : Nat) : Bool := s.harts.any (fun e => e.2.ctx == k && e.2.devWait.isSome)

/-- Every core's cached translations of a range dropped. -/
def State.shootDown (s : State) (k va n : Nat) : State :=
  { s with cores := s.cores.map (fun e =>
      (e.1, { e.2 with tlb := e.2.tlb.filter (fun t => !(t.ctx == k && t.base < va + n && va < t.base + t.size)) })) }

/-! ### INVAL and EVICT (R323, R324) -/

/-- A record's fields. -/
def State.pageRecord (s : State) (seq : Nat) : PageCmd :=
  let f := fun off n => s.homeRead (s.recordPa seq + off) n
  { seq := seq, recAt := s.recordPa seq, op := f 0 1, ctx := f 2 2, count := f 4 4, va := f 8 8, dst := f 0x10 8, evicting := false
    reads := [] }

/-- A record malformed whatever the page. -/
def State.pageMalformed (s : State) (p : PageCmd) : Bool :=
  p.op = 0 || 2 < p.op || 4096 ≤ p.ctx || p.va % 0x10000 != 0 || 2 ^ 55 ≤ p.va
    || s.homeRead (p.recAt + 0x18) 8 != 0
    || (if p.op = 1 then p.count = 0 || p.dst != 0 else p.count != 0)

/-- INVAL accepted: a range that a stream registration pins ends with status 2, any other is dropped from every cache and
awaits its completion. -/
def State.acceptInval (s : State) (p : PageCmd) : State :=
  let n := p.count * 0x10000
  if s.streamPins p.ctx p.va n then s.pageStatus p 2
  else { s.shootDown p.ctx p.va n with pcmds := s.pcmds ++ [{ p with count := n }] }

/-- Whether a page is pinned: by its PIN bit, a stream registration, a transfer in flight or a pending completion word. -/
def State.pinned (s : State) (f : Found) (k va n : Nat) : Bool :=
  ePin f.entry || s.streamPins k va n || s.transferPins k va n || s.donePins k va n

/-- EVICT accepted, or refused by the state of its page. The prefetches in flight to it are cancelled. -/
def State.acceptEvict (s : State) (p : PageCmd) : State :=
  match (if (s.ctx p.ctx).state = 0 then none else s.findLeaf p.va 2 (s.ctx p.ctx).ptroot) with
  | none => s.pageStatus p 3
  | some f =>
    let s := s.homeCheck p.ctx p.va
    let size := pageSize (eSz f.entry)
    let va := p.va / size * size
    if p.dst % size != 0 || 2 ^ 44 < p.dst + size || s.pageBarred p.dst size then s.pageStatus p 4
    else if ePoison f.entry then s.pageStatus p 5
    else if s.pinned f p.ctx va size then s.pageStatus p 2
    else
      let s := (s.shootDown p.ctx va size).cancelHints p.ctx va size
      { s with pcmds := s.pcmds ++ [{ p with va := va, count := size, evicting := true }] }

/-- The record at the head of the ring taken, where its operation is the one named or it is malformed. -/
def State.takePageRecord (s : State) (op : Nat) : State :=
  if s.pctail ≤ s.pchead || s.pcsize = 0 then s
  else
    let p := s.pageRecord s.pchead
    let bad := s.pageMalformed p
    if !bad && p.op != op then s
    else
      let s := { s with pchead := s.pchead + 1 }
      if bad then s.pageStatus p 4 else if op = 1 then s.acceptInval p else s.acceptEvict p

/-- INVAL_COMPLETE: every transfer's pin of the range has been released, and every access through a dropped entry
performed. -/
def State.invalDone (s : State) (seq : Nat) : State :=
  match s.pcmds.find? (fun p => p.seq == seq && !p.evicting) with
  | none => s
  | some p =>
    if s.transferPins p.ctx p.va p.count || s.readsOut p.ctx then s
    else { (s.shootDown p.ctx p.va p.count).pageStatus p 1 with pcmds := s.pcmds.filter (fun q => q.seq != seq) }

/-- The bytes of a page in DRAM copied to a frame there, its poison with them (R376, R380). An armed barrier object in the way
keeps its bytes (R308). -/
def State.copyHome (s0 : State) (src dst n : Nat) : State :=
  let s := s0.meetBlocks src n
  let inside (a : Nat) : Bool := src ≤ a && a < src + n
  let taken (a : Nat) : Bool := dst ≤ a && a < dst + n && (s.armedGlobal a 1).isNone
  let mem := (s.mem.filter (fun e => inside e.1 && taken (e.1 - src + dst))).foldl
    (fun m e => memSet m (e.1 - src + dst) e.2) (s.mem.filter (fun e => !taken e.1))
  let bad := ((s.poison.filter (fun w => inside (8 * w))).map (fun w => w - src / 8 + dst / 8)).filter (fun w => taken (8 * w))
  { s with mem := mem, poison := bad ++ s.poison.filter (fun w => !taken (8 * w)) }

/-- Whether a page lies in the PCIe window, which the feature must open (R347, R390). -/
def State.inWindow (s : State) (pa : Nat) : Bool := Config.pcieBase ≤ pa && s.accepts 6

/-- A page copied to another physical address: `reads` holds the words that the host has answered where the page lies in the
PCIe window; what stands where there is no memory to read, a free value (log 81, DESIGN CHOICE). A page in the window is
written by posted writes of 8 bytes (R313, R347). -/
def State.copyPage (s : State) (src dst n : Nat) (reads : List (BitVec 64)) : State :=
  let ks := List.range (n / 8)
  let gone (a : Nat) : Bool := Config.dramEnd ≤ a || s.lostChan.contains (a / Config.channelBytes)
  let word (i : Nat) : Nat :=
    let a := src + 8 * i
    if s.inWindow src then (reads.getD i 0).toNat
    else if gone a then Config.freeValue (s.fresh + i) % 2 ^ 64
    else s.homeRead a 8
  let t := { s with fresh := s.fresh + n / 8 }
  if Config.pcieBase ≤ dst then
    { t with outWrites := t.outWrites ++ ks.map (fun i => (s.pcieAddr (dst + 8 * i), BitVec.ofNat 64 (word i), 8)) }
  else if gone src || gone (src + n - 1) then ks.foldl (fun t i => t.devWrite (dst + 8 * i) (bytesOf 8 (word i))) t
  else s.copyHome src dst n

/-- V cleared in a leaf's entry, or in the entries of its group: 512 of a 32 MiB page, 32 of a 16 GiB page (R315). -/
def State.clearV (s : State) (f : Found) (va : Nat) : State :=
  let i := va / 2 ^ (13 * f.lvl + 16) % 8192
  let n := if eSz f.entry = 1 then 512 else if eSz f.entry = 2 then 32 else 1
  let is := List.range' (i / n * n) n
  is.foldl (fun s i =>
    let a := f.node + 8 * i
    s.devWrite (a + 7) (bytesOf 1 (s.homeRead (a + 7) 1 % 128))) s

/-- The key under which the device itself awaits an outbound read for a page command (R347). -/
def PageCmd.key (p : PageCmd) : Nat := 2 ^ 32 + p.seq

/-- EVICT_DRAIN: once the accesses in flight are performed, the recheck, and the eviction where the page is still
unpinned: no core holds a line of it any more. A page in the PCIe window is first read, one word after another. -/
def State.evictDrain (s : State) (seq : Nat) : State :=
  match s.pcmds.find? (fun p => p.seq == seq && p.evicting) with
  | none => s
  | some p =>
    if s.readsOut p.ctx || s.outReads.any (fun r => r.1 == p.key) then s
    else
      let s' := { s with pcmds := s.pcmds.filter (fun q => q.seq != seq) }
      match s'.findLeaf p.va 2 (s'.ctx p.ctx).ptroot with
      | none => s'.pageStatus p 3
      | some f =>
        let pa := eFrame f.entry
        if s'.pinned f p.ctx p.va p.count then (s'.homeCheck p.ctx p.va).pageStatus p 2
        else if s.inWindow pa && p.reads.length < p.count / 8 then
          { s with outReads := s.outReads ++ [(p.key, s.pcieAddr (pa + 8 * p.reads.length), 8)] }
        else
          let s := s'.homeCheck p.ctx p.va
          let s := s.cores.foldl (fun s e => s.evictIf e.1 (fun a => pa ≤ a && a < pa + p.count)) s
          (((s.copyPage pa p.dst p.count p.reads).clearV f p.va).shootDown p.ctx p.va p.count).pageStatus p 1

end Sys2Proof.Machine
end

