-- ==== Sys2Proof/Machine/Device.lean ====
section
/-!
DEFINITION. The events of the rest of the device: the host port and its mailbox (R344 to R348, R391), the Fuller and the
ladder unit's background work, link ports and the messages they carry (R203, R271, R332 to R343), power and start (R385
to R387), reliability and management (R371 to R384, R392, R393).
-/

namespace Sys2Proof.Machine

/-! ### The host port (R345, R347) -/

/-- What the host asks of a device that is not held in recovery (R387). -/
def State.host (s : State) (f : State → State) : State := if s.recovery then s.countDrop else f s

/-- A context command by the driver (R259). -/
def evCtx (k cmd : Nat) (s : State) : State := if k < 4096 then s.host (fun s => s.ctxCommand k cmd) else s
/-- A queue command by the driver (R274). -/
def evQueue (q cmd : Nat) (s : State) : State := if q < 4096 then s.host (fun s => s.queueCommand q cmd) else s

/-- A word of the mailbox, by its index from 0x1000. -/
def State.mail (s : State) (i : Nat) : BitVec 64 := Tab.get 0 s.mailbox i
def State.setMail (s : State) (i : Nat) (v : BitVec 64) : State := { s with mailbox := Tab.set 0 s.mailbox i v }

/-- Message types the device knows (R391); in recovery only firmware updates (R387). -/
def mailType (v : BitVec 64) : Nat := v.toNat % 256
def mailKnown (t : Nat) : Bool := (1 ≤ t && t ≤ 4) || (0x80 ≤ t && t ≤ 0x8F)

/-- A message ends: its status is written, and the doorbell is no longer busy. -/
def State.mailDone (s : State) (st : Nat) : State := s.setMail 0 (BitVec.ofNat 64 (mailType (s.mail 0) + st * 2 ^ 8))

/-- A write of the mailbox doorbell: a message of no known type is malformed at once. -/
def State.mailRing (s : State) (v : BitVec 64) : State :=
  if (s.mail 0).getLsbD 63 then s.countDrop
  else
    let t := mailType v
    let s := s.setMail 0 (BitVec.ofNat 64 (t + 2 ^ 63))
    if !mailKnown t then s.mailDone 2
    else if s.recovery && t < 0x80 then s.mailDone 3
    else s

/-- BAR0_WRITE: the registers of R345; any other offset drops the write. -/
def State.bar0Write (s : State) (off : Nat) (v : BitVec 64) : State :=
  if off = 0x1000 then s.mailRing v
  else if 0x1000 ≤ off && off < 0x2000 && off % 8 = 0 then s.setMail ((off - 0x1000) / 8) v
  else
    s.host (fun s =>
      match off with
      | 0x0020 => s.setFeatacc v
      | 0x0100 => s.queueRing v
      | 0x0108 => if 4096 ≤ v.toNat then s.countDrop else s.ctxDoorbell v.toNat
      | 0x0110 => s.pageDoorbell v
      | 0x0118 => s.setPcbase v
      | 0x0120 => s.setPcsize v
      | 0x0200 => { s with wbase := v }
      | 0x0208 => { s with obase := v }
      | _ => s.countDrop)

/-- What a read of BAR0 answers: none where the manual gives no value, at a write-only register and at anything but FEAT0
and the mailbox in recovery (R345, R387; log 77). -/
def State.bar0Value (s : State) (off : Nat) : Option Nat :=
  if 0x1000 ≤ off && off < 0x2000 && off % 8 = 0 then some (s.mail ((off - 0x1000) / 8)).toNat
  else if s.recovery then (if off = 0 then some 0 else none)
  else
    match off with
    | 0x0000 => some (s.featWord 0).toNat
    | 0x0008 => some (s.featWord 1).toNat
    | 0x0010 => some (s.featWord 2).toNat
    | 0x0018 => some (s.featWord 3).toNat
    | 0x0020 => some s.featacc.toNat
    | 0x0118 => some s.pcbase
    | 0x0120 => some s.pcsize
    | 0x0128 => some s.pchead
    | 0x0200 => some s.wbase.toNat
    | 0x0208 => some s.obase.toNat
    | 0x0100 | 0x0108 | 0x0110 => none
    | _ => some 0

/-- A read of BAR0 by the host. -/
def State.bar0Read (s : State) (off : Nat) : State :=
  match s.bar0Value off with
  | some x => { s with replies := s.replies ++ [(3, [x])] }
  | none => { s with fresh := s.fresh + 1, replies := s.replies ++ [(3, [Config.freeValue s.fresh % 2 ^ 64])] }

/-- Resizable BAR: BAR2 set to a power of two of bytes from 16 GiB to 512 GiB (R344). -/
def State.bar2Resize (s : State) (log : Nat) : State := if 34 ≤ log && log ≤ 39 then { s with bar2Size := 2 ^ log } else s

/-- HOST_BAR2_ACCESS: an offset inside BAR2 (R344), at home; a write to an armed barrier object or outside DRAM is dropped,
a read outside DRAM answers 0 (R250, R308, R347). A range that has become reserved counts as outside (log 89). One to a
channel that is being copied is held: the host's agent offers it again (R382). -/
def State.bar2 (s : State) (off n : Nat) (data : Option (BitVec 64)) : State :=
  s.host (fun s =>
    let pa := s.wbase.toNat + off
    let chan := pa / Config.channelBytes
    let out := Config.dramEnd < pa + n || s.lostChan.contains chan
    if s.bar2Size < off + n || s.copying.contains chan then s
    else match data with
    | some x =>
      if out || (s.armedGlobal pa n).isSome then s.countDrop else s.homeWrite pa (bytesOf n x.toNat)
    | none =>
      if out then { s.countDrop with replies := s.replies ++ [(3, [0])] }
      else { s with replies := s.replies ++ [(3, [s.homeRead pa n])] })

/-- OUTBOUND_READ_COMPLETION and OUTBOUND_READ_TIMEOUT: the read that a hart waits for ends, with its data or in error; one
that the device makes for a page command takes a free value where it ends in error (R347; log 81). -/
def State.outboundDone (s : State) (key : Nat) (data : Option (BitVec 64)) : State :=
  let s' := { s with outReads := s.outReads.filter (fun r => r.1 != key) }
  if s.live key && (s.hartAt key).devWait.isSome then
    let h := s.hartAt key
    s'.setHart key (match data with
      | some x => { h with devWait := none, devReads := h.devReads ++ [x] }
      | none => { h with devWait := none, devError := true })
  else if s.outReads.any (fun r => r.1 == key) then
    let x := data.getD (BitVec.ofNat 64 (Config.freeValue s.fresh))
    { s' with fresh := s.fresh + 1
              pcmds := s.pcmds.map (fun p => if p.key = key then { p with reads := p.reads ++ [x] } else p) }
  else s'

/-! ### Mailbox messages (R391) -/

/-- The message that waits, where its type is the one named. -/
def State.message (s : State) (lo hi : Nat) (f : State → State × Nat) : State :=
  let t := mailType (s.mail 0)
  if (s.mail 0).getLsbD 63 && lo ≤ t && t ≤ hi then
    let (s, st) := f s
    s.mailDone st
  else s

/-- A payload word. -/
def State.word (s : State) (i : Nat) : Nat := (s.mail (1 + i)).toNat

/-- SET_WINDOW: index, first and last node, context, base, length, access, valid. -/
def State.msgWindow (s : State) : State :=
  s.message 1 1 (fun s =>
    let w := s.word
    if 256 ≤ w 0 || Config.usableNodes ≤ w 1 || Config.usableNodes ≤ w 2 || w 2 < w 1 || 4096 ≤ w 3
        || Config.dramEnd < w 4 + w 5 || 8 ≤ w 6 || 2 ≤ w 7 then (s, 2)
    else if w 7 = 0 then ({ s with windows := Tab.erase s.windows (w 0) }, 1)
    else ({ s with windows := Tab.put s.windows (w 0)
                                { first := w 1, last := w 2, ctx := w 3, base := w 4, len := w 5, rwa := BitVec.ofNat 3 (w 6) } },
          1))

/-- Dying contexts whose closes now count as answered end (R271). -/
def State.dyingAll (s : State) : State := s.ctxs.foldl (fun s e => s.dyingCheck e.1) s

/-- SET_ROUTE: first node, count, the bytes packed. -/
def State.msgRoute (s : State) : State :=
  s.message 2 2 (fun s =>
    let first := s.word 0
    let n := s.word 1
    if n = 0 || 4064 < n || Config.usableNodes < first + n then (s, 2)
    else
      let bs := (List.range n).map (fun i => BitVec.ofNat 8 (s.word (2 + i / 8) / 256 ^ (i % 8)))
      ((s.homeWrite (Config.routingTable + first) bs).dyingAll, 1))

/-- SET_PART: die, partition, way mask. -/
def State.msgPart (s : State) : State :=
  s.message 3 3 (fun s =>
    let (d, i, m) := (s.word 0, s.word 1, s.word 2)
    if 4 ≤ d || 16 ≤ i || m = 0 || 2 ^ 16 ≤ m then (s, 2)
    else (s.setDie d { s.die d with parts := Tab.put (s.die d).parts i (BitVec.ofNat 16 m) }, 1))

/-- SET_PWRCAP: a value outside its range stores nothing (R386). -/
def State.msgPwrcap (s : State) : State :=
  s.message 4 4 (fun s =>
    let w := s.word 0
    if 600 ≤ w && w ≤ 2400 then ({ s with pwrcap := BitVec.ofNat 12 w }, 1) else (s, 3))

/-- FIRMWARE_UPDATE: accepted where its signature verifies, in effect at the next start (R392). -/
def State.msgFirmware (s : State) (verifies : Bool) : State :=
  s.message 0x80 0x8F (fun s => if verifies then ({ s with staged := s.staged + 1 }, 1) else (s, 3))

/-! ### Background work of the Fuller and the ladder unit -/

/-- FULLER_MERGE (R355). -/
def evFullerMerge (d : Nat) (s : State) : State := State.posted (s.fullerMergeStep d)

/-- LADDER_MERGE (R366, R367): the merges of the core's LSTEP that retired first. -/
def State.ladderMerge (s : State) (core : Nat) : State := s.mergeNext core

/-! ### Ports (R332) -/

/-- A port: its state, lanes and neighbour. -/
def State.port (s : State) (p : Nat) : PortState × Nat × Nat := Tab.get (.down, 0, 0) s.ports p
def State.setPort (s : State) (p : Nat) (x : PortState × Nat × Nat) : State :=
  if p < 8 then { s with ports := Tab.set (.down, 0, 0) s.ports p x } else s

/-- PORT_ENABLE: in recovery and before a node id every port stays DOWN (R387). -/
def State.portEnable (s : State) (p : Nat) : State :=
  match (s.port p).1 with
  | .down | .failed => if s.recovery || !s.nodeSet then s else s.setPort p (.training, 0, 0)
  | _ => s
/-- PORT_DISABLE. -/
def State.portDisable (s : State) (p : Nat) : State := s.setPort p (.down, 0, 0)
/-- LANES_LOCKED. -/
def State.lanesLocked (s : State) (p neighbour : Nat) : State :=
  match (s.port p).1 with
  | .training => s.setPort p (.up, 4, neighbour)
  | _ => s
/-- TRAINING_TIMEOUT, with the lanes that have locked. -/
def State.trainingTimeout (s : State) (p locked : Nat) : State :=
  match (s.port p).1 with
  | .training =>
    if locked < 2 then s.setPort p (.failed, 0, 0)
    else if locked < 4 then s.setPort p (.degraded, locked, 0)
    else s
  | _ => s
/-- LINK_RETRAIN. -/
def State.linkRetrain (s : State) (p : Nat) : State :=
  match (s.port p).1 with
  | .up | .degraded => s.setPort p (.training, 0, 0)
  | _ => s

/-! ### Messages (R333 to R343) -/

/-- A flit that arrives for this node with the type named, by one of the ports in service (log 40). That port counts a flit
it discards (R333). -/
def State.flitIn (s : State) (kind : Nat) (f : Flit) (act : State → Msg → State) : State :=
  match (List.range 8).filter (fun p => s.portsUp.testBit p) with
  | [] => s
  | up =>
    if !flitOk f then
      let p := up.getD (Config.freeValue s.fresh % up.length) 0
      { s with fresh := s.fresh + 1
               telemetry := { s.telemetry with crc := Tab.count s.telemetry.crc p } }
    else
      let m := flitMsg f
      if m.kind != kind || m.dst != s.nodeId.toNat then s else act s m

/-- REQUEST, PROBE, CLOSE and ACKNOWLEDGEMENT: the owner's part. -/
def State.ownerFlit (s : State) (kind : Nat) (f : Flit) : State :=
  s.flitIn kind f (fun s m =>
    let (s, a) := s.owner m
    match a with
    | some a => s.emit a
    | none => s)

/-- RESPONSE, PROBE_ANSWER and CLOSE_ANSWER: the requester's part. -/
def State.requesterFlit (s : State) (kind : Nat) (f : Flit) : State :=
  s.flitIn kind f (fun s m =>
    let s := s.dev (do
      let more ← requester m
      more.forM (fun (k, i, x) => do
        let m ← transmit k i x
        deliver hops m))
    s.dyingCheck m.ctx)

/-- The unanswered probe of a channel given up: what waited for it ends with LINK_TIMEOUT (R335). -/
def probeGivenUp (k i : Nat) : Dev Unit := do
  let ch := (← get).chan k i
  modify (fun s => s.setChan k i { s.chan k i with probing := false, probes := 0 })
  (ch.sent.filter (fun x => x.tries == 0)).forM (fun x => settle k i x 0 0)

/-- RETRANSMIT_TIMER of a channel: kind 0 its probe, 5 its close, 1 to 4 the request of that instruction with the serial
or tag `what`. Nothing is sent while the context is off the device (R203, R208, R271, R335). -/
def State.retransmit (s : State) (k i : Nat) (what : BitVec 32) (kind : Nat) : State :=
  let ch := s.chan k i
  let st := (s.ctx k).state
  if kind = 5 then (if ch.closing && st = 4 then (s.dev (sendClose k i)).dyingCheck k else s)
  else if !s.onDevice k then s
  else if kind = 0 then
    if !ch.probing then s
    else if 64 ≤ ch.probes then s.dev (probeGivenUp k i)
    else s.dev (sendProbe k i)
  else
    match ch.sent.find? (fun x => x.instr == kind && x.id == what && !ch.probing) with
    | none => s
    | some x =>
      if 64 ≤ x.tries then s.dev (settle k i x 0 0)
      else s.dev (do
        let m ← transmit k i x
        deliver hops m)

/-- ACK_IDLE_TIMER (R339): one acknowledgement once the last awaiting result of the channel has arrived. -/
def State.ackIdle (s : State) (k i : Nat) : State :=
  let ch := s.chan k i
  if !ch.ackDue || ch.sent.any (fun x => x.instr != 4) || !s.onDevice k then s
  else s.dev (do
    let next ← nextSerial k i
    modify (fun s => s.setChan k i { s.chan k i with ackDue := false })
    deliver hops ((← get).plainMsg k i 7 (payloadOf [(16, 4, next.toNat)])))

/-! ### Power and start (R291, R385 to R387) -/

/-- POWER_WINDOW: the average of the last 1 ms against the cap that governed it; a hot device acts as power over it. A new
cap governs from the next window (R386). -/
def State.powerWindow (s : State) (watts : Nat) : State :=
  let t := s.powerStep (s.capNow < watts || s.hot) (100 * watts < 95 * s.capNow)
  { t with capNow := t.pwrcap.toNat }

/-- THERMAL_THROTTLE: a die's junction temperature. Throttling lasts until every die is below 95 °C (R385). -/
def State.thermal (s : State) (d celsius : Nat) : State :=
  if 4 ≤ d then s
  else
    let s := s.setDie d { s.die d with celsius := celsius }
    let cool := (List.range 4).all (fun k => (s.die k).celsius < 95)
    { s with hot := decide (100 < celsius) || (s.hot && !cool) }

/-- THERMAL_TRIP: every context is killed, and the device is held in recovery (R260, R385). -/
def State.thermalTrip (s : State) (d : Nat) : State :=
  if 4 ≤ d then s
  else
    let s := s.ctxs.foldl (fun s e => s.kill e.1 4 cMachineCheck (some (0, 0))) s
    { s with recovery := true, ports := [], telemetry := { s.telemetry with tripped := true } }

/-- The next incarnation (R343). -/
def nextIncarnation (i : BitVec 16) : BitVec 16 := if i = 65535 then 1 else i + 1

/-- Scores and quarantines applied from the non-volatile store (R373, R387). -/
def Core.fromStore (core : Nat) (scores : Tab Nat) : Core :=
  let bad (u : Nat) : Bool := 128 ≤ Tab.get 0 scores u
  { Core.reset core with
      scores := scores
      laneMap := (groups.filter bad).foldl (fun w k => setLg w k 14) 0
      withdrawn := bad 16 || bad 17 }

/-! ### Vertical buses (R381, R382) -/

/-- Spare physical cores of a die, whose channels serve retired buses (R382). -/
def spareChannels : Nat := 4
/-- Vertical buses: those of the enabled cores by channel, then those of the spare physical cores, four to a die. -/
def busCount : Nat := Config.cores + 4 * spareChannels
/-- The bus of spare `x` of a die. -/
def spareBus (die x : Nat) : Nat := Config.cores + spareChannels * die + x

/-- The channel that a bus serves: its own while no spare does, and that of a spare the one given to it. -/
def State.serves (s : State) (bus : Nat) : Option Nat :=
  if bus < Config.cores then (if s.retiredBus.any (fun b => b.1 == bus) || s.lostChan.contains bus then none else some bus)
  else (s.retiredBus.find? (fun b => spareBus (dieOf b.1) b.2 == bus)).map (·.1)

/-- The unused spare of a channel's die that lies nearest to it and whose own bus is not retired; of those equally near, the
lowest-numbered. -/
def State.spareFor (s : State) (chan : Nat) : Option Nat :=
  let used := (s.retiredBus.filter (fun b => dieOf b.1 == dieOf chan)).map (·.2)
  ((List.range spareChannels).filter (fun x =>
    !used.contains x && !s.telemetry.buses.contains (spareBus (dieOf chan) x))).foldl (fun (b : Option Nat) x =>
      match b with
      | none => some x
      | some y => if Config.spareDistance chan x < Config.spareDistance chan y then some x else some y) none

/-- A bus retired (R382), once: a spare of its die serves the channel that it served, at run time once its contents are copied;
or their range becomes reserved, and there is less memory (R375). -/
def State.retireBus (s : State) (bus : Nat) (running : Bool) : State :=
  if s.telemetry.buses.contains bus then s
  else
    let served := s.serves bus
    let s := { s with telemetry := { s.telemetry with buses := bus :: s.telemetry.buses } }
    match served with
    | none => s
    | some chan =>
      let next := s.spareFor chan
      let s := { s with retiredBus := s.retiredBus.filter (fun b => b.1 != chan), copying := s.copying.filter (· != chan) }
      match next with
      | some x => { s with retiredBus := (chan, x) :: s.retiredBus, copying := if running then chan :: s.copying else s.copying }
      | none => ({ s with lostChan := chan :: s.lostChan }.requestReplace).capacityChanged

/-- A failed bundle named in its spare group's shift-repair register; the third of a group retires the bus (R381, R382). -/
def State.repair (s : State) (bus b : Nat) (running : Bool) : State :=
  let k := bus * 4 + b / 64
  let fs := Tab.get [] s.repairs k
  if fs.contains (BitVec.ofNat 6 b) then s
  else if fs.length < 2 then
    { s with repairs := Tab.put s.repairs k (fs ++ [BitVec.ofNat 6 b])
             telemetry := { s.telemetry with bundles := (bus, b) :: s.telemetry.bundles } }
  else s.retireBus bus running

/-- CALIBRATION of a bus: the bundles that failed its last calibration are repaired, or retire it, and one that fails this
one waits for the next (R381, R383). -/
def State.calibrate (s : State) (bus : Nat) (failed : Option Nat) : State :=
  if busCount ≤ bus then s
  else
    let due := s.busFail.filter (fun x => x.1 == bus)
    let s := due.foldl (fun s x => s.repair x.1 x.2 true) { s with busFail := s.busFail.filter (fun x => x.1 != bus) }
    match failed with
    | none => s
    | some b => if 256 ≤ b then s else { s with busFail := (bus, b) :: s.busFail }

/-- CHANNEL_COPY_COMPLETE: words that cannot be corrected are poisoned in the copy (R382), and counted as errors of DRAM
(R384). -/
def State.copyComplete (s : State) (chan : Nat) (bad : List Nat) : State :=
  if s.copying.contains chan then
    let ws := (bad.filter (fun w => 8 * w / Config.channelBytes == chan)).eraseDups
    { s with copying := s.copying.filter (· != chan), poison := poisonAll s.poison ws
             telemetry := { s.telemetry with uncorrectable := ws.foldl (fun t _ => Tab.count t 0) s.telemetry.uncorrectable } }
  else s

/-! ### Start (R387) -/

/-- What a module without power keeps: its non-volatile store. It is held in recovery until the start sequence ends. -/
def State.dark (s : State) : State :=
  { State.reset with
      incarnation := s.incarnation, nvScores := s.nvScores, firmware := s.firmware, staged := s.staged, recovery := true
      cur := s.cur, agenda := s.agenda, clock := s.clock, fresh := s.fresh }

/-- POWER_GOOD: the start sequence. A step that fails leaves the device in recovery, and no later step is taken: the image's
signature, then the test of the buses, those of the spare cores too, which names the bundles that fail it (R381). -/
def State.powerGood (s : State) (verifies : Bool) (buses : BusTest) : State :=
  let s1 := s.dark
  if !verifies then s1
  else
    let s2 := (buses.failed.filter (fun x => x.1 < busCount && x.2 < 256)).foldl (fun t x => t.repair x.1 x.2 false)
      { s1 with firmware := s.staged }
    if !buses.ok then s2
    else
      let cores : Tab Core := s.nvScores.map (fun e => (e.1, Core.fromStore e.1 e.2))
      let s3 := { s2 with cores := cores, recovery := false
                          incarnation := nextIncarnation s.incarnation }
      if s3.worn then s3.requestReplace else s3

/-- NODE_ID_ASSIGN: no device takes a reserved node id (R331). -/
def State.nodeAssign (s : State) (id : BitVec 20) : State :=
  if Config.usableNodes ≤ id.toNat || s.nodeSet then s else { s with nodeId := id, nodeSet := true }
/-- NODE_ID_TIMEOUT. -/
def State.nodeTimeout (s : State) : State := if s.nodeSet then s else { s with nodeId := 0, ports := [] }

/-- FIRMWARE_RECOVERY: the link transport starts again with DRAM kept (R343). -/
def State.firmwareRecovery (s : State) : State :=
  { s with incarnation := nextIncarnation s.incarnation
           dies := s.dies.map (fun e => (e.1, { e.2 with receipts := [], spill := [], bases := [] })) }

/-! ### Reliability (R373 to R384) -/

/-- SUSPECT_DECAY: a whole hour of powered time. -/
def State.suspectDecay (s : State) : State :=
  let fall (t : Tab Nat) : Tab Nat :=
    (t.map (fun e => (e.1, if e.2 < 128 then e.2 - 1 else e.2))).filter (fun e => e.2 != 0)
  ({ s with cores := s.cores.map (fun e => (e.1, { e.2 with scores := fall e.2.scores })) } : State).storeScores

/-- The array that a word belongs to, as telemetry counts it (R384). -/
def arrayOf (x : Scrubbed) : Nat :=
  match x with
  | .dram _ => 0
  | .llc _ => 1
  | .cdc _ _ => 2
  | .spad _ _ => 3
  | .icache _ _ => 4
  | .dcache _ _ => 5
  | .receipt _ _ => 6

/-- The arrays under ECC (R376). -/
def arrayCount : Nat := 7

/-- Whether an array holds such a word: DRAM and the LLCs by physical word, a CDC and the scalar caches by the physical word they
hold, a scratchpad by its own, a receipt cache by the place of the receipt. -/
def State.holdsWord (s : State) (x : Scrubbed) : Bool :=
  match x with
  | .dram w | .llc w => w < Config.dramEnd / 8
  | .cdc c w => c < Config.cores && (s.core c).lines.contains (w / 16)
  | .spad c w => c < Config.cores && w < Config.spadBytes / 8
  | .icache c w => c < Config.cores && (s.core c).icache.contains (w / 16)
  | .dcache c w => c < Config.cores && (s.core c).dcache.contains (w / 16)
  | .receipt d i => d < 4 && i < (s.die d).receipts.length

/-- The arrays that are scrubbed (R383). -/
def scrubbed (x : Scrubbed) : Bool :=
  match x with
  | .dram _ | .llc _ | .cdc _ _ | .spad _ _ => true
  | .icache _ _ | .dcache _ _ | .receipt _ _ => false

/-- An uncorrectable word marked as poisoned (R376): of an LLC at its home, of a CDC on the core's dirty bytes or, where it
has none there, on its clean copy, of a scalar cache on its copy, of a receipt cache with its receipt. -/
def State.poisonWord (s : State) (x : Scrubbed) : State :=
  match x with
  | .dram w | .llc w => { s with poison := poisonAll s.poison [w] }
  | .cdc c w =>
    let k := s.core c
    if (List.range 8).any (fun i => (Tab.find k.dirty (8 * w + i)).isSome) then
      s.setCore c { k with tainted := poisonAll k.tainted [w] }
    else s.setCore c { k with marked := poisonAll k.marked [w] }
  | .spad c w =>
    let k := s.core c
    s.setCore c { k with spadPoison := poisonAll k.spadPoison [w] }
  | .icache c w =>
    let k := s.core c
    s.setCore c { k with ibad := poisonAll k.ibad [w] }
  | .dcache c w =>
    let k := s.core c
    s.setCore c { k with dbad := poisonAll k.dbad [w] }
  | .receipt d i =>
    let x := s.die d
    s.setDie d { x with receipts := x.receipts.zipIdx.map (fun r => if r.2 = i then { r.1 with bad := true } else r.1) }

/-- An error met in a word of an array, in use or by the scrubber: it is counted (R384), and one that cannot be corrected marks
the word (R376). -/
def State.arrayError (s : State) (x : Scrubbed) (uncorrectable : Bool) : State :=
  let t := s.telemetry
  if !s.holdsWord x then s
  else if uncorrectable then
    { s with telemetry := { t with uncorrectable := Tab.count t.uncorrectable (arrayOf x) } }.poisonWord x
  else { s with telemetry := { t with corrected := Tab.count t.corrected (arrayOf x) } }

/-- SCRUB of a word (R383): of DRAM, an LLC, a CDC or a scratchpad. -/
def State.scrub (s : State) (x : Scrubbed) (uncorrectable : Bool) : State :=
  if scrubbed x then s.arrayError x uncorrectable else s

/-- TELEMETRY_SAMPLE (R384). -/
def State.sample (s : State) : State :=
  { s with samples := [{ counts := s.telemetry, cores := s.cores.map (fun e => (e.1, e.2.mism, e.2.scores)) }] }

/-- CDC_EVICTION of a core's line: its clean bytes are dropped, its dirty bytes reach their home (R239, R380). -/
def State.cdcEvict (s : State) (core line : Nat) : State :=
  if Config.dramEnd ≤ 128 * line then s else s.evictLine core (128 * line)

/-! ### Management (R392, R393) -/

/-- What a measurement covers (R392): nothing but itself of the boot ROM, the firmware image, the node id with the windows
and the partition masks, and the quarantine list, by unit: a quarantined lane group, and a scalar core or a matrix engine whose
score has reached 128 (R373). -/
def State.measured (s : State) (index : Nat) : List Nat :=
  match index with
  | 2 => [s.firmware]
  | 3 => s.nodeId.toNat :: s.windows.flatMap (fun w =>
           [w.1, w.2.first, w.2.last, w.2.ctx, w.2.base, w.2.len, w.2.rwa.toNat])
         ++ (List.range 4).flatMap (fun d => (s.die d).parts.flatMap (fun p => [d, p.1, p.2.toNat]))
  | 4 => (List.range Config.cores).flatMap (fun c =>
           let k := s.core c
           ((List.range 18).filter (fun u => if u < 16 then lg k.laneMap u == 14 else 128 ≤ k.score u)).map (c * 18 + ·))
  | _ => []

/-- SPDM_REQUEST: the digest of the measurement named. The images and their encoding are the firmware's (log 10). -/
def State.spdm (s : State) (index : Nat) : State :=
  if 1 ≤ index && index ≤ 4 then
    { s with replies := s.replies ++ [(1, [index, Config.digest index (s.measured index) % 2 ^ 256])] }
  else s

/-- A bit as a number. -/
def bit (x : Bool) : Nat := if x then 1 else 0

/-- A port's state as telemetry gives it (R332). -/
def PortState.code : PortState → Nat
  | .down => 0
  | .training => 1
  | .up => 2
  | .degraded => 3
  | .failed => 4

/-- PLDM_TELEMETRY_READ: the last sample (R384), and the ports with their lanes and the shift-repair registers, which
telemetry reports (R332, R381). -/
def State.pldm (s : State) : State :=
  let x := s.samples.headD { counts := Telemetry.reset, cores := [] }
  let t := x.counts
  let ports := (List.range 8).flatMap (fun p => [(s.port p).1.code, (s.port p).2.1, Tab.get 0 t.crc p])
  let cores := x.cores.flatMap (fun e => [e.1, e.2.1.toNat] ++ (List.range 18).map (Tab.get 0 e.2.2))
  let arrays := (List.range arrayCount).map (Tab.get 0 t.corrected) ++ (List.range arrayCount).map (Tab.get 0 t.uncorrectable)
  let repairs := s.repairs.flatMap (fun e => e.1 :: e.2.map BitVec.toNat)
  { s with replies := s.replies ++ [(2, arrays ++ [t.poisonUsed, t.stored, t.bundles.length,
      t.buses.length, t.homeMiss, t.dropped, t.firsts, t.repeats, bit t.replace, bit t.tripped]
      ++ (List.range 5).map (Tab.get 0 t.selectors) ++ ports ++ cores ++ repairs)] }

end Sys2Proof.Machine
end

