-- ==== Sys2Proof/Machine/ExecEvent.lean ====
section
/-!
DEFINITION. The meanings of the events of the other agents, one each.
-/

namespace Sys2Proof.Machine

def execVectorHandover (h : Nat) (s : State) : Host.Outcome State Fault Refusal := evVectorHandover h s
def execDecouplingIssue (h : Nat) (s : State) : Host.Outcome State Fault Refusal := evDecouplingIssue h s
def execConvoyIssue (h : Nat) (s : State) : Host.Outcome State Fault Refusal := evConvoyIssue h s
def execSpotCheck (h : Nat) (agrees : Bool) (s : State) : Host.Outcome State Fault Refusal := evSpotCheck h agrees s
def execMatrixSpotCheck (h : Nat) (agrees : Bool) (s : State) : Host.Outcome State Fault Refusal :=
  evMatrixSpotCheck h agrees s
def execAssayerArbitration (die : Nat) (unitAgrees scalarAgrees : Bool) (s : State) : Host.Outcome State Fault Refusal :=
  evAssayerArbitration die (verdict unitAgrees scalarAgrees) s
def execInstructionReplay (h : Nat) (agrees : Bool) (s : State) : Host.Outcome State Fault Refusal :=
  evInstructionReplay h agrees s
def execPoisonReissue (h : Nat) (s : State) : Host.Outcome State Fault Refusal := evPoisonReissue h s
def execTrapEntry (h : Nat) (cause : BitVec 8) (info addr : BitVec 64) (s : State) : Host.Outcome State Fault Refusal :=
  evTrapEntry h cause info addr s
def execPrivilegeWatchdog (h : Nat) (s : State) : Host.Outcome State Fault Refusal := evPrivilegeWatchdog h s
def execPreemptTaken (h : Nat) (s : State) : Host.Outcome State Fault Refusal := evPreemptTaken h s
def execHartRetirement (h : Nat) (s : State) : Host.Outcome State Fault Refusal := evHartRetirement h s
def execStreamFaultDelivery (h : Nat) (s : State) : Host.Outcome State Fault Refusal := evStreamFaultDelivery h s
def execCtxOpen (k : Nat) (s : State) : Host.Outcome State Fault Refusal := .next (evCtx k 1 s)
def execCtxSuspend (k : Nat) (s : State) : Host.Outcome State Fault Refusal := .next (evCtx k 2 s)
def execCtxResume (k : Nat) (s : State) : Host.Outcome State Fault Refusal := .next (evCtx k 3 s)
def execCtxKill (k : Nat) (s : State) : Host.Outcome State Fault Refusal := .next (evCtx k 4 s)
def execQueueOpen (q : Nat) (s : State) : Host.Outcome State Fault Refusal := .next (evQueue q 1 s)
def execQueueClose (q : Nat) (s : State) : Host.Outcome State Fault Refusal := .next (evQueue q 2 s)
def execQueueAppendDoorbell (v : BitVec 64) (s : State) : Host.Outcome State Fault Refusal :=
  .next (s.host (fun s => s.queueRing v))
def execTakeRecord (s : State) : Host.Outcome State Fault Refusal := .next (s.takeRecord)
def execWordDependencePoll (s : State) : Host.Outcome State Fault Refusal := .next (s.pollWords none)
def execPlaceGang (s : State) : Host.Outcome State Fault Refusal := .next (s.placeGang)
def execTimeSlice (s : State) : Host.Outcome State Fault Refusal := .next (s.timeSlice)
def execGangStart (g : Nat) (s : State) : Host.Outcome State Fault Refusal := .next (s.gangStart g)
def execLanemapWithdraw (h k : Nat) (s : State) : Host.Outcome State Fault Refusal := evLanemapWithdraw h k s
def execLanemapReturn (h k : Nat) (s : State) : Host.Outcome State Fault Refusal := evLanemapReturn h k s
def execQminWrite (h : Nat) (v : BitVec 64) (s : State) : Host.Outcome State Fault Refusal := evQminWrite h v s
def execQcapWrite (h : Nat) (v : BitVec 64) (s : State) : Host.Outcome State Fault Refusal := evQcapWrite h v s
def execPwrcapWrite (h : Nat) (v : BitVec 64) (s : State) : Host.Outcome State Fault Refusal := evPwrcapWrite h v s
def execFeataccWrite (v : BitVec 64) (s : State) : Host.Outcome State Fault Refusal :=
  .next (s.host (fun s => s.setFeatacc v))
def execPowerWindow (watts : Nat) (s : State) : Host.Outcome State Fault Refusal := .next (s.powerWindow watts)
def execThermalThrottle (die : Nat) (celsius : Nat) (s : State) : Host.Outcome State Fault Refusal :=
  .next (s.thermal die celsius)
def execThermalTrip (die : Nat) (s : State) : Host.Outcome State Fault Refusal := .next (s.thermalTrip die)
def execHalleyDelivery (core : Nat) (s : State) : Host.Outcome State Fault Refusal := .next (s.deliverPost core)
def execFullerMerge (die : Nat) (s : State) : Host.Outcome State Fault Refusal := .next (evFullerMerge die s)
def execFullerDiscard (die : Nat) (s : State) : Host.Outcome State Fault Refusal := .next (s.fullerDiscardStep die)
def execLadderMerge (core : Nat) (s : State) : Host.Outcome State Fault Refusal := .next (s.ladderMerge core)
def execTransferEnd (h tag : Nat) (s : State) : Host.Outcome State Fault Refusal := .next (s.endTransfer h tag)
def execPageWalk (core ctx : Nat) (va : BitVec 55) (s : State) : Host.Outcome State Fault Refusal :=
  .next (s.pageWalk core ctx va.toNat)
def execInval (s : State) : Host.Outcome State Fault Refusal := .next (s.takePageRecord 1)
def execInvalComplete (n : Nat) (s : State) : Host.Outcome State Fault Refusal := .next (s.invalDone n)
def execEvict (s : State) : Host.Outcome State Fault Refusal := .next (s.takePageRecord 2)
def execEvictDrain (n : Nat) (s : State) : Host.Outcome State Fault Refusal := .next (s.evictDrain n)
def execPageCommandDoorbell (v : BitVec 64) (s : State) : Host.Outcome State Fault Refusal :=
  .next (s.host (fun s => s.pageDoorbell v))
def execPcbaseWrite (v : BitVec 64) (s : State) : Host.Outcome State Fault Refusal :=
  .next (s.host (fun s => s.setPcbase v))
def execPcsizeWrite (v : BitVec 64) (s : State) : Host.Outcome State Fault Refusal :=
  .next (s.host (fun s => s.setPcsize v))
def execBar0Write (off : Nat) (v : BitVec 64) (s : State) : Host.Outcome State Fault Refusal :=
  .next (s.bar0Write off v)
def execHostBar2Access (off bytes : Nat) (data : Option (BitVec 64)) (s : State) : Host.Outcome State Fault Refusal :=
  .next (s.bar2 off bytes data)
def execOutboundReadTimeout (h : Nat) (s : State) : Host.Outcome State Fault Refusal := .next (s.outboundDone h none)
def execSetWindow (s : State) : Host.Outcome State Fault Refusal := .next (s.msgWindow)
def execSetRoute (s : State) : Host.Outcome State Fault Refusal := .next (s.msgRoute)
def execSetPart (s : State) : Host.Outcome State Fault Refusal := .next (s.msgPart)
def execSetPwrcap (s : State) : Host.Outcome State Fault Refusal := .next (s.msgPwrcap)
def execFirmwareUpdate (verifies : Bool) (s : State) : Host.Outcome State Fault Refusal :=
  .next (s.msgFirmware verifies)
def execPortEnable (p : Nat) (s : State) : Host.Outcome State Fault Refusal := .next (s.portEnable p)
def execPortDisable (p : Nat) (s : State) : Host.Outcome State Fault Refusal := .next (s.portDisable p)
def execLanesLocked (p neighbour : Nat) (s : State) : Host.Outcome State Fault Refusal :=
  .next (s.lanesLocked p neighbour)
def execTrainingTimeout (p locked : Nat) (s : State) : Host.Outcome State Fault Refusal :=
  .next (s.trainingTimeout p locked)
def execLinkRetrain (p : Nat) (s : State) : Host.Outcome State Fault Refusal := .next (s.linkRetrain p)
def execRequest (f : Flit) (s : State) : Host.Outcome State Fault Refusal := .next (s.ownerFlit 1 f)
def execResponse (f : Flit) (s : State) : Host.Outcome State Fault Refusal := .next (s.requesterFlit 2 f)
def execProbe (f : Flit) (s : State) : Host.Outcome State Fault Refusal := .next (s.ownerFlit 3 f)
def execProbeAnswer (f : Flit) (s : State) : Host.Outcome State Fault Refusal := .next (s.requesterFlit 4 f)
def execClose (f : Flit) (s : State) : Host.Outcome State Fault Refusal := .next (s.ownerFlit 5 f)
def execCloseAnswer (f : Flit) (s : State) : Host.Outcome State Fault Refusal := .next (s.requesterFlit 6 f)
def execAcknowledgement (f : Flit) (s : State) : Host.Outcome State Fault Refusal := .next (s.ownerFlit 7 f)
def execRetransmitTimer (ctx chan : Nat) (what : BitVec 32) (kind : Nat) (s : State) : Host.Outcome State Fault Refusal :=
  .next (s.retransmit ctx chan what kind)
def execAckIdleTimer (ctx chan : Nat) (s : State) : Host.Outcome State Fault Refusal := .next (s.ackIdle ctx chan)
def execPowerGood (verifies : Bool) (buses : BusTest) (s : State) : Host.Outcome State Fault Refusal :=
  .next (s.powerGood verifies buses)
def execNodeIdAssign (id : BitVec 20) (s : State) : Host.Outcome State Fault Refusal := .next (s.nodeAssign id)
def execNodeIdTimeout (s : State) : Host.Outcome State Fault Refusal := .next (s.nodeTimeout)
def execSuspectDecay (s : State) : Host.Outcome State Fault Refusal := .next (s.suspectDecay)
def execScrub (x : Scrubbed) (uncorrectable : Bool) (s : State) : Host.Outcome State Fault Refusal :=
  .next (s.scrub x uncorrectable)
def execCalibration (bus : Nat) (failed : Option Nat) (s : State) : Host.Outcome State Fault Refusal :=
  .next (s.calibrate bus failed)
def execChannelCopyComplete (chan : Nat) (bad : List Nat) (s : State) : Host.Outcome State Fault Refusal :=
  .next (s.copyComplete chan bad)
def execTelemetrySample (s : State) : Host.Outcome State Fault Refusal := .next (s.sample)
def execCdcEviction (core line : Nat) (s : State) : Host.Outcome State Fault Refusal := .next (s.cdcEvict core line)
def execSpdmRequest (index : Nat) (s : State) : Host.Outcome State Fault Refusal := .next (s.spdm index)
def execPldmTelemetryRead (s : State) : Host.Outcome State Fault Refusal := .next (s.pldm)
def execFirmwareRecovery (s : State) : Host.Outcome State Fault Refusal := .next (s.firmwareRecovery)
def execOutboundReadCompletion (h : Nat) (data : Option (BitVec 64)) (s : State) : Host.Outcome State Fault Refusal :=
  .next (s.outboundDone h data)

end Sys2Proof.Machine
end

