-- ==== Sys2Proof/Machine/ExecScalar.lean ====
section
/-!
DEFINITION. The meanings of the scalar instructions, one each: the checks of R83, the effect, and the PC past the instruction.
-/

namespace Sys2Proof.Machine

def execAdd (d a b : BitVec 6) (s : State) : Host.Outcome State Fault Refusal := retire (.add d a b) 4 (effAdd d a b) s
def execSub (d a b : BitVec 6) (s : State) : Host.Outcome State Fault Refusal := retire (.sub d a b) 4 (effSub d a b) s
def execAnd (d a b : BitVec 6) (s : State) : Host.Outcome State Fault Refusal := retire (.and d a b) 4 (effAnd d a b) s
def execOr (d a b : BitVec 6) (s : State) : Host.Outcome State Fault Refusal := retire (.or d a b) 4 (effOr d a b) s
def execXor (d a b : BitVec 6) (s : State) : Host.Outcome State Fault Refusal := retire (.xor d a b) 4 (effXor d a b) s
def execSll (d a b : BitVec 6) (s : State) : Host.Outcome State Fault Refusal := retire (.sll d a b) 4 (effSll d a b) s
def execSrl (d a b : BitVec 6) (s : State) : Host.Outcome State Fault Refusal := retire (.srl d a b) 4 (effSrl d a b) s
def execSra (d a b : BitVec 6) (s : State) : Host.Outcome State Fault Refusal := retire (.sra d a b) 4 (effSra d a b) s
def execMin (d a b : BitVec 6) (s : State) : Host.Outcome State Fault Refusal := retire (.min d a b) 4 (effMin d a b) s
def execMax (d a b : BitVec 6) (s : State) : Host.Outcome State Fault Refusal := retire (.max d a b) 4 (effMax d a b) s
def execMinn (d a b : BitVec 6) (s : State) : Host.Outcome State Fault Refusal :=
  retire (.minn d a b) 4 (effMinn d a b) s
def execMaxn (d a b : BitVec 6) (s : State) : Host.Outcome State Fault Refusal :=
  retire (.maxn d a b) 4 (effMaxn d a b) s
def execMul (d a b : BitVec 6) (s : State) : Host.Outcome State Fault Refusal := retire (.mul d a b) 4 (effMul d a b) s
def execMulh (d a b : BitVec 6) (s : State) : Host.Outcome State Fault Refusal :=
  retire (.mulh d a b) 4 (effMulh d a b) s
def execMulhn (d a b : BitVec 6) (s : State) : Host.Outcome State Fault Refusal :=
  retire (.mulhn d a b) 4 (effMulhn d a b) s
def execDiv (d a b : BitVec 6) (s : State) : Host.Outcome State Fault Refusal := retire (.div d a b) 4 (effDiv d a b) s
def execDivn (d a b : BitVec 6) (s : State) : Host.Outcome State Fault Refusal :=
  retire (.divn d a b) 4 (effDivn d a b) s
def execRem (d a b : BitVec 6) (s : State) : Host.Outcome State Fault Refusal := retire (.rem d a b) 4 (effRem d a b) s
def execRemn (d a b : BitVec 6) (s : State) : Host.Outcome State Fault Refusal :=
  retire (.remn d a b) 4 (effRemn d a b) s
def execClz (d a b : BitVec 6) (s : State) : Host.Outcome State Fault Refusal := retire (.clz d a b) 4 (effClz d a) s
def execCtz (d a b : BitVec 6) (s : State) : Host.Outcome State Fault Refusal := retire (.ctz d a b) 4 (effCtz d a) s
def execPopc (d a b : BitVec 6) (s : State) : Host.Outcome State Fault Refusal := retire (.popc d a b) 4 (effPopc d a) s
def execSel (d a b : BitVec 6) (s : State) : Host.Outcome State Fault Refusal := retire (.sel d a b) 4 (effSel d a b) s
def execAddi (d a : BitVec 6) (i : Imm13) (s : State) : Host.Outcome State Fault Refusal :=
  retire (.addi d a i) (instrBytes (.addi d a i)) (effAddi d a i) s
def execAndi (d a : BitVec 6) (i : Imm13) (s : State) : Host.Outcome State Fault Refusal :=
  retire (.andi d a i) (instrBytes (.andi d a i)) (effAndi d a i) s
def execOri (d a : BitVec 6) (i : Imm13) (s : State) : Host.Outcome State Fault Refusal :=
  retire (.ori d a i) (instrBytes (.ori d a i)) (effOri d a i) s
def execXori (d a : BitVec 6) (i : Imm13) (s : State) : Host.Outcome State Fault Refusal :=
  retire (.xori d a i) (instrBytes (.xori d a i)) (effXori d a i) s
def execSlli (d a : BitVec 6) (z : BitVec 5) (n : BitVec 6) (s : State) : Host.Outcome State Fault Refusal :=
  retire (.slli d a z n) 4 (effSlli d a n) s
def execSrli (d a : BitVec 6) (z : BitVec 5) (n : BitVec 6) (s : State) : Host.Outcome State Fault Refusal :=
  retire (.srli d a z n) 4 (effSrli d a n) s
def execSrai (d a : BitVec 6) (z : BitVec 5) (n : BitVec 6) (s : State) : Host.Outcome State Fault Refusal :=
  retire (.srai d a z n) 4 (effSrai d a n) s
def execLih (d a : BitVec 6) (i : Imm13) (s : State) : Host.Outcome State Fault Refusal :=
  retire (.lih d a i) (instrBytes (.lih d a i)) (effLih d a i) s
def execPcadd (d : BitVec 6) (i : Imm19) (s : State) : Host.Outcome State Fault Refusal :=
  retire (.pcadd d i) (instrBytes (.pcadd d i)) (effPcadd d i) s
def execLdb (d a : BitVec 6) (i : Imm13) (s : State) : Host.Outcome State Fault Refusal :=
  retire (.ldb d a i) (instrBytes (.ldb d a i)) (effLdb d a i) s
def execLdbn (d a : BitVec 6) (i : Imm13) (s : State) : Host.Outcome State Fault Refusal :=
  retire (.ldbn d a i) (instrBytes (.ldbn d a i)) (effLdbn d a i) s
def execLdh (d a : BitVec 6) (i : Imm13) (s : State) : Host.Outcome State Fault Refusal :=
  retire (.ldh d a i) (instrBytes (.ldh d a i)) (effLdh d a i) s
def execLdhn (d a : BitVec 6) (i : Imm13) (s : State) : Host.Outcome State Fault Refusal :=
  retire (.ldhn d a i) (instrBytes (.ldhn d a i)) (effLdhn d a i) s
def execLdw (d a : BitVec 6) (i : Imm13) (s : State) : Host.Outcome State Fault Refusal :=
  retire (.ldw d a i) (instrBytes (.ldw d a i)) (effLdw d a i) s
def execLdwn (d a : BitVec 6) (i : Imm13) (s : State) : Host.Outcome State Fault Refusal :=
  retire (.ldwn d a i) (instrBytes (.ldwn d a i)) (effLdwn d a i) s
def execLdd (d a : BitVec 6) (i : Imm13) (s : State) : Host.Outcome State Fault Refusal :=
  retire (.ldd d a i) (instrBytes (.ldd d a i)) (effLdd d a i) s
def execStb (d a : BitVec 6) (i : Imm13) (s : State) : Host.Outcome State Fault Refusal :=
  retire (.stb d a i) (instrBytes (.stb d a i)) (effStb d a i) s
def execSth (d a : BitVec 6) (i : Imm13) (s : State) : Host.Outcome State Fault Refusal :=
  retire (.sth d a i) (instrBytes (.sth d a i)) (effSth d a i) s
def execStw (d a : BitVec 6) (i : Imm13) (s : State) : Host.Outcome State Fault Refusal :=
  retire (.stw d a i) (instrBytes (.stw d a i)) (effStw d a i) s
def execStd (d a : BitVec 6) (i : Imm13) (s : State) : Host.Outcome State Fault Refusal :=
  retire (.std d a i) (instrBytes (.std d a i)) (effStd d a i) s
def execCmpeq (c : BitVec 3) (a b : BitVec 6) (z : BitVec 7) (s : State) : Host.Outcome State Fault Refusal :=
  retire (.cmpeq c a b z) 4 (effCmpeq c a b) s
def execCmpne (c : BitVec 3) (a b : BitVec 6) (z : BitVec 7) (s : State) : Host.Outcome State Fault Refusal :=
  retire (.cmpne c a b z) 4 (effCmpne c a b) s
def execCmplt (c : BitVec 3) (a b : BitVec 6) (z : BitVec 7) (s : State) : Host.Outcome State Fault Refusal :=
  retire (.cmplt c a b z) 4 (effCmplt c a b) s
def execCmpge (c : BitVec 3) (a b : BitVec 6) (z : BitVec 7) (s : State) : Host.Outcome State Fault Refusal :=
  retire (.cmpge c a b z) 4 (effCmpge c a b) s
def execCmpltn (c : BitVec 3) (a b : BitVec 6) (z : BitVec 7) (s : State) : Host.Outcome State Fault Refusal :=
  retire (.cmpltn c a b z) 4 (effCmpltn c a b) s
def execCmpgen (c : BitVec 3) (a b : BitVec 6) (z : BitVec 7) (s : State) : Host.Outcome State Fault Refusal :=
  retire (.cmpgen c a b z) 4 (effCmpgen c a b) s
def execCmpand (c : BitVec 3) (a b : BitVec 6) (z : BitVec 7) (s : State) : Host.Outcome State Fault Refusal :=
  retire (.cmpand c a b z) 4 (effCmpand c a b) s
def execCmpieq (c : BitVec 3) (a : BitVec 6) (i : Imm13) (s : State) : Host.Outcome State Fault Refusal :=
  retire (.cmpieq c a i) (instrBytes (.cmpieq c a i)) (effCmpieq c a i) s
def execCmpine (c : BitVec 3) (a : BitVec 6) (i : Imm13) (s : State) : Host.Outcome State Fault Refusal :=
  retire (.cmpine c a i) (instrBytes (.cmpine c a i)) (effCmpine c a i) s
def execCmpilt (c : BitVec 3) (a : BitVec 6) (i : Imm13) (s : State) : Host.Outcome State Fault Refusal :=
  retire (.cmpilt c a i) (instrBytes (.cmpilt c a i)) (effCmpilt c a i) s
def execCmpige (c : BitVec 3) (a : BitVec 6) (i : Imm13) (s : State) : Host.Outcome State Fault Refusal :=
  retire (.cmpige c a i) (instrBytes (.cmpige c a i)) (effCmpige c a i) s
def execCmpiltn (c : BitVec 3) (a : BitVec 6) (i : Imm13) (s : State) : Host.Outcome State Fault Refusal :=
  retire (.cmpiltn c a i) (instrBytes (.cmpiltn c a i)) (effCmpiltn c a i) s
def execCmpigen (c : BitVec 3) (a : BitVec 6) (i : Imm13) (s : State) : Host.Outcome State Fault Refusal :=
  retire (.cmpigen c a i) (instrBytes (.cmpigen c a i)) (effCmpigen c a i) s
def execCmpiand (c : BitVec 3) (a : BitVec 6) (i : Imm13) (s : State) : Host.Outcome State Fault Refusal :=
  retire (.cmpiand c a i) (instrBytes (.cmpiand c a i)) (effCmpiand c a i) s
def execCand (d a b : BitVec 6) (s : State) : Host.Outcome State Fault Refusal :=
  retire (.cand d a b) 4 (effCand d a b) s
def execCor (d a b : BitVec 6) (s : State) : Host.Outcome State Fault Refusal := retire (.cor d a b) 4 (effCor d a b) s
def execCxor (d a b : BitVec 6) (s : State) : Host.Outcome State Fault Refusal :=
  retire (.cxor d a b) 4 (effCxor d a b) s
def execCnot (d a b : BitVec 6) (s : State) : Host.Outcome State Fault Refusal := retire (.cnot d a b) 4 (effCnot d a) s
def execCget (d a b : BitVec 6) (s : State) : Host.Outcome State Fault Refusal := retire (.cget d a b) 4 (effCget d) s
def execCfrom (d a b : BitVec 6) (s : State) : Host.Outcome State Fault Refusal :=
  retire (.cfrom d a b) 4 (effCfrom d a) s
def execFadd (d a b : BitVec 6) (rm : BitVec 3) (s : State) : Host.Outcome State Fault Refusal :=
  retire (.fadd d a b rm) 4 (effFadd d a b rm) s
def execFsub (d a b : BitVec 6) (rm : BitVec 3) (s : State) : Host.Outcome State Fault Refusal :=
  retire (.fsub d a b rm) 4 (effFsub d a b rm) s
def execFmul (d a b : BitVec 6) (rm : BitVec 3) (s : State) : Host.Outcome State Fault Refusal :=
  retire (.fmul d a b rm) 4 (effFmul d a b rm) s
def execFdiv (d a b : BitVec 6) (rm : BitVec 3) (s : State) : Host.Outcome State Fault Refusal :=
  retire (.fdiv d a b rm) 4 (effFdiv d a b rm) s
def execFsqrt (d a b : BitVec 6) (rm : BitVec 3) (s : State) : Host.Outcome State Fault Refusal :=
  retire (.fsqrt d a b rm) 4 (effFsqrt d a rm) s
def execFmin (d a b : BitVec 6) (rm : BitVec 3) (s : State) : Host.Outcome State Fault Refusal :=
  retire (.fmin d a b rm) 4 (effFmin d a b) s
def execFmax (d a b : BitVec 6) (rm : BitVec 3) (s : State) : Host.Outcome State Fault Refusal :=
  retire (.fmax d a b rm) 4 (effFmax d a b) s
def execFcvt (d a b : BitVec 6) (rm : BitVec 3) (s : State) : Host.Outcome State Fault Refusal :=
  retire (.fcvt d a b rm) 4 (effFcvt d a b rm) s
def execFclass (d a b : BitVec 6) (rm : BitVec 3) (s : State) : Host.Outcome State Fault Refusal :=
  retire (.fclass d a b rm) 4 (effFclass d a) s
def execFma (d a b : BitVec 6) (rm : BitVec 3) (s : State) : Host.Outcome State Fault Refusal :=
  retire (.fma d a b rm) 4 (effFma d a b rm) s
def execFms (d a b : BitVec 6) (rm : BitVec 3) (s : State) : Host.Outcome State Fault Refusal :=
  retire (.fms d a b rm) 4 (effFms d a b rm) s
def execFnma (d a b : BitVec 6) (rm : BitVec 3) (s : State) : Host.Outcome State Fault Refusal :=
  retire (.fnma d a b rm) 4 (effFnma d a b rm) s
def execFcmpeq (c : BitVec 3) (a b : BitVec 6) (z : BitVec 7) (s : State) : Host.Outcome State Fault Refusal :=
  retire (.fcmpeq c a b z) 4 (effFcmpeq c a b) s
def execFcmpne (c : BitVec 3) (a b : BitVec 6) (z : BitVec 7) (s : State) : Host.Outcome State Fault Refusal :=
  retire (.fcmpne c a b z) 4 (effFcmpne c a b) s
def execFcmplt (c : BitVec 3) (a b : BitVec 6) (z : BitVec 7) (s : State) : Host.Outcome State Fault Refusal :=
  retire (.fcmplt c a b z) 4 (effFcmplt c a b) s
def execFcmpge (c : BitVec 3) (a b : BitVec 6) (z : BitVec 7) (s : State) : Host.Outcome State Fault Refusal :=
  retire (.fcmpge c a b z) 4 (effFcmpge c a b) s
def execBc (c : BitVec 3) (disp : BitVec 21) (s : State) : Host.Outcome State Fault Refusal :=
  retire (.bc c disp) 0 (effBc c disp) s
def execBcn (c : BitVec 3) (disp : BitVec 21) (s : State) : Host.Outcome State Fault Refusal :=
  retire (.bcn c disp) 0 (effBcn c disp) s
def execJ (d : BitVec 6) (i : Imm19) (s : State) : Host.Outcome State Fault Refusal := retire (.j d i) 0 (effJ d i) s
def execJr (d a : BitVec 6) (i : BitVec 13) (s : State) : Host.Outcome State Fault Refusal :=
  retire (.jr d a i) 0 (effJr d a i) s
def execAmoadd (d a b : BitVec 6) (order scope : BitVec 2) (s : State) : Host.Outcome State Fault Refusal :=
  retire (.amoadd d a b order scope) 4 (effAmoadd d a b order scope) s
def execAmofadd (d a b : BitVec 6) (order scope : BitVec 2) (s : State) : Host.Outcome State Fault Refusal :=
  retire (.amofadd d a b order scope) 4 (effAmofadd d a b order scope) s
def execAmomin (d a b : BitVec 6) (order scope : BitVec 2) (s : State) : Host.Outcome State Fault Refusal :=
  retire (.amomin d a b order scope) 4 (effAmomin d a b order scope) s
def execAmomax (d a b : BitVec 6) (order scope : BitVec 2) (s : State) : Host.Outcome State Fault Refusal :=
  retire (.amomax d a b order scope) 4 (effAmomax d a b order scope) s
def execAmoand (d a b : BitVec 6) (order scope : BitVec 2) (s : State) : Host.Outcome State Fault Refusal :=
  retire (.amoand d a b order scope) 4 (effAmoand d a b order scope) s
def execAmoor (d a b : BitVec 6) (order scope : BitVec 2) (s : State) : Host.Outcome State Fault Refusal :=
  retire (.amoor d a b order scope) 4 (effAmoor d a b order scope) s
def execAmoxor (d a b : BitVec 6) (order scope : BitVec 2) (s : State) : Host.Outcome State Fault Refusal :=
  retire (.amoxor d a b order scope) 4 (effAmoxor d a b order scope) s
def execAmoswap (d a b : BitVec 6) (order scope : BitVec 2) (s : State) : Host.Outcome State Fault Refusal :=
  retire (.amoswap d a b order scope) 4 (effAmoswap d a b order scope) s
def execCas (d a b : BitVec 6) (succ fail scope : BitVec 2) (z : BitVec 1) (s : State) : Host.Outcome State Fault Refusal :=
  retire (.cas d a b succ fail scope z) 4 (effCas d a b succ fail scope) s
def execFenceacq (d a b : BitVec 6) (scope : BitVec 3) (z : BitVec 2) (s : State) : Host.Outcome State Fault Refusal :=
  retire (.fenceacq d a b scope z) 4 (effFenceacq scope) s
def execFencerel (d a b : BitVec 6) (scope : BitVec 3) (z : BitVec 2) (s : State) : Host.Outcome State Fault Refusal :=
  retire (.fencerel d a b scope z) 4 (effFencerel scope) s
def execFencear (d a b : BitVec 6) (scope : BitVec 3) (z : BitVec 2) (s : State) : Host.Outcome State Fault Refusal :=
  retire (.fencear d a b scope z) 4 (effFencear scope) s
def execFencesc (d a b : BitVec 6) (scope : BitVec 3) (z : BitVec 2) (s : State) : Host.Outcome State Fault Refusal :=
  retire (.fencesc d a b scope z) 4 (effFencesc scope) s
def execRdctl (d a : BitVec 6) (i : BitVec 13) (s : State) : Host.Outcome State Fault Refusal :=
  retire (.rdctl d a i) 4 (effRdctl d i) s
def execWrctl (d a : BitVec 6) (i : BitVec 13) (s : State) : Host.Outcome State Fault Refusal :=
  retire (.wrctl d a i) 4 (effWrctl a i) s
def execTrap (d a : BitVec 6) (i : BitVec 13) (s : State) : Host.Outcome State Fault Refusal :=
  retire (.trap d a i) 4 (effTrap i) s
def execEret (z : BitVec 25) (s : State) : Host.Outcome State Fault Refusal := retire (.eret z) 0 effEret s
def execYield (z : BitVec 25) (s : State) : Host.Outcome State Fault Refusal := retire (.yield z) 0 effYield s
def execHalt (z : BitVec 25) (s : State) : Host.Outcome State Fault Refusal := retire (.halt z) 0 effHalt s
def execQput (d a b : BitVec 6) (z : BitVec 7) (s : State) : Host.Outcome State Fault Refusal :=
  retire (.qput d a b z) 4 (effQput d a b) s
def execIpost (d a : BitVec 6) (i : BitVec 13) (s : State) : Host.Outcome State Fault Refusal :=
  retire (.ipost d a i) 4 (effIpost a i) s
def execIwait (d a : BitVec 6) (i : BitVec 13) (s : State) : Host.Outcome State Fault Refusal :=
  retire (.iwait d a i) 4 (effIwait a i) s
def execPref (d a : BitVec 6) (i : Imm13) (s : State) : Host.Outcome State Fault Refusal :=
  retire (.pref d a i) (instrBytes (.pref d a i)) (effPref d a i) s

end Sys2Proof.Machine
end

