-- ==== Sys2Proof/Machine/ExecVector.lean ====
section
/-!
DEFINITION. The meanings of the vector-side instructions, one each, executed at their place in program order.
-/

namespace Sys2Proof.Machine

def execVsetl (f : SvF) (s : State) : Host.Outcome State Fault Refusal := retire (.vsetl f) 8 (effVsetl f) s
def execVadd (f : VaF) (s : State) : Host.Outcome State Fault Refusal := retire (.vadd f) 8 (effVadd f) s
def execVsub (f : VaF) (s : State) : Host.Outcome State Fault Refusal := retire (.vsub f) 8 (effVsub f) s
def execVmul (f : VaF) (s : State) : Host.Outcome State Fault Refusal := retire (.vmul f) 8 (effVmul f) s
def execVmulh (f : VaF) (s : State) : Host.Outcome State Fault Refusal := retire (.vmulh f) 8 (effVmulh f) s
def execVdiv (f : VaF) (s : State) : Host.Outcome State Fault Refusal := retire (.vdiv f) 8 (effVdiv f) s
def execVrem (f : VaF) (s : State) : Host.Outcome State Fault Refusal := retire (.vrem f) 8 (effVrem f) s
def execVmin (f : VaF) (s : State) : Host.Outcome State Fault Refusal := retire (.vmin f) 8 (effVmin f) s
def execVmax (f : VaF) (s : State) : Host.Outcome State Fault Refusal := retire (.vmax f) 8 (effVmax f) s
def execVabs (f : VaF) (s : State) : Host.Outcome State Fault Refusal := retire (.vabs f) 8 (effVabs f) s
def execVneg (f : VaF) (s : State) : Host.Outcome State Fault Refusal := retire (.vneg f) 8 (effVneg f) s
def execVand (f : VaF) (s : State) : Host.Outcome State Fault Refusal := retire (.vand f) 8 (effVand f) s
def execVor (f : VaF) (s : State) : Host.Outcome State Fault Refusal := retire (.vor f) 8 (effVor f) s
def execVxor (f : VaF) (s : State) : Host.Outcome State Fault Refusal := retire (.vxor f) 8 (effVxor f) s
def execVnot (f : VaF) (s : State) : Host.Outcome State Fault Refusal := retire (.vnot f) 8 (effVnot f) s
def execVsll (f : VaF) (s : State) : Host.Outcome State Fault Refusal := retire (.vsll f) 8 (effVsll f) s
def execVsrl (f : VaF) (s : State) : Host.Outcome State Fault Refusal := retire (.vsrl f) 8 (effVsrl f) s
def execVsra (f : VaF) (s : State) : Host.Outcome State Fault Refusal := retire (.vsra f) 8 (effVsra f) s
def execVadds (f : VaF) (s : State) : Host.Outcome State Fault Refusal := retire (.vadds f) 8 (effVadds f) s
def execVsubs (f : VaF) (s : State) : Host.Outcome State Fault Refusal := retire (.vsubs f) 8 (effVsubs f) s
def execVavg (f : VaF) (s : State) : Host.Outcome State Fault Refusal := retire (.vavg f) 8 (effVavg f) s
def execVfma (f : VaF) (s : State) : Host.Outcome State Fault Refusal := retire (.vfma f) 8 (effVfma f) s
def execVfms (f : VaF) (s : State) : Host.Outcome State Fault Refusal := retire (.vfms f) 8 (effVfms f) s
def execVfnma (f : VaF) (s : State) : Host.Outcome State Fault Refusal := retire (.vfnma f) 8 (effVfnma f) s
def execVsqrt (f : VaF) (s : State) : Host.Outcome State Fault Refusal := retire (.vsqrt f) 8 (effVsqrt f) s
def execVrsq (f : VaF) (s : State) : Host.Outcome State Fault Refusal := retire (.vrsq f) 8 (effVrsq f) s
def execVrcp (f : VaF) (s : State) : Host.Outcome State Fault Refusal := retire (.vrcp f) 8 (effVrcp f) s
def execVexp2 (f : VaF) (s : State) : Host.Outcome State Fault Refusal := retire (.vexp2 f) 8 (effVexp2 f) s
def execVlog2 (f : VaF) (s : State) : Host.Outcome State Fault Refusal := retire (.vlog2 f) 8 (effVlog2 f) s
def execVclamp (f : VaF) (s : State) : Host.Outcome State Fault Refusal := retire (.vclamp f) 8 (effVclamp f) s
def execVscale (f : VaF) (s : State) : Host.Outcome State Fault Refusal := retire (.vscale f) 8 (effVscale f) s
def execVcvt (f : VaF) (s : State) : Host.Outcome State Fault Refusal := retire (.vcvt f) 8 (effVcvt f) s
def execVdot (f : VaF) (s : State) : Host.Outcome State Fault Refusal := retire (.vdot f) 8 (effVdot f) s
def execVcmp (f : VaF) (s : State) : Host.Outcome State Fault Refusal := retire (.vcmp f) 8 (effVcmp f) s
def execVmerge (f : VaF) (s : State) : Host.Outcome State Fault Refusal := retire (.vmerge f) 8 (effVmerge f) s
def execVbcast (f : VaF) (s : State) : Host.Outcome State Fault Refusal := retire (.vbcast f) 8 (effVbcast f) s
def execVid (f : VaF) (s : State) : Host.Outcome State Fault Refusal := retire (.vid f) 8 (effVid f) s
def execMand (f : VaF) (s : State) : Host.Outcome State Fault Refusal := retire (.mand f) 8 (effMand f) s
def execMor (f : VaF) (s : State) : Host.Outcome State Fault Refusal := retire (.mor f) 8 (effMor f) s
def execMxor (f : VaF) (s : State) : Host.Outcome State Fault Refusal := retire (.mxor f) 8 (effMxor f) s
def execMandn (f : VaF) (s : State) : Host.Outcome State Fault Refusal := retire (.mandn f) 8 (effMandn f) s
def execMnot (f : VaF) (s : State) : Host.Outcome State Fault Refusal := retire (.mnot f) 8 (effMnot f) s
def execMpop (f : VaF) (s : State) : Host.Outcome State Fault Refusal := retire (.mpop f) 8 (effMpop f) s
def execMfirst (f : VaF) (s : State) : Host.Outcome State Fault Refusal := retire (.mfirst f) 8 (effMfirst f) s
def execMsetn (f : VaF) (s : State) : Host.Outcome State Fault Refusal := retire (.msetn f) 8 (effMsetn f) s
def execVslideup (f : VaF) (s : State) : Host.Outcome State Fault Refusal := retire (.vslideup f) 8 (effVslideup f) s
def execVslidedn (f : VaF) (s : State) : Host.Outcome State Fault Refusal := retire (.vslidedn f) 8 (effVslidedn f) s
def execVperm (f : VaF) (s : State) : Host.Outcome State Fault Refusal := retire (.vperm f) 8 (effVperm f) s
def execVcompress (f : VaF) (s : State) : Host.Outcome State Fault Refusal := retire (.vcompress f) 8 (effVcompress f) s
def execVexpand (f : VaF) (s : State) : Host.Outcome State Fault Refusal := retire (.vexpand f) 8 (effVexpand f) s
def execVrank (f : VaF) (s : State) : Host.Outcome State Fault Refusal := retire (.vrank f) 8 (effVrank f) s
def execVextr (f : VaF) (s : State) : Host.Outcome State Fault Refusal := retire (.vextr f) 8 (effVextr f) s
def execVins (f : VaF) (s : State) : Host.Outcome State Fault Refusal := retire (.vins f) 8 (effVins f) s
def execVredsum (f : VaF) (s : State) : Host.Outcome State Fault Refusal := retire (.vredsum f) 8 (effVredsum f) s
def execVredsumo (f : VaF) (s : State) : Host.Outcome State Fault Refusal := retire (.vredsumo f) 8 (effVredsumo f) s
def execVredmax (f : VaF) (s : State) : Host.Outcome State Fault Refusal := retire (.vredmax f) 8 (effVredmax f) s
def execVredmin (f : VaF) (s : State) : Host.Outcome State Fault Refusal := retire (.vredmin f) 8 (effVredmin f) s
def execVconf (f : VaF) (s : State) : Host.Outcome State Fault Refusal := retire (.vconf f) 8 (effVconf f) s
def execVld (f : VmF) (s : State) : Host.Outcome State Fault Refusal := retire (.vld f) 8 (effVld f) s
def execVlds (f : VmF) (s : State) : Host.Outcome State Fault Refusal := retire (.vlds f) 8 (effVlds f) s
def execVldx (f : VmF) (s : State) : Host.Outcome State Fault Refusal := retire (.vldx f) 8 (effVldx f) s
def execVldff (f : VmF) (s : State) : Host.Outcome State Fault Refusal := retire (.vldff f) 8 (effVldff f) s
def execVldxff (f : VmF) (s : State) : Host.Outcome State Fault Refusal := retire (.vldxff f) 8 (effVldxff f) s
def execVst (f : VmF) (s : State) : Host.Outcome State Fault Refusal := retire (.vst f) 8 (effVst f) s
def execVsts (f : VmF) (s : State) : Host.Outcome State Fault Refusal := retire (.vsts f) 8 (effVsts f) s
def execVstx (f : VmF) (s : State) : Host.Outcome State Fault Refusal := retire (.vstx f) 8 (effVstx f) s
def execVpref (f : VmF) (s : State) : Host.Outcome State Fault Refusal := retire (.vpref f) 8 (effVpref f) s
def execVtrans (f : VmF) (s : State) : Host.Outcome State Fault Refusal := retire (.vtrans f) 8 (effVtrans f) s
def execVtransff (f : VmF) (s : State) : Host.Outcome State Fault Refusal := retire (.vtransff f) 8 (effVtransff f) s
def execVsegadd (f : VmF) (s : State) : Host.Outcome State Fault Refusal := retire (.vsegadd f) 8 (effVsegadd f) s
def execMxenter (f : MxF) (s : State) : Host.Outcome State Fault Refusal := retire (.mxenter f) 8 (effMxenter f) s
def execMxleave (f : MxF) (s : State) : Host.Outcome State Fault Refusal := retire (.mxleave f) 8 (effMxleave f) s
def execMxsetc (f : MxF) (s : State) : Host.Outcome State Fault Refusal := retire (.mxsetc f) 8 (effMxsetc f) s
def execMxzero (f : MxF) (s : State) : Host.Outcome State Fault Refusal := retire (.mxzero f) 8 (effMxzero f) s
def execMxmac (f : MxF) (s : State) : Host.Outcome State Fault Refusal := retire (.mxmac f) 8 (effMxmac f) s
def execMxld (f : MxF) (s : State) : Host.Outcome State Fault Refusal := retire (.mxld f) 8 (effMxld f) s
def execMxst (f : MxF) (s : State) : Host.Outcome State Fault Refusal := retire (.mxst f) 8 (effMxst f) s
def execMxstkv (f : MxF) (s : State) : Host.Outcome State Fault Refusal := retire (.mxstkv f) 8 (effMxstkv f) s
def execMxrow (f : MxF) (s : State) : Host.Outcome State Fault Refusal := retire (.mxrow f) 8 (effMxrow f) s
def execMxrowadd (f : MxF) (s : State) : Host.Outcome State Fault Refusal := retire (.mxrowadd f) 8 (effMxrowadd f) s
def execMxscaler (f : MxF) (s : State) : Host.Outcome State Fault Refusal := retire (.mxscaler f) 8 (effMxscaler f) s
def execLinit (f : LaF) (s : State) : Host.Outcome State Fault Refusal := retire (.linit f) 8 (effLinit f) s
def execLstep (f : LaF) (s : State) : Host.Outcome State Fault Refusal := retire (.lstep f) 8 (effLstep f) s
def execLrung (f : LaF) (s : State) : Host.Outcome State Fault Refusal := retire (.lrung f) 8 (effLrung f) s
def execLblend (f : LaF) (s : State) : Host.Outcome State Fault Refusal := retire (.lblend f) 8 (effLblend f) s
def execLcount (f : LaF) (s : State) : Host.Outcome State Fault Refusal := retire (.lcount f) 8 (effLcount f) s
def execLsync (f : LaF) (s : State) : Host.Outcome State Fault Refusal := retire (.lsync f) 8 (effLsync f) s
def execLreset (f : LaF) (s : State) : Host.Outcome State Fault Refusal := retire (.lreset f) 8 (effLreset f) s
def execHinit (f : HsF) (s : State) : Host.Outcome State Fault Refusal := retire (.hinit f) 8 (effHinit f) s
def execHapnd (f : HsF) (s : State) : Host.Outcome State Fault Refusal := retire (.hapnd f) 8 (effHapnd f) s
def execHld (f : HsF) (s : State) : Host.Outcome State Fault Refusal := retire (.hld f) 8 (effHld f) s
def execHspan (f : HsF) (s : State) : Host.Outcome State Fault Refusal := retire (.hspan f) 8 (effHspan f) s
def execHseal (f : HsF) (s : State) : Host.Outcome State Fault Refusal := retire (.hseal f) 8 (effHseal f) s
def execHresume (f : HsF) (s : State) : Host.Outcome State Fault Refusal := retire (.hresume f) 8 (effHresume f) s
def execHfree (f : HsF) (s : State) : Host.Outcome State Fault Refusal := retire (.hfree f) 8 (effHfree f) s
def execVamo (f : AtF) (s : State) : Host.Outcome State Fault Refusal := retire (.vamo f) 8 (effVamo f) s
def execRamo (f : AtF) (s : State) : Host.Outcome State Fault Refusal := retire (.ramo f) 8 (effRamo f) s
def execRcas (f : AtF) (s : State) : Host.Outcome State Fault Refusal := retire (.rcas f) 8 (effRcas f) s
def execRstore (f : AtF) (s : State) : Host.Outcome State Fault Refusal := retire (.rstore f) 8 (effRstore f) s
def execRload (f : AtF) (s : State) : Host.Outcome State Fault Refusal := retire (.rload f) 8 (effRload f) s
def execRdrain (f : AtF) (s : State) : Host.Outcome State Fault Refusal := retire (.rdrain f) 8 (effRdrain f) s
def execVfence (f : SyF) (s : State) : Host.Outcome State Fault Refusal := retire (.vfence f) 8 (effVfence f) s
def execBarinit (f : SyF) (s : State) : Host.Outcome State Fault Refusal := retire (.barinit f) 8 (effBarinit f) s
def execBararr (f : SyF) (s : State) : Host.Outcome State Fault Refusal := retire (.bararr f) 8 (effBararr f) s
def execBarwait (f : SyF) (s : State) : Host.Outcome State Fault Refusal := retire (.barwait f) 8 (effBarwait f) s
def execBarkill (f : SyF) (s : State) : Host.Outcome State Fault Refusal := retire (.barkill f) 8 (effBarkill f) s
def execGbar (f : SyF) (s : State) : Host.Outcome State Fault Refusal := retire (.gbar f) 8 (effGbar f) s
def execXcopy (f : EnF) (s : State) : Host.Outcome State Fault Refusal := retire (.xcopy f) 8 (effXcopy f) s
def execXcopyff (f : EnF) (s : State) : Host.Outcome State Fault Refusal := retire (.xcopyff f) 8 (effXcopyff f) s
def execXinfl (f : EnF) (s : State) : Host.Outcome State Fault Refusal := retire (.xinfl f) 8 (effXinfl f) s
def execXwait (f : EnF) (s : State) : Host.Outcome State Fault Refusal := retire (.xwait f) 8 (effXwait f) s
def execXstat (f : EnF) (s : State) : Host.Outcome State Fault Refusal := retire (.xstat f) 8 (effXstat f) s
def execVfsave (f : SvF) (s : State) : Host.Outcome State Fault Refusal := retire (.vfsave f) 8 (effVfsave f) s
def execVfrest (f : SvF) (s : State) : Host.Outcome State Fault Refusal := retire (.vfrest f) 8 (effVfrest f) s
def execVsave (f : SvF) (s : State) : Host.Outcome State Fault Refusal := retire (.vsave f) 8 (effVsave f) s
def execVrest (f : SvF) (s : State) : Host.Outcome State Fault Refusal := retire (.vrest f) 8 (effVrest f) s

end Sys2Proof.Machine
end

