-- ==== Sys2Proof/Machine/Dispatch.lean ====
section
/-!
DEFINITION. The meaning of every instruction and event.
-/

namespace Sys2Proof.Machine

def exec (i : Instr) (s : State) : Host.Outcome State Fault Refusal :=
  match i with
  | .add d a b => Sys2Proof.Machine.execAdd d a b s
  | .sub d a b => Sys2Proof.Machine.execSub d a b s
  | .and d a b => Sys2Proof.Machine.execAnd d a b s
  | .or d a b => Sys2Proof.Machine.execOr d a b s
  | .xor d a b => Sys2Proof.Machine.execXor d a b s
  | .sll d a b => Sys2Proof.Machine.execSll d a b s
  | .srl d a b => Sys2Proof.Machine.execSrl d a b s
  | .sra d a b => Sys2Proof.Machine.execSra d a b s
  | .min d a b => Sys2Proof.Machine.execMin d a b s
  | .max d a b => Sys2Proof.Machine.execMax d a b s
  | .minn d a b => Sys2Proof.Machine.execMinn d a b s
  | .maxn d a b => Sys2Proof.Machine.execMaxn d a b s
  | .mul d a b => Sys2Proof.Machine.execMul d a b s
  | .mulh d a b => Sys2Proof.Machine.execMulh d a b s
  | .mulhn d a b => Sys2Proof.Machine.execMulhn d a b s
  | .div d a b => Sys2Proof.Machine.execDiv d a b s
  | .divn d a b => Sys2Proof.Machine.execDivn d a b s
  | .rem d a b => Sys2Proof.Machine.execRem d a b s
  | .remn d a b => Sys2Proof.Machine.execRemn d a b s
  | .clz d a b => Sys2Proof.Machine.execClz d a b s
  | .ctz d a b => Sys2Proof.Machine.execCtz d a b s
  | .popc d a b => Sys2Proof.Machine.execPopc d a b s
  | .sel d a b => Sys2Proof.Machine.execSel d a b s
  | .addi d a imm => Sys2Proof.Machine.execAddi d a imm s
  | .andi d a imm => Sys2Proof.Machine.execAndi d a imm s
  | .ori d a imm => Sys2Proof.Machine.execOri d a imm s
  | .xori d a imm => Sys2Proof.Machine.execXori d a imm s
  | .slli d a z n => Sys2Proof.Machine.execSlli d a z n s
  | .srli d a z n => Sys2Proof.Machine.execSrli d a z n s
  | .srai d a z n => Sys2Proof.Machine.execSrai d a z n s
  | .lih d a imm => Sys2Proof.Machine.execLih d a imm s
  | .pcadd d imm => Sys2Proof.Machine.execPcadd d imm s
  | .ldb d a imm => Sys2Proof.Machine.execLdb d a imm s
  | .ldbn d a imm => Sys2Proof.Machine.execLdbn d a imm s
  | .ldh d a imm => Sys2Proof.Machine.execLdh d a imm s
  | .ldhn d a imm => Sys2Proof.Machine.execLdhn d a imm s
  | .ldw d a imm => Sys2Proof.Machine.execLdw d a imm s
  | .ldwn d a imm => Sys2Proof.Machine.execLdwn d a imm s
  | .ldd d a imm => Sys2Proof.Machine.execLdd d a imm s
  | .stb d a imm => Sys2Proof.Machine.execStb d a imm s
  | .sth d a imm => Sys2Proof.Machine.execSth d a imm s
  | .stw d a imm => Sys2Proof.Machine.execStw d a imm s
  | .std d a imm => Sys2Proof.Machine.execStd d a imm s
  | .cmpeq c a b z => Sys2Proof.Machine.execCmpeq c a b z s
  | .cmpne c a b z => Sys2Proof.Machine.execCmpne c a b z s
  | .cmplt c a b z => Sys2Proof.Machine.execCmplt c a b z s
  | .cmpge c a b z => Sys2Proof.Machine.execCmpge c a b z s
  | .cmpltn c a b z => Sys2Proof.Machine.execCmpltn c a b z s
  | .cmpgen c a b z => Sys2Proof.Machine.execCmpgen c a b z s
  | .cmpand c a b z => Sys2Proof.Machine.execCmpand c a b z s
  | .cmpieq c a imm => Sys2Proof.Machine.execCmpieq c a imm s
  | .cmpine c a imm => Sys2Proof.Machine.execCmpine c a imm s
  | .cmpilt c a imm => Sys2Proof.Machine.execCmpilt c a imm s
  | .cmpige c a imm => Sys2Proof.Machine.execCmpige c a imm s
  | .cmpiltn c a imm => Sys2Proof.Machine.execCmpiltn c a imm s
  | .cmpigen c a imm => Sys2Proof.Machine.execCmpigen c a imm s
  | .cmpiand c a imm => Sys2Proof.Machine.execCmpiand c a imm s
  | .cand d a b => Sys2Proof.Machine.execCand d a b s
  | .cor d a b => Sys2Proof.Machine.execCor d a b s
  | .cxor d a b => Sys2Proof.Machine.execCxor d a b s
  | .cnot d a b => Sys2Proof.Machine.execCnot d a b s
  | .cget d a b => Sys2Proof.Machine.execCget d a b s
  | .cfrom d a b => Sys2Proof.Machine.execCfrom d a b s
  | .fadd d a b rm => Sys2Proof.Machine.execFadd d a b rm s
  | .fsub d a b rm => Sys2Proof.Machine.execFsub d a b rm s
  | .fmul d a b rm => Sys2Proof.Machine.execFmul d a b rm s
  | .fdiv d a b rm => Sys2Proof.Machine.execFdiv d a b rm s
  | .fsqrt d a b rm => Sys2Proof.Machine.execFsqrt d a b rm s
  | .fmin d a b rm => Sys2Proof.Machine.execFmin d a b rm s
  | .fmax d a b rm => Sys2Proof.Machine.execFmax d a b rm s
  | .fcvt d a b rm => Sys2Proof.Machine.execFcvt d a b rm s
  | .fclass d a b rm => Sys2Proof.Machine.execFclass d a b rm s
  | .fma d a b rm => Sys2Proof.Machine.execFma d a b rm s
  | .fms d a b rm => Sys2Proof.Machine.execFms d a b rm s
  | .fnma d a b rm => Sys2Proof.Machine.execFnma d a b rm s
  | .fcmpeq c a b z => Sys2Proof.Machine.execFcmpeq c a b z s
  | .fcmpne c a b z => Sys2Proof.Machine.execFcmpne c a b z s
  | .fcmplt c a b z => Sys2Proof.Machine.execFcmplt c a b z s
  | .fcmpge c a b z => Sys2Proof.Machine.execFcmpge c a b z s
  | .bc c disp => Sys2Proof.Machine.execBc c disp s
  | .bcn c disp => Sys2Proof.Machine.execBcn c disp s
  | .j d imm => Sys2Proof.Machine.execJ d imm s
  | .jr d a imm => Sys2Proof.Machine.execJr d a imm s
  | .amoadd d a b order scope => Sys2Proof.Machine.execAmoadd d a b order scope s
  | .amofadd d a b order scope => Sys2Proof.Machine.execAmofadd d a b order scope s
  | .amomin d a b order scope => Sys2Proof.Machine.execAmomin d a b order scope s
  | .amomax d a b order scope => Sys2Proof.Machine.execAmomax d a b order scope s
  | .amoand d a b order scope => Sys2Proof.Machine.execAmoand d a b order scope s
  | .amoor d a b order scope => Sys2Proof.Machine.execAmoor d a b order scope s
  | .amoxor d a b order scope => Sys2Proof.Machine.execAmoxor d a b order scope s
  | .amoswap d a b order scope => Sys2Proof.Machine.execAmoswap d a b order scope s
  | .cas d a b succ fail scope z => Sys2Proof.Machine.execCas d a b succ fail scope z s
  | .fenceacq d a b scope z => Sys2Proof.Machine.execFenceacq d a b scope z s
  | .fencerel d a b scope z => Sys2Proof.Machine.execFencerel d a b scope z s
  | .fencear d a b scope z => Sys2Proof.Machine.execFencear d a b scope z s
  | .fencesc d a b scope z => Sys2Proof.Machine.execFencesc d a b scope z s
  | .rdctl d a imm => Sys2Proof.Machine.execRdctl d a imm s
  | .wrctl d a imm => Sys2Proof.Machine.execWrctl d a imm s
  | .trap d a imm => Sys2Proof.Machine.execTrap d a imm s
  | .eret z => Sys2Proof.Machine.execEret z s
  | .yield z => Sys2Proof.Machine.execYield z s
  | .halt z => Sys2Proof.Machine.execHalt z s
  | .qput d a b z => Sys2Proof.Machine.execQput d a b z s
  | .ipost d a imm => Sys2Proof.Machine.execIpost d a imm s
  | .iwait d a imm => Sys2Proof.Machine.execIwait d a imm s
  | .pref d a imm => Sys2Proof.Machine.execPref d a imm s
  | .vsetl f => Sys2Proof.Machine.execVsetl f s
  | .vadd f => Sys2Proof.Machine.execVadd f s
  | .vsub f => Sys2Proof.Machine.execVsub f s
  | .vmul f => Sys2Proof.Machine.execVmul f s
  | .vmulh f => Sys2Proof.Machine.execVmulh f s
  | .vdiv f => Sys2Proof.Machine.execVdiv f s
  | .vrem f => Sys2Proof.Machine.execVrem f s
  | .vmin f => Sys2Proof.Machine.execVmin f s
  | .vmax f => Sys2Proof.Machine.execVmax f s
  | .vabs f => Sys2Proof.Machine.execVabs f s
  | .vneg f => Sys2Proof.Machine.execVneg f s
  | .vand f => Sys2Proof.Machine.execVand f s
  | .vor f => Sys2Proof.Machine.execVor f s
  | .vxor f => Sys2Proof.Machine.execVxor f s
  | .vnot f => Sys2Proof.Machine.execVnot f s
  | .vsll f => Sys2Proof.Machine.execVsll f s
  | .vsrl f => Sys2Proof.Machine.execVsrl f s
  | .vsra f => Sys2Proof.Machine.execVsra f s
  | .vadds f => Sys2Proof.Machine.execVadds f s
  | .vsubs f => Sys2Proof.Machine.execVsubs f s
  | .vavg f => Sys2Proof.Machine.execVavg f s
  | .vfma f => Sys2Proof.Machine.execVfma f s
  | .vfms f => Sys2Proof.Machine.execVfms f s
  | .vfnma f => Sys2Proof.Machine.execVfnma f s
  | .vsqrt f => Sys2Proof.Machine.execVsqrt f s
  | .vrsq f => Sys2Proof.Machine.execVrsq f s
  | .vrcp f => Sys2Proof.Machine.execVrcp f s
  | .vexp2 f => Sys2Proof.Machine.execVexp2 f s
  | .vlog2 f => Sys2Proof.Machine.execVlog2 f s
  | .vclamp f => Sys2Proof.Machine.execVclamp f s
  | .vscale f => Sys2Proof.Machine.execVscale f s
  | .vcvt f => Sys2Proof.Machine.execVcvt f s
  | .vdot f => Sys2Proof.Machine.execVdot f s
  | .vcmp f => Sys2Proof.Machine.execVcmp f s
  | .vmerge f => Sys2Proof.Machine.execVmerge f s
  | .vbcast f => Sys2Proof.Machine.execVbcast f s
  | .vid f => Sys2Proof.Machine.execVid f s
  | .mand f => Sys2Proof.Machine.execMand f s
  | .mor f => Sys2Proof.Machine.execMor f s
  | .mxor f => Sys2Proof.Machine.execMxor f s
  | .mandn f => Sys2Proof.Machine.execMandn f s
  | .mnot f => Sys2Proof.Machine.execMnot f s
  | .mpop f => Sys2Proof.Machine.execMpop f s
  | .mfirst f => Sys2Proof.Machine.execMfirst f s
  | .msetn f => Sys2Proof.Machine.execMsetn f s
  | .vslideup f => Sys2Proof.Machine.execVslideup f s
  | .vslidedn f => Sys2Proof.Machine.execVslidedn f s
  | .vperm f => Sys2Proof.Machine.execVperm f s
  | .vcompress f => Sys2Proof.Machine.execVcompress f s
  | .vexpand f => Sys2Proof.Machine.execVexpand f s
  | .vrank f => Sys2Proof.Machine.execVrank f s
  | .vextr f => Sys2Proof.Machine.execVextr f s
  | .vins f => Sys2Proof.Machine.execVins f s
  | .vredsum f => Sys2Proof.Machine.execVredsum f s
  | .vredsumo f => Sys2Proof.Machine.execVredsumo f s
  | .vredmax f => Sys2Proof.Machine.execVredmax f s
  | .vredmin f => Sys2Proof.Machine.execVredmin f s
  | .vconf f => Sys2Proof.Machine.execVconf f s
  | .vld f => Sys2Proof.Machine.execVld f s
  | .vlds f => Sys2Proof.Machine.execVlds f s
  | .vldx f => Sys2Proof.Machine.execVldx f s
  | .vldff f => Sys2Proof.Machine.execVldff f s
  | .vldxff f => Sys2Proof.Machine.execVldxff f s
  | .vst f => Sys2Proof.Machine.execVst f s
  | .vsts f => Sys2Proof.Machine.execVsts f s
  | .vstx f => Sys2Proof.Machine.execVstx f s
  | .vpref f => Sys2Proof.Machine.execVpref f s
  | .vtrans f => Sys2Proof.Machine.execVtrans f s
  | .vtransff f => Sys2Proof.Machine.execVtransff f s
  | .vsegadd f => Sys2Proof.Machine.execVsegadd f s
  | .mxenter f => Sys2Proof.Machine.execMxenter f s
  | .mxleave f => Sys2Proof.Machine.execMxleave f s
  | .mxsetc f => Sys2Proof.Machine.execMxsetc f s
  | .mxzero f => Sys2Proof.Machine.execMxzero f s
  | .mxmac f => Sys2Proof.Machine.execMxmac f s
  | .mxld f => Sys2Proof.Machine.execMxld f s
  | .mxst f => Sys2Proof.Machine.execMxst f s
  | .mxstkv f => Sys2Proof.Machine.execMxstkv f s
  | .mxrow f => Sys2Proof.Machine.execMxrow f s
  | .mxrowadd f => Sys2Proof.Machine.execMxrowadd f s
  | .mxscaler f => Sys2Proof.Machine.execMxscaler f s
  | .linit f => Sys2Proof.Machine.execLinit f s
  | .lstep f => Sys2Proof.Machine.execLstep f s
  | .lrung f => Sys2Proof.Machine.execLrung f s
  | .lblend f => Sys2Proof.Machine.execLblend f s
  | .lcount f => Sys2Proof.Machine.execLcount f s
  | .lsync f => Sys2Proof.Machine.execLsync f s
  | .lreset f => Sys2Proof.Machine.execLreset f s
  | .hinit f => Sys2Proof.Machine.execHinit f s
  | .hapnd f => Sys2Proof.Machine.execHapnd f s
  | .hld f => Sys2Proof.Machine.execHld f s
  | .hspan f => Sys2Proof.Machine.execHspan f s
  | .hseal f => Sys2Proof.Machine.execHseal f s
  | .hresume f => Sys2Proof.Machine.execHresume f s
  | .hfree f => Sys2Proof.Machine.execHfree f s
  | .vamo f => Sys2Proof.Machine.execVamo f s
  | .ramo f => Sys2Proof.Machine.execRamo f s
  | .rcas f => Sys2Proof.Machine.execRcas f s
  | .rstore f => Sys2Proof.Machine.execRstore f s
  | .rload f => Sys2Proof.Machine.execRload f s
  | .rdrain f => Sys2Proof.Machine.execRdrain f s
  | .vfence f => Sys2Proof.Machine.execVfence f s
  | .barinit f => Sys2Proof.Machine.execBarinit f s
  | .bararr f => Sys2Proof.Machine.execBararr f s
  | .barwait f => Sys2Proof.Machine.execBarwait f s
  | .barkill f => Sys2Proof.Machine.execBarkill f s
  | .gbar f => Sys2Proof.Machine.execGbar f s
  | .xcopy f => Sys2Proof.Machine.execXcopy f s
  | .xcopyff f => Sys2Proof.Machine.execXcopyff f s
  | .xinfl f => Sys2Proof.Machine.execXinfl f s
  | .xwait f => Sys2Proof.Machine.execXwait f s
  | .xstat f => Sys2Proof.Machine.execXstat f s
  | .vfsave f => Sys2Proof.Machine.execVfsave f s
  | .vfrest f => Sys2Proof.Machine.execVfrest f s
  | .vsave f => Sys2Proof.Machine.execVsave f s
  | .vrest f => Sys2Proof.Machine.execVrest f s
  | .vectorHandover h => Sys2Proof.Machine.execVectorHandover h s
  | .decouplingIssue h => Sys2Proof.Machine.execDecouplingIssue h s
  | .convoyIssue h => Sys2Proof.Machine.execConvoyIssue h s
  | .spotCheck h agrees => Sys2Proof.Machine.execSpotCheck h agrees s
  | .matrixSpotCheck h agrees => Sys2Proof.Machine.execMatrixSpotCheck h agrees s
  | .assayerArbitration die unitAgrees scalarAgrees => Sys2Proof.Machine.execAssayerArbitration die unitAgrees scalarAgrees s
  | .instructionReplay h agrees => Sys2Proof.Machine.execInstructionReplay h agrees s
  | .poisonReissue h => Sys2Proof.Machine.execPoisonReissue h s
  | .trapEntry h cause info addr => Sys2Proof.Machine.execTrapEntry h cause info addr s
  | .privilegeWatchdog h => Sys2Proof.Machine.execPrivilegeWatchdog h s
  | .preemptTaken h => Sys2Proof.Machine.execPreemptTaken h s
  | .hartRetirement h => Sys2Proof.Machine.execHartRetirement h s
  | .streamFaultDelivery h => Sys2Proof.Machine.execStreamFaultDelivery h s
  | .ctxOpen k => Sys2Proof.Machine.execCtxOpen k s
  | .ctxSuspend k => Sys2Proof.Machine.execCtxSuspend k s
  | .ctxResume k => Sys2Proof.Machine.execCtxResume k s
  | .ctxKill k => Sys2Proof.Machine.execCtxKill k s
  | .queueOpen q => Sys2Proof.Machine.execQueueOpen q s
  | .queueClose q => Sys2Proof.Machine.execQueueClose q s
  | .queueAppendDoorbell v => Sys2Proof.Machine.execQueueAppendDoorbell v s
  | .takeRecord => Sys2Proof.Machine.execTakeRecord s
  | .wordDependencePoll => Sys2Proof.Machine.execWordDependencePoll s
  | .placeGang => Sys2Proof.Machine.execPlaceGang s
  | .timeSlice => Sys2Proof.Machine.execTimeSlice s
  | .gangStart g => Sys2Proof.Machine.execGangStart g s
  | .lanemapWithdraw h k => Sys2Proof.Machine.execLanemapWithdraw h k s
  | .lanemapReturn h k => Sys2Proof.Machine.execLanemapReturn h k s
  | .qminWrite h v => Sys2Proof.Machine.execQminWrite h v s
  | .qcapWrite h v => Sys2Proof.Machine.execQcapWrite h v s
  | .pwrcapWrite h v => Sys2Proof.Machine.execPwrcapWrite h v s
  | .feataccWrite v => Sys2Proof.Machine.execFeataccWrite v s
  | .powerWindow watts => Sys2Proof.Machine.execPowerWindow watts s
  | .thermalThrottle die celsius => Sys2Proof.Machine.execThermalThrottle die celsius s
  | .thermalTrip die => Sys2Proof.Machine.execThermalTrip die s
  | .halleyDelivery core => Sys2Proof.Machine.execHalleyDelivery core s
  | .fullerMerge die => Sys2Proof.Machine.execFullerMerge die s
  | .fullerDiscard die => Sys2Proof.Machine.execFullerDiscard die s
  | .ladderMerge core => Sys2Proof.Machine.execLadderMerge core s
  | .transferEnd h tag => Sys2Proof.Machine.execTransferEnd h tag s
  | .pageWalk core ctx va => Sys2Proof.Machine.execPageWalk core ctx va s
  | .inval => Sys2Proof.Machine.execInval s
  | .invalComplete n => Sys2Proof.Machine.execInvalComplete n s
  | .evict => Sys2Proof.Machine.execEvict s
  | .evictDrain n => Sys2Proof.Machine.execEvictDrain n s
  | .pageCommandDoorbell v => Sys2Proof.Machine.execPageCommandDoorbell v s
  | .pcbaseWrite v => Sys2Proof.Machine.execPcbaseWrite v s
  | .pcsizeWrite v => Sys2Proof.Machine.execPcsizeWrite v s
  | .bar0Write off v => Sys2Proof.Machine.execBar0Write off v s
  | .hostBar2Access off bytes data => Sys2Proof.Machine.execHostBar2Access off bytes data s
  | .outboundReadTimeout h => Sys2Proof.Machine.execOutboundReadTimeout h s
  | .setWindow => Sys2Proof.Machine.execSetWindow s
  | .setRoute => Sys2Proof.Machine.execSetRoute s
  | .setPart => Sys2Proof.Machine.execSetPart s
  | .setPwrcap => Sys2Proof.Machine.execSetPwrcap s
  | .firmwareUpdate verifies => Sys2Proof.Machine.execFirmwareUpdate verifies s
  | .portEnable p => Sys2Proof.Machine.execPortEnable p s
  | .portDisable p => Sys2Proof.Machine.execPortDisable p s
  | .lanesLocked p neighbour => Sys2Proof.Machine.execLanesLocked p neighbour s
  | .trainingTimeout p locked => Sys2Proof.Machine.execTrainingTimeout p locked s
  | .linkRetrain p => Sys2Proof.Machine.execLinkRetrain p s
  | .request f => Sys2Proof.Machine.execRequest f s
  | .response f => Sys2Proof.Machine.execResponse f s
  | .probe f => Sys2Proof.Machine.execProbe f s
  | .probeAnswer f => Sys2Proof.Machine.execProbeAnswer f s
  | .close f => Sys2Proof.Machine.execClose f s
  | .closeAnswer f => Sys2Proof.Machine.execCloseAnswer f s
  | .acknowledgement f => Sys2Proof.Machine.execAcknowledgement f s
  | .retransmitTimer ctx chan what kind => Sys2Proof.Machine.execRetransmitTimer ctx chan what kind s
  | .ackIdleTimer ctx chan => Sys2Proof.Machine.execAckIdleTimer ctx chan s
  | .powerGood verifies buses => Sys2Proof.Machine.execPowerGood verifies buses s
  | .nodeIdAssign id => Sys2Proof.Machine.execNodeIdAssign id s
  | .nodeIdTimeout => Sys2Proof.Machine.execNodeIdTimeout s
  | .suspectDecay => Sys2Proof.Machine.execSuspectDecay s
  | .scrub x uncorrectable => Sys2Proof.Machine.execScrub x uncorrectable s
  | .calibration bus failed => Sys2Proof.Machine.execCalibration bus failed s
  | .channelCopyComplete chan bad => Sys2Proof.Machine.execChannelCopyComplete chan bad s
  | .telemetrySample => Sys2Proof.Machine.execTelemetrySample s
  | .cdcEviction core line => Sys2Proof.Machine.execCdcEviction core line s
  | .spdmRequest index => Sys2Proof.Machine.execSpdmRequest index s
  | .pldmTelemetryRead => Sys2Proof.Machine.execPldmTelemetryRead s
  | .firmwareRecovery => Sys2Proof.Machine.execFirmwareRecovery s
  | .outboundReadCompletion h data => Sys2Proof.Machine.execOutboundReadCompletion h data s

end Sys2Proof.Machine
end

