-- ==== Sys2Proof/Machine/Loader.lean ====
section
/-!
DEFINITION. How an instruction is put where the next step fetches it, for a device that runs nothing by itself: a
program comes to run through a context, a launch queue and a gang (log 30). This file stands for that load.
-/

namespace Sys2Proof.Machine

/-- Frames of the page table and the code page that the load uses. -/
def loadRoot : Nat := 0x10000
def loadMid : Nat := 0x20000
def loadLow : Nat := 0x30000
def loadCode : Nat := 0x40000

/-- An entry of the load's page table: a table pointer, or the leaf of a page to read, write and execute. -/
def loadEntry (leaf : Bool) (frame : Nat) : Nat := 2 ^ 63 + (if leaf then 2 ^ 62 + 2 ^ 47 + 2 ^ 46 + 2 ^ 45 else 0) + frame

/-- The state with `bs` as the code at address 0 of context 0, about to be fetched by a new hart in slot 0 of core 0. -/
def State.loadCodeBytes (s : State) (bs : List Byte) : State :=
  let s := (s.writeBack 0).dropClean 0 (fun _ => true)
  let s := s.homeWrite loadRoot (bytesOf 8 (loadEntry false loadMid))
  let s := s.homeWrite loadMid (bytesOf 8 (loadEntry false loadLow))
  let s := s.homeWrite loadLow (bytesOf 8 (loadEntry true loadCode))
  let s := s.homeWrite loadCode bs
  let s := s.setCore 0 { s.core 0 with tlb := [] }
  let s := s.setCtx 0 { s.ctx 0 with state := 1, ptroot := loadRoot }
  let s := s.setDie 0 { s.die 0 with failed := (s.die 0).failed.filter (fun f => f.hart != 0)
                                     replays := (s.die 0).replays.filter (fun r => r.hart != 0) }
  let s := s.setHart 0 { Hart.reset with gang := s.nextGang }
  { s with cur := 0, agenda := [], pcmds := [], copying := s.copying.filter (· != 0), lostChan := s.lostChan.filter (· != 0) }

end Sys2Proof.Machine
end

