-- ==== Sys2Proof/Machine/Turn.lean ====
section
/-!
DEFINITION. What the head of the agenda does (log 1): an event, a hart's turn, the passing of clocks, a core's caches, an
error in a register, or the host at its port.
-/

namespace Sys2Proof.Machine

/-- Clocks pass: the harts whose convoy is ready wait longer, those whose convoy is not are ready no sooner than now (R293),
and the prefetches in flight are performed. -/
def State.clockOn (s : State) (n : Nat) : State :=
  let waits (key : Nat) (h : Hart) : Hart :=
    if h.vq.isEmpty then h
    else if s.issueReady key then { h with waitCount := h.waitCount + n }
    else { h with readySince := s.clock + n }
  ({ s with clock := s.clock + n, harts := s.harts.map (fun e => (e.1, waits e.1 e.2)) } : State).performHints

/-- An uncorrectable error in a register of a hart (R379). -/
def State.upset (s : State) (h kind num : Nat) : State :=
  if s.live h then s.setHart h { s.hartAt h with ecc := (s.hartAt h).ecc ++ [(kind, num)] } else s

/-- A core's caches take a clean copy of the line of an address that a hart of it may read or fetch (log 2): its CDC, and with
`into` 1 the scalar data cache, with 2 the scalar instruction cache. -/
def State.fillTurn (s : State) (h va into : Nat) : State :=
  let k := (s.hartAt h).ctx
  if !s.live h then s
  else if into = 1 then s.fillScalar (h / 8) k .read va
  else if into = 2 then s.fillScalar (h / 8) k .fetch va
  else
    match s.translate (h / 8) k .read va with
    | .ok _ => s.fillFor (h / 8) k .read va
    | _ => s.fillFor (h / 8) k .fetch va

/-- Whether an event has the device read or write DRAM by itself, at descriptors, rings, records, tables, save areas or
streams. -/
def touchesDram (i : Instr) : Bool :=
  match i with
  | .privilegeWatchdog _ | .thermalTrip _ | .assayerArbitration _ _ _
  | .ctxOpen _ | .ctxSuspend _ | .ctxResume _ | .ctxKill _ | .queueOpen _ | .queueClose _ | .queueAppendDoorbell _
  | .takeRecord | .wordDependencePoll | .placeGang | .timeSlice | .gangStart _ | .fullerMerge _ | .fullerDiscard _
  | .pageWalk _ _ _ | .inval | .invalComplete _ | .evict | .evictDrain _ | .pageCommandDoorbell _ | .bar0Write _ _ | .setRoute
  | .request _ | .response _ | .probe _ | .probeAnswer _ | .close _ | .closeAnswer _ | .acknowledgement _
  | .retransmitTimer _ _ _ _ | .ackIdleTimer _ _ => true
  | .scrub (.dram _) _ | .scrub (.llc _) _ => true
  | _ => false

/-- Whether an event is held because a channel is being copied (R382): its agent offers it again. Which channel it touches is not
looked at (log 94). -/
def State.eventHeld (s : State) (i : Instr) : Bool := !s.copying.isEmpty && touchesDram i

/-- The head of the agenda. -/
def State.turn (s : State) (t : Turn) (run : Instr → State → Host.Outcome State Fault Refusal) :
    Host.Outcome State Fault Refusal :=
  match t with
  | .event i => if (encode i).isEmpty && !s.eventHeld i then run i s else .next s
  | .hart h => s.as h (fun s => s.hartTurn run)
  | .ahead h => s.as h (fun s => s.aheadTurn run)
  | .tick n => .next (s.clockOn n)
  | .fill h va into => .next (s.fillTurn h va.toNat into)
  | .arrayError x uncorrectable => .next (s.arrayError x uncorrectable)
  | .arrayFault => .next s.requestReplace
  | .upset h kind num => .next (s.upset h kind num)
  | .bar0Read off => .next (s.bar0Read off)
  | .bar2Resize log => .next (s.bar2Resize log)

end Sys2Proof.Machine
end

