-- ==== Sys2Proof/Safety.lean ====
section
/-!
DEFINITION. What a safe step is, in the terms claims use: when the moving hart may begin an instruction (R83, R379), the
state in which an instruction has retired, and what a read at a place answers.
-/

namespace Sys2Proof.Machine

/-- A step that goes on: neither a fault nor a refusal. -/
def Goes (o : Host.Outcome State Fault Refusal) : Prop := ∃ t, o = .next t

/-- The moving hart is placed and no condition of R83 or R379 keeps it from beginning `i`. -/
def State.begins (s : State) (i : Instr) : Bool :=
  s.live s.cur && match (gate i).run s with | .ok _ _ => true | .error _ _ => false

/-- The state once `i`, begun in `s`, has retired: its effect has left `t`, and the moving hart, where it still is the same
hart, passes `n` bytes. -/
def State.retired (s t : State) (i : Instr) (n : Nat) : State :=
  if t.live t.cur && t.me.gang == s.me.gang && t.me.index == s.me.index then t.setMe (t.me.past (s.me.wroteRegs i) n)
  else t

/-- The same for an effect that only makes the moving hart into `h`. -/
def State.retiredAs (s : State) (i : Instr) (h : Hart) : State :=
  s.setMe (h.past (s.me.wroteRegs i) (instrBytes i))

/-- An access that meets no fault of space, alignment, translation, permission or barrier object lands at `l` (R91); `t`
counts a mismatch of HOME that its walk has met (R317). -/
def State.lands (s : State) (q : Req) (ea : BitVec 64) (l : Loc) (t : State) : Prop :=
  (locate q (isSpad ea) ea).run s = .ok l t

/-- The state in which a read at a place is served: at home, the line leaves the core's own caches first (R242). -/
def State.served (s : State) (l : Loc) : State :=
  match l with
  | .dram pa true => s.evictLine s.coreNo pa
  | _ => s

/-- What a read of `n` bytes at a place answers, with the state it leaves: none where it meets poison, or where an
outbound read has not been completed (R91, R347). -/
def State.answers (s : State) (l : Loc) (n : Nat) : Option (State × Nat) :=
  match l with
  | .dev _ =>
    (s.me.devReads[s.me.devUsed]?).map (fun x =>
      (s.setMe { s.me with devUsed := s.me.devUsed + 1 }, x.toNat % 256 ^ n))
  | l => if (s.served l).locPoisoned l n then none else some (s.served l, ofBytes ((s.served l).peek l n))

/-- What a scalar read answers: none too where it meets a mark in the core's scalar data cache (R376). -/
def State.answersScalar (s : State) (l : Loc) (n : Nat) : Option (State × Nat) :=
  if s.dcacheBad l n then none else s.answers l n

/-! ### What memory holds before and after -/

/-- The moving core holds a clean copy of a byte. -/
def State.cleanAt (s : State) (a : Nat) : Bool := (Tab.find (s.core s.coreNo).clean a).isSome

/-- No write has reached a byte of DRAM: the moving core reads it as before or, where a clean copy of it has left the
core's caches, as it stands at home (R238); at home it is as before, or as the core had written it (R239). The metadata
bytes of the reserve are the home controllers' own: an eviction writes its block's (R380). -/
def Untouched (s u : State) (a : Nat) : Prop :=
  isMeta a = false →
  (u.byteAt u.coreNo a = s.byteAt s.coreNo a ∨ (s.cleanAt a = true ∧ u.byteAt u.coreNo a = s.homeByte a))
    ∧ (u.homeByte a = s.homeByte a ∨ u.homeByte a = s.byteAt s.coreNo a)
    ∧ (u.cleanAt a = true → s.cleanAt a = true)

/-- No write has reached any byte of DRAM, nor of a scratchpad. -/
def SameMemory (s u : State) : Prop := (∀ a, Untouched s u a) ∧ ∀ c o, u.spadByte c o = s.spadByte c o

/-- The bytes `bs` stand at `l` in `u`, and no write has reached any other byte; a write to the outbound window is a posted
write and no byte of memory (R347). -/
def Stored (s u : State) (l : Loc) (bs : List Byte) : Prop :=
  match l with
  | .dram pa _ =>
    (∀ a, if pa ≤ a ∧ a < pa + bs.length then isMeta a = false → u.byteAt u.coreNo a = bs.getD (a - pa) 0
          else Untouched s u a)
      ∧ ∀ c o, u.spadByte c o = s.spadByte c o
  | .spad c pa =>
    (∀ a, Untouched s u a)
      ∧ ∀ c' o, u.spadByte c' o = if c' = c ∧ pa ≤ o ∧ o < pa + bs.length then bs.getD (o - pa) 0 else s.spadByte c' o
  | .dev pa => SameMemory s u ∧ u.outWrites = s.outWrites ++ [(s.pcieAddr pa, BitVec.ofNat 64 (ofBytes bs), bs.length)]

/-! ### What the rules give for scalar instructions -/

/-- The destination and value of an integer instruction (R46, R71, R87, R88; CGET by R95). SEL with a clear condition bit
leaves sd as it was. -/
def aluResult (h : Hart) (i : Instr) : Option (BitVec 6 × Word) :=
  let s := h.readS
  match i with
  | .add d a b => some (d, s a + s b)
  | .sub d a b => some (d, s a - s b)
  | .and d a b => some (d, s a &&& s b)
  | .or d a b => some (d, s a ||| s b)
  | .xor d a b => some (d, s a ^^^ s b)
  | .sll d a b => some (d, s a <<< ((s b).toNat % 64))
  | .srl d a b => some (d, s a >>> ((s b).toNat % 64))
  | .sra d a b => some (d, (s a).sshiftRight ((s b).toNat % 64))
  | .min d a b => some (d, if (s a).slt (s b) then s a else s b)
  | .max d a b => some (d, if (s a).slt (s b) then s b else s a)
  | .minn d a b => some (d, if s a < s b then s a else s b)
  | .maxn d a b => some (d, if s a < s b then s b else s a)
  | .mul d a b => some (d, s a * s b)
  | .mulh d a b => some (d, BitVec.ofInt 64 ((s a).toInt * (s b).toInt / 2 ^ 64))
  | .mulhn d a b => some (d, BitVec.ofNat 64 ((s a).toNat * (s b).toNat / 2 ^ 64))
  | .div d a b => some (d, if s b = 0 then BitVec.allOnes 64 else (s a).sdiv (s b))
  | .divn d a b => some (d, if s b = 0 then BitVec.allOnes 64 else (s a).udiv (s b))
  | .rem d a b => some (d, (s a).srem (s b))
  | .remn d a b => some (d, (s a).umod (s b))
  | .clz d a _ => some (d, clzW (s a))
  | .ctz d a _ => some (d, ctzW (s a))
  | .popc d a _ => some (d, popcW (s a))
  | .sel d a b => some (d, if h.readC (b.setWidth 3) then s a else s d)
  | .addi d a i => some (d, s a + immValue i)
  | .andi d a i => some (d, s a &&& immValue i)
  | .ori d a i => some (d, s a ||| immValue i)
  | .xori d a i => some (d, s a ^^^ immValue i)
  | .slli d a _ n => some (d, s a <<< n.toNat)
  | .srli d a _ n => some (d, s a >>> n.toNat)
  | .srai d a _ n => some (d, (s a).sshiftRight n.toNat)
  | .lih d a i => some (d, (immValue i).setWidth 32 ++ (s a).setWidth 32)
  | .pcadd d i => some (d, pcWord h.pc + 4 * dispValue i)
  | .cget d _ _ => some (d, (h.cb ||| 1).setWidth 64)
  | _ => none

/-- A condition code of R94. -/
def condOf (cond : Nat) (x y : Word) : Bool :=
  match cond with
  | 0 => x == y | 1 => x != y | 2 => x.slt y | 3 => !x.slt y | 4 => x.ult y | 5 => !x.ult y | _ => (x &&& y) != 0

/-- The condition bit and value of a compare or an operation on condition bits (R94, R95). -/
def condResult (h : Hart) (i : Instr) : Option (BitVec 3 × Bool) :=
  let s := h.readS
  let c (r : BitVec 6) : Bool := h.readC (r.setWidth 3)
  match i with
  | .cmpeq d a b _ => some (d, condOf 0 (s a) (s b))
  | .cmpne d a b _ => some (d, condOf 1 (s a) (s b))
  | .cmplt d a b _ => some (d, condOf 2 (s a) (s b))
  | .cmpge d a b _ => some (d, condOf 3 (s a) (s b))
  | .cmpltn d a b _ => some (d, condOf 4 (s a) (s b))
  | .cmpgen d a b _ => some (d, condOf 5 (s a) (s b))
  | .cmpand d a b _ => some (d, condOf 6 (s a) (s b))
  | .cmpieq d a i => some (d, condOf 0 (s a) (immValue i))
  | .cmpine d a i => some (d, condOf 1 (s a) (immValue i))
  | .cmpilt d a i => some (d, condOf 2 (s a) (immValue i))
  | .cmpige d a i => some (d, condOf 3 (s a) (immValue i))
  | .cmpiltn d a i => some (d, condOf 4 (s a) (immValue i))
  | .cmpigen d a i => some (d, condOf 5 (s a) (immValue i))
  | .cmpiand d a i => some (d, condOf 6 (s a) (immValue i))
  | .cand d a b => some (d.setWidth 3, c a && c b)
  | .cor d a b => some (d.setWidth 3, c a || c b)
  | .cxor d a b => some (d.setWidth 3, xor (c a) (c b))
  | .cnot d a _ => some (d.setWidth 3, !c a)
  | .cfrom d a _ => some (d.setWidth 3, s a != 0)
  | _ => none

/-- A load: its bytes, whether it sign-extends, its destination, base and displacement (R90). -/
def loadForm (i : Instr) : Option (Nat × Bool × BitVec 6 × BitVec 6 × Imm13) :=
  match i with
  | .ldb d a i => some (1, true, d, a, i)
  | .ldbn d a i => some (1, false, d, a, i)
  | .ldh d a i => some (2, true, d, a, i)
  | .ldhn d a i => some (2, false, d, a, i)
  | .ldw d a i => some (4, true, d, a, i)
  | .ldwn d a i => some (4, false, d, a, i)
  | .ldd d a i => some (8, false, d, a, i)
  | _ => none

/-- A loaded value of `n` bytes as a register holds it (R90). -/
def extended (n : Nat) (signed : Bool) (x : Nat) : Word :=
  if signed then (BitVec.ofNat (8 * n) x).signExtend 64 else (BitVec.ofNat (8 * n) x).setWidth 64

/-- A store: its bytes, its source, base and displacement (R90). -/
def storeForm (i : Instr) : Option (Nat × BitVec 6 × BitVec 6 × Imm13) :=
  match i with
  | .stb d a i => some (1, d, a, i)
  | .sth d a i => some (2, d, a, i)
  | .stw d a i => some (4, d, a, i)
  | .std d a i => some (8, d, a, i)
  | _ => none

/-- The destination, result and flags of a scalar floating-point instruction that writes a register (R97 to R100). -/
def fpResult (h : Hart) (i : Instr) : Option (BitVec 6 × Word × Flags) :=
  let x := h.fpS
  let two (op : Fmt → El2) (d a b : BitVec 6) (rm : BitVec 3) : Option (BitVec 6 × Word × Flags) :=
    let r := op fp32 (h.scalarEnv rm) (x a) (x b)
    some (d, BitVec.ofNat 64 r.1, r.2)
  let three (np na : Bool) (d a b : BitVec 6) (rm : BitVec 3) : Option (BitVec 6 × Word × Flags) :=
    let r := El.fma np na fp32 (h.scalarEnv rm) (x a) (x b) (x d)
    some (d, BitVec.ofNat 64 r.1, r.2)
  match i with
  | .fadd d a b rm => two El.add d a b rm
  | .fsub d a b rm => two El.sub d a b rm
  | .fmul d a b rm => two El.mul d a b rm
  | .fdiv d a b rm => two El.div d a b rm
  | .fsqrt d a _ rm =>
    let r := El.sqrt fp32 (h.scalarEnv rm) (x a)
    some (d, BitVec.ofNat 64 r.1, r.2)
  | .fmin d a b _ => two (El.minMax false) d a b 0
  | .fmax d a b _ => two (El.minMax true) d a b 0
  | .fma d a b rm => three false false d a b rm
  | .fms d a b rm => three false true d a b rm
  | .fnma d a b rm => three true false d a b rm
  | .fcvt d a b rm =>
    let t := etFmt (b.setWidth 4)
    let m := Rm.ofCode h.frm rm
    if b.getLsbD 4 then
      let r := convert t fp32 m h.dsat h.fz ((h.readS a).toNat % 2 ^ t.bits)
      some (d, BitVec.ofNat 64 r.1, r.2)
    else
      let r := convert fp32 t m h.dsat h.fz (x a)
      some (d, elScalar t r.1, r.2)
  | .fclass d a _ _ => some (d, BitVec.ofNat 64 (2 ^ fpClass (x a)), 0)
  | _ => none

/-- The condition bit, result and flags of FCMP (R99). -/
def fcmpResult (h : Hart) (i : Instr) : Option (BitVec 3 × Bool × Flags) :=
  let r (cond : Nat) (d : BitVec 3) (a b : BitVec 6) : Option (BitVec 3 × Bool × Flags) :=
    let r := El.cmp cond fp32 h.fz (h.fpS a) (h.fpS b)
    some (d, r.1, r.2)
  match i with
  | .fcmpeq d a b _ => r 0 d a b
  | .fcmpne d a b _ => r 1 d a b
  | .fcmplt d a b _ => r 2 d a b
  | .fcmpge d a b _ => r 3 d a b
  | _ => none

/-- A branch: whether it is taken, its link register, the bytes after which it continues, and its target (R96). -/
def jumpResult (h : Hart) (i : Instr) : Option (Option (BitVec 6 × Word) × BitVec 55) :=
  match i with
  | .bc c disp => some (none, if h.readC c then h.pc + (4 * disp.signExtend 64).setWidth 55 else h.pc + 4)
  | .bcn c disp => some (none, if h.readC c then h.pc + 4 else h.pc + (4 * disp.signExtend 64).setWidth 55)
  | .j d i => some (some (d, pcWord (h.pc + BitVec.ofNat 55 (instrBytes (.j d i)))), h.pc + (4 * dispValue i).setWidth 55)
  | _ => none

/-- An AMO: its operation of R101 and its fields. -/
def amoForm (i : Instr) : Option (Nat × BitVec 6 × BitVec 6 × BitVec 6 × BitVec 2 × BitVec 2) :=
  match i with
  | .amoadd d a b o sc => some (0, d, a, b, o, sc)
  | .amofadd d a b o sc => some (1, d, a, b, o, sc)
  | .amomin d a b o sc => some (2, d, a, b, o, sc)
  | .amomax d a b o sc => some (3, d, a, b, o, sc)
  | .amoand d a b o sc => some (4, d, a, b, o, sc)
  | .amoor d a b o sc => some (5, d, a, b, o, sc)
  | .amoxor d a b o sc => some (6, d, a, b, o, sc)
  | .amoswap d a b o sc => some (7, d, a, b, o, sc)
  | _ => none

/-- The state after the release part of an order at a two-bit scope (R101, R238). -/
def State.releasedAt (s : State) (order scope : BitVec 2) : State :=
  if 2 ≤ order.toNat ∧ 1 ≤ scope.toNat then s.writeBack s.coreNo else s

/-- The state after its acquire part. -/
def State.acquiredAt (s : State) (order scope : BitVec 2) : State :=
  if order.toNat % 2 = 1 ∧ 1 ≤ scope.toNat then s.dropClean s.coreNo (fun _ => true) else s

/-- At die scope and wider, nothing is held that a release must write back (R238, R382). -/
def State.canRelease (s : State) (scope : Nat) : Prop := 3 ≤ scope → s.dirtyHeld s.coreNo = false

/-- What an order's release part at a two-bit scope waits for has ended: the hart has no transfer in flight (R252), and at die
scope and wider nothing that its core must write back is held (R382). -/
def State.orderReady (s : State) (order scope : BitVec 2) : Prop :=
  2 ≤ order.toNat → s.me.xfers = [] ∧ (1 ≤ scope.toNat → s.dirtyHeld s.coreNo = false)

/-- Where an atomic at a two-bit scope is performed: at die scope and wider at home (R240). -/
def atomicLoc (l : Loc) (scope : BitVec 2) : Loc :=
  match l with
  | .dram pa home => .dram pa (home || decide (1 ≤ scope.toNat))
  | l => l

/-- A fence: whether it acquires, whether it releases, and its scope (R103). -/
def fenceForm (i : Instr) : Option (Bool × Bool × Nat) :=
  match i with
  | .fenceacq _ _ _ sc _ => some (true, false, sc.toNat)
  | .fencerel _ _ _ sc _ => some (false, true, sc.toNat)
  | .fencear _ _ _ sc _ => some (true, true, sc.toNat)
  | .fencesc _ _ _ sc _ => some (true, true, sc.toNat)
  | _ => none

/-- Whether the moving hart has no remote operation without a result and no held fault (R206). -/
def State.remoteIdle (s : State) : Bool :=
  !s.remotePending && (s.ctx s.me.ctx).chans.all (fun e => e.2.held.all (fun x => x.who != (s.me.gang, s.me.index)))

/-- Nothing holds a transfer of the moving hart: all of them can end (R382). -/
def State.transfersEnd (s : State) : Prop := (s.endTransfers s.cur).me.xfers = []

/-- The state once the moving hart's transfers have ended and, at die scope and wider, its core's dirty bytes are written
back by a release and its clean copies dropped by an acquire, as by a release at system scope (R103, R210, R238, R249). -/
def State.fenced (s : State) (acquire release : Bool) (scope : Nat) : State :=
  let t := s.endTransfers s.cur
  let t := if release = true ∧ 3 ≤ scope then t.writeBack t.coreNo else t
  if (acquire = true ∧ 3 ≤ scope) ∨ (release = true ∧ scope = 5) then t.dropClean t.coreNo (fun _ => true) else t

/-- What a scalar read of `n` bytes at each of some distances from a place answers, in order. -/
def State.answersAt (s : State) (l : Loc) (n : Nat) : List Nat → Option (State × List Nat)
  | [] => some (s, [])
  | o :: os =>
    match s.answersScalar (l.off o) n with
    | none => none
    | some (t, x) => (t.answersAt l n os).map (fun r => (r.1, x :: r.2))

/-- HINTDROP of the moving hart's context raised by `n`, up to 2^32 − 1 (R56, R93, R153). -/
def State.hintsDropped (s : State) (n : Nat) : State :=
  s.setCtx s.me.ctx { s.ctx s.me.ctx with hintdrop := BitVec.ofNat 32 (min ((s.ctx s.me.ctx).hintdrop.toNat + n) (2 ^ 32 - 1)) }

/-- A prefetch of `n` bytes by the moving hart at a level (R93, R153): 0 the scalar data cache, 1 the CDC, 2 the LLC. -/
def State.hintTo (s : State) (level : Nat) (ea : BitVec 64) (n : Nat) : Hint :=
  { core := s.coreNo, ctx := s.me.ctx, va := ea.toNat % 2 ^ 55, n := n, level := level }

/-- What WRCTL of a value to an assigned writable index leaves, none where the register's rule refuses the value (R54 to
R64, R281, R289, R386, R390). -/
def State.ctlWritten (s : State) (i : Nat) (x : Word) : Option State :=
  let h := s.me
  let c := s.core s.coreNo
  let vc (v : VCtl) : Option State := some (s.setMe { h with vc := v })
  let slot (k : Fin 4) : VCtl := { h.vc with mfc := h.vc.mfc.set k (x &&& 0xFFFF07FF#64) }
  let base (k : Fin 4) : VCtl := { h.vc with mfcsb := h.vc.mfcsb.set k (x &&& 0x807FFFFFFFFFFFFF#64) }
  match i with
  | 0x012 => vc { h.vc with vstart := x.setWidth 18 }
  | 0x014 => some (s.setMe { h with vdirty := x })
  | 0x015 => vc { h.vc with vbyp := x.setWidth 32 }
  | 0x020 => vc (slot 0)
  | 0x021 => vc (slot 1)
  | 0x022 => vc (slot 2)
  | 0x023 => vc (slot 3)
  | 0x024 => vc (base 0)
  | 0x025 => vc (base 1)
  | 0x026 => vc (base 2)
  | 0x027 => vc (base 3)
  | 0x030 => vc { h.vc with fctl := if 5 ≤ x.toNat % 8 then x.setWidth 10 &&& 0x3F8#10 else x.setWidth 10 }
  | 0x031 => some (s.setMe { h with fflags := x.setWidth 5 })
  | 0x040 => some (s.setMe { h with cb := x.setWidth 8 ||| 1 })
  | 0x050 => some (s.setMe { h with tcause := x.setWidth 8 })
  | 0x051 => some (s.setMe { h with tinfo := x })
  | 0x052 => some (s.setMe { h with epc := (x &&& ~~~3#64).setWidth 55 })
  | 0x053 => some (s.setMe { h with taddr := x })
  | 0x060 => some (s.setCtx h.ctx { s.ctx h.ctx with hintdrop := x.setWidth 32 })
  | 0x100 => some (s.laneWrite s.coreNo x)
  | 0x101 => if 600 ≤ x.toNat % 4096 ∧ x.toNat % 4096 ≤ 2400 then some { s with pwrcap := x.setWidth 12 } else none
  | 0x102 =>
    let w := x &&& 0x0FFF0FFF#64
    if queueLimitsOk w c.qcap then some (s.setCore s.coreNo { c with qmin := w }) else none
  | 0x103 =>
    let w := x &&& 0x1FFF1FFF#64
    if queueLimitsOk c.qmin w then some (s.setCore s.coreNo { c with qcap := w }) else none
  | 0x124 => some (if s.opened then s else { s with featacc := x.setWidth 7 &&& Config.features })
  | 0x130 =>
    some (if s.accepts 0 then
      s.setDie (dieOf s.coreNo) { s.die (dieOf s.coreNo) with fullerShare := x.setWidth 4 } else s)
  | _ => some s

/-- The moving hart in its handler (R261): the cause, the PC and the mode saved, privileged mode, the PC at TVEC; a RAMO or RCAS
that had begun is begun again after the return (R208; log 33). -/
def State.inHandler (s : State) (cause : BitVec 8) (info addr : BitVec 64) (epc : BitVec 55) : State :=
  s.setMe { s.me with tcause := cause, tinfo := info, taddr := addr, epc := epc, recPriv := s.me.priv :: s.me.recPriv, priv := true
                      privSince := s.clock, pc := (s.ctx s.me.ctx).tvec, barWait := none, barEnd := none, devReads := []
                      devUsed := 0, devWait := none, devError := false, remote := none
                      resend := false, away := s.me.remote :: s.me.away }

/-- A value at or above another in the serial order of R310: their difference is below 2^31. -/
def serialAtLeast (a b : BitVec 32) : Bool := decide ((a - b).toNat < 2 ^ 31)

/-- A Halley post of the moving hart (R110, R311): the context's value and its own core's copy rise, the other cores'
copies rise when the post reaches them. -/
def State.halleyPosted (s : State) (ch : Nat) (v : BitVec 32) : State :=
  let k := s.me.ctx
  let c := s.ctx k
  let o := s.core s.coreNo
  let t := if serialAtLeast v (Tab.get 0xFFFFFFFF#32 c.channels ch) then
      s.setCtx k { c with channels := Tab.set 0xFFFFFFFF#32 c.channels ch v } else s.setCtx k c
  let t := if serialAtLeast v (Tab.get 0xFFFFFFFF#32 o.halley (k * 16 + ch)) then
      t.setCore s.coreNo { o with halley := Tab.set 0xFFFFFFFF#32 o.halley (k * 16 + ch) v } else t.setCore s.coreNo o
  { t with posts := t.posts ++ ((List.range Config.cores).filter (· != s.coreNo)).map (fun c => (c, k * 16 + ch, v)) }

/-! ### What the rules give for vector instructions -/

/-- The state once a core's LFSR has advanced by the spot check of an instruction (R139). -/
def State.spotted (s : State) (checked : Bool) : State :=
  if checked then s.setCore s.coreNo { s.core s.coreNo with lfsr := lfsrStep (s.core s.coreNo).lfsr } else s

/-- What a VA instruction or a permute does to its elements (R112 to R136): its group, the bytes of an element, the active
elements, what each may become, the flags it raises, those of a converted scalar (R118), VLMAX of its types, and whether
an active element has it checked. -/
structure ElementOp where
  d : Nat
  b : Nat
  act : Nat → Bool
  val : Nat → Nat → Prop
  flags : Nat → Flags
  extra : Flags
  fits : Nat
  checked : Bool

/-- Where every element has one result. A check is made where an element is active (R139). -/
def elements (h : Hart) (f : VaF) (b : Nat) (res : Nat → Nat × Flags) (extra : Flags) : ElementOp :=
  { d := f.vd.toNat, b := b, act := VaF.act f h, val := fun k x => x = (res k).1 % 256 ^ b, flags := fun k => (res k).2
    extra := extra, fits := h.vlmax b, checked := h.span.any (VaF.act f h) }

/-- The exact sum of terms rounded once, with its flags. -/
def roundedSum (rm : Rm) (fz : Bool) (terms : List Num) : Nat × Flags :=
  ({ rm := rm, sat := false, fz := fz } : FpEnv).finish (.flt .fp32) (El.exactSum rm terms)

/-- What an fp32 sum whose order the manual leaves open may be (R47): the exact sum rounded, or, where some order would
round and nothing overflows, anything within the bound for K = `k`. -/
def sumMayBe (rm : Rm) (fz : Bool) (k : Nat) (terms : List Num) (x : Nat) : Prop :=
  x = (roundedSum rm fz terms).1
    ∨ (allExact terms = false ∧ (roundedSum rm fz terms).2 &&& Flags.ov = 0
        ∧ withinBound k terms (El.exactSum rm terms).1 (fltDecode .fp32 x) = true)

/-- The flags of that sum (R47, R168). -/
def sumFlags (rm : Rm) (fz : Bool) (terms : List Num) : Flags := (roundedSum rm fz terms).2

/-- VDOT (R128): the parts of the two 32-bit fields multiplied in pairs and added to the accumulator. -/
def dotElements (h : Hart) (f : VaF) : ElementOp :=
  let t := etFmt f.et
  let st := etFmt f.aux4
  let v := h.fpEnv f.rm f.sat
  let pairs (k : Nat) : List (Nat × Nat) :=
    (dotParts st (h.getEl f.va.toNat 4 k)).zip
      (dotParts st (if f.os == 1 then (h.readS f.vb).toNat % 2 ^ 32 else h.getEl f.vb.toNat 4 k))
  let prods (k : Nat) : List (Num × Flags) := (pairs k).map (fun p => Num.mul (st.decode p.1) (st.decode p.2))
  let terms (k : Nat) : List Num := v.arg (.flt .fp32) (h.getEl f.vd.toNat 4 k) :: (prods k).map (fun p => p.1)
  let int (k : Nat) : Int :=
    ((pairs k).map (fun p => intOfBits st.isSigned st.bits p.1 * intOfBits st.isSigned st.bits p.2)).foldl (· + ·)
      (h.getEl f.vd.toNat 4 k : Int)
  let cut (y : Nat) : Nat × Flags :=
    if v.sat then (Fmt.flt .fp32).encode v.rm true v.fz (fltDecode .fp32 y) else (y, 0)
  { elements h f 4 (fun _ => (0, 0)) 0 with
    val := fun k x =>
      if t.isInt then x = intBits 32 (int k)
      else ∃ y, sumMayBe v.rm v.fz (pairs k).length (terms k) y ∧ x = (cut y).1 % 256 ^ 4
    flags := fun k =>
      if t.isInt then 0
      else (prods k).foldl (fun g p => g ||| p.2) 0 ||| sumFlags v.rm v.fz (terms k)
        ||| (cut (roundedSum v.rm v.fz (terms k)).1).2 }

/-- The table of R123 to R130 and R133 to R135. -/
def elementOp (h : Hart) (i : Instr) : Option ElementOp :=
  let a (f : VaF) (k : Nat) : Nat := h.getEl f.va.toNat (etFmt f.et).bytes k
  let b (f : VaF) : (Nat → Nat) × Flags := opB h f.os (etFmt f.et) (h.fpEnv f.rm f.sat) f.vb
  let plain (f : VaF) : (Nat → Nat) × Flags := opB h f.os (etFmt f.et) h.rneEnv f.vb
  let mk (f : VaF) (p : (Nat → Nat) × Flags) (op : Fmt → El2) : Option ElementOp :=
    some (elements h f (etFmt f.et).bytes (fun k => op (etFmt f.et) (h.fpEnv f.rm f.sat) (a f k) (p.1 k)) p.2)
  let un (f : VaF) (op : Fmt → FpEnv → Nat → Nat × Flags) : Option ElementOp :=
    some (elements h f (etFmt f.et).bytes (fun k => op (etFmt f.et) (h.fpEnv f.rm f.sat) (a f k)) 0)
  let ter (f : VaF) (negProd negAdd : Bool) : Option ElementOp :=
    some (elements h f (etFmt f.et).bytes (fun k =>
      El.fma negProd negAdd (etFmt f.et) (h.fpEnv f.rm f.sat) (a f k) ((b f).1 k) (h.getEl f.vd.toNat (etFmt f.et).bytes k))
      (b f).2)
  let move (f : VaF) (src : Nat → Nat) : Option ElementOp :=
    some (elements h f (etFmt f.et).bytes (fun k => (src k, 0)) 0)
  -- an element of va or vb as a value of its type, which has no bits above its width (R26)
  let typed (f : VaF) (r : BitVec 6) (k : Nat) : Nat := (etFmt f.et).trim (h.getEl r.toNat (etFmt f.et).bytes k)
  -- VLMAX, for the type last set by VSETL (R49)
  let vlmax : Nat := h.vlmax (etFmt h.et).bytes
  match i with
  | .vadd f => mk f (b f) El.add
  | .vsub f => mk f (b f) El.sub
  | .vmul f => mk f (b f) El.mul
  | .vmulh f => mk f (plain f) El.mulh
  | .vdiv f => mk f (b f) El.div
  | .vrem f => mk f (plain f) El.rem
  | .vmin f => mk f (plain f) (El.minMax false)
  | .vmax f => mk f (plain f) (El.minMax true)
  | .vabs f => un f El.abs
  | .vneg f => un f El.neg
  | .vand f => mk f (plain f) El.bitAnd
  | .vor f => mk f (plain f) El.bitOr
  | .vxor f => mk f (plain f) El.bitXor
  | .vnot f => un f El.not
  | .vsll f => mk f (plain f) El.sll
  | .vsrl f => mk f (plain f) El.srl
  | .vsra f => mk f (plain f) El.sra
  | .vadds f => mk f (plain f) El.adds
  | .vsubs f => mk f (plain f) El.subs
  | .vavg f => mk f (plain f) El.avg
  | .vfma f => ter f false false
  | .vfms f => ter f false true
  | .vfnma f => ter f true false
  | .vsqrt f => un f El.sqrt
  | .vrsq f => un f El.rsq
  | .vrcp f => un f El.rcp
  | .vexp2 f => un f El.exp2
  | .vlog2 f => un f El.log2
  | .vclamp f =>
    let hi := opB h f.os (etFmt f.et) h.rneEnv f.x
    some (elements h f (etFmt f.et).bytes (fun k => El.clamp (etFmt f.et) h.rneEnv (a f k) ((plain f).1 k) (hi.1 k))
      ((plain f).2 ||| hi.2))
  | .vscale f =>
    let n (k : Nat) : Int :=
      if f.os == 1 then (h.readS f.vb).toInt
      else intOfBits true (8 * (etFmt f.et).bytes) (h.getEl f.vb.toNat (etFmt f.et).bytes k)
    some (elements h f (etFmt f.et).bytes (fun k => El.scale (etFmt f.et) (h.fpEnv f.rm f.sat) (a f k) (n k)) 0)
  | .vcvt f =>
    let t := etFmt f.et
    let d := etFmt f.aux4
    let v := h.fpEnv f.rm f.sat
    some { elements h f d.bytes (fun k => convert t d v.rm v.sat v.fz (a f k)) 0 with
      act := fun k => VaF.act f h k && decide (k < min (h.vlmax t.bytes) (h.vlmax d.bytes))
      fits := min (h.vlmax t.bytes) (h.vlmax d.bytes) }
  | .vdot f => some (dotElements h f)
  | .vmerge f =>
    some (elements h f (etFmt f.et).bytes
      (fun k => (if h.maskBit f.x.toNat k then (if f.os == 1 then (plain f).1 k else typed f f.vb k) else typed f f.va k, 0))
      (plain f).2)
  | .vbcast f =>
    let t := etFmt f.et
    let v := h.fpEnv f.rm f.sat
    let s := h.readS f.vb
    let x : Nat × Flags :=
      if f.os == 0 then (typed f f.vb 0, 0)
      else if t.isInt && v.sat then
        (intBits t.bits (intClamp t.isSigned t.bits (if t.isSigned then s.toInt else (s.toNat : Int))), 0)
      else scalarEl t v s
    some (elements h f t.bytes (fun _ => (x.1, 0)) x.2)
  | .vid f => move f (fun k => k % 2 ^ (etFmt f.et).bits)
  | .vslideup f =>
    let s := (h.readS f.vb).toNat
    some { elements h f (etFmt f.et).bytes (fun k => (typed f f.va (k - s), 0)) 0 with act := fun k => VaF.act f h k && decide (s ≤ k) }
  | .vslidedn f =>
    let s := (h.readS f.vb).toNat
    move f (fun k => if k + s < vlmax then typed f f.va (k + s) else 0)
  | .vperm f =>
    let j (k : Nat) : Nat := h.getEl f.vb.toNat (etFmt f.et).bytes k
    move f (fun k => if j k < vlmax then typed f f.va (j k) else 0)
  | .vcompress f =>
    let sel := h.span.filter (h.maskBit f.x.toNat)
    some { elements h f (etFmt f.et).bytes (fun k => (typed f f.va (sel.getD k 0), 0)) 0 with
      act := fun k => VaF.act f h k && decide (k < sel.length) }
  | .vexpand f =>
    some { elements h f (etFmt f.et).bytes
        (fun k => (typed f f.va (((List.range k).filter (h.maskBit f.x.toNat)).length), 0)) 0 with
      act := fun k => VaF.act f h k && h.maskBit f.x.toNat k }
  | .vrank f =>
    let below (k : Nat) : Nat := ((List.range k).filter (fun j => VaF.act f h j && h.maskBit f.va.toNat j)).length
    move f (fun k => ((h.readS f.vb).toNat + below k) % 2 ^ (etFmt f.et).bits)
  | _ => none

/-- The flags element `k` delivers: those of a converted scalar count once, at the lowest active element (R118). -/
def flagsAt (active : List Nat) (extra : Flags) (flags : Nat → Flags) (k : Nat) : Flags :=
  flags k ||| if active.head? = some k then extra else 0

/-- The elements listed have their results; every other element of the group, and every other register, is as it was. -/
def ElementsWritten (s t : State) (op : ElementOp) (done : List Nat) : Prop :=
  (∀ k, k < op.fits → if k ∈ done then op.val k (t.me.getEl op.d op.b k) else t.me.getEl op.d op.b k = s.me.getEl op.d op.b k)
    ∧ ∀ r lane, r < 64 → r < op.d ∨ op.d + s.me.grp ≤ r →
        Tab.get 0 t.me.v (sliceKey r lane) = Tab.get 0 s.me.v (sliceKey r lane)

/-- The moving hart once an instruction over the group at `d` has stored `v` there (R51): the group's VDIRTY bits set, the
flags of the elements done raised, VSTART where it stands. -/
def Hart.afterElements (h : Hart) (d : Nat) (v : Tab (BitVec 3072)) (flags : List Flags) (vstart : Nat) : Hart :=
  { h with v := v, vdirty := h.vdirty ||| BitVec.ofNat 64 ((2 ^ h.grp - 1) * 2 ^ d)
           fflags := flags.foldl (fun a b => a ||| b) h.fflags, vc := { h.vc with vstart := BitVec.ofNat 18 vstart } }

/-- What an instruction that writes a mask does to its bits (R129, R131, R132, R138). -/
structure MaskOp where
  d : Nat
  act : Nat → Bool
  val : Nat → Bool
  flags : Nat → Flags
  extra : Flags
  checked : Bool

/-- The table of R129, R131, R132 and R138. A VCONF whose mask is its own inverted governing mask sees no element it has
itself selected (log 59). -/
def maskOpOf (h : Hart) (i : Instr) : Option MaskOp :=
  let bit (r : BitVec 6) (k : Nat) : Bool := h.maskBit r.toNat k
  let all (f : VaF) (val : Nat → Bool) : Option MaskOp :=
    some { d := f.vd.toNat, act := fun _ => true, val := val, flags := fun _ => 0, extra := 0, checked := !h.spent }
  match i with
  | .mand f => all f (fun k => bit f.va k && bit f.vb k)
  | .mor f => all f (fun k => bit f.va k || bit f.vb k)
  | .mxor f => all f (fun k => xor (bit f.va k) (bit f.vb k))
  | .mandn f => all f (fun k => bit f.va k && !bit f.vb k)
  | .mnot f => all f (fun k => !bit f.va k)
  | .msetn f => all f (fun k => decide (k < (h.readS f.vb).toNat))
  | .vcmp f =>
    let t := etFmt f.et
    let b := opB h f.os t h.rneEnv f.vb
    let r (k : Nat) : Bool × Flags := El.cmp (f.aux.extractLsb' 0 3).toNat t h.fz (h.getEl f.va.toNat t.bytes k) (b.1 k)
    some { d := f.vd.toNat, act := VaF.act f h, val := fun k => (r k).1, flags := fun k => (r k).2, extra := b.2
           checked := h.span.any (VaF.act f h) }
  | .vconf f =>
    let b := (etFmt f.et).bytes
    let own := f.m != 0 && f.vd.toNat == f.m.toNat && f.mi == 1
    let dup (k : Nat) : Bool :=
      (List.range (if own then min k h.vc.vstart.toNat else k)).any (fun j =>
        VaF.act f h j && h.getEl f.va.toNat b j == h.getEl f.va.toNat b k)
    some { d := f.vd.toNat, act := VaF.act f h, val := fun k => !dup k, flags := fun _ => 0, extra := 0
           checked := h.span.any (VaF.act f h) }
  | _ => none

/-- The bits listed have their values; every other bit of the mask, and every other mask, is as it was. m0 is not
written. -/
def BitsWritten (s t : State) (op : MaskOp) (done : List Nat) : Prop :=
  (∀ k, k < 196608 → t.me.maskBit op.d k = if op.d ≠ 0 ∧ k ∈ done then op.val k else s.me.maskBit op.d k)
    ∧ ∀ r, r ≠ op.d → Tab.get 0 t.me.m r = Tab.get 0 s.me.m r

/-- The scalar that MPOP, MFIRST or VEXTR writes (R132, R136), and whether it is checked. -/
def extracted (h : Hart) (i : Instr) : Option (BitVec 6 × Word × Bool) :=
  match i with
  | .mpop f =>
    some (f.vd, BitVec.ofNat 64 ((h.span.filter (fun k => VaF.act f h k && h.maskBit f.va.toNat k)).length)
      , h.span.any (VaF.act f h))
  | .mfirst f =>
    some (f.vd, match h.span.filter (fun k => VaF.act f h k && h.maskBit f.va.toNat k) with
                | k :: _ => BitVec.ofNat 64 k
                | [] => -1, h.span.any (VaF.act f h))
  | .vextr f =>
    let t := etFmt f.et
    let k := (h.readS f.vb).toNat
    some (f.vd, if h.spent then h.readS f.vd
                else if k < h.vl.toNat then elScalar t (t.trim (h.getEl f.va.toNat t.bytes k)) else 0, !h.spent)
  | _ => none

/-- The values a reduction folds: its start and its active elements in ascending order (R137). -/
def reduced (h : Hart) (f : VaF) : List Nat :=
  (h.span.filter (VaF.act f h)).map (fun k => h.getEl f.va.toNat (etFmt f.et).bytes k)

/-- The result and flags of a reduction other than a floating VREDSUM (R119, R137). -/
def reduction (h : Hart) (i : Instr) : Option (VaF × Word × Flags) :=
  let s (f : VaF) : Word := h.readS f.vb
  let int (f : VaF) (op : Int → Int → Int) : Word :=
    let t := etFmt f.et
    BitVec.ofInt 64 (((reduced h f).map (intOfBits t.isSigned t.bits)).foldl op
      (if t.isSigned then (s f).toInt else ((s f).toNat : Int)))
  let flt (f : VaF) (op : Num → Num → Num × Flags) : Nat × Flags :=
    let v : FpEnv := { rm := Rm.ofCode h.frm f.rm, sat := false, fz := h.fz }
    (reduced h f).foldl (fun r x =>
      let y := v.finish (.flt .fp32) (op (v.arg (.flt .fp32) r.1) (v.arg (etFmt f.et) x))
      (y.1, r.2 ||| y.2)) ((s f).toNat % 2 ^ 32, 0)
  let both (f : VaF) (op : Int → Int → Int) (op' : Num → Num → Num × Flags) : Option (VaF × Word × Flags) :=
    if h.spent then some (f, s f, 0)
    else if (etFmt f.et).isInt then some (f, int f op, 0)
    else some (f, BitVec.ofNat 64 (flt f op').1, (flt f op').2)
  match i with
  | .vredsum f =>
    if h.spent then some (f, s f, 0) else if (etFmt f.et).isInt then some (f, int f (· + ·), 0) else none
  | .vredsumo f => both f (· + ·) (Num.add (Rm.ofCode h.frm f.rm))
  | .vredmax f => both f max (Num.minMax true)
  | .vredmin f => both f min (Num.minMax false)
  | _ => none

/-! ### Element by element through memory -/

/-- The states that a list of acts passes through, in order. -/
def Chain {α σ : Type} (act : α → σ → σ → Prop) : List α → σ → σ → Prop
  | [], s, t => t = s
  | x :: xs, s, t => ∃ u, act x s u ∧ Chain act xs u t

/-- A vector load: its fields, its form and whether it is fault-only-first (R142, R145, R152). -/
def vectorLoad (i : Instr) : Option (VmF × Form × Bool) :=
  match i with
  | .vld f => some (f, .unit, false)
  | .vlds f => some (f, .strided, f.ff == 1)
  | .vldx f => some (f, .indexed, false)
  | .vldff f => some (f, .unit, true)
  | .vldxff f => some (f, .indexed, true)
  | _ => none

/-- A vector store: its fields and form (R142, R146). -/
def vectorStore (i : Instr) : Option (VmF × Form) :=
  match i with
  | .vst f => some (f, .unit)
  | .vsts f => some (f, .strided)
  | .vstx f => some (f, .indexed)
  | _ => none

/-- The state after the release part of an event at a vector scope code, and after its acquire part (R238). -/
def State.releasedBy (s : State) (scope : Nat) : State := if 3 ≤ scope then s.writeBack s.coreNo else s
def State.acquiredBy (s : State) (scope : Nat) : State := if 3 ≤ scope then s.dropClean s.coreNo (fun _ => true) else s

/-- Element `i` of a load, where every access it needs is readable and no flag enabled: an active one whose slot is known
takes the values read, the others are left alone (R145). A fault-only-first form meets device-class memory at its first
element only (R152). With `ord` = 1 an acquire follows each element (R148). -/
def ElementLoads (ff : Bool) (first : Option Nat) (v : Vm) (ord scope i : Nat) (s t : State) : Prop :=
  if v.uses s.me i = false then t = s
  else
    (ff = true → (s.firstDevice (v.touches s.me .read i)).isSome = true → first = some i)
    ∧ ∃ sl xs fl u, v.slot s.me i = some sl ∧ (loadEl v sl i).run s = .ok (xs, fl) u ∧ fl &&& u.me.te = 0
      ∧ let w := u.setMe { (List.range v.nk).foldl (fun h k => v.put h i k (xs.getD k 0)) u.me with
                             fflags := u.me.fflags ||| fl }
        t = if ord = 1 then w.acquiredBy scope else w

/-- Element `i` of a store, where every access it makes is located and no flag is enabled: it is written as a whole; the words
that the writes so far, `p.2`, have covered whole are clean (R143, R146, R150). With `ord` = 1 the core's dirty bytes are
written back after each element (R148). -/
def ElementStores (v : Vm) (ord scope i : Nat) (p q : State × List (Loc × Nat × Nat)) : Prop :=
  ∃ sl ls s xs fl u ws w x, v.slot p.1.me i = some sl
    ∧ (locateAll (v.accs p.1.me .write scope i)).run p.1 = .ok ls s
    ∧ ((List.range v.nk).foldlM (fun (acc : List Nat × Flags) k => do
        let (x, g) ← storeVal v sl i k
        return (acc.1 ++ [x], acc.2 ||| g)) ([], 0)).run s = .ok (xs, fl) u
    ∧ fl &&& u.me.te = 0
    ∧ (storeLocs v sl scope i xs).run u = .ok ws w
    ∧ (putAll (vecInfo i 1) (v.addr p.1.me i) ws).run w = .ok () x
    ∧ q.2 = ws.flatMap Put.covers ++ p.2
    ∧ let y := x.cure q.2
      (ord = 1 → 3 ≤ scope → y.dirtyHeld y.coreNo = false)
        ∧ let z := if ord = 1 then y.releasedBy scope else y
          q.1 = z.setMe { z.me with fflags := z.me.fflags ||| fl }

/-- What VTRANS asks of the map for element `i`: its position, whether it lies outside the map, and its entry's
address (R155). -/
def transAsk (h : Hart) (f : VmF) (k : KvMap) (i : Nat) : Nat × Bool × BitVec 64 :=
  let p := if h.mxm then h.getBytes f.vb.toNat 64 i 0 8 else h.getEl f.vb.toNat 8 i
  let blk := 2 ^ k.bsh
  let nb := (k.len - 1) / blk
  let j := p / blk
  let slot := if j < k.s then j else k.s + (j - k.s) % k.w
  (p, k.len = 0 || k.len ≤ p || (k.s ≤ j && j + k.w ≤ nb), BitVec.ofNat 64 (k.entries + 8 * slot))

/-- Whether an entry faults (R155). -/
def transFaults (out : Bool) (e : Nat) : Bool := out || e % 2 = 0 || e / 2 % 16 = 0 || 5 < e / 2 % 16

/-- Element `i` of VTRANS, and of VTRANSFF where it goes on: its row address, its tag and its fault bit (R155). -/
def ElementTranslates (f : VmF) (k : KvMap) (ff : Bool) (start i : Nat) (s t : State) : Prop :=
  let a := transAsk s.me f k i
  ∃ e u, (if a.2.1 then e = 0 ∧ u = s else (readMem (vecReq .read i 0) false a.2.2).run s = .ok e u)
    ∧ let bad := transFaults a.2.1 e
      let addr := if bad then 0 else e % 2 ^ 55 / 64 * 64 + a.1 % 2 ^ k.bsh * rowBytes (e / 2 % 16) k.d
      let tag := if bad then 0 else e / 2 % 16
      let h := u.me
      let h := if h.mxm then (h.setBytes f.vd.toNat 64 i 0 64 addr).setBytes f.x.toNat 64 i 0 64 tag
               else (h.setEl f.vd.toNat 8 i addr).setEl f.x.toNat 1 i tag
      (ff = true → bad = false ∧ (i ≠ start → a.2.1 = false → s.devClass .read a.2.2 = false))
        ∧ t = u.setMe (h.setMask f.m.toNat i bad)

/-- The sub-elements of an indexed update, with their addresses (R157, R202). -/
def updatePairs (h : Hart) (v : Vm) : List (Nat × Nat) :=
  (h.span.filter (v.uses h)).flatMap (fun i => (List.range v.nk).map (fun k => (i, k)))

/-- What VAMO's elements share (R202). -/
def vamoVm (h : Hart) (f : AtF) : Vm :=
  let b := (etFmt f.et).bytes
  { vd := f.vd.toNat, x := 0, vb := f.vb.toNat, m := f.m, et := f.et, fmt := 0, form := .indexed
    base := (h.readS f.va).toNat, stride := 0, sp := false, bypass := false, nk := if h.mxm then 64 / b else 1
    rb := if h.mxm then 64 else b, tagRm := .rne }

/-- What a vector read-modify-write of element `i` asks of memory; the walks are the instruction's (R144). -/
def updateReq (b : Nat) (bypass : Bool) (i : Nat) : Req :=
  { need := .rmw, n := b, align := b, bypass := bypass, info := vecInfo i 2, vec := true, walks := false }

/-- The updates of an indexed read-modify-write, each at the place its address lands: no fault, no device-class memory, no
poison where `scope` has them performed (R157, R202, R240). -/
def updateTargets (s : State) (v : Vm) (scope : Nat) (ts : List (Nat × Nat × BitVec 64 × Loc)) : Prop :=
  ts.map (fun x => (x.1, x.2.1)) = updatePairs s.me v ∧ ∀ x ∈ ts,
    x.2.2.1 = (v.part s.me (.el (etFmt v.et)) x.1 x.2.1).ea ∧ s.locPoisoned (x.2.2.2.atomicAt scope) v.b = false

/-- One update of VAMO: the old value replaces the element (R202). -/
def ElementUpdates (f : AtF) (v : Vm) (x : Nat × Nat × BitVec 64 × Loc) (s t : State) : Prop :=
  let b := (etFmt f.et).bytes
  ∃ old u, (rmwLoc (updateReq b false x.1) x.2.2.1 x.2.2.2 f.scope.toNat (fun old =>
      amoF (8 * b) (etFmt f.et).isSigned f.op.toNat old (v.get s.me x.1 x.2.1))).run s = .ok old u
    ∧ t = u.setMe (v.put u.me x.1 x.2.1 old)

/-- The addresses of VSEGADD, each once, in the order of their first elements (R157). -/
def segAddresses (ts : List (Nat × Nat × BitVec 64 × Loc)) : List (Nat × BitVec 64 × Loc × Nat) :=
  ts.foldl (fun acc x =>
    if acc.any (fun y => y.1 == x.2.2.1.toNat % 2 ^ 55) then acc
    else acc ++ [(x.2.2.1.toNat % 2 ^ 55, x.2.2.1, x.2.2.2, x.1)]) []

/-- One update of VSEGADD: the sum by halving of the elements at its address, added to what stands there (R157). -/
def SegmentAdds (f : VmF) (v : Vm) (env : FpEnv) (ts : List (Nat × Nat × BitVec 64 × Loc)) (x : Nat × BitVec 64 × Loc × Nat)
    (s t : State) : Prop :=
  let ty := etFmt f.et
  let xs := (ts.filter (fun y => y.2.2.1.toNat % 2 ^ 55 == x.1)).map (fun y => v.get s.me y.1 y.2.1)
  let sum := treeSum (El.add ty env) xs.length xs
  ∃ old u, (rmwLoc (updateReq v.b v.bypass x.2.2.2) x.2.1 x.2.2.1 f.scope.toNat
      (fun old => (El.add ty env old sum.1).1)).run s = .ok old u
    ∧ t = u.setMe { u.me with fflags := u.me.fflags ||| sum.2 ||| (El.add ty env old sum.1).2 }

/-- Words written at the places of an area, in order (R222). -/
def State.pokes (s : State) (ls : List (BitVec 64 × Loc)) (ws : List Nat) : State :=
  (ls.zip ws).foldl (fun s p => s.poke p.1.2 (bytesOf 8 p.2)) s

/-! ### What the rules give for the matrix engine and the ladders -/

/-- A retired matrix arithmetic instruction counted, every sixteenth checked (R178). -/
def State.matrixCounted (s : State) (counted : Bool) : State :=
  if counted then
    let c := s.core s.coreNo
    s.setCore s.coreNo { c with mxCount := c.mxCount + 1
                                lfsr := if (c.mxCount + 1) % 16 = 0 then lfsrStep c.lfsr else c.lfsr }
  else s

/-- Words of tile `d` in the rows and columns listed have their values; every other word is as it was. -/
def TileWritten (s t : State) (d : Nat) (rows cols : List Nat) (val : Nat → Nat → Nat → Prop) : Prop :=
  ∀ a i j, a < 8 → i < 64 → j < 64 →
    if a = d ∧ i ∈ rows ∧ j ∈ cols then val i j (t.me.getAcc a i j) else t.me.getAcc a i j = s.me.getAcc a i j

/-- The moving hart once a matrix instruction has left the accumulators `acc`, with its flags raised and VSTART 0. -/
def Hart.afterRows (h : Hart) (acc : Tab (BitVec 2048)) (flags : List Flags) : Hart :=
  { h with acc := acc, fflags := flags.foldl (fun a b => a ||| b) h.fflags, vc := { h.vc with vstart := 0 } }

/-- The two K-vectors whose dot product MXMAC adds to word (i, j) (R167, R168). -/
def macPairs (h : Hart) (f : MxF) (i j : Nat) : List (Num × Num) :=
  let kb := 512 / max (mxType f.et).2 (mxType f.bt).2
  let scaled := f.et.toNat == 10 || f.et.toNat == 11
  let sc (off : Nat) : Option (Nat × Nat) := if scaled then some (f.x.toNat, off) else none
  (kvec h f.et kb (mxG f) f.va.toNat (sc 0) i).zip (kvec h f.bt kb (mxG f) f.vb.toNat (sc 32) j)

/-- The terms of a floating word of MXMAC: the accumulator and the products (R168). -/
def macTerms (h : Hart) (f : MxF) (i j : Nat) : List Num :=
  ((Fmt.flt .fp32).decode (h.getAcc f.vd.toNat i j)).flushIn h.fz (.flt .fp32)
    :: (macPairs h f i j).map (fun p => (Num.mul p.1 p.2).1)

/-- The flags of a row of MXMAC: invalid and overflow only (R168). -/
def macFlags (h : Hart) (f : MxF) (i : Nat) : Flags :=
  if f.et.toNat == 7 || f.et.toNat == 8 then 0
  else (mxCols f h).foldl (fun g j =>
    g ||| (((macPairs h f i j).foldl (fun g p => g ||| (Num.mul p.1 p.2).2) 0 ||| sumFlags .rne h.fz (macTerms h f i j))
      &&& (Flags.nv ||| Flags.ov))) 0

/-- A word that MXSCALER scales by its row's and its column's factors, with its flags (R172). -/
def factored (h : Hart) (f : MxF) (i j : Nat) : Nat × Flags :=
  let env : FpEnv := { rm := h.frm, sat := h.dsat, fz := h.fz }
  let fp : Fmt := .flt .fp32
  let c := h.getAcc f.vd.toNat i j
  let p := Num.mul (if f.et.toNat = 7 then Num.ofInt (intOfBits true 32 c) else env.arg fp c)
    (env.arg fp (h.slabWord f.va.toNat i))
  let q := Num.mul p.1 (env.arg fp (h.slabWord f.vb.toNat j))
  let b := env.finish fp (q.1, 0)
  (b.1, p.2 ||| q.2 ||| b.2)

/-- A word of MXROWADD's row with the column's slab word added, with its flags (R171). -/
def addedWord (h : Hart) (f : MxF) (j : Nat) : Nat × Flags :=
  let env : FpEnv := { rm := h.frm, sat := false, fz := h.fz }
  env.finish (.flt .fp32) (Num.add env.rm (env.arg (.flt .fp32) (h.getAcc f.vd.toNat (h.readS f.vb).toNat j))
    (env.arg (.flt .fp32) (h.slabWord f.va.toNat j)))

/-- Row `i` of MXLD, where every word is located and readable (R170). -/
def RowLoads (f : MxF) (i : Nat) (s t : State) : Prop :=
  let as := tileRow f s.me .read 4 i
  ∃ (ls : List Loc) (u : State) (xs : List Nat) (w : State), (locateAll as).run s = .ok ls u
    ∧ ((as.zip ls).mapM (fun p : Acc × Loc => readLoc p.1.req p.1.told p.2)).run u = .ok xs w
    ∧ t = w.setMe (((mxCols f w.me).zip xs).foldl (fun h p => h.setAcc f.vd.toNat i p.1 p.2) w.me)

/-- Row `i` of MXST, where every word lands and no flag is enabled (R170). -/
def RowStores (f : MxF) (i : Nat) (s t : State) : Prop :=
  let as := tileRow f s.me .write (mxType f.et).1.bytes i
  let outs := (mxCols f s.me).map (storedWord s.me f i)
  let fl := outs.foldl (fun g o => g ||| o.2) 0
  ∃ ls u w, (locateAll as).run s = .ok ls u ∧ fl &&& s.me.te = 0
    ∧ (writeRow i (as.zip (outs.map (fun o => o.1)))).run u = .ok () w
    ∧ t = w.setMe { w.me with fflags := w.me.fflags ||| fl }

/-- Row `i` of MXSTKV (R173 to R175), its map's entry read or known already: the row rotated, converted to the format the entry's
tag names and written with its block scales at its row's address. -/
def RowCaches (f : MxF) (k : KvMap) (rm : Rm) (early : List (Nat × Except Stop Nat)) (i : Nat) (s t : State) : Prop :=
  if s.me.activeBit f.m 0 i = false then t = s
  else
    let p := s.me.getBytes f.vb.toNat 64 i 0 8
    let us := rotated f s.me k.d i
    let fp : Fmt := .flt .fp32
    let scales := (List.range (k.d / 32)).map (fun b =>
      mxScale 2 (((us.drop (32 * b)).take 32).map (fun u => (fp.decode u.1).flushIn s.me.fz fp)))
    ∃ e u sl ls w outs x y, (kvEntry early i (k.rowEntry p)).run s = .ok e u ∧ e % 2 = 1
      ∧ s.me.tagSlot rm (e / 2 % 16) = some sl
      ∧ let row := e % 2 ^ 55 / 64 * 64 + p % 2 ^ k.bsh * rowBytes (e / 2 % 16) k.d
        let as := k.rowAccesses i p row sl
        (locateAll as).run u = .ok ls w ∧ (k.rowValues i row sl us scales).run w = .ok outs x
          ∧ outs.2 &&& s.me.te = 0
          ∧ (writeRow i ((as.filter (fun x => x.req.need == .write)).zip
              (sl.rowData k.d outs.1 ++ (if sl.scale == 2 then scales else [])))).run x = .ok () y
          ∧ t = y.setMe { y.me with fflags := y.me.fflags ||| outs.2 }

/-- What LRUNG and LBLEND write of a rung's words (R187, R188). -/
def ladPut (h : Hart) (f : LaF) (d : Lad) (xs : List (BitVec 32)) : Hart :=
  if f.isVec then
    if h.spent then h
    else
      let els := (List.range' h.vc.vstart.toNat (ladLimit h d - h.vc.vstart.toNat)).filter (h.activeBit f.m 0)
      els.foldl (fun h i =>
        let x := (xs.getD i 0).toNat
        if h.mxm then h.setBytes f.vd.toNat 64 i 0 4 x else h.setEl f.vd.toNat 4 i x) (h.dirty f.vd.toNat h.grp)
  else
    (List.range (shapeCount d.shape)).foldl (fun h i =>
      h.setAcc f.vd.toNat (i / shapeCols d.shape) (i % shapeCols d.shape) (xs.getD i 0).toNat) h

/-- The words that LSTEP adds to a ladder (R180, R184). -/
def ladCarry (h : Hart) (f : LaF) (d : Lad) : List (BitVec 32) :=
  let e := shapeCount d.shape
  if h.vl = 0 ∧ h.vlUnset = false then List.replicate e (ladIdentity d.op)
  else if f.isVec then
    (List.range e).map (fun i =>
      if i < ladLimit h d && h.activeBit f.m 0 i then BitVec.ofNat 32 (ladGet h f.vb.toNat i) else ladIdentity d.op)
  else (List.range e).map (fun i =>
    BitVec.ofNat 32 (h.getAcc f.vb.toNat (i / shapeCols d.shape) (i % shapeCols d.shape)))

/-- The ladder that an instruction names, initialised and of its form's shape (R181). -/
def State.goodLad (s : State) (f : LaF) (k : BitVec 6) (d : Lad) : Prop :=
  s.lad s.cur k.toNat = some d ∧ d.init = true ∧ shapeTile d.shape = !f.isVec

/-- The blend of a ladder's occupied rungs, each by its weight (R188). -/
def ladBlend (s : State) (f : LaF) (d : Lad) : List Nat :=
  let v : FpEnv := { rm := .rne, sat := false, fz := false }
  let fp : Fmt := .flt .fp32
  ((List.range (d.top + 1)).filter (fun l => (rungSpan d.n d.top l).isSome)).foldl
    (fun (t : List Nat) l =>
      let w := v.arg fp (ladGet s.me f.vb.toNat l)
      List.zipWith (fun t x => (v.finish fp (Num.fma .rne false false w (v.arg fp x) (v.arg fp t))).1) t
        ((s.rung d l).map BitVec.toNat))
    (List.replicate (shapeCount d.shape) 0)

/-! ### Conditions at issue (orders 11 and 12 of R83) -/

/-- No condition of an instruction's fields holds, and no register it reads has an error (R83, R379). -/
def State.fieldsPass (s : State) (i : Instr) : Prop :=
  i.refuse s.legalEnv = none ∧ ∀ e ∈ s.me.ecc, e ∉ i.reads s.me.grp

/-- The fmt, et and addressing of an instruction with a memory-format slot: whether packed encodings may be used, which only
unit-stride accesses and copies do (R61, R142). -/
def slotForm (i : Instr) : Option (BitVec 3 × BitVec 4 × Bool) :=
  match i with
  | .vld f | .vldff f | .vst f => some (f.fmt, f.et, true)
  | .vlds f | .vldx f | .vldxff f | .vsts f | .vstx f | .vpref f => some (f.fmt, f.et, false)
  | .xcopy f | .xcopyff f => some (f.fmt, f.et, true)
  | _ => none

/-- Whether slot `w` cannot serve an access of a type (R61, R142): a reserved encoding or rounding mode, MX32 with another
encoding than i8, e2m1 or e4m3, a pixel encoding with a scale or for another type than i16 or n16, or a packed encoding out of
place. -/
def slotUnfit (w : BitVec 64) (et : BitVec 4) (packed : Bool) : Bool :=
  let e := (w.extractLsb' 0 5).toNat
  let scale := (w.extractLsb' 5 2).toNat
  let px := e = 18 ∨ e = 19 ∨ e = 20
  e = 11 ∨ 22 ≤ e ∨ 6 ≤ (w.extractLsb' 7 3).toNat ∨ (scale = 2 ∧ e ≠ 0 ∧ e ≠ 12 ∧ e ≠ 17)
    ∨ (px ∧ (scale ≠ 0 ∨ (et ≠ 1 ∧ et ≠ 5))) ∨ ((px ∨ e = 21) ∧ packed = false)

/-- The cause and TINFO of the slot check, the pixel feature first (R61, R390). -/
def State.slotFault (s : State) (i : Instr) : Option (BitVec 8 × BitVec 64) :=
  match slotForm i with
  | none => none
  | some (fmt, et, packed) =>
    if fmt.toNat = 0 ∨ 5 ≤ fmt.toNat then none
    else
      let w := s.me.vc.mfc.get (Fin.ofNat 4 (fmt.toNat - 1))
      let e := (w.extractLsb' 0 5).toNat
      if (e = 18 ∨ e = 19 ∨ e = 20) ∧ s.accepts 5 = false then some (cFeature, 0)
      else if slotUnfit w et packed then some (cIllegal, BitVec.ofNat 64 (0x800 + (fmt.toNat - 1)))
      else none

/-- The reason of an operand value that is checked at issue (R143, R162, R167, R194, R220): VL unset, an index width that VL
exceeds, more rows than the K-vectors hold, an append of no element, a tag past 7. -/
def valueFault (h : Hart) (i : Instr) : Option (BitVec 64) :=
  let needsVl (then_ : Option (BitVec 64)) : Option (BitVec 64) := if h.vlUnset then some 0x500 else then_
  let index (et : BitVec 4) (fmt : Nat) : Option (BitVec 64) :=
    let bytes := if (etFmt et).bytes = 8 ∨ fmt = 5 then 8 else 4
    if h.mxm = false ∧ h.vlmax bytes < h.vl.toNat then some 0x400 else none
  match i with
  | .mand _ | .mor _ | .mxor _ | .mandn _ | .mnot _ | .mpop _ | .mfirst _ | .msetn _ | .vld _ | .vlds _ | .vldff _ | .vst _
  | .vsts _ | .vtrans _ | .vtransff _ | .mxld _ | .mxst _ | .mxrow _ | .mxrowadd _ | .mxscaler _ | .hld _ | .xcopy _
  | .xcopyff _ | .xinfl _ => needsVl none
  | .vldx f | .vldxff f | .vstx f | .vsegadd f => needsVl (index f.et f.fmt.toNat)
  | .vpref f => needsVl (if f.vd.toNat % 4 = 2 then index f.et f.fmt.toNat else none)
  | .vamo f => needsVl (index f.et 0)
  | .mxmac f => needsVl (if 6 * h.lanes < mxRows f then some 0x400 else none)
  | .lstep f | .lrung f | .lblend f => if f.isVec then needsVl none else none
  | .hapnd _ => needsVl (if h.vl = 0 then some 0x400 else none)
  | .xwait f | .xstat f => if 8 ≤ (h.readS f.va).toNat then some 0x200 else none
  | _ => none

/-- The earliest condition of orders 11 and 12 that asks no stream (R83). -/
def State.issueFault (s : State) (i : Instr) : Option (BitVec 8 × BitVec 64) :=
  match s.slotFault i with
  | some x => some x
  | none => (valueFault s.me i).map (fun info => (cIllegal, info))

/-! ### What the rules give for streams, remote operations and transfers -/

/-- What reads at places answer one after the other, with the state they leave. -/
def State.answersEach (s : State) : List (Loc × Nat) → Option (State × List Nat)
  | [] => some (s, [])
  | (l, n) :: rest =>
    match s.answers l n with
    | none => none
    | some (t, x) => (t.answersEach rest).map (fun r => (r.1, x :: r.2))

/-- The configuration fields of a stream header: distance and bytes (R353). -/
def headerFields : List (Nat × Nat) :=
  [(0, 6), (8, 8), (0x10, 4), (0x14, 4), (0x18, 8)] ++ (List.range 7).map (fun i => (0x20 + 8 * i, 8))
    ++ (List.range 16).map (fun i => (0x60 + 2 * i, 2))

/-- The configuration of a stream, from those fields. -/
structure Header where
  isize : Nat
  levels : Nat
  cet : BitVec 4
  comb : BitVec 64
  fmt : BitVec 11
  tscale : BitVec 32
  rings : BitVec 64
  consts : List (BitVec 64)
  caps : List Nat

def Header.ofFields (ws : List Nat) : Header :=
  let x (i : Nat) : Nat := ws.getD i 0
  { isize := x 0 % 2 ^ 32, levels := x 0 / 2 ^ 32 % 256, cet := BitVec.ofNat 4 (x 0 / 2 ^ 40), comb := BitVec.ofNat 64 (x 1)
    fmt := BitVec.ofNat 11 (x 2), tscale := BitVec.ofNat 32 (x 3), rings := BitVec.ofNat 64 (x 4)
    consts := ((ws.drop 5).take 7).map (BitVec.ofNat 64), caps := (ws.drop 12).take (x 0 / 2 ^ 32 % 256) }

/-- The conditions of R193 on the fields alone. -/
def Header.legal (d : Header) : Prop :=
  d.isize % 64 = 0 ∧ 64 ≤ d.isize ∧ d.isize ≤ 65536 ∧ 1 ≤ d.levels ∧ d.levels ≤ 16 ∧ 0 ∉ d.caps ∧ d.rings.toNat % 64 = 0
    ∧ (d.fmt.extractLsb' 5 2).toNat ≤ 1 ∧ (d.fmt.extractLsb' 0 5).toNat < 16 ∧ (d.fmt.extractLsb' 0 5).toNat ≠ 11
    ∧ d.cet ≠ 11 ∧ d.isize % (etFmt (d.fmt.extractLsb' 0 4)).bytes = 0 ∧ d.rings.extractLsb' 55 8 = 0

/-- The bytes of the ring area (R352). -/
def Header.bytes (d : Header) : Nat := d.isize * slotsBelow d.caps d.levels

/-- The stream as HINIT makes it: ACTIVE, with stream time and every head and tail 0 (R193). -/
def Header.stream (d : Header) (s : State) (l : Loc) (ea : BitVec 64) (pages : List (Nat × Nat)) (code : List Instr) :
    Stream :=
  { ctx := s.me.ctx, hart := (s.me.gang, s.me.index), owner := (s.me.gangId, s.cur % 8), va := ea, spadCore := (locKey l).1
    key := (locKey l).2, space := (s.spadOf s.me).1, pages := pages, seq := (s.die (locDie l)).registered, isize := d.isize
    levels := d.levels, cet := d.cet, fmt := d.fmt, tscale := d.tscale, rings := d.rings, consts := d.consts, caps := d.caps
    code := code, state := 1, flt := 0, time := 0, heads := List.replicate d.levels 0, tails := List.replicate d.levels 0
    half := none, fault := [] }

/-- Whether a stream's header or rings reach an armed barrier object, or each other (R193). -/
def Stream.overlaps (st : Stream) (s : State) : Bool :=
  (match st.spans.1 with
    | some c => st.spans.2.any (fun r => (s.armedSpad c r.1 r.2).isSome)
    | none => st.spans.2.any (fun r => s.dies.any (fun d => d.2.armed.any (fun b => meet r (b, 64)))))
  || (match st.spans.2 with
    | hd :: t => t.any (meet hd)
    | [] => false)

/-- The state with a stream registered and its dynamic fields written to its header. -/
def State.registers (s : State) (st : Stream) : State :=
  let d := s.die st.die
  let t := s.setDie st.die { d with streams := d.streams ++ [st], registered := d.registered + 1 }
  (List.range 16).foldl (fun s i => s.mirror st (0x80 + 8 * i) 8 0) ((t.mirrorState st).mirrorTime st)

/-- What an HS instruction asks of its header (R191). -/
def hsReq (need : Need) (kind : Nat) : Req :=
  { need := need, n := 256, align := 256, bypass := true, info := vecInfo 0 kind, vec := true }

/-- The header an HS instruction names lies at `l`; `t` counts a mismatch of HOME that the walk has met. -/
def State.header (s : State) (f : HsF) (need : Need) (kind : Nat) (l : Loc) (t : State) : Prop :=
  (place (hsReq need kind) (isSpad (s.me.readS f.va)) (s.me.readS f.va)).run s = .ok l t ∧ ∀ pa, l ≠ .dev pa

/-- The words and flags of an item that HAPND appends (R194). -/
def appendedWords (h : Hart) (f : HsF) (st : Stream) : List (Nat × Flags) :=
  (List.range st.n).map (fun k =>
    if k < h.vl.toNat * hsNk h f.et ∧ h.activeBit f.m 0 (k / hsNk h f.et) = true then
      convOut (st.slot st.rm st.sat) (etFmt f.et) h.fz st.sigma (hsGet h f.et f.vd.toNat k)
    else (0, 0))

/-- The elements that HLD reads (R195). -/
def loadedElements (h : Hart) (f : HsF) (st : Stream) : List Nat :=
  (List.range (min st.n (h.vl.toNat * hsNk h f.et))).filter (fun k =>
    h.vc.vstart.toNat ≤ k / hsNk h f.et && h.activeBit f.m 0 (k / hsNk h f.et))

/-- Words written one after the other at places. -/
def State.pokeAll (s : State) (ws : List (Loc × List Byte)) : State := ws.foldl (fun s p => s.poke p.1 p.2) s

/-- A transfer that has been accepted under a tag, in flight (R218, R220). -/
def State.inFlight (s : State) (t : Transfer) (d : BitVec 6) : State :=
  let h : Hart := { s.me with xfers := s.me.xfers ++ [t], tags := s.me.tags.set (tagFin t.tag) 0
                              tagDst := s.me.tagDst.set (tagFin t.tag) (BitVec.ofNat 64 (t.desc.getD 1 0)) }
  s.setMe ((h.writeS d (BitVec.ofNat 64 t.tag)).setVstart 0)

/-- A copy or an inflate: its fields and whether it trims (R215). -/
def engineForm (i : Instr) : Option (EnF × Bool × Bool) :=
  match i with
  | .xcopy f => some (f, false, false)
  | .xcopyff f => some (f, false, true)
  | .xinfl f => some (f, true, f.ff == 1)
  | _ => none

/-- The transfer that a descriptor's words ask for, where they are well formed (R216, R219). -/
def asked (s : State) (h : Hart) (f : EnF) (inflate : Bool) (tag : Nat) (ws : List Nat) : Option Transfer :=
  let w (i : Nat) : Nat := ws.getD i 0
  let range (a n : Nat) : Bool × Nat × Nat := ((BitVec.ofNat 64 a).getLsbD 63, a % 2 ^ 55, n)
  if inflate then
    if 1 ≤ w 2 && w 2 < 2 ^ 40 && 1 ≤ w 3 && w 3 < 2 ^ 40 && (ws.drop 4).all (· == 0) then
      some { tag := tag, inflate := true, trimmed := false, fmt := 0, et := 0, vc := h.vc, count := w 3, input := w 2
             desc := ws, dims := 1, space := (s.spadOf h).1, pages := [], window := []
             ranges := [range (w 0) (w 2), range (w 1) (w 3)] }
    else none
  else
    let dims := f.dims.toNat + 1
    if descOk ws dims then
      let t : Transfer :=
        { tag := tag, inflate := false, trimmed := false, fmt := f.fmt, et := f.et, vc := h.vc
          count := descCount ws dims, input := 0, desc := ws, dims := dims, space := (s.spadOf h).1, pages := []
          window := [], ranges := [] }
      some { t with ranges := [coverRange ws dims (w 0) t.srcRun (descSS ws),
                               coverRange ws dims (w 1) (descN ws 0 * t.dbytes) (descDS ws)] }
    else none

/-- The transfer as it is pinned: whole, or trimmed before a position (R218). -/
def Transfer.pinned (t : Transfer) (p : Pins) (cut : Option Nat) : Transfer :=
  match cut with
  | none => { t with pages := p.pages }
  | some k => { t with pages := p.pages, trimmed := true, count := min t.count k, input := min t.input k }

/-! ### What the rules give for the events of the other agents -/

/-- The control register that an event of the hart at a key writes, and the value (R281, R289, R386). -/
def ctlWrite (s : State) (key : Nat) (i : Instr) : Option (Nat × Word) :=
  match i with
  | .lanemapWithdraw h k => if h = key ∧ k < 16 then some (0x100, setLg (s.core (key / 8)).laneMap k 13) else none
  | .lanemapReturn h k => if h = key ∧ k < 16 then some (0x100, setLg (s.core (key / 8)).laneMap k 0) else none
  | .pwrcapWrite h v => if h = key then some (0x101, v) else none
  | .qminWrite h v => if h = key then some (0x102, v) else none
  | .qcapWrite h v => if h = key then some (0x103, v) else none
  | _ => none

/-- The state in which OPEN has copied a context's descriptor, cleared FSQHEAD and DROPPED and made every channel entry
invalid (R259, R270). -/
def freedChannels (s : State) (k : Nat) (d : Ctx) : Except (BitVec 8) State :=
  let u := ({ s.setCtx k d with opened := true } : State)
  (List.range d.chanCnt).foldlM (fun (u : State) i => do
    let u := u.walksOf k (d.entry i) 8
    let w ← u.areaRead k (d.entry i) 8
    u.areaWrite k (d.entry i) 8 (w % 2 ^ 63)) ((u.descWrite k 0x50 8 0).descWrite k 0x4C 4 0)

/-! ### What the rules give for a step -/

/-- Nothing comes before the instruction at the moving hart's PC: no pre-emption that may be taken now, nothing left of its
vector side, no asynchronous fault. -/
def State.readyToFetch (s : State) : Prop :=
  s.canMove s.cur = true ∧ (s.me.priv = true ∨ s.midway = true ∨ ∀ b, s.me.pre ≠ .pending b) ∧ s.me.win = [] ∧ s.me.vq = []
    ∧ s.asyncFault = none

/-- What more a vector-side instruction at the PC waits for: the issue stage chooses no other hart's convoy, the window and
the matrix engine receive it, and no matrix instruction issued before it is left (R85, R177, R282, R293). -/
def State.mayStart (s : State) (i : Instr) : Prop := isVector i = true → s.startsAt [i] = true

/-- The bytes at the moving hart's PC decode to `i`, one parcel or two, with `k` outbound reads taken (R66, R67). -/
def State.fetches (s : State) (i : Instr) (k : Nat) : Prop :=
  (∃ w, s.parcelAt s.me.pc (s.me.pc.setWidth 64) 0 = .ok (w, k) ∧ decode [w] = .ok (i, 1))
  ∨ ∃ w q j, s.parcelAt s.me.pc (s.me.pc.setWidth 64) 0 = .ok (w, j)
      ∧ s.parcelAt (s.me.pc + 4) (s.me.pc.setWidth 64) j = .ok (q, k) ∧ decode [w, q] = .ok (i, 2)

end Sys2Proof.Machine
end

