-- ==== Sys2Proof/Certificates/Slice0/Obligations.lean ====
section
/-!
DEFINITION. What the provers are asked to prove: one statement each, from the numbered rules of the specification.
-/

open Sys2Proof Sys2Proof.Machine

/-! ### Scalar instructions -/

/-- R46, R84, R87, R94, R95: an integer instruction of the register and immediate forms writes its result, discards it
where sd is s0, passes its own bytes and changes nothing else; a compare or an operation on condition bits does the same
with one condition bit (none where it is c0). -/
def Obligations.IntegerResult : Prop :=
  (∀ (i : Instr) (s : State) (d : BitVec 6) (x : Word), s.begins i = true → aluResult s.me i = some (d, x) →
    exec i s = .next (s.retiredAs i (s.me.writeS d x)))
  ∧ ∀ (i : Instr) (s : State) (d : BitVec 3) (x : Bool), s.begins i = true → condResult s.me i = some (d, x) →
    exec i s = .next (s.retiredAs i (s.me.writeC d x))

/-- R89, R90, R245: a load that lands and is answered writes the value, sign-extended or zero-extended, to sd, and no write
reaches any byte of memory; one that a fence after it makes an acquire at system scope is performed at home. The model's own in
it: the view of memory, and which fences such a load looks for (log 2). -/
def Obligations.LoadResult : Prop :=
  ∀ (i : Instr) (s s1 t : State) (n : Nat) (signed : Bool) (d a : BitVec 6) (im : Imm13) (l : Loc) (x : Nat),
    s.begins i = true → loadForm i = some (n, signed, d, a, im) →
    s.lands (s.loadReq n) (s.me.readS a + immValue im) l s1 → s1.answersScalar l n = some (t, x) →
      exec i s = .next (t.retiredAs i (t.me.writeS d (extended n signed x)))
        ∧ SameMemory s (t.retiredAs i (t.me.writeS d (extended n signed x)))

/-- R89, R90: a store that lands writes the low bytes of sd there, no write reaches any other byte of memory, and no
register but the PC changes. The model's own in it: the view of memory (log 2). -/
def Obligations.StoreResult : Prop :=
  ∀ (i : Instr) (s s1 : State) (n : Nat) (d a : BitVec 6) (im : Imm13) (l : Loc),
    s.begins i = true → storeForm i = some (n, d, a, im) →
    s.lands (scalarReq .write n 1) (s.me.readS a + immValue im) l s1 →
      ∃ u, exec i s = .next u ∧ Stored s u l (bytesOf n (s.me.readS d).toNat)
        ∧ u.me = s.me.past (s.me.wroteRegs i) (instrBytes i)

/-- R24, R97 to R100: a floating-point instruction raises its flags and writes its result, a compare its condition bit;
where one of its flags is enabled in FCTL it takes FP_TRAP with those flags in TINFO, and in FFLAGS, and writes nothing
else. The model's own in it: the flags of a clamped FCVT (log 20). -/
def Obligations.FloatResult : Prop :=
  (∀ (i : Instr) (s : State) (d : BitVec 6) (x : Word) (fl : Flags), s.begins i = true →
    fpResult s.me i = some (d, x, fl) →
      exec i s =
        if fl &&& s.me.te = 0 then
          .next (s.retiredAs i (({ s.me with fflags := s.me.fflags ||| fl } : Hart).writeS d x))
        else .next ((s.setMe { s.me with fflags := s.me.fflags ||| fl }).takeTrap cFpTrap (BitVec.ofNat 64 fl.toNat) 0))
  ∧ ∀ (i : Instr) (s : State) (d : BitVec 3) (x : Bool) (fl : Flags), s.begins i = true →
    fcmpResult s.me i = some (d, x, fl) →
      exec i s =
        if fl &&& s.me.te = 0 then
          .next (s.retiredAs i (({ s.me with fflags := s.me.fflags ||| fl } : Hart).writeC d x))
        else .next ((s.setMe { s.me with fflags := s.me.fflags ||| fl }).takeTrap cFpTrap (BitVec.ofNat 64 fl.toNat) 0)

/-- R96: BC, BCN and J set the PC, J writes the address after itself to sd. JR goes to sa + imm and writes the address
after itself; a target whose low two bits are not 0 raises MISALIGN with TADDR the target, with sd unchanged and no
jump. The model's own in it: the 55 bits that JR keeps of its target (log 42), and TINFO 0 of that MISALIGN (log 91). -/
def Obligations.BranchResult : Prop :=
  (∀ (i : Instr) (s : State) (link : Option (BitVec 6 × Word)) (pc : BitVec 55), s.begins i = true →
    jumpResult s.me i = some (link, pc) →
      exec i s = .next (s.setMe
        { (match link with
            | some (d, x) => s.me.writeS d x
            | none => s.me).past (s.me.wroteRegs i) 0 with pc := pc }))
  ∧ ∀ (s : State) (d a : BitVec 6) (im : BitVec 13), s.begins (.jr d a im) = true →
    let t := s.me.readS a + im.signExtend 64
    exec (.jr d a im) s =
      if t.toNat % 4 = 0 then
        .next (s.setMe { (s.me.writeS d (pcWord (s.me.pc + 4))).past (s.me.wroteRegs (.jr d a im)) 0 with
          pc := t.setWidth 55 })
      else .next (s.takeTrap cMisalign 0 t)

/-- R101, R102, R240, R241: an AMO writes the old value to sd and the new value at its address, after the release part of
its order and before the acquire part; at die scope and wider it is performed at home. CAS writes sb there where the
old value was the expected one; where it was not, it writes nothing and has the acquire part of `fail`. A release waits
for the hart's transfers. The model's own in it: the view of memory (log 2) and how a wait is shown (log 56). -/
def Obligations.AtomicResult : Prop :=
  (∀ (i : Instr) (s s1 : State) (op : Nat) (d a b : BitVec 6) (o sc : BitVec 2) (l : Loc),
    s.begins i = true → amoForm i = some (op, d, a, b, o, sc) →
    s.lands (scalarReq .rmw (amoBytes op) 2) (s.me.readS a) l s1 →
    (∀ x xs, 2 ≤ o.toNat → s.me.xfers = x :: xs → exec i s = .next (s.endTransfer s.cur x.tag))
    ∧ ∀ (t : State) (old : Nat), s.orderReady o sc →
      (s1.releasedAt o sc).answersScalar (atomicLoc l sc) (amoBytes op) = some (t, old) →
      let n := amoBytes op
      let new := bytesOf n (amoF (8 * n) true op old (s.me.readS b).toNat)
      let u := ((t.poke (atomicLoc l sc) new).acquiredAt o sc).retiredAs i (t.me.writeS d (BitVec.ofNat 64 old))
      exec i s = .next u ∧ Stored s u (atomicLoc l sc) new)
  ∧ ∀ (s s1 t : State) (d a b : BitVec 6) (o f sc : BitVec 2) (z : BitVec 1) (l : Loc) (old : Nat),
    let i : Instr := .cas d a b o f sc z
    s.begins i = true → s.lands (scalarReq .rmw 8 2) (s.me.readS a) l s1 →
    s1.answersScalar (atomicLoc l sc) 8 = some (t, old) →
      let h := t.me.writeS d (BitVec.ofNat 64 old)
      let new := bytesOf 8 (s.me.readS b).toNat
      if old = (s.me.readS d).toNat then
        t.orderReady o sc →
          let u := (((t.releasedAt o sc).poke (atomicLoc l sc) new).acquiredAt o sc).retiredAs i h
          exec i s = .next u ∧ Stored s u (atomicLoc l sc) new
      else exec i s = .next ((t.acquiredAt f sc).retiredAs i h) ∧ SameMemory s ((t.acquiredAt f sc).retiredAs i h)

/-- R103, R206, R238, R249: a fence ends the hart's transfers; at die scope and wider one that releases writes the core's
dirty bytes back and one that acquires drops its clean copies, as a release at system scope does; that waits while a remote
operation of the hart has no result. The model's own in it: how an order acts on one run (log 2) and how a wait is shown
(log 56). -/
def Obligations.FenceResult : Prop :=
  ∀ (i : Instr) (s : State) (acquire release : Bool) (scope : Nat), s.begins i = true →
    fenceForm i = some (acquire, release, scope) →
    (s.transfersEnd → (release = true → (s.endTransfers s.cur).canRelease scope) →
      ¬(release = true ∧ scope = 5) ∨ s.remoteIdle = true →
      exec i s = .next (s.retired (s.fenced acquire release scope) i 4))
    ∧ (release = true ∧ scope = 5 ∧ s.remotePending = true → exec i s = .next s)

/-- R93, R153, R317: a hint changes nothing but HINTDROP, which counts the addresses the hint could not follow, and the
prefetches in flight, which take in those it could; its walks are counted. The model's own in it: how walks are counted, and
that each stored part of an element is one prefetch (logs 76 and 103). -/
def Obligations.HintResult : Prop :=
  (∀ (s : State) (d a : BitVec 6) (im : Imm13), s.begins (.pref d a im) = true →
    let ea := s.me.readS a + immValue im
    let w := s.walkedPages .read true (if (ea.extractLsb' 55 9) ≠ 0 then [] else [ea])
    let t := if isSpad ea = true then s else if w.hintLost ea = true then w.hintsDropped 1
             else { w with hints := w.hints ++ [w.hintTo (d.toNat % 4) ea 1] }
    exec (.pref d a im) s = .next (s.retired t (.pref d a im) (instrBytes (.pref d a im))))
  ∧ ∀ (s : State) (f : VmF), s.begins (.vpref f) = true →
    let form : Form := match f.vd.toNat % 4 with | 1 => .strided | 2 => .indexed | _ => .unit
    let v := s.me.vm f form false
    let lost (i : Nat) : Bool :=
      (v.parts s.me i).any (fun p => p.ea.toNat % p.align ≠ 0 || p.pieces.any (fun x => s.hintLost x.1))
    let els := s.me.span.filter (v.uses s.me)
    let kept := (els.filter (fun i => !lost i)).flatMap (fun i =>
      (v.parts s.me i).map (fun p => s.hintTo (if f.pol.toNat = 1 then 2 else 1) p.ea p.n))
    let w := s.walkedPages .read (form == .indexed)
      (els.flatMap (fun i => (v.parts s.me i).flatMap (fun p => p.pieces.map (fun x => x.1))))
    let t := if s.me.vl.toNat ≤ s.me.vc.vstart.toNat ∨ v.sp = true then s
             else { w.hintsDropped (els.filter lost).length with hints := s.hints ++ kept }
    exec (.vpref f) s = .next (s.retired (t.setMe (t.me.setVstart 0)) (.vpref f) 8)

/-- R104: RDCTL writes the control register's value to sd. The model's own in it: the tie of SUSPECT (log 25) and the
progress indices (log 3). -/
def Obligations.ControlRead : Prop :=
  ∀ (s : State) (d a : BitVec 6) (k : BitVec 13), s.begins (.rdctl d a k) = true →
    exec (.rdctl d a k) s = .next (s.retiredAs (.rdctl d a k) (s.me.writeS d (s.readCtl k.toNat)))

/-- R104 with R54 to R64: WRCTL stores the fields of the register it names, and a value the register's rule refuses
raises ILLEGAL_INSTR. The model's own in it: the bits of PWRCAP judged (log 42). -/
def Obligations.ControlWrite : Prop :=
  ∀ (s : State) (d a : BitVec 6) (k : BitVec 13), s.begins (.wrctl d a k) = true →
    exec (.wrctl d a k) s =
      match s.ctlWritten k.toNat (s.me.readS a) with
      | some t => .next (s.retired t (.wrctl d a k) 4)
      | none => .next (s.takeTrap cIllegal 0x200 0)

/-- R105, R260, R261: in user mode TRAP enters the handler with its immediate in TINFO; in privileged mode, or where
the handler cannot be fetched, it kills the context. The model's own in it: a remote operation in progress put aside, a handler
in the outbound window, and the EPC of a kill's record (logs 33, 48 and 98). -/
def Obligations.TrapResult : Prop :=
  ∀ (s : State) (d a : BitVec 6) (k : BitVec 13), s.begins (.trap d a k) = true →
    let who := some (s.me.pc.toNat, hartTag s.me s.cur)
    exec (.trap d a k) s = .next (
      if s.me.priv then s.kill s.me.ctx 4 cTrapInstr who
      else
        match s.handlerFault s.coreNo s.me.ctx (s.ctx s.me.ctx).tvec.toNat with
        | some c => s.kill s.me.ctx 4 c who
        | none => s.inHandler cTrapInstr (k.setWidth 64) 0 s.me.pc)

/-- R61, R83, R143, R162, R167, R194, R220: a decoded instruction that meets a condition of R83's orders 2, 3 and 6 to 10 raises
the cause and the reason of the earliest one, and has no effect; one that meets none of them, nor a register with an error,
raises the earliest condition of orders 11 and 12 that it meets. The model's own in it: ranks and reasons within the table that
no rule gives (logs 21, 29, 67 to 70, 79, 92 and 93). -/
def Obligations.ConditionsTrap : Prop :=
  (∀ (i : Instr) (s : State) (r : Refuse), i.refuse s.legalEnv = some r → exec i s = .next (s.takeTrap r.cause r.info 0))
  ∧ (∀ (i : Instr) (s : State) (c : BitVec 8) (info : BitVec 64), s.fieldsPass i → s.issueFault i = some (c, info) →
      exec i s = .next (s.takeTrap c info 0))
  ∧ ∀ (s s1 : State) (f : HsF) (l : Loc) (st : Stream), s.fieldsPass (.hapnd f) → s.issueFault (.hapnd f) = none →
      s.header f .read 1 l s1 → s.streamAt l = some st → st.n < s.me.vl.toNat * hsNk s.me f.et →
      exec (.hapnd f) s = .next (s.takeTrap cIllegal 0x400#64 0)

/-- R106, R208, R266, R267: ERET resumes at EPC in the recorded mode with the frame reissued ahead of it, frees the save
block it resumes from, and takes up a remote operation that the entry put away. The model's own in it: that operation kept
aside, and the gangs that move after it (logs 33 and 45). -/
def Obligations.ReturnResult : Prop :=
  ∀ (s : State) (z : BitVec 25), s.begins (.eret z) = true →
    exec (.eret z) s = .next (s.retired ((s.eret).moveGangs) (.eret z) 0)
      ∧ s.eret = (s.freeBlocks s.me.ctx (s.me.owed.take 1)).setMe
          { s.me with pc := s.me.epc, priv := s.me.recPriv.headD false, recPriv := s.me.recPriv.tail, privSince := s.clock
                      frame := none, win := s.me.win ++ (s.me.frame.getD []).map (fun e => { e with issued := false })
                      remote := s.me.away.headD none, resend := (s.me.away.headD none).isSome, away := s.me.away.tail
                      owed := s.me.owed.drop 1 }

/-- R107, R260, R265, R293: in user mode, and in privileged mode outside a pre-emption, YIELD goes on after itself with its wait
counts cleared and its watchdog anew; in an entry for saving the hart parks once its transfers can end and no channel is being
copied; a pending pre-emption is taken. The model's own in it: how transfers end, and what waits for a copy (logs 56 and
94). -/
def Obligations.YieldResult : Prop :=
  ∀ (s : State) (z : BitVec 25), s.begins (.yield z) = true →
    let t := s.setMe { s.me with waitCount := 0, readySince := s.clock, privSince := s.clock, pc := s.me.after 4 }
    exec (.yield z) s = .next (s.retired (
      match s.me.priv, s.me.pre with
      | true, .saving b =>
        if (t.endTransfers s.cur).me.xfers.isEmpty && s.copying.isEmpty then t.park s.cur b else s.endTransfers s.cur
      | true, .pending b => t.takePreempt b
      | _, _ => t) (.yield z) 0)

/-- R108, R206, R299, R370: HALT waits for the hart's remote operations, ends its transfers and retires the hart, its
pending merges done. The model's own in it: pending lane groups, gangs that move, waits, and what waits for the copy of a
channel (logs 32, 45, 56, 94). -/
def Obligations.HaltResult : Prop :=
  ∀ (s : State) (z : BitVec 25), s.begins (.halt z) = true →
    (s.remoteIdle = true → s.transfersEnd → s.copying = [] →
      exec (.halt z) s = .next (s.retired (((s.endTransfers s.cur).retireHart s.cur).moveGangs) (.halt z) 0))
    ∧ (s.remotePending = true → exec (.halt z) s = .next s)

/-- R109, R272, R407: QPUT reads its record of 128 bytes, appends it to the queue it names as a release at device scope,
and writes the status to sd; a record it refuses has no effect but the status. The model's own in it: the rank of the
statuses, and what waits for the copy of a channel (logs 43 and 94). -/
def Obligations.QueuePut : Prop :=
  ∀ (s s1 t : State) (d a b : BitVec 6) (z : BitVec 7) (l : Loc) (ws : List Nat),
    s.begins (.qput d a b z) = true → isSpad (s.me.readS b) = false → s.lands (scalarReq .read 128 0) (s.me.readS b) l s1 →
    s1.answersAt l 8 ((List.range 16).map (8 * ·)) = some (t, ws) →
    let n := (s.me.readS a).toNat
    let st := t.appendStatus t.me.ctx n { words := ws }
    let ends (u : State) : State :=
      let v := u.setMe (u.me.writeS d (BitVec.ofNat 64 st))
      s.retired (v.pollWords (some v.me.ctx)) (.qput d a b z) 4
    (st ≠ 0 → exec (.qput d a b z) s = .next (ends t))
    ∧ ∀ u, st = 0 → s.me.xfers = [] → s.copying = [] → (t.writeBack t.coreNo).append t.me.ctx n { words := ws } = .ok u →
      exec (.qput d a b z) s = .next (ends u)

/-- R110, R238, R252, R311: IPOST releases to device scope and posts, once the hart's transfers have ended; IWAIT completes, with
an acquire, once its core's copy has reached the value, and a post in flight to a core raises its copy. The model's own
in it: the view of memory, and how a wait is shown (logs 2 and 56). -/
def Obligations.HalleyRing : Prop :=
  (∀ (s : State) (d a : BitVec 6) (k : BitVec 13), s.begins (.ipost d a k) = true →
    (∀ x xs, s.me.xfers = x :: xs → exec (.ipost d a k) s = .next (s.endTransfer s.cur x.tag))
    ∧ (s.me.xfers = [] → s.canRelease 4 → exec (.ipost d a k) s = .next (s.retired
        ((s.writeBack s.coreNo).halleyPosted (k.toNat % 16) ((s.me.readS a).setWidth 32)) (.ipost d a k) 4)))
  ∧ (∀ (s : State) (d a : BitVec 6) (k : BitVec 13), s.begins (.iwait d a k) = true →
    exec (.iwait d a k) s = .next (
      if serialAtLeast ((s.core s.coreNo).halleyVal (s.me.ctx * 16 + k.toNat % 16)) ((s.me.readS a).setWidth 32) then
        s.retired (s.acquiredBy 4) (.iwait d a k) 4
      else s))
  ∧ ∀ (s : State) (core key : Nat) (v : BitVec 32) (ps qs : List (Nat × Nat × BitVec 32)),
    s.posts = ps ++ (core, key, v) :: qs → ps.all (fun p => p.1 != core) = true →
      ∃ t, exec (.halleyDelivery core) s = .next t ∧ t.posts = ps ++ qs
        ∧ (t.core core).halleyVal key =
            if serialAtLeast v ((s.core core).halleyVal key) then v else (s.core core).halleyVal key

/-! ### Vector arithmetic and permutes -/

/-- R112 to R130 and R133 to R136: each active element of an element-wise instruction becomes what the operation gives
for the elements as they were when it began; every other element, every other register and every other part of the
state is as it was, but for VDIRTY, FFLAGS, VSTART and the core's LFSR. The model's own in it: the flags of a VDOT
whose order is open (log 7), those of a clamped conversion (log 20), values of Tapir formats (log 83), and indexes and amounts
of a type with unused bits (log 84). -/
def Obligations.VectorElements : Prop :=
  ∀ (i : Instr) (s : State) (op : ElementOp), s.begins i = true → elementOp s.me i = some op →
    s.me.vl.toNat ≤ op.fits → s.me.spent = false →
    let active := s.me.span.filter op.act
    let flags := active.map (flagsAt active op.extra op.flags)
    (∀ fl ∈ flags, fl &&& s.me.te = 0) →
      ∃ t, exec i s = .next t ∧ ElementsWritten s t op active
        ∧ t = ({ s with fresh := t.fresh }.spotted op.checked).retiredAs i (s.me.afterElements op.d t.me.v flags 0)

/-- R50, R51, R119: with no trap enabled such an instruction completes at any VL, those past VLMAX of its type too,
and changes nothing but vector registers, VDIRTY, FFLAGS, VSTART and the core's LFSR. Where VSTART is at VL or past
it, it does nothing but return VSTART to 0, as a mask operation does. The model's own in it: elements that no register
holds (log 27). -/
def Obligations.VectorCompletes : Prop :=
  (∀ (i : Instr) (s : State) (op : ElementOp), s.begins i = true → elementOp s.me i = some op → s.me.spent = false →
    s.me.te = 0 →
      ∃ v fl n, exec i s = .next (({ s with fresh := n }.spotted op.checked).retiredAs i
        { s.me.afterElements op.d v [] 0 with fflags := fl }))
  ∧ ∀ (i : Instr) (s : State), s.begins i = true → (elementOp s.me i).isSome ∨ (maskOpOf s.me i).isSome → s.me.spent = true →
    exec i s = .next (s.retiredAs i (s.me.setVstart 0))

/-- R44, R120: where an element raises a flag enabled in FCTL, the elements below it are done, it and those above it are as
they were, VSTART names it, and FP_TRAP carries its flags and index. The model's own in it: FFLAGS takes the flags of the elements
below it and none of its own (log 85). -/
def Obligations.VectorTrap : Prop :=
  ∀ (i : Instr) (s : State) (op : ElementOp) (k : Nat) (pre post : List Nat), s.begins i = true →
    elementOp s.me i = some op → s.me.vl.toNat ≤ op.fits → s.me.spent = false →
    let active := s.me.span.filter op.act
    let flags (j : Nat) : Flags := flagsAt active op.extra op.flags j
    active = pre ++ k :: post → (∀ j ∈ pre, flags j &&& s.me.te = 0) → flags k &&& s.me.te ≠ 0 →
      ∃ t, exec i s = .next (t.takeTrap cFpTrap (BitVec.ofNat 64 (k * 2 ^ 32 + (flags k).toNat)) 0)
        ∧ ElementsWritten s t op pre
        ∧ t = { s with fresh := t.fresh }.setMe (s.me.afterElements op.d t.me.v (pre.map flags) k)

/-- R129, R131, R132, R138: each active bit of the mask written has its value, every other bit and mask is as it was.
The model's own in it: VCONF under its own inverted mask (log 59). -/
def Obligations.MaskBits : Prop :=
  ∀ (i : Instr) (s : State) (op : MaskOp), s.begins i = true → maskOpOf s.me i = some op → s.me.spent = false →
    s.me.vl.toNat ≤ 196608 →
    let active := s.me.span.filter op.act
    let flags := active.map (flagsAt active op.extra op.flags)
    (∀ fl ∈ flags, fl &&& s.me.te = 0) →
      ∃ t, exec i s = .next t ∧ BitsWritten s t op active
        ∧ t = (s.spotted op.checked).retiredAs i
            { s.me with m := t.me.m, fflags := flags.foldl (fun a b => a ||| b) s.me.fflags, vc := { s.me.vc with vstart := 0 } }

/-- R51, R119, R132, R136: MPOP counts, MFIRST finds, VEXTR extracts: one scalar register is written. VINS writes one
element from a scalar, converted; an index below VSTART, or at VL or past it, writes no element, and the VDIRTY bits of the
group are set all the same. The model's own in it: what else VINS does at an index it does not write, and VEXTR below VSTART
(logs 14 and 100). -/
def Obligations.ScalarTransfer : Prop :=
  (∀ (i : Instr) (s : State) (d : BitVec 6) (x : Word) (c : Bool), s.begins i = true → extracted s.me i = some (d, x, c) →
    exec i s = .next ((s.spotted c).retiredAs i ((s.me.writeS d x).setVstart 0)))
  ∧ ∀ (s : State) (f : VaF), s.begins (.vins f) = true → s.me.spent = false →
    let t := etFmt f.et
    let k := (s.me.readS f.vb).toNat
    let r := scalarEl t (s.me.fpEnv f.rm f.sat) (s.me.readS f.va)
    exec (.vins f) s = .next (
      if s.me.vc.vstart.toNat ≤ k ∧ k < s.me.vl.toNat then
        if r.2 &&& s.me.te = 0 then
          (s.spotted true).retiredAs (.vins f)
            (s.me.afterElements f.vd.toNat (s.me.setEl f.vd.toNat t.bytes k r.1).v [r.2] 0)
        else (s.setMe (s.me.setVstart 0)).takeTrap cFpTrap (BitVec.ofNat 64 r.2.toNat) 0
      else (s.spotted true).retiredAs (.vins f) (s.me.afterElements f.vd.toNat s.me.v [] 0))

/-- R47, R119, R120, R137: a reduction writes the fold of its active elements over the start, a floating VREDSUM a sum
within R47's bound of the exact one, and of one element the sum rounded once; with an enabled flag it takes FP_TRAP and
writes nothing. The model's own in it: the flags of a sum whose order is open and what FZ does to its elements (log 7), and a
reduction with no active element (log 100). -/
def Obligations.ReductionResult : Prop :=
  (∀ (i : Instr) (s : State) (f : VaF) (x : Word) (fl : Flags), s.begins i = true → reduction s.me i = some (f, x, fl) →
    exec i s = .next (
      if fl &&& s.me.te = 0 then
        (s.spotted (!(reduced s.me f).isEmpty)).retiredAs i
          { (s.me.writeS f.vd x).setVstart 0 with fflags := s.me.fflags ||| fl }
      else (s.setMe (s.me.setVstart 0)).takeTrap cFpTrap (BitVec.ofNat 64 fl.toNat) 0))
  ∧ ∀ (s : State) (f : VaF), s.begins (.vredsum f) = true → s.me.spent = false → (etFmt f.et).isInt = false →
    reduced s.me f ≠ [] →
    let rm := Rm.ofCode s.me.frm f.rm
    let v : FpEnv := { rm := rm, sat := false, fz := s.me.fz }
    let terms := v.arg (.flt .fp32) ((s.me.readS f.vb).toNat % 2 ^ 32) :: (reduced s.me f).map (fun x =>
      ((etFmt f.et).decode x).flushIn (s.me.fz && Config.redsumFlushes) (etFmt f.et))
    let fl := sumFlags rm s.me.fz terms
    ∃ x n, (if (reduced s.me f).length = 1 then x = (roundedSum rm s.me.fz terms).1
            else sumMayBe rm s.me.fz (reduced s.me f).length terms x) ∧
      exec (.vredsum f) s = .next (
        if fl &&& s.me.te = 0 then
          ({ s with fresh := n }.spotted true).retiredAs (.vredsum f)
            { (s.me.writeS f.vd (BitVec.ofNat 64 x)).setVstart 0 with fflags := s.me.fflags ||| fl }
        else ({ s with fresh := n }.setMe (s.me.setVstart 0)).takeTrap cFpTrap (BitVec.ofNat 64 fl.toNat) 0)

/-! ### Vector memory -/

/-- R141 to R152, R245: a vector load whose elements are readable loads each active element in ascending order, nothing is
trimmed, the acquire part of its scope follows, with ord = 1 after each element, and VSTART returns to 0. The model's own
in it: the view of memory, 4-bit addresses, conversions, subnormal scales, how walks are counted and the order of two faults
(logs 2, 15, 16, 17, 63, 76, 87). -/
def Obligations.VectorLoad : Prop :=
  ∀ (i : Instr) (s s0 s1 t : State) (f : VmF) (form : Form) (ff : Bool) (v : Vm), s.begins i = true →
    vectorLoad i = some (f, form, ff) → s.me.spent = false →
    (((s.me.vm f form false).acquires f.scope.toNat s.acquireAhead).resolve).run s = .ok v s0 →
    let els := s0.me.span.filter (v.uses s0.me)
    let first := s.me.span.find? (s.me.activeBit v.m 0)
    (devicePass v .read f.scope.toNat els (if ff then els.filter (fun i => first == some i) else els)).run s0 = .ok () s1 →
    Chain (ElementLoads ff first v f.ord.toNat f.scope.toNat) s.me.span (s1.setMe (s1.me.dirty v.vd s.me.grp)) t →
      let u := t.acquiredBy f.scope.toNat
      exec i s = .next (s.retired (u.setMe (u.me.setVstart 0)) i 8)

/-- R151, R152, R328: where an element past the first of a fault-only-first load meets a page fault, an access fault, a
misaligned address or device-class memory, VL becomes its index, no trap is taken and the elements below it are loaded;
a page without a translation is posted. The model's own in it: the view of memory, 4-bit addresses, how walks are counted
and the order of two faults (logs 2, 16, 17, 76, 87). -/
def Obligations.LoadTrims : Prop :=
  ∀ (i : Instr) (s s0 s1 u : State) (f : VmF) (form : Form) (v : Vm) (pre post : List Nat) (k : Nat) (sl : Slot),
    s.begins i = true → vectorLoad i = some (f, form, true) → s.me.spent = false →
    (((s.me.vm f form false).acquires f.scope.toNat s.acquireAhead).resolve).run s = .ok v s0 → s.me.span = pre ++ k :: post →
    let els := s0.me.span.filter (v.uses s0.me)
    let first := s.me.span.find? (s.me.activeBit v.m 0)
    first ≠ some k → (devicePass v .read f.scope.toNat els (els.filter (fun i => first == some i))).run s0 = .ok () s1 →
    Chain (ElementLoads true first v f.ord.toNat f.scope.toNat) pre (s1.setMe (s1.me.dirty v.vd s.me.grp)) u →
    u.me.activeBit v.m 0 k = true → v.slot u.me k = some sl →
    let device := (u.firstDevice (v.touches u.me .read k)).isSome
    let trimmed (x : State) : State :=
      let y := (x.setMe (x.me.setVl k)).acquiredBy f.scope.toNat
      s.retired (y.setMe (y.me.setVstart 0)) i 8
    (device = true → exec i s = .next (trimmed u))
    ∧ ∀ (w x : State) (c : BitVec 8) (info a : BitVec 64), device = false →
      (loadEl v sl k).run u = .error (.trap c info a) w → c = cPageFault ∨ c = cAccess ∨ c = cMisalign →
      let absent := u.absentByte ((v.touches u.me .read k).map (fun x => x.2)) a
      (if c = cPageFault then trimPost absent else pure ()).run w = .ok () x →
      exec i s = .next (trimmed x)

/-- R141 to R151: a vector store whose elements land stores each active element in ascending order, after the release
part of its scope, for which the hart's transfers have ended, with ord = 1 each reaching its home before the next, and VSTART
returns to 0. The model's own in it: the view of memory, 4-bit addresses, conversions, subnormal scales, MX blocks with a
NaN, how walks are counted and the order of two faults (logs 2, 15, 16, 17, 63, 64, 76, 87). -/
def Obligations.VectorStore : Prop :=
  ∀ (i : Instr) (s s0 s1 t : State) (f : VmF) (form : Form) (v : Vm) (done : List (Loc × Nat × Nat)), s.begins i = true →
    vectorStore i = some (f, form) → s.me.spent = false → ((s.me.vm f form false).resolve).run s = .ok v s0 →
    let els := s0.me.span.filter (v.uses s0.me)
    (devicePass v .write f.scope.toNat els els).run s0 = .ok () s1 →
    (f.scope ≠ 0 → s.me.xfers = []) → s1.canRelease f.scope.toNat →
    Chain (ElementStores v f.ord.toNat f.scope.toNat) els (s1.releasedBy f.scope.toNat, []) (t, done) →
      exec i s = .next (s.retired (t.setMe (t.me.setVstart 0)) i 8)

/-- R143, R145: a raw unit-stride load of cacheable or scratchpad memory puts the bytes at the base plus the element's
index times its size into each active element, lowest byte first; every other element and register is as it was, and no
write reaches any byte of memory. The model's own in it: the view of memory and how walks are counted (logs 2 and 76). -/
def Obligations.ContiguousLoad : Prop :=
  ∀ (s : State) (f : VmF) (l : Nat → Loc), s.begins (.vld f) = true → s.me.spent = false → s.me.mxm = false → f.fmt = 0 →
    f.ord = 0 ∨ f.scope.toNat < 3 →
    let b := (etFmt f.et).bytes
    let active := s.me.span.filter (s.me.activeBit f.m 0)
    let at_ (k : Nat) : BitVec 64 := s.me.readS f.va + BitVec.ofNat 64 (k * b)
    let w := s.walkedPages .read false (if f.space = 1 then [] else active.map at_)
    s.me.vl.toNat ≤ s.me.vlmax b →
    (∀ k ∈ active,
      let ea := at_ k
      (locate { need := .read, n := b, align := b, bypass := f.pol == 3 || f.scope == 5 || s.acquireAhead, info := vecInfo k 0
                vec := true, walks := false } (f.space == 1) ea).run s = .ok (l k) s
      ∧ (f.space = 1 ∨ (ea.getLsbD 63 = false ∧ s.devClass .read ea = false))
      ∧ s.locPoisoned (l k) b = false
      ∧ match l k with | .spad _ _ => True | .dram _ home => home = false | .dev _ => False) →
      ∃ t, exec (.vld f) s = .next t ∧ SameMemory s t
        ∧ (∀ k, k < s.me.vlmax b →
            t.me.getEl f.vd.toNat b k = if k ∈ active then ofBytes (s.peek (l k) b) else s.me.getEl f.vd.toNat b k)
        ∧ (∀ r lane, r < 64 → r < f.vd.toNat ∨ f.vd.toNat + s.me.grp ≤ r →
            Tab.get 0 t.me.v (sliceKey r lane) = Tab.get 0 s.me.v (sliceKey r lane))
        ∧ t = (w.acquiredBy f.scope.toNat).retiredAs (.vld f) (s.me.afterElements f.vd.toNat t.me.v [] 0)

/-- R146: a raw store of one remaining element writes its bytes, lowest first, where its address lands, after the
release part of its scope; no write reaches any other byte of memory and no register but VSTART and the PC changes. The
model's own in it: the view of memory and how walks are counted (logs 2 and 76). -/
def Obligations.ElementStore : Prop :=
  ∀ (i : Instr) (s : State) (f : VmF) (form : Form) (k : Nat) (l : Loc), s.begins i = true →
    vectorStore i = some (f, form) → s.me.spent = false → s.me.mxm = false → f.fmt = 0 →
    let b := (etFmt f.et).bytes
    let v := s.me.vm f form false
    let ea := (v.part s.me (.el (.n (8 * b))) k 0).ea
    let s' := (s.walkedPages .write (form == .indexed) (if f.space = 1 then [] else [ea])).releasedBy f.scope.toNat
    s.me.span.filter (v.uses s.me) = [k] → (f.scope ≠ 0 → s.me.xfers = []) → s.canRelease f.scope.toNat →
    (f.space = 1 ∨ (ea.getLsbD 63 = false ∧ s.devClass .write ea = false)) →
    (locate { need := .write, n := b, align := b, bypass := f.pol == 3, info := vecInfo k 1, vec := true, walks := false }
      (f.space == 1) ea).run s' = .ok l s' →
      let bs := bytesOf b (s.me.getEl f.vd.toNat b k)
      let u := (s'.poke l bs).cure [(l, 0, 8 * b)]
      (f.ord = 1 → u.canRelease f.scope.toNat) →
      let t := (if f.ord = 1 then u.releasedBy f.scope.toNat else u).retiredAs i (s.me.setVstart 0)
      exec i s = .next t ∧ Stored s t l bs

/-- R151, R154, R155, R238: VTRANS, and VTRANSFF where nothing stops it, read the map's header at va, with the acquire part
of the scope after that, and write each element's row address, tag and fault bit from its entries. The model's own in it:
the view of memory, how walks are counted, the order of two faults, the address that a fault at the header tells, and VDIRTY
where it faults (logs 2, 76, 87, 101, 102). -/
def Obligations.TranslateResult : Prop :=
  ∀ (s s1 s2 s3 t : State) (f : VmF) (ff : Bool) (ws : List Nat) (k : KvMap),
    let i : Instr := if ff then .vtransff f else .vtrans f
    let a := s.me.readS f.va
    let vs := s.me.vc.vstart.toNat
    let s0 := s.setMe ((s.me.dirty f.vd.toNat s.me.grp).dirty f.x.toNat s.me.grp)
    s.begins i = true → s.me.spent = false → a.getLsbD 63 = false → a.toNat % 8 = 0 →
    let dev := s0.readsDevice (headerReads vs a)
    (deviceReads [] (headerReads vs a) (headerReads vs a) false 0).run s0 = .ok () s1 →
    (readWords { vecReq .read vs 0 with bypass := f.scope == 5 } false a 4).run s1 = .ok ws s2 → KvMap.ofWords ws = some k →
    let reads := s.me.span.filterMap (fun i => (k.entryAt (s.me.position f.vb.toNat i)).map (fun ea => (i, ea)))
    (deviceReads ((headerReads vs a).map (fun x => x.2)) reads (if ff then reads.filter (fun x => x.1 == vs) else reads) dev 0).run
      (s2.acquiredBy f.scope.toNat) = .ok () s3 →
    Chain (ElementTranslates f k ff vs) s.me.span s3 t →
      exec i s = .next (s.retired (t.setMe (t.me.setVstart 0)) i 8)

/-- R157: VSEGADD adds to each distinct address the sum of its elements, once every address has been found good and the
hart's transfers that its release waits for have ended. The model's own in it: the view of memory, the sums and how walks
are counted (logs 2, 7 and 76). -/
def Obligations.SegmentAdd : Prop :=
  ∀ (s t : State) (f : VmF) (ts : List (Nat × Nat × BitVec 64 × Loc)), s.begins (.vsegadd f) = true → s.me.spent = false →
    let v := s.me.vm f .indexed true
    let env : FpEnv := { rm := s.me.frm, sat := false, fz := s.me.fz }
    let w := if v.sp then s else s.walkedPages .rmw true ((updatePairs s.me v).map (fun x =>
      (v.part s.me (.el (etFmt v.et)) x.1 x.2).ea))
    updateTargets w v f.scope.toNat ts →
    (∀ x ∈ ts, (v.sp = true ∨ (x.2.2.1.getLsbD 63 = false ∧ w.devClass .rmw x.2.2.1 = false))
      ∧ (locate (updateReq v.b v.bypass x.1) v.sp x.2.2.1).run w = .ok x.2.2.2 w) →
    (f.scope ≠ 0 → s.me.xfers = []) → w.canRelease f.scope.toNat →
    Chain (SegmentAdds f v env ts) (segAddresses ts) (w.releasedBy f.scope.toNat) t →
      exec (.vsegadd f) s = .next (s.retired (t.setMe (t.me.setVstart 0)) (.vsegadd f) 8)

/-- R202, R207: VAMO updates each element's address in ascending order with R101's operation and returns the old value to
the element, once every address has been found good, between the release and the acquire part of its order. The model's
own in it: the view of memory and how walks are counted (logs 2 and 76). -/
def Obligations.VectorAtomic : Prop :=
  ∀ (s t : State) (f : AtF) (ts : List (Nat × Nat × BitVec 64 × Loc)), s.begins (.vamo f) = true → s.me.spent = false →
    let v := vamoVm s.me f
    let w := s.walkedPages .rmw true (((updatePairs s.me v).map (fun x =>
      (v.part s.me (.el (etFmt v.et)) x.1 x.2).ea)).filter (fun a => !isSpad a))
    updateTargets w v f.scope.toNat ts →
    (∀ x ∈ ts, (isSpad x.2.2.1 = true ∨ w.devClass .rmw x.2.2.1 = false)
      ∧ (locate (updateReq v.b false x.1) (isSpad x.2.2.1) x.2.2.1).run w = .ok x.2.2.2 w) →
    (2 ≤ f.succ.toNat → (f.scope ≠ 0 → s.me.xfers = []) ∧ w.canRelease f.scope.toNat) →
    let s0 := if 2 ≤ f.succ.toNat then w.releasedBy f.scope.toNat else w
    Chain (ElementUpdates f v) ts (s0.setMe (s0.me.dirty f.vd.toNat s.me.grp)) t →
      let u := if f.succ.toNat % 2 = 1 then t.acquiredBy f.scope.toNat else t
      exec (.vamo f) s = .next (s.retired (u.setMe (u.me.setVstart 0)) (.vamo f) 8)

/-! ### Lengths, frames and images -/

/-- R112 to R114: VSETL writes VL, the lesser of its operand and VLMAX of the lanes now held, to VL and sd, and the
type and grouping to VGRP; where the lanes stay, nothing else changes but the codes of pending lane groups; where they
change, the elements that the groups kept hold below both lengths are re-laid, and the VDIRTY bits of the registers that
hold no such element are cleared. The model's own in it: what an undefined element holds, pending lane groups and
withdrawn ones (logs 6, 32 and 80). -/
def Obligations.SetLength : Prop :=
  ∀ (s : State) (f : SvF), s.begins (.vsetl f) = true →
    let h := s.me
    let c := s.core s.coreNo
    let slot := s.cur % 8
    let ks := c.kept slot (h.laneNext / 4)
    let c' := (groups.filter (fun k => !ks.contains k)).foldl (Core.settleGroup slot false) c
    let gmap := groupMask ks
    let lanes := 4 * ks.length
    let vl := min (h.readS f.va).toNat (384 * lanes * 2 ^ f.g.toNat / (etFmt f.et).bytes)
    let b := (etFmt h.et).bytes
    let kept := min (min h.vl.toNat vl) (384 * lanes * h.grp / b)
    let regs := (keptGroups h.grp (h.readS f.vb)).flatMap (keptRegs lanes b kept)
    let vd := if gmap = h.gmap then h.vdirty else h.vdirty &&& BitVec.ofNat 64 (regs.foldl (fun w r => w ||| 2 ^ r) 0)
    ∃ t, exec (.vsetl f) s = .next t
      ∧ t = ({ s.setCore s.coreNo c' with fresh := t.fresh }).retiredAs (.vsetl f)
          ((({ h with v := t.me.v, vdirty := vd, laneCur := lanes, gmap := gmap, et := f.et, g := f.g }.setVl vl).writeS f.vd
            (BitVec.ofNat 64 vl)).setVstart 0)
      ∧ (gmap = h.gmap → t.me.v = h.v ∧ t.fresh = s.fresh)
      ∧ (gmap ≠ h.gmap → ∀ n k, n ∈ keptGroups h.grp (h.readS f.vb) → k < kept → t.me.getEl n b k = h.getEl n b k)

/-- R223: VFSAVE with a frame held writes an image of 256 bytes for each instruction and gives the frame up, without
one it writes 0 to sd; VFREST of an image that VFSAVE wrote in this context holds that frame again. The model's own in
it: the size and contents of a frame (log 9). -/
def Obligations.FrameTransfer : Prop :=
  ((∀ (s : State) (f : SvF), s.begins (.vfsave f) = true → s.me.frame = none →
    ((s.me.readS f.va).extractLsb' 55 8) = 0 → (s.me.readS f.va).toNat % 64 = 0 →
      exec (.vfsave f) s = .next (s.retiredAs (.vfsave f) ((s.me.writeS f.vd 0).setVstart 0)))
  ∧ ∀ (s s1 : State) (f : SvF) (es : List VEntry) (ls : List (BitVec 64 × Loc)), s.begins (.vfsave f) = true →
    s.me.frame = some es → (areaPlace .write 1 (s.me.readS f.va) (256 * es.length / 64)).run s = .ok ls s1 →
      ∃ ws n, ws.length = 256 * es.length / 8 ∧ (es ≠ [] → es.length < 256 → ws.headD 0 % 65536 = 256 * es.length)
        ∧ exec (.vfsave f) s = .next (
            let t := { s1 with fresh := n }.pokes ls ws
            s.retired ({ t with frames := { ctx := s.me.ctx, words := ws, entries := es } :: t.frames }.setMe
              (({ t.me with frame := none }.writeS f.vd (BitVec.ofNat 64 (256 * es.length))).setVstart 0)) (.vfsave f) 8))
  ∧ ∀ (s s1 s2 s3 s4 : State) (f : SvF) (fst ls : List (BitVec 64 × Loc)) (w : Nat) (ws : List Nat) (x : SavedFrame),
    s.begins (.vfrest f) = true → (areaPlace .read 0 (s.me.readS f.va) 1).run s = .ok fst s1 →
    (areaGet (fst.take 1)).run s1 = .ok [w] s2 →
    let size := w % 65536
    size ≠ 0 → size ≤ 16384 → size % 256 = 0 →
    (areaPlace .read 0 (s.me.readS f.va) (size / 64)).run s2 = .ok ls s3 → (areaGet ls).run s3 = .ok ws s4 →
    s4.frames.find? (fun x => x.ctx == s4.me.ctx && x.words == ws) = some x →
      exec (.vfrest f) s = .next (s.retired (s4.setMe ({ s4.me with frame := some x.entries }.setVstart 0)) (.vfrest f) 8)

/-- R224, R379: VSAVE of registers without an error writes the header, the lane slices of the registers named and the
low bits of the masks named; VREST of an image for the same lanes gives the registers and masks it names their words
back. The model's own in it: the view of memory (log 2). -/
def Obligations.ImageTransfer : Prop :=
  (∀ (s s1 : State) (f : SvF) (ls : List (BitVec 64 × Loc)), s.begins (.vsave f) = true →
    let h := s.me
    let rs := bitList 64 (h.readS f.vb).toNat
    let ms := bitList 24 ((h.readS f.x).toNat / 2 * 2)
    let words :=
      [(h.readS f.vb).toNat, (h.readS f.x).toNat % 2 ^ 24 / 2 * 2, h.lanes, 0, 0, 0, 0, 0]
        ++ rs.flatMap (fun r => (List.range h.lanes).flatMap (fun l => wordsOf 48 (Tab.get 0 h.v (sliceKey r l)).toNat))
        ++ ms.flatMap (fun m => wordsOf (48 * h.lanes) (Tab.get 0 h.m m).toNat)
    (∀ e ∈ h.ecc, ¬(e.1 = 1 ∧ e.2 ∈ rs) ∧ ¬(e.1 = 2 ∧ e.2 ∈ ms)) →
    (areaPlace .write 1 (h.readS f.va) (1 + 6 * h.lanes * (rs.length + ms.length))).run s = .ok ls s1 →
      exec (.vsave f) s = .next (s.retired ((s1.pokes ls words).setMe (h.setVstart 0)) (.vsave f) 8))
  ∧ ∀ (s s1 s2 s3 s4 : State) (f : SvF) (fst ls : List (BitVec 64 × Loc)) (hd ws : List Nat), s.begins (.vrest f) = true →
    (areaPlace .read 0 (s.me.readS f.va) 1).run s = .ok fst s1 → (areaGet fst).run s1 = .ok hd s2 →
    hd.getD 2 0 = s.me.lanes → (hd.drop 3).any (· != 0) = false → hd.getD 1 0 % 2 = 0 → hd.getD 1 0 < 2 ^ 24 →
    let rs := bitList 64 (hd.getD 0 0)
    let ms := bitList 24 (hd.getD 1 0)
    let n := 48 * s.me.lanes
    (areaPlace .read 0 (s.me.readS f.va + 64) (6 * s.me.lanes * (rs.length + ms.length))).run s2 = .ok ls s3 →
    (areaGet ls).run s3 = .ok ws s4 →
      let h := (List.range rs.length).foldl (fun h i =>
        (h.putSlices (rs.getD i 0) ((ws.drop (n * i)).take n)).dirty (rs.getD i 0) 1) s4.me
      let h := (List.range ms.length).foldl (fun h i =>
        h.putMask (ms.getD i 0) ((ws.drop (n * (rs.length + i))).take n)) h
      exec (.vrest f) s = .next (s.retired (s4.setMe (h.setVstart 0)) (.vrest f) 8)

/-! ### Matrix engine -/

/-- R161, R163, R164: MXENTER and MXLEAVE change the mode, MXSETC sets the columns. -/
def Obligations.MatrixMode : Prop :=
  (∀ (s : State) (f : MxF), s.begins (.mxenter f) = true →
    exec (.mxenter f) s = .next (s.retiredAs (.mxenter f) ({ s.me with mxm := true, vl := 0, vlUnset := true }.setVstart 0)))
  ∧ (∀ (s : State) (f : MxF), s.begins (.mxleave f) = true →
    exec (.mxleave f) s = .next (s.retiredAs (.mxleave f) ({ s.me with mxm := false, vl := 0, vlUnset := false }.setVstart 0)))
  ∧ ∀ (s : State) (f : MxF), s.begins (.mxsetc f) = true →
    let n := min (min (s.me.readS f.va).toNat 64) (6 * s.me.lanes)
    exec (.mxsetc f) s = .next (s.retiredAs (.mxsetc f)
      ({ s.me.writeS f.vd (BitVec.ofNat 64 n) with vl := BitVec.ofNat 18 n, vlUnset := false }.setVstart 0))

/-- R167, R168: MXMAC adds the dot product of row i of the one operand and column j of the other to every active word
of its rows: exactly in the integer families, within R47's bound in the others. The model's own in it: the flags of a
sum whose order is open (log 7). -/
def Obligations.MatrixProduct : Prop :=
  ∀ (s : State) (f : MxF), s.begins (.mxmac f) = true →
    let rows := mxSpan f s.me
    let cols := mxCols f s.me
    let flags := rows.map (macFlags s.me f)
    (∀ fl ∈ flags, fl &&& s.me.te = 0) →
      ∃ t, exec (.mxmac f) s = .next t
        ∧ TileWritten s t f.vd.toNat rows cols (fun i j x =>
            if f.et.toNat = 7 ∨ f.et.toNat = 8 then
              x = intBits 32 ((macPairs s.me f i j).foldl (fun a p => a + Num.toIntAt 0 p.1 * Num.toIntAt 0 p.2)
                (intOfBits true 32 (s.me.getAcc f.vd.toNat i j)))
            else sumMayBe .rne s.me.fz (macTerms s.me f i j).length (macTerms s.me f i j) x)
        ∧ t = ({ s with fresh := t.fresh }.matrixCounted (!cols.isEmpty && !rows.isEmpty)).retiredAs (.mxmac f)
            (s.me.afterRows t.me.acc flags)

/-- R169, R171, R172: MXZERO clears all 64 columns of its rows, MXSCALER scales each active word by its row's and column's
factors, MXROWADD adds the columns' slab words to one row, MXROW copies one row to the slabs of a register and leaves every
other register alone; a row number of 64 or more changes nothing. The model's own in it: MXZERO clears every row whatever
VSTART holds (log 65), and row scales past a register (log 88). -/
def Obligations.MatrixRows : Prop :=
  (∀ (s : State) (f : MxF), s.begins (.mxzero f) = true →
    ∃ t, exec (.mxzero f) s = .next t
      ∧ TileWritten s t f.vd.toNat (List.range (f.rows.toNat + 1)) (List.range 64) (fun _ _ x => x = 0)
      ∧ t = s.retiredAs (.mxzero f) (s.me.afterRows t.me.acc []))
  ∧ (∀ (s : State) (f : MxF), s.begins (.mxscaler f) = true →
    let rows := mxSpan f s.me
    let cols := mxCols f s.me
    let flags := rows.map (fun i => (cols.map (factored s.me f i)).foldl (fun g p => g ||| p.2) 0)
    (∀ fl ∈ flags, fl &&& s.me.te = 0) →
      ∃ t, exec (.mxscaler f) s = .next t
        ∧ TileWritten s t f.vd.toNat rows cols (fun i j x => x = (factored s.me f i j).1)
        ∧ t = (s.matrixCounted (!cols.isEmpty && !rows.isEmpty)).retiredAs (.mxscaler f) (s.me.afterRows t.me.acc flags))
  ∧ (∀ (s : State) (f : MxF), s.begins (.mxrowadd f) = true →
    let r := (s.me.readS f.vb).toNat
    let cols := if s.me.spent = false ∧ r < 64 then mxColSpan f s.me else []
    let fl := (cols.map (addedWord s.me f)).foldl (fun g p => g ||| p.2) 0
    fl &&& s.me.te = 0 →
      ∃ t, exec (.mxrowadd f) s = .next t
        ∧ TileWritten s t f.vd.toNat [r] cols (fun _ j x => x = (addedWord s.me f j).1)
        ∧ t = (s.matrixCounted (!cols.isEmpty)).retiredAs (.mxrowadd f) (s.me.afterRows t.me.acc [fl]))
  ∧ ∀ (s : State) (f : MxF), s.begins (.mxrow f) = true →
    let r := (s.me.readS f.vb).toNat
    let cols := if s.me.spent = false ∧ r < 64 then mxColSpan f s.me else []
    let dirty := if s.me.spent = false ∧ r < 64 then s.me.vdirty ||| BitVec.ofNat 64 (2 ^ f.vd.toNat) else s.me.vdirty
    ∃ t, exec (.mxrow f) s = .next t
      ∧ (∀ j, j < 2 ^ 18 → t.me.getBytes f.vd.toNat 64 j 0 64 =
          if j ∈ cols then s.me.getAcc f.va.toNat r j else s.me.getBytes f.vd.toNat 64 j 0 64)
      ∧ (s.me.vl.toNat ≤ 6 * s.me.lanes → ∀ q lane, q < 64 → q ≠ f.vd.toNat →
          Tab.get 0 t.me.v (sliceKey q lane) = Tab.get 0 s.me.v (sliceKey q lane))
      ∧ (∀ q lane, q < f.vd.toNat → Tab.get 0 t.me.v (sliceKey q lane) = Tab.get 0 s.me.v (sliceKey q lane))
      ∧ (64 ≤ r → t.me.v = s.me.v)
      ∧ t = s.retiredAs (.mxrow f) (({ s.me with v := t.me.v, vdirty := dirty } : Hart).setVstart 0)

/-- R170, R173 to R176: MXLD, MXST and MXSTKV move their rows in ascending order, each row whose words land and raise
no enabled flag. The model's own in it: the view of memory, conversions, open rounding modes, subnormal scales, how walks are
counted, the order of two faults, rows past a register, and the address that a fault tells (logs 2, 15, 17, 63, 76, 87, 88 and
101). -/
def Obligations.MatrixMemory : Prop :=
  (∀ (s s1 t : State) (f : MxF), s.begins (.mxld f) = true →
    (devicePassAt 0 [] (tileAccesses f s.me .read 4) false).run s = .ok () s1 →
    Chain (RowLoads f) (mxSpan f s.me) s1 t →
      exec (.mxld f) s = .next (s.retired (t.setMe (t.me.setVstart 0)) (.mxld f) 8))
  ∧ (∀ (s s1 t : State) (f : MxF), s.begins (.mxst f) = true →
    (devicePassAt 1 [] (tileAccesses f s.me .write (mxType f.et).1.bytes) false).run s = .ok () s1 →
    Chain (RowStores f) (mxSpan f s.me) s1 t →
      exec (.mxst f) s = .next (s.retired (t.setMe (t.me.setVstart 0)) (.mxst f) 8))
  ∧ (∀ (s : State) (f : MxF), s.begins (.mxstkv f) = true → mxSpan f s.me = [] →
    exec (.mxstkv f) s = .next (s.retiredAs (.mxstkv f) (s.me.setVstart 0)))
  ∧ ∀ (s s1 s2 s3 s4 t : State) (f : MxF) (ws : List Nat) (k : KvMap) (rm : Rm) (early : List (Nat × Except Stop Nat)),
    s.begins (.mxstkv f) = true → mxSpan f s.me ≠ [] →
    let a := s.me.readS f.x
    let vs := s.me.vc.vstart.toNat
    let head := headerReads vs a
    a.getLsbD 63 = false → a.toNat % 8 = 0 → (deviceReads [] head head false 0).run s = .ok () s1 →
    (readWords (vecReq .read vs 0) false a 4).run s1 = .ok ws s2 → KvMap.ofWords ws = some k → k.d ≤ 64 →
    tagMode.run s2 = .ok rm s3 → (kvAhead f rm k (head.map (fun x => x.2)) (s.readsDevice head)).run s3 = .ok early s4 →
    Chain (RowCaches f k rm early) (mxSpan f s.me) s4 t →
      exec (.mxstkv f) s = .next (s.retired
        ((t.matrixCounted ((mxSpan f s.me).any (s.me.activeBit f.m 0))).setMe (t.me.setVstart 0)) (.mxstkv f) 8)

/-! ### Ladders -/

/-- R182, R364: LINIT empties a ladder and writes its descriptor. The model's own in it: pending merges that end at
once (log 56). -/
def Obligations.LadderInit : Prop :=
  ∀ (s : State) (f : LaF) (d : Lad), s.begins (.linit f) = true → s.lad s.cur f.vd.toNat = some d →
    let w := (s.me.readS f.va).toNat
    shapeOk w = true → 256 + (f.rung.toNat + 1) * slotSize w ≤ Config.ladderRegion →
      ∃ t, exec (.linit f) s = .next t
        ∧ t.lad s.cur f.vd.toNat = some { d with
            n := 0, shape := w, top := f.rung.toNat, op := f.op.toNat, init := true, z := slotSize w }
        ∧ (∀ a, t.byteAt t.coreNo a = s.byteAt s.coreNo a)
        ∧ (∀ c o, (c ≠ d.core ∨ o < d.abs ∨ d.abs + 256 ≤ o) → t.spadByte c o = s.spadByte c o)
        ∧ t.me = (({ s.me with pend := s.me.pend.filter (fun j => j.lad != d.num) } : Hart).setVstart 0).past
            (s.me.wroteRegs (.linit f)) 8

/-- R184, R186, R366, R367: LSTEP counts a step of a ladder and leaves its merges to the ladder unit, the youngest of its
core, its earlier merges done. The model's own in it: the queue of the ladder unit, pending merges that end at once and the
vector form with VSTART not 0 (logs 50, 56 and 66). -/
def Obligations.LadderStep : Prop :=
  ∀ (s : State) (f : LaF) (d : Lad), s.begins (.lstep f) = true → s.goodLad f f.vd d → d.n ≠ 2 ^ 48 - 1 →
    let u := s.runMerges s.cur (fun l => l == d.num)
    let v := u.ladRoom d.core ((u.queueLens d.core).getD qLadder 0)
    let c := v.core d.core
    let t := (v.setCore d.core { c with steps := c.steps + 1 }).putN d (d.n + 1)
    let j : LadJob := { lad := d.num, n := d.n, carry := ladCarry u.me f d, seq := c.steps }
    exec (.lstep f) s = .next (s.retired (t.setMe
      (({ t.me with pend := t.me.pend ++ [j] } : Hart).setVstart 0)) (.lstep f) 8)

/-- R186 to R189: LRUNG reads a rung with its span, LBLEND blends the occupied rungs, LCOUNT reads the counter, LSYNC
drains the hart's merges and LRESET empties a ladder. The model's own in it: pending merges that end at once (log 56).
-/
def Obligations.LadderReads : Prop :=
  (∀ (s : State) (f : LaF) (d : Lad), s.begins (.lrung f) = true → s.goodLad f f.va d →
    let u := s.runMerges s.cur (fun l => l == d.num)
    let l := f.rung.toNat
    match rungSpan d.n d.top l with
    | none =>
      exec (.lrung f) s = .next (s.retired
        (u.setMe (((u.me.writeS f.vb 0x8000000000000000#64).writeS f.x 0).setVstart 0)) (.lrung f) 8)
    | some (start, len) =>
      u.rungPoison d l = false →
        exec (.lrung f) s = .next (s.retired (u.setMe ((ladPut ((u.me.writeS f.vb
          (BitVec.ofNat 64 (start % 2 ^ 48 + l * 2 ^ 48))).writeS f.x (BitVec.ofNat 64 len)) f d (u.rung d l)).setVstart 0))
          (.lrung f) 8))
  ∧ (∀ (s : State) (f : LaF) (d : Lad), s.begins (.lblend f) = true → s.goodLad f f.va d →
    let u := s.runMerges s.cur (fun l => l == d.num)
    (∀ l, l ≤ d.top → (rungSpan d.n d.top l).isSome = true → u.rungPoison d l = false) →
      exec (.lblend f) s = .next (s.retired
        (u.setMe ((ladPut u.me f d ((ladBlend u f d).map (BitVec.ofNat 32))).setVstart 0)) (.lblend f) 8))
  ∧ (∀ (s : State) (f : LaF) (d : Lad), s.begins (.lcount f) = true → s.lad s.cur f.va.toNat = some d → d.init = true →
    exec (.lcount f) s = .next (s.retiredAs (.lcount f) ((s.me.writeS f.vd (BitVec.ofNat 64 d.n)).setVstart 0)))
  ∧ (∀ (s : State) (f : LaF), s.begins (.lsync f) = true →
    let u := s.drainLadders s.cur
    exec (.lsync f) s = .next (s.retired (u.setMe (u.me.setVstart 0)) (.lsync f) 8))
  ∧ ∀ (s : State) (f : LaF) (d : Lad), s.begins (.lreset f) = true → s.lad s.cur f.vd.toNat = some d → d.init = true →
    let u := (s.runMerges s.cur (fun l => l == d.num)).putN d 0
    exec (.lreset f) s = .next (s.retired (u.setMe (u.me.setVstart 0)) (.lreset f) 8)

/-! ### Fences, barriers and the gang barrier register -/

/-- R210, R214, R300: VFENCE ends the hart's transfers and at die scope and wider writes the core's dirty bytes back,
and GBAR's arrival does the same; the last arrival of the harts not retired advances the generation and goes on, any
other waits until it has advanced. The model's own in it: how an order acts on one run and how a wait is shown (logs 2
and 56). -/
def Obligations.GangBarrier : Prop :=
  (∀ (s : State) (f : SyF), s.begins (.vfence f) = true → s.transfersEnd → (s.endTransfers s.cur).canRelease f.scope.toNat →
    let t := (s.endTransfers s.cur).releasedBy f.scope.toNat
    exec (.vfence f) s = .next (s.retired (t.setMe (t.me.setVstart 0)) (.vfence f) 8))
  ∧ (∀ (s : State) (f : SyF) (g : Gang), s.begins (.gbar f) = true → s.gang s.me.gang = some g → s.me.gbar = none →
    s.me.index < 8 → s.transfersEnd → (s.endTransfers s.cur).canRelease f.scope.toNat →
    let t := (s.endTransfers s.cur).releasedBy f.scope.toNat
    let arrived := g.arrived ||| (1#8 <<< s.me.index)
    let all := (List.range (s.hartsOf g)).all (fun i => arrived.getLsbD i || g.retired.getLsbD i)
    exec (.gbar f) s = .next (
      if all then
        let u := (t.setGang s.me.gang { g with arrived := 0, gen := g.gen + 1 }).acquiredBy f.scope.toNat
        s.retired (u.setMe (u.me.setVstart 0)) (.gbar f) 8
      else
        let u := t.setGang s.me.gang { g with arrived := arrived }
        u.setMe { u.me with gbar := some g.gen }))
  ∧ ∀ (s : State) (f : SyF) (g : Gang) (gen : BitVec 32), s.begins (.gbar f) = true → s.gang s.me.gang = some g →
    s.me.gbar = some gen →
    exec (.gbar f) s = .next (
      if gen = g.gen then s
      else (s.acquiredBy f.scope.toNat).retiredAs (.gbar f) ({ s.me with gbar := none }.setVstart 0))

/-- R209, R211, R304, R305, R307: BARINIT releases every waiter with abort, sets COUNT, ARRIVED 0 and GEN 0, and arms
the object; BARKILL releases every waiter with abort, clears STATE and disarms an armed object, and does nothing to an
unarmed one. Both release at system scope, once the hart's transfers have ended. The model's own in it: how an order
acts on one run (log 2). -/
def Obligations.BarrierArming : Prop :=
  (∀ (s s1 : State) (f : SyF) (l : Loc), s.begins (.barinit f) = true →
    (place barReq (isSpad (s.me.readS f.va)) (s.me.readS f.va)).run s = .ok l s1 → (∀ pa, l ≠ .dev pa) →
    let cnt := (s.me.readS f.vb).toNat
    1 ≤ cnt → cnt < 2 ^ 32 → s.onStream l = false → s.isArmed l = true ∨ s.armedFull l = false → s.me.xfers = [] →
    s1.canRelease 5 →
      let t := (s1.writeBack s1.coreNo).wake l.barKey false
      let t := match l with
        | .dram pa _ => t.evictLineAll pa
        | _ => t
      let u := (t.barPut l 0 64 (cnt + 2 ^ 96)).setArmed l true
      exec (.barinit f) s = .next (s.retired (u.setMe (u.me.setVstart 0)) (.barinit f) 8)
        ∧ u.isArmed l = true ∧ u.barGet l 0 = cnt ∧ u.barGet l 4 = 0 ∧ u.barGet l 8 = 0 ∧ u.barGet l 12 = 1
        ∧ (∀ k, 4 ≤ k → k < 16 → u.barGet l (4 * k) = 0)
        ∧ ∀ e ∈ s.harts, e.2.barWait = some l.barKey → e.2.barEnd = none →
            (e.1, { e.2 with barEnd := some false }) ∈ u.harts)
  ∧ ∀ (s s1 : State) (f : SyF) (l : Loc), s.begins (.barkill f) = true →
    (place barReq (isSpad (s.me.readS f.va)) (s.me.readS f.va)).run s = .ok l s1 → (∀ pa, l ≠ .dev pa) →
    s.me.xfers = [] → s1.canRelease 5 →
      let t := s1.writeBack s1.coreNo
      let u := if s.isArmed l then ((t.wake l.barKey false).barPut l 12 4 0).setArmed l false else t
      exec (.barkill f) s = .next (s.retired (u.setMe (u.me.setVstart 0)) (.barkill f) 8)
        ∧ u.isArmed l = false ∧ (s.isArmed l = true → u.barGet l 12 = 0)

/-- R212, R213, R307: BARARR performs VFENCE, writes GEN to sd and adds its count to ARRIVED; where ARRIVED reaches
COUNT it becomes 0, GEN advances modulo 2^32 and every waiter goes on. BARWAIT writes 1 to its condition bit, with an
acquire, once GEN is no longer its generation, 0 where the object is unarmed or its wait was aborted, and waits until
then. BARARR on an unarmed object, and an abort whose condition bit is c0, raise BARRIER_ABORT. The model's own in it:
TINFO and TADDR of BARRIER_ABORT and how a wait is shown (logs 2, 36, 56). -/
def Obligations.BarrierUse : Prop :=
  (∀ (s s1 : State) (f : SyF) (l : Loc), s.begins (.bararr f) = true →
    (place barReq (isSpad (s.me.readS f.va)) (s.me.readS f.va)).run s = .ok l s1 → (∀ pa, l ≠ .dev pa) →
    s1.transfersEnd → (s1.endTransfers s1.cur).canRelease f.scope.toNat →
    let t := (s1.endTransfers s1.cur).releasedBy f.scope.toNat
    (t.isArmed l = false → exec (.bararr f) s = .next (t.takeTrap cBarAbort 0 0))
    ∧ (t.isArmed l = true → t.locPoisoned l 16 = false →
      let arr := t.barGet l 4 + f.aux.toNat
      let v := t.setMe (t.me.writeS f.vd (BitVec.ofNat 64 (t.barGet l 8)))
      let u := if arr < t.barGet l 0 then v.barPut l 4 4 arr
        else (v.barPut l 4 8 ((t.barGet l 8 + 1) % 2 ^ 32 * 2 ^ 32)).wake l.barKey true
      exec (.bararr f) s = .next (s.retired (u.setMe (u.me.setVstart 0)) (.bararr f) 8)
        ∧ u.barGet l 0 = t.barGet l 0
        ∧ (t.barGet l 0 ≤ arr → u.barGet l 4 = 0 ∧ u.barGet l 8 = (t.barGet l 8 + 1) % 2 ^ 32
            ∧ ∀ e ∈ v.harts, e.2.barWait = some l.barKey → e.2.barEnd = none →
                (e.1, { e.2 with barEnd := some true }) ∈ u.harts)))
  ∧ ∀ (s s1 : State) (f : SyF) (l : Loc), s.begins (.barwait f) = true →
    (place barReq (isSpad (s.me.readS f.va)) (s.me.readS f.va)).run s = .ok l s1 → (∀ pa, l ≠ .dev pa) →
    let h : Hart := { s.me with barWait := none, barEnd := none }
    let ends (x : Bool) : State :=
      (if x then s1.acquiredBy f.scope.toNat else s1).retiredAs (.barwait f) ((h.writeC (f.vd.setWidth 3) x).setVstart 0)
    let aborts : State := if f.vd = 0 then (s1.setMe h).takeTrap cBarAbort 0 0 else ends false
    (s.me.barEnd = some true → exec (.barwait f) s = .next (ends true))
    ∧ (s.me.barEnd = some false → exec (.barwait f) s = .next aborts)
    ∧ (s.me.barEnd = none → s.isArmed l = false → exec (.barwait f) s = .next aborts)
    ∧ (s.me.barEnd = none → s.isArmed l = true → s.locPoisoned l 16 = false →
        exec (.barwait f) s = .next (
          if s.barGet l 8 = (s.me.readS f.vb).toNat then s1.setMe { s.me with barWait := some l.barKey } else ends true))

/-! ### Streams -/

/-- R192, R193: HINIT of a header that is not registered, whose fields and combiner pass their checks, registers it as
ACTIVE with stream time and every head and tail 0, as a release at device scope once the hart's transfers have ended.
The model's own in it: how a combiner is fetched (log 22). -/
def Obligations.StreamInit : Prop :=
  ∀ (s s0 s1 s2 s3 : State) (f : HsF) (l : Loc) (ws : List Nat) (pages : List (Nat × Nat)) (code : List Instr),
    s.begins (.hinit f) = true → s.header f .rmw 0 l s0 → s.streamAt l = none →
    s0.answersEach (headerFields.map (fun x => (l.off x.1, x.2))) = some (s1, ws) →
    let ea := s.me.readS f.va
    let d := Header.ofFields ws
    let ra := d.rings.toNat % 2 ^ 55
    d.legal → (s1.die (locDie l)).streams.length < 1024 → isSpad d.rings = isSpad ea → ra + d.bytes ≤ 2 ^ 55 →
    (isSpad ea = true → ra + d.bytes ≤ (s1.spadOf s1.me).2) → meet (ea.toNat % 2 ^ 55, 256) (ra, d.bytes) = false →
    (if isSpad ea then pages = [] ∧ s2 = s1 else (pinStream ea d.rings d.bytes).run s1 = .ok pages s2) →
    let st := d.stream s1 l ea pages code
    st.overlaps s1 = false → (combLoad d.comb ea).run s2 = .ok code s3 → s.me.xfers = [] → s3.canRelease 4 →
      let u := (s3.writeBack s3.coreNo).registers st
      exec (.hinit f) s = .next (s.retired (u.setMe (u.me.setVstart 0)) (.hinit f) 8)
        ∧ (s3.streamAt l = none → u.streamAt l = some st)

/-- R192, R194: HAPND writes an item's words to its slot of level 0 as a release at device scope, advances stream time and
writes the item's time to sd; it waits while level 0 of an ACTIVE stream is full, and on a full FAULTED or a SEALED stream
it raises STREAM_FAULT. The model's own in it: how a wait is shown (log 56). -/
def Obligations.StreamAppend : Prop :=
  ∀ (s s1 : State) (f : HsF) (l : Loc) (st : Stream), s.begins (.hapnd f) = true → s.header f .rmw 1 l s1 →
    s.streamAt l = some st → s.me.spent = false → s.me.vl.toNat * hsNk s.me f.et ≤ st.n →
    let ea := s.me.readS f.va
    let free := st.time - st.tail 0 < ringSlots st.caps 0
    let out := appendedWords s.me f st
    let fl := out.zipIdx.foldl (fun g x => if s.me.vc.vstart.toNat ≤ x.2 / hsNk s.me f.et then g ||| x.1.2 else g) 0
    (st.state = 2 → exec (.hapnd f) s = .next (s1.takeTrap cStreamFault 0x900#64 ea))
    ∧ (st.state = 3 → st.time ≠ 2 ^ 48 - 1 → ¬free → exec (.hapnd f) s = .next (s1.takeTrap cStreamFault 0x800#64 ea))
    ∧ (st.state = 1 → st.time ≠ 2 ^ 48 - 1 → ¬free → exec (.hapnd f) s = .next s)
    ∧ (st.state ≠ 2 → st.time ≠ 2 ^ 48 - 1 → free → fl &&& s.me.te ≠ 0 →
        exec (.hapnd f) s = .next ((s1.setMe (s.me.setVstart 0)).takeTrap cFpTrap (BitVec.ofNat 64 fl.toNat) 0))
    ∧ (st.state ≠ 2 → st.time ≠ 2 ^ 48 - 1 → free → fl &&& s.me.te = 0 → s.me.xfers = [] → s.canRelease 4 →
        let t := s1.setMe { s.me with fflags := s.me.fflags ||| fl }
        let u := (t.writeBack t.coreNo).pokeAll ((List.range st.n).map (fun k =>
          (st.loc (st.slotVa 0 st.time + BitVec.ofNat 64 (k * st.esize)), bytesOf st.esize (out.getD k (0, 0)).1)))
        let st' := { st with time := st.time + 1 }
        let w := (u.putStream st').mirrorTime st'
        exec (.hapnd f) s = .next (s.retired
          (w.setMe ((w.me.writeS f.vb (BitVec.ofNat 64 st.time)).setVstart 0)) (.hapnd f) 8))

/-- R192, R195, R360: HLD and HSPAN, with an acquire, write the span of the item that covers a time at a resolution, HLD its
elements as well; where no item does, the high bit of sd and nothing else. HSEAL seals a stream and clears its pending
faults, HRESUME of a stream that is not ACTIVE performs a release at device scope, once the hart's transfers have ended, and then
loads its combiner and constants again and makes it ACTIVE, HFREE unregisters it; HSEAL of a SEALED and HRESUME of an ACTIVE
stream do nothing. The model's own in it: the view of memory and how a wait is shown (logs 2 and 56). -/
def Obligations.StreamUse : Prop :=
  ((∀ (s s1 : State) (f : HsF) (l : Loc) (st : Stream), s.begins (.hspan f) = true → s.header f .read 0 l s1 →
    s.streamAt l = some st →
    let w := match st.covering (s.me.readS f.vb).toNat f.res.toNat with
      | none => 0x8000000000000000#64
      | some (k, q) => BitVec.ofNat 64 (q * 2 ^ k % 2 ^ 48 + k * 2 ^ 48)
    exec (.hspan f) s = .next ((s1.acquiredBy 4).retiredAs (.hspan f) ((s.me.writeS f.x w).setVstart 0)))
  ∧ (∀ (s s1 : State) (f : HsF) (l : Loc) (st : Stream), s.begins (.hld f) = true → s.header f .read 0 l s1 →
    s.streamAt l = some st → st.covering (s.me.readS f.vb).toNat f.res.toNat = none →
    exec (.hld f) s = .next ((s1.acquiredBy 4).retiredAs (.hld f) ((s.me.writeS f.x 0x8000000000000000#64).setVstart 0)))
  ∧ ∀ (s s1 t : State) (f : HsF) (l : Loc) (st : Stream) (k q : Nat) (ws : List Nat), s.begins (.hld f) = true →
    s.header f .read 0 l s1 → s.streamAt l = some st →
    st.covering (s.me.readS f.vb).toNat f.res.toNat = some (k, q) →
    let ks := loadedElements s.me f st
    (∀ i ∈ ks, let a := st.slotVa k q + BitVec.ofNat 64 (i * st.esize)
      (interlock (isSpad a) (a.toNat % 2 ^ 55) st.esize).run s = .ok () s) →
    (s1.acquiredBy 4).answersEach (ks.map (fun i => (st.loc (st.slotVa k q + BitVec.ofNat 64 (i * st.esize)), st.esize)))
      = some (t, ws) →
    let xs := (ks.zip ws).map (fun p => (p.1, convIn (st.slot st.rm st.sat) (etFmt f.et) s.me.fz st.sigma p.2))
    let fl := xs.foldl (fun g x => g ||| x.2.2) 0
    let h := t.me
    let h : Hart := { h with fflags := h.fflags ||| fl }
    let h := if h.spent then h else h.dirty f.vd.toNat h.grp
    let h := xs.foldl (fun h x => hsPut h f.et f.vd.toNat x.1 x.2.1) h
    exec (.hld f) s = .next (
      if fl &&& s.me.te = 0 then
        s.retired (t.setMe ((h.writeS f.x (BitVec.ofNat 64 (q * 2 ^ k % 2 ^ 48 + k * 2 ^ 48))).setVstart 0)) (.hld f) 8
      else (t.setMe (t.me.setVstart 0)).takeTrap cFpTrap (BitVec.ofNat 64 fl.toNat) 0))
  ∧ (∀ (s s1 : State) (f : HsF) (l : Loc) (st : Stream), s.begins (.hseal f) = true → s.header f .read 0 l s1 →
    s.streamAt l = some st →
    let st' := { st with state := 2, flt := 0, fault := [] }
    let u := if st.state = 2 then s1 else (s1.putStream st').mirrorState st'
    exec (.hseal f) s = .next (s.retired (u.setMe (u.me.setVstart 0)) (.hseal f) 8))
  ∧ (∀ (s s1 : State) (f : HsF) (l : Loc) (st : Stream), s.begins (.hresume f) = true → s.header f .read 0 l s1 →
    s.streamAt l = some st → st.state = 1 →
    exec (.hresume f) s = .next (s1.retiredAs (.hresume f) (s.me.setVstart 0)))
  ∧ (∀ (s s1 : State) (f : HsF) (l : Loc) (st : Stream) (x : Transfer) (xs : List Transfer), s.begins (.hresume f) = true →
    s.header f .read 0 l s1 → s.streamAt l = some st → st.state ≠ 1 → s.me.xfers = x :: xs →
    exec (.hresume f) s = .next (s.endTransfer s.cur x.tag))
  ∧ (∀ (s s1 s2 s3 : State) (f : HsF) (l : Loc) (st : Stream) (comb : Nat) (ks : List Nat) (code : List Instr),
    s.begins (.hresume f) = true → s.header f .read 0 l s1 → s.streamAt l = some st → st.state ≠ 1 →
    s.me.xfers = [] → s1.canRelease 4 →
    (s1.writeBack s1.coreNo).answersEach ((8 :: (List.range 7).map (fun i => 0x20 + 8 * i)).map (fun o =>
      (st.loc (st.va + BitVec.ofNat 64 o), 8))) = some (s2, comb :: ks) →
    (combLoad (BitVec.ofNat 64 comb) (s.me.readS f.va)).run s2 = .ok code s3 →
    let st' := { st with state := 1, flt := 0, code := code, consts := ks.map (BitVec.ofNat 64) }
    let u := (s3.putStream st').mirrorState st'
    exec (.hresume f) s = .next (s.retired (u.setMe (u.me.setVstart 0)) (.hresume f) 8))
  ∧ ∀ (s s1 : State) (f : HsF) (l : Loc) (st : Stream), s.begins (.hfree f) = true → s.header f .read 0 l s1 →
    s.streamAt l = some st →
    let u := s1.dropStream st
    exec (.hfree f) s = .next (s.retired (u.setMe (u.me.setVstart 0)) (.hfree f) 8)

/-! ### Remote operations -/

/-- R205, R207, R208, R249, R271: a RAMO or RCAS whose request is out waits while its slot holds no result; once the
slot holds the result of an operation performed, the old value goes to sd, the slot is free, the acquire part of its
order (of `fail` for a RCAS that did not write) follows, where the node is the own one after the core's clean copies
have been dropped, and the instruction retires; the walks to the slot are counted. The model's own in it: the view of
memory, what a waiting hart remembers, how a wait is shown and how walks are counted (logs 2, 33, 56 and 76). -/
def Obligations.RemoteAtomic : Prop :=
  ∀ (i : Instr) (s : State) (f : AtF) (instr n k : Nat) (id : BitVec 32), s.begins i = true →
    (i = .ramo f ∧ instr = 1 ∧ n = amoBytes f.op.toNat) ∨ (i = .rcas f ∧ instr = 2 ∧ n = 8) →
    (s.me.readS f.va).toNat % n = 0 → s.me.remote = some (k, id) → s.me.resend = false → s.copying = [] →
    let c := s.me.ctx
    let a := (s.ctx c).slot k id
    let node := ((s.me.readS f.va).extractLsb' 44 20).toNat
    (s.chan c k).node = node → s.areaRead c (a + 8) 4 = .ok id.toNat →
    (∀ st, s.areaRead c (a + 0x14) 2 = .ok (st + instr * 256) → s.areaRead c (a + 0x14) 1 = .ok st →
      let s1 := ((s.walksOf c (a + 8) 4).walksOf c (a + 0x14) 2).walksOf c (a + 0x14) 1
      (st = 1 → exec i s = .next s1)
      ∧ ∀ (t : State) (x : Nat), st = 2 → s.areaRead c (a + 0x16) 1 = .ok 1 → s.areaRead c a 8 = .ok x →
        ((s1.walksOf c (a + 0x16) 1).walksOf c a 8).areaWrite c (a + 0x14) 1 0 = .ok t →
        let u := t.setMe ({ t.me with remote := none, resend := false }.writeS f.vd (BitVec.ofNat 64 x))
        let order := if instr = 2 ∧ x ≠ (s.me.readS f.vd).toNat then f.fail else f.succ
        let w := if node = s.nodeId.toNat then u.dropClean u.coreNo (fun _ => true) else u
        let v := if order.toNat % 2 = 1 then w.acquiredBy f.scope.toNat else w
        exec i s = .next (s.retired (v.setMe (v.me.setVstart 0)) i 8))

/-- R203, R205, R206, R207, R249, R335: an RSTORE takes a channel toward its node, makes its request after the release
part of its order, for which the hart's transfers have ended, and retires once the request is sent; an RLOAD whose
request is out waits for its result and then writes it to sd, with the acquire part of its order; RDRAIN waits while a
remote operation of the hart has no result, and goes on where none has and no fault is held; what its core holds as
clean copies is dropped then, as after an RLOAD from the own node. The model's own in it: the view of memory, what a
waiting hart remembers, how a wait is shown and how walks are counted (logs 2, 33, 56 and 76). -/
def Obligations.RemoteAccess : Prop :=
  (∀ (s s1 s2 s3 : State) (f : AtF) (k : Nat) (id : BitVec 32), s.begins (.rstore f) = true →
    let addr := s.me.readS f.va
    let c := s.me.ctx
    addr.toNat % 8 = 0 → s.me.remote = none → (remoteChan addr 3).run s = .ok k s1 →
    (2 ≤ f.succ.toNat → (f.scope ≠ 0 → s.me.xfers = []) ∧ s1.canRelease f.scope.toNat) →
    (remoteIssue f k 3 addr (s.me.readS f.vb).toNat 0).run
      (if 2 ≤ f.succ.toNat then s1.releasedBy f.scope.toNat else s1) = .ok id s2 →
    (remoteSend c k 3 id).run s2 = .ok () s3 →
    (s3.chan c k).sent.any (fun x => x.instr == 3 && x.id == id && x.tries == 0) = false →
    (s3.chan c k).held.any (fun x => x.instr == 3 && x.id == id && x.tries == 0) = false →
      exec (.rstore f) s = .next (s.retired
        (s3.setMe ({ s3.me with remote := none, resend := false }.setVstart 0)) (.rstore f) 8))
  ∧ (∀ (s : State) (f : AtF) (w : Nat × BitVec 32), s.begins (.rload f) = true → (s.me.readS f.va).toNat % 8 = 0 →
    s.me.rloadTag = some w →
    (s.me.rload = none → exec (.rload f) s = .next s)
    ∧ ∀ x, s.me.rload = some (1, x) →
      let w := if ((s.me.readS f.va).extractLsb' 44 20).toNat = s.nodeId.toNat then s.dropClean s.coreNo (fun _ => true) else s
      exec (.rload f) s = .next ((if f.succ.toNat % 2 = 1 then w.acquiredBy f.scope.toNat else w).retiredAs (.rload f)
        (({ s.me with rloadTag := none, rload := none }.writeS f.vd x).setVstart 0)))
  ∧ ∀ (s : State) (f : AtF), s.begins (.rdrain f) = true →
    (s.remotePending = true → exec (.rdrain f) s = .next s)
    ∧ (s.remoteIdle = true → exec (.rdrain f) s = .next ((s.acquiredBy 5).retiredAs (.rdrain f) (s.me.setVstart 0)))

/-! ### Copy and inflate transfers -/

/-- R216 to R221, R382: XCOPY, XCOPYFF and XINFL of a good descriptor whose positions can be pinned put a transfer in flight
under the lowest free tag and write the tag to sd; with VL 0 the tag ends at once with status 1 and length 0. XWAIT
ends the transfer of its tag and writes its status word to sd, or, where sd is s0 and the transfer failed, raises
ENGINE_DATA; while the transfer is held it waits. XSTAT writes the word as it stands. The model's own in it: bytes in the
PCIe window, how pinned pages are counted, how a wait is shown and how walks are counted (logs 23, 37, 56 and 76). -/
def Obligations.EngineTransfer : Prop :=
  (∀ (i : Instr) (s : State) (f : EnF) (inflate ff : Bool) (tag : Nat), s.begins i = true →
    engineForm i = some (f, inflate, ff) → freeTag.run s = .ok tag s →
    (s.me.vl = 0 → exec i s = .next (s.retiredAs i
      ((({ s.me with tags := s.me.tags.set (tagFin tag) (statusWord 0 1 0), tagDst := s.me.tagDst.set (tagFin tag) 0 } :
        Hart).writeS f.vd (BitVec.ofNat 64 tag)).setVstart 0)))
    ∧ ∀ (s1 s2 s3 : State) (ws : List Nat) (t t' : Transfer) (pins : Pins) (cut : Option Nat), s.me.vl ≠ 0 →
      (readDesc (s.me.readS f.va)).run s = .ok ws s1 → asked s1 s.me f inflate tag ws = some t →
      (∀ r ∈ t.ranges, (interlock r.1 r.2.1 r.2.2).run s1 = .ok () s1) →
      (t.pinAll ff (s.me.readS f.va) (List.range (max t.input t.count)) { pages := [], maps := [] }).run
        (s1.walkedPages .read false ((List.range (max t.input t.count)).flatMap t.touches)) = .ok (pins, cut) s2 →
      ((t.pinned pins cut).readWindow).run s2 = .ok t' s3 →
        exec i s = .next (s.retired (s3.inFlight t' f.vd) i 8))
  ∧ (∀ (s : State) (f : EnF), s.begins (.xstat f) = true →
    exec (.xstat f) s = .next (s.retiredAs (.xstat f)
      ((s.me.writeS f.vd (s.me.tags.get (tagFin (s.me.readS f.va).toNat))).setVstart 0)))
  ∧ ∀ (s : State) (f : EnF), s.begins (.xwait f) = true →
    let k := (s.me.readS f.va).toNat
    let t := s.endTransfer s.cur k
    let w := t.me.tags.get (tagFin k)
    exec (.xwait f) s = .next (
      if s.xferHeld s.cur k then s else
      if f.vd = 0 ∧ w.toNat / 2 ^ 40 % 256 = 0x0D then
        t.takeTrap cEngineData (BitVec.ofNat 64 (w.toNat / 2 ^ 48 % 16))
          (t.me.tagDst.get (tagFin k) + BitVec.ofNat 64 (w.toNat % 2 ^ 40))
      else s.retired (t.setMe ((t.me.writeS f.vd w).setVstart 0)) (.xwait f) 8)


/-! ### Events of the other agents -/

/-- The events of a hart's vector side, checks, traps and control registers (R85, R108, R139, R140, R178, R261, R262,
R269, R281, R282, R289, R293, R371 to R377, R386): each does to the hart of its slot what the hart's own step would do,
where no pre-emption or asynchronous fault comes first. A hand-over captures its operands; the oldest entry leaves its queue
where there is room for it, and a VSETL whose grant stands and an MXSETC answer; a convoy that the issue stage starts, an
instruction whose check agrees and one that is replayed execute and retire; a window that consumes poison is squashed and
issued again; HALT retires the hart. The model's own in it: when a trap is precise, PWRCAP's bits, what an event of no hart
does, how a wait is shown, the order of asynchronous faults and of a pre-emption, the causes that a trap event may have, what is
held by a copied channel, when a VSETL answers, what a reissue keeps, and when a convoy is ready (logs 13, 42, 54, 56, 58, 78,
94, 95, 97, 99, 107 and 112). -/
def Obligations.HartEvents : Prop :=
  ∀ (s : State) (key : Nat), s.canMove key = true →
    let m : State := { s with cur := key }
    let h := m.me
    let back (t : State) : Host.Outcome State Fault Refusal := s.as key (fun m => m.replayed (.next t))
    let waits (ms : List Instr) (covered : Bool) (n : Nat) : Hart :=
      { h with vq := h.vq ++ [{ instrs := ms, covered := covered, pc := h.pc, s := h.s, vc := h.vc, passed := false
                                again := false, seq := 0, given := none, share := [], issued := false, held := 0 }]
               readySince := if h.idleQueue then s.clock else h.readySince
               waitCount := if h.idleQueue then 0 else h.waitCount
               vc := { h.vc with vstart := 0 }, pc := h.after n }
    (∀ i, m.due = false → m.peekFetch = some (.one i) → isVector i = true → (m.setMe h.decodes).begins i = true →
      h.mustWait [i] = false → m.queueHas m.coreNo (key % 8) 1 = true →
        exec (.vectorHandover key) s = back ((m.fetched (.one i) 0).setMe (waits [i] false 8)))
    ∧ (∀ ms, m.due = false → m.peekFetch = some (.convoy ms) →
      (gateAll ms).run (m.setMe h.decodes) = .ok () (m.setMe h.decodes) → h.mustWait ms = false →
      m.queueHas m.coreNo (key % 8) ms.length = true →
        exec (.vectorHandover key) s = back ((m.fetched (.convoy ms) 0).setMe (waits ms true (4 + 8 * ms.length))))
    ∧ (∀ e es, m.preDue = none → h.allIssued = true → h.vq = e :: es → m.canIssue e = true →
        let left := m.setMe { h with vq := es }
        exec (.decouplingIssue key) s = back (match left.answersEarly e with
          | none => left.pushWin e
          | some (d, vl) =>
            let u := left.pushWin { e with given := some vl }
            u.setMe (u.me.writeS d (vl.setWidth 64))))
    -- the instruction at the PC, nothing of the vector side being left
    ∧ (∀ i, m.due = false → h.idleQueue = true → m.peekFetch = some (.one i) → isVector i = true → m.startsAt [i] = true →
        let g := m.fetched (.one i) 0
        let runs (t : State) : Prop :=
          exec (.convoyIssue key) s = back t ∧ exec (.instructionReplay key true) s = back t
            ∧ ((vaOf i).isSome = true → m.begins i = true → exec (.spotCheck key true) s = back t)
            ∧ (isMatrixArith i = true → m.begins i = true → exec (.matrixSpotCheck key true) s = back t)
        (∀ t, exec i g = .next t → runs t)
        ∧ (∀ d x b, g.begins i = true → extracted g.me i = some (d, x, b) →
            runs ((g.spotted b).retiredAs i ((g.me.writeS d x).setVstart 0)))
        ∧ ∀ op, g.begins i = true → elementOp g.me i = some op → g.me.spent = false → g.me.te = 0 →
            ∃ v fl n, runs (({ g with fresh := n }.spotted op.checked).retiredAs i
              { g.me.afterElements op.d v [] 0 with fflags := fl }))
    -- the oldest entry issued
    ∧ (∀ e rest u, m.preDue = none → h.win = e :: rest → e.issued = true → m.notYet e = false → m.starts = true →
        (e.run h.grp).run (m.setMe { m.unwaited with s := e.s, vc := e.vc, pc := e.pc, win := rest }) = .ok () u →
        exec (.convoyIssue key) s = back (u.setMe { m.unwaited.rejoin u.me e with devReads := [], devUsed := 0 }))
    ∧ (m.due = false → exec (.poisonReissue key) s = back (match m.consumed m.window 0 with
        | some (u, k) => m.reissued u k
        | none => m))
    ∧ (∀ z, m.due = false → h.idleQueue = true → m.peekFetch = some (.one (.halt z)) →
        let g := m.fetched (.one (.halt z)) 0
        (g.begins (.halt z) = true → g.remoteIdle = true → g.transfersEnd → g.copying = [] → exec (.hartRetirement key) s
          = back (g.retired (((g.endTransfers g.cur).retireHart g.cur).moveGangs) (.halt z) 0))
        ∧ ∀ t, exec (.halt z) g = .next t → exec (.hartRetirement key) s = back t)
    ∧ (∀ cause info addr, m.due = false → h.idleQueue = true → h.barEnd = none →
        exec (.trapEntry key cause info addr) s = back (if trapCause cause then m.takeTrap cause info addr else m))
    ∧ (∀ i blk, h.priv = false → m.midway = false → h.pre = .pending blk → h.idleQueue = true →
        m.peekFetch = some (.one i) → isVector i = false → exec (.preemptTaken key) s = back (m.takePreempt blk))
    ∧ (∀ st info, h.idleQueue = true → m.asyncFault = some (st, info) →
        exec (.streamFaultDelivery key) s
          = back ((m.putStream { st with fault := st.fault.drop 1 }).takeTrap cStreamFault info st.va))
    ∧ ∀ e i v, ctlWrite m key e = some (i, v) → m.due = false → h.idleQueue = true →
        exec e s =
          if h.priv = false then back (m.takeTrap cPrivilege 0 0)
          else match m.ctlWritten i v with
            | some t => back t
            | none => back (m.takeTrap cIllegal 0x200#64 0)

/-- R139, R140, R178, R260, R371 to R374: a check that fails advances the core's LFSR, counts a mismatch and waits for
the Assayer, and the instruction does not retire; of the matrix engine's arithmetic each sixteenth is checked; the Assayer
takes the oldest such check where a helper core is to be had, adds 16 to the score of each unit that the third execution
finds wrong, and has the instruction replayed on another lane group; the watchdog kills the context of a hart privileged for
2^24 clocks and posts its EPC. The model's own in it: that the events say which checks fail and who is wrong (log 1), and which
EPC is posted (log 98). -/
def Obligations.CheckEvents : Prop :=
  (∀ (s : State) (key : Nat) (ms : List Instr) (h : Hart), s.canMove key = true →
    let m : State := { s with cur := key }
    let c := s.core (key / 8)
    let fails (t : State) (u : Nat) (again : Bool) : Prop :=
      t.harts = s.harts ∧ t.mem = s.mem ∧ t.cur = s.cur
      ∧ t.core (key / 8) = { c with lfsr := lfsrStep c.lfsr, mism := BitVec.ofNat 16 (min (c.mism.toNat + 1) 65535) }
      ∧ (t.die (dieOf (key / 8))).failed
          = (s.die (dieOf (key / 8))).failed ++ [{ core := key / 8, unit := u, hart := key, again := again }]
    m.due = false → m.oldest = some (ms, h) →
    (∀ i f, ms = [i] → vaOf i = some f → vaElements h i f ≠ [] →
      ∃ t u, exec (.spotCheck key false) s = .next t ∧ u < 16 ∧ fails t u false)
    ∧ (ms.any isMatrixArith = true → ∀ v, m.vectorTurn = .next v →
      let n := (v.core (key / 8)).mxCount
      ∃ t, exec (.matrixSpotCheck key false) s = .next t ∧ if n ≠ c.mxCount ∧ n % 16 = 0 then fails t 17 m.wrongBefore else t = s))
  ∧ (∀ (s : State) (dn : Nat) (x : Failed) (rest : List Failed) (ua sa : Bool), (s.die dn).failed = x :: rest →
    let v := verdict ua sa
    ((s.helper x.core).isNone = true → exec (.assayerArbitration dn ua sa) s = .next s)
    ∧ ((s.helper x.core).isSome = true → x.unit < 16 →
      let c := s.core x.core
      c.score x.unit < 112 → c.score 16 < 112 →
      ∃ t, exec (.assayerArbitration dn ua sa) s = .next t ∧ (t.die dn).failed = rest ∧ t.harts = s.harts ∧ t.mem = s.mem
        ∧ (s.live x.hart = true → ∃ r ∈ (t.die dn).replays, r.hart = x.hart ∧ (v ≠ .scalar → x.unit ∈ r.wrong))
        ∧ (t.core x.core).score x.unit = c.score x.unit + (if v = .scalar then 0 else 16)
        ∧ (t.core x.core).score 16 = c.score 16 + if v = .unit then 0 else 16))
  ∧ ∀ (s : State) (key : Nat),
    let h := s.hartAt key
    exec (.privilegeWatchdog key) s = .next (
      if s.live key = true ∧ h.priv = true ∧ h.privSince + 2 ^ 24 ≤ s.clock then
        s.kill h.ctx 4 cWatchdog (some (h.epc.toNat, hartTag h key))
      else s)

/-- Contexts, queues, launches, gangs and power (R257 to R259, R274, R275, R278 to R287, R291, R295, R297, R385,
R390): the commands of the driver, a doorbell, the taking of a record, the placing, the start and the slice of gangs,
the windows of the power controller. The model's own in it: ties of the scheduler, addresses past 2^55, how many walks the
device's own accesses count, and that OPEN clears the error reason of a queue (logs 45, 46, 76 and 109). -/
def Obligations.SchedulerEvents : Prop :=
  (∀ (s : State) (k : Nat), s.recovery = false → k < 4096 →
    let c := s.ctx k
    let moved (t : State) (st : Nat) : Prop :=
      t.ctx k = { c with state := st } ∧ t.descRead k 0 8 = 0
      ∧ t.descRead k 8 8 = st + s.descRead k 8 8 / 2 ^ 16 % 256 * 2 ^ 16
      ∧ ∀ a, a < descPa k ∨ descPa k + 16 ≤ a → t.homeByte a = s.homeByte a
    (c.state = 1 → (∀ e ∈ s.gangs, e.2.placed = true → (s.launch e.2.launch).map Launch.ctx ≠ some k) →
      ∃ t : State, exec (.ctxSuspend k) s = .next (t.pollWords (some k)) ∧ moved t 3)
    ∧ (c.state = 3 → ∃ t : State, exec (.ctxResume k) s = .next (t.pollWords (some k)) ∧ moved t 1)
    ∧ (∀ d t, c.state = 0 → ((s.descWrite k 0 8 1).descWrite k 0 8 0).descriptor k = some d →
        freedChannels ((s.descWrite k 0 8 1).descWrite k 0 8 0) k d = .ok t →
        exec (.ctxOpen k) s = .next ((t.descWrite k 8 8 1).pollWords (some k)) ∧ t.ctx k = d ∧ d.state = 1 ∧ t.opened = true)
    ∧ (c.state = 1 ∨ c.state = 2 ∨ c.state = 3 → c.chans = [] →
        ∃ t : State, exec (.ctxKill k) s = .next (t.pollWords (some k)) ∧ t.ctx k = Ctx.reset ∧ ∀ l ∈ t.launches, l.2.ctx ≠ k))
  ∧ (∀ (s : State) (q : Nat), s.recovery = false → q < 4096 →
    let x := s.queue q
    let f (off n : Nat) : Nat := s.homeRead (queuePa q + off) n
    (x.state = 0 → f 0x10 8 < 2 ^ 17 → f 0x10 8 / 4096 % 16 = 0 → f 0x18 8 % 128 = 0 → f 0x18 8 < 2 ^ 55 →
      sizeOk (f 0x20 4) = true → f 0x24 4 = 0 → (s.ctx (f 0x10 8 % 4096)).state = 1 →
      ∃ t : State, exec (.queueOpen q) s = .next (t.pollWords (some (f 0x10 8 % 4096)))
        ∧ t.queue q = { Queue.reset with
            state := 1, owner := f 0x10 8 % 4096, hostFed := (f 0x10 8).testBit 16, ring := f 0x18 8, size := f 0x20 4 }
        ∧ t.homeRead (queuePa q) 8 = 0 ∧ t.homeRead (queuePa q + 8) 8 = 1 ∧ t.homeRead (queuePa q + 0x28) 8 = 0
        ∧ t.homeRead (queuePa q + 0x30) 8 = 0 ∧ t.homeRead (queuePa q + 0x38) 8 = 0)
    ∧ (x.state = 1 ∨ x.state = 3 →
      ∃ t : State, exec (.queueClose q) s = .next (t.pollWords (some x.owner)) ∧ t.homeRead (queuePa q) 8 = 0
        ∧ (t.queue q).state = if s.launches.any (fun l => l.2.queue == q) then 2 else 0)
    ∧ ∀ tail, x.state = 1 → x.hostFed = true → tail < 2 ^ 48 → x.tail < tail → tail - x.head ≤ x.size →
      exec (.queueAppendDoorbell (BitVec.ofNat 64 (q + tail * 2 ^ 16))) s
        = .next (((s.setQueue q { x with tail := tail }).checkHead q).pollWords (some x.owner)))
  ∧ (∀ (s : State) (n : Nat) (r : Rec),
    let u := s.pollWith false (fun _ => true)
    let q := u.queue n
    (n, r) ∈ u.ready → (∀ y ∈ u.ready, y = (n, r) ∨ r.field 0x17 1 < y.2.field 0x17 1) → r.field 0x17 1 < 4 →
      ∃ (t : State) (l : Launch), exec .takeRecord s = .next (t.checkHead n) ∧ t.launch u.nextLaunch = some l
        ∧ t.nextLaunch = u.nextLaunch + 1
        ∧ (t.queue n).head = q.head + 1 ∧ l.ctx = q.owner ∧ l.queue = n ∧ l.seq = q.head
        ∧ l.number = (u.ctx q.owner).launches ∧ (t.ctx q.owner).launches = l.number + 1
        ∧ l.entry = BitVec.ofNat 55 (r.field 0 8) ∧ l.args = BitVec.ofNat 64 (r.field 8 8) ∧ l.gangs = r.field 0x10 4
        ∧ l.harts = r.field 0x14 1 ∧ l.placed = 0 ∧ l.retired = 0)
  ∧ (∀ (s : State) (q : Nat) (x : Queue) (r : Rec), s.queues = [(q, x)] → x.state = 1 → x.head < x.tail →
    s.headRecord x = .ok r →
      let u := r.wordDeps.foldl (fun u a => u.walksOf x.owner a 8) s
      exec .wordDependencePoll s = .next (u.setQueue q { x with met := u.metNow x r true }))
  ∧ (∀ (s : State) (n : Nat) (l : Launch) (core slot base : Nat), s.throttle = 0 → s.nextWaiting = some (n, l, none) →
    let size := l.spad + l.harts * l.lads * Config.ladderRegion
    (s.placeWalks l none).chooseCore l (List.replicate l.harts (l.lgrp / l.harts)) size 0 = some (core, slot, base) →
      ∃ t g, exec .placeGang s = .next t ∧ t.gang s.nextGang = some g ∧ t.nextGang = s.nextGang + 1
        ∧ t.launch n = some { l with placed := l.placed + 1 } ∧ g.launch = n ∧ g.gangId = BitVec.ofNat 20 l.placed
        ∧ g.state = .forming ∧ g.core = core ∧ g.slot = slot ∧ g.base = base ∧ g.size = size ∧ g.gen = 0 ∧ g.arrived = 0
        ∧ g.objs = 0)
  ∧ (∀ (s : State) (n w : Nat) (g : Gang) (x : Launch), s.gangs = [(n, g)] → s.willing n g = true → s.canSave g = true →
    g.placedAt + 2 ^ 23 ≤ s.clock → s.preempting.contains n = false → (w, x) ∈ s.launches → w ≠ g.launch →
    (s.launch g.launch).map Launch.prio = some x.prio → (s.ctx x.ctx).state = 1 → x.placed < x.gangs →
    x.since + 2 ^ 23 ≤ s.clock →
      exec .timeSlice s = .next { (s.preemptGang n).1 with preempting := n :: s.preempting })
  ∧ (∀ (s : State) (n : Nat) (g : Gang) (l : Launch), s.gang n = some g → g.state = .forming → g.saved = [] →
    s.launch g.launch = some l →
      ∃ t, exec (.gangStart n) s = .next t ∧ t.gang n = some { g with state := .active }
        ∧ (∀ i, i < l.harts →
            let h := t.hartAt (g.core * 8 + g.slot + i)
            t.live (g.core * 8 + g.slot + i) = true ∧ h.pc = l.entry ∧ h.s = Hart.reset.s.set 1 l.args ∧ h.ctx = l.ctx
              ∧ h.gang = n ∧ h.gangId = g.gangId ∧ h.launch = l.number ∧ h.index = i ∧ h.priv = false ∧ h.vl = 0
              ∧ h.laneCur = 4 * ((s.core g.core).uses (g.slot + i)).length)
        ∧ ∀ o, g.base ≤ o → o < g.base + g.size → t.spadByte g.core o = 0)
  ∧ (∀ (s : State) (w : Nat), s.gangs = [] → s.under + 1 < 10 →
    let t : State :=
      if s.capNow < w ∨ s.hot = true then { s with under := 0, throttle := min 4 (s.throttle + 1) }
      else if 95 * s.capNow ≤ 100 * w then { s with under := 0 }
      else { s with under := s.under + 1, throttle := s.throttle - 1 }
    exec (.powerWindow w) s = .next { t with capNow := s.pwrcap.toNat })
  ∧ (∀ (s : State) (d celsius : Nat), d < 4 →
    ∃ t, exec (.thermalThrottle d celsius) s = .next t ∧ (t.die d).celsius = celsius
      ∧ t.hot = (decide (100 < celsius) || (s.hot && !(List.range 4).all (fun k => (t.die k).celsius < 95))))
  ∧ (∀ (s : State) (d : Nat), d < 4 →
    ∃ t, exec (.thermalTrip d) s = .next t ∧ t.recovery = true ∧ t.ports = [] ∧ t.telemetry.tripped = true)
  ∧ ∀ (s : State) (v : BitVec 64), s.recovery = false →
    exec (.feataccWrite v) s = .next (if s.opened then s else { s with featacc := v.setWidth 7 &&& 0x7F#7 })

/-- Background work on memory (R217 to R220, R254, R255, R320, R322 to R324, R346, R355, R366, R376, R380 to R384):
merges and discards of the Fuller, merges of ladders, the end of transfers, page walks, page commands, evictions of
the CDC, scrubbing, calibration and channel copies. The model's own in it: the two phases of a merge, some statuses,
the words that are scrubbed and the spare channels, how a block is stored, where a mark of a CDC word stands, the eviction of a
page in the PCIe window, what is held by a copied channel, and what saturates a counter (logs 10, 31, 51, 53, 73, 81, 86 and
94). -/
def Obligations.MemoryEvents : Prop :=
  (∀ (s : State) (d : Nat) (st : Stream), (s.die d).nextStream = some st →
    (∀ l, st.half = some l →
      let st' := { st with half := none, tails := st.tails.set l (st.tail l + 2) }
      exec (.fullerMerge d) s = .next (((s.putStream st').mirrorLevel st' l).passTurn d st))
    ∧ (∀ l, st.work (s.die d).fullerShare.toNat = .merge l →
        s.itemPoison st l (st.tail l) = false → s.itemPoison st l (st.tail l + 1) = false →
        exec (.fullerMerge d) s = .next (
          match s.combine st (s.itemRead st l (st.tail l)) (s.itemRead st l (st.tail l + 1)) with
          | (u, .words ws) =>
            let st' := { st with heads := st.heads.set (l + 1) (st.head (l + 1) + 1), half := some l }
            ((u.itemWrite st (l + 1) (st.head (l + 1)) ws).putStream st').mirrorLevel st' (l + 1)
          | (u, .fault i fl kind) =>
            match u.mergeFault st l i fl kind with
            | (v, none) => v
            | (v, some (k, c)) => v.areaKill k c))
    ∧ (st.work (s.die d).fullerShare.toNat = .discard →
        let l := st.levels - 1
        let st' := { st with tails := st.tails.set l (st.tail l + 1) }
        exec (.fullerDiscard d) s = .next (((s.putStream st').mirrorLevel st' l).passTurn d st)))
  ∧ (∀ (s : State) (core key : Nat) (j : LadJob) (d : Lad), s.nextMerge core = some (key, j) → s.lad key j.lad = some d →
    let u := s.mergeStep d j.n j.carry
    exec (.ladderMerge core) s = .next (u.setHart key { u.hartAt key with pend := (u.hartAt key).pend.drop 1 })
      ∧ ∀ e ∈ s.harts, e.1 / 8 = core → ∀ x, e.2.pend.head? = some x → j.seq ≤ x.seq)
  ∧ (∀ (s u : State) (key tag sub len : Nat) (fl : Flags) (t : Transfer),
    (s.hartAt key).xfers.find? (fun t => t.tag == tag) = some t → s.xferHeld key tag = false →
    { s with cur := key }.runTransfer t = (u, sub, len, fl) →
    ∃ v, exec (.transferEnd key tag) s = .next v ∧ v.mem = u.mem ∧ v.cores = u.cores
      ∧ (v.hartAt key).xfers = (u.hartAt key).xfers.filter (fun x => x.tag != tag)
      ∧ (v.hartAt key).tags.get (tagFin tag)
          = BitVec.ofNat 64 (len % 2 ^ 40 + (if sub ≠ 0 then 0x0D else if t.trimmed then 2 else 1) * 2 ^ 40 + sub * 2 ^ 48)
      ∧ (v.hartAt key).fflags = (u.hartAt key).fflags ||| fl)
  ∧ (∀ (s : State) (core k : Nat) (va : BitVec 55) (f : Found), core < 192 → (s.ctx k).state ≠ 0 →
    s.findLeaf va.toNat 2 (s.ctx k).ptroot = some f →
    let size := pageSize (eSz f.entry)
    let base := va.toNat / size * size
    (s.core core).tlb.any (fun x => x.ctx == k && x.base == base) = false →
    ∃ t, exec (.pageWalk core k va) s = .next t ∧ t.mem = s.mem ∧ t.harts = s.harts
      ∧ (t.core core).tlb = { ctx := k, base := base, size := size, entry := f.entry } :: (s.core core).tlb
      ∧ t.telemetry.homeMiss =
          if eFrame f.entry < Config.dramEnd ∧ eHome f.entry ≠ homeDie (eFrame f.entry) then satAdd s.telemetry.homeMiss 1
          else s.telemetry.homeMiss)
  ∧ (∀ (s : State), s.pchead < s.pctail → s.pcsize ≠ 0 →
    let p := s.pageRecord s.pchead
    s.pageMalformed p = false →
    let dropped (t : State) (va n : Nat) : Prop :=
      ∀ e ∈ t.cores, ∀ x ∈ e.2.tlb, ¬(x.ctx = p.ctx ∧ x.base < va + n ∧ va < x.base + x.size)
    s.armedGlobal (p.recAt + 1) 1 = none →
    (p.op = 1 → ∃ t, exec .inval s = .next t ∧ t.pchead = s.pchead + 1 ∧
      if s.streamPins p.ctx p.va (p.count * 0x10000) then t.homeRead (p.recAt + 1) 1 = 2 ∧ t.pcmds = s.pcmds
      else t.pcmds = s.pcmds ++ [{ p with count := p.count * 0x10000 }] ∧ dropped t p.va (p.count * 0x10000) ∧ t.mem = s.mem)
    ∧ ∀ f, p.op = 2 → (s.ctx p.ctx).state ≠ 0 → s.findLeaf p.va 2 (s.ctx p.ctx).ptroot = some f →
      let size := pageSize (eSz f.entry)
      let va := p.va / size * size
      p.dst % size = 0 → s.pageBarred p.dst size = false → p.dst + size ≤ 2 ^ 44 → ePoison f.entry = false →
      ∃ t, exec .evict s = .next t ∧ t.pchead = s.pchead + 1 ∧
        if ePin f.entry = true ∨ s.streamPins p.ctx va size = true ∨ s.transferPins p.ctx va size = true
            ∨ s.donePins p.ctx va size = true then
          t.homeRead (p.recAt + 1) 1 = 2 ∧ t.pcmds = s.pcmds
        else t.pcmds = s.pcmds ++ [{ p with va := va, count := size, evicting := true }] ∧ dropped t va size ∧ t.mem = s.mem)
  ∧ (∀ (s : State) (n : Nat) (p : PageCmd),
    s.readsOut p.ctx = false → s.armedGlobal (p.recAt + 1) 1 = none →
    (s.pcmds.find? (fun p => p.seq == n && !p.evicting) = some p → s.transferPins p.ctx p.va p.count = false →
      ∃ t, exec (.invalComplete n) s = .next t ∧ t.homeRead (p.recAt + 1) 1 = 1
        ∧ t.pcmds = s.pcmds.filter (fun q => q.seq != n))
    ∧ ∀ f, s.pcmds.find? (fun p => p.seq == n && p.evicting) = some p →
      s.findLeaf p.va 2 (s.ctx p.ctx).ptroot = some f →
      s.outReads.any (fun r => r.1 == p.key) = false → (s.inWindow (eFrame f.entry) = true → p.count / 8 ≤ p.reads.length) →
      ∃ t, exec (.evictDrain n) s = .next t ∧ t.pcmds = s.pcmds.filter (fun q => q.seq != n) ∧
        if ePin f.entry = true ∨ s.streamPins p.ctx p.va p.count = true ∨ s.transferPins p.ctx p.va p.count = true
            ∨ s.donePins p.ctx p.va p.count = true then
          t.homeRead (p.recAt + 1) 1 = 2
        else t.homeRead (p.recAt + 1) 1 = 1
          ∧ (∀ e ∈ t.cores, ∀ x ∈ e.2.tlb, ¬(x.ctx = p.ctx ∧ x.base < p.va + p.count ∧ p.va < x.base + x.size))
          -- the page's bytes, with what the cores held of it, stand at the destination, and the leaf's V is clear
          ∧ ∀ (from_ : Nat), eFrame f.entry = from_ → Memory.wf s.mem → s.lostChan = [] → from_ + p.count ≤ Config.dramEnd →
            p.dst + p.count ≤ Config.dramEnd → (p.dst + p.count ≤ f.node ∨ f.node + 65536 ≤ p.dst) →
            (p.recAt + 1 < p.dst ∨ p.dst + p.count ≤ p.recAt + 1) →
            let s1 := { s with pcmds := s.pcmds.filter (fun q => q.seq != n) }.homeCheck p.ctx p.va
            let u := s1.cores.foldl (fun s e => s.evictIf e.1 (fun a => from_ ≤ a && a < from_ + p.count)) s1
            (∀ i, i < p.count → s.armedGlobal (p.dst + i) 1 = none → t.homeByte (p.dst + i) = u.homeByte (from_ + i))
            ∧ (let v := f.node + 8 * (p.va / 2 ^ (13 * f.lvl + 16) % 8192) + 7
              s.armedGlobal v 1 = none → v ≠ p.recAt + 1 → (t.homeByte v).toNat < 128))
  ∧ (∀ (s : State) (v : BitVec 64), s.recovery = false →
    let drop : State := { s with telemetry := { s.telemetry with dropped := satAdd s.telemetry.dropped 1 } }
    exec (.pageCommandDoorbell v) s = .next (
        if v.toNat ≤ s.pctail then s else if s.pcsize < v.toNat - s.pchead then drop else { s with pctail := v.toNat })
      ∧ exec (.pcbaseWrite v) s = .next (
        if s.pchead = s.pctail ∧ v.toNat % 32 = 0 then { s with pcbase := v.toNat } else drop)
      ∧ exec (.pcsizeWrite v) s = .next (
        if s.pchead = s.pctail ∧ (List.range 17).any (fun k => decide (4 ≤ k) && v.toNat == 2 ^ k) = true then
          { s with pcsize := v.toNat }
        else drop))
  ∧ (∀ (s : State) (core line : Nat), 128 * line < Config.dramEnd →
    128 * line % Config.channelBytes < Config.reserveOffset → s.chanHeld (128 * line) = false →
    ∃ t, exec (.cdcEviction core line) s = .next t
      ∧ (t.core core).dirty = (s.core core).dirty.filter (fun e => e.1 / 128 != line)
      ∧ (∀ e ∈ (t.core core).clean, e.1 / 128 ≠ line)
      ∧ (∀ a, 128 * line ≤ a → a < 128 * line + 128 →
          t.homeByte a = (Tab.find (s.core core).dirty a).getD (s.homeByte a))
      ∧ ((∃ e ∈ (s.core core).dirty, e.1 / 128 = line) →
          t.homeByte (metaAt (128 * line)) = metaByte (compressBlock (t.blockWords (128 * line / 512)))))
  ∧ (∀ (s : State) (x : Scrubbed) (bad : Bool),
    ((scrubbed x && s.holdsWord x) = false → exec (.scrub x bad) s = .next s)
    ∧ ((scrubbed x && s.holdsWord x) = true →
      exec (.scrub x false) s = .next
        { s with telemetry := { s.telemetry with corrected := Tab.count s.telemetry.corrected (arrayOf x) } }
      ∧ ∃ t, exec (.scrub x true) s = .next t ∧ t.mem = s.mem
        ∧ t.telemetry = { s.telemetry with uncorrectable := Tab.count s.telemetry.uncorrectable (arrayOf x) }
        ∧ match x with
          | .dram w | .llc w => w ∈ t.poison
          | .cdc c w =>
            if (List.range 8).any (fun i => (Tab.find (s.core c).dirty (8 * w + i)).isSome) = true then w ∈ (t.core c).tainted
            else w ∈ (t.core c).marked
          | .spad c w => w ∈ (t.core c).spadPoison
          | _ => True))
  ∧ (∀ (s : State) (bus b : Nat), bus < 208 → b < 256 →
    ((∀ x ∈ s.busFail, x.1 ≠ bus) → exec (.calibration bus (some b)) s = .next { s with busFail := (bus, b) :: s.busFail })
    -- the bundle that failed the last calibration of the bus
    ∧ (s.busFail.filter (fun x => x.1 == bus) = [(bus, b)] →
      let k := bus * 4 + b / 64
      let fs := Tab.get [] s.repairs k
      let gone := bus :: s.telemetry.buses
      ∃ t, exec (.calibration bus none) s = .next t ∧ (∀ x ∈ t.busFail, x.1 ≠ bus) ∧
        if fs.contains (BitVec.ofNat 6 b) = true then t.repairs = s.repairs
        else if fs.length < 2 then
          Tab.find t.repairs k = some (fs ++ [BitVec.ofNat 6 b]) ∧ t.telemetry.bundles = (bus, b) :: s.telemetry.bundles
            ∧ t.lostChan = s.lostChan
        else if s.telemetry.buses.contains bus = true then t.retiredBus = s.retiredBus ∧ t.lostChan = s.lostChan
        else t.telemetry.buses = gone ∧
          match s.serves bus with
          | none => t.retiredBus = s.retiredBus ∧ t.lostChan = s.lostChan
          | some chan =>
            let others := s.retiredBus.filter (fun x => x.1 != chan)
            let free (x : Nat) : Prop := x < 4 ∧ (∀ y ∈ s.retiredBus, dieOf y.1 = dieOf chan → y.2 ≠ x)
              ∧ spareBus (dieOf chan) x ∉ gone
            (∃ x, free x ∧ t.retiredBus = (chan, x) :: others ∧ chan ∈ t.copying ∧ t.lostChan = s.lostChan
              ∧ ∀ y, free y → Config.spareDistance chan x ≤ Config.spareDistance chan y)
            ∨ ((∀ x, ¬free x) ∧ t.retiredBus = others ∧ t.lostChan = chan :: s.lostChan ∧ t.telemetry.replace = true)))
  ∧ ∀ (s : State) (chan : Nat) (bad : List Nat), s.copying.contains chan = true →
    ∃ t, exec (.channelCopyComplete chan bad) s = .next t ∧ t.copying = s.copying.filter (· != chan) ∧ t.mem = s.mem
      ∧ ∀ w, w ∈ t.poison ↔ w ∈ s.poison ∨ (w ∈ bad ∧ 8 * w / Config.channelBytes = chan)

/-- Link ports, messages, the host port and management (R203, R250, R331 to R345, R347, R373, R384, R386, R387, R391
to R393): what each event of a port, a message, a timer, a register of BAR0, a mailbox message or firmware leaves. The
model's own in it: some statuses, what a power-good keeps, how a wait is shown, the form of a CRC, F while a request waits, how a
spilled receipt stands in memory, how many walks the device's own accesses count, an access past BAR2, which memory is lost, a
channel being copied, a poisoned receipt, and a digest's images (logs 10, 33, 52, 56, 57, 60, 74, 75, 76, 82, 86, 89, 94 and
111). -/
def Obligations.PortEvents : Prop :=
  (∀ (s : State) (p n : Nat), p < 8 →
    let st := (s.port p).1
    (st = .down ∨ st = .failed → s.recovery = false → s.nodeSet = true →
      ∃ t, exec (.portEnable p) s = .next t ∧ t.port p = (.training, 0, 0) ∧ t.harts = s.harts)
    ∧ (∃ t, exec (.portDisable p) s = .next t ∧ t.port p = (.down, 0, 0) ∧ t.harts = s.harts)
    ∧ (st = .training → ∃ t, exec (.lanesLocked p n) s = .next t ∧ t.port p = (.up, 4, n) ∧ t.harts = s.harts)
    ∧ (st = .training → n < 4 → ∃ t, exec (.trainingTimeout p n) s = .next t ∧ t.harts = s.harts
        ∧ t.port p = if n < 2 then (.failed, 0, 0) else (.degraded, n, 0))
    ∧ (st = .up ∨ st = .degraded →
        ∃ t, exec (.linkRetrain p) s = .next t ∧ t.port p = (.training, 0, 0) ∧ t.harts = s.harts))
  ∧ (∀ (s : State) (f : Flit), s.portsUp ≠ 0 → flitOk f = true → (flitMsg f).dst = s.nodeId.toNat →
    let m := flitMsg f
    let dn := channelDie m.src m.ctx
    let reply (kind : Nat) : Msg :=
      { dst := m.src, src := s.nodeId.toNat, kind := kind, fst := false, inc := s.incarnation, ctx := m.ctx, payload := [] }
    let unspilled (t u : State) : Prop :=
      ∀ a, (∀ i, i ≤ (s.die dn).spill.length → a < spillAt dn i ∨ spillAt dn i + 32 ≤ a) → t.homeByte a = u.homeByte a
    let sent (t : State) (a : Msg) : Prop := t.outFlits = if t.route m.src = 0 then s.outFlits else s.outFlits ++ [a.flit]
    -- a serial that has a receipt is answered from it, and nothing is performed again
    (∀ r, m.kind = 1 → m.field 44 1 ≠ 4 →
      let d := s.raiseBase dn m.src m.ctx (BitVec.ofNat 32 (m.field 16 4))
      serialGe (BitVec.ofNat 32 (m.field 12 4)) d.2 = true →
      d.1.receiptOf dn m.src m.ctx (BitVec.ofNat 32 (m.field 12 4)) = some r →
      ∃ t, exec (.request f) s = .next t ∧ unspilled t s
        ∧ sent t (if r.bad = true then s.answer m 5 0 else s.answer m r.code.toNat r.result.toNat))
    -- a request that its window grants is performed at home and answered, and unless it is a load it has a receipt
    ∧ (let instr := m.field 44 1
        let op := m.field 45 1 % 16
        let pa := m.field 20 8 % 2 ^ 44
        let n := if instr = 1 then amoBytes op else 8
        let d := s.raiseBase dn m.src m.ctx (BitVec.ofNat 32 (m.field 16 4))
        let serial := BitVec.ofNat 32 (m.field 12 4)
        m.kind = 1 → 1 ≤ instr → instr ≤ 4 →
        s.windowOk m.src m.ctx pa n (if instr = 4 then 0 else if instr = 3 then 1 else 2) = true → pa % n = 0 →
        pa + n ≤ Config.dramEnd → instr = 4 ∨ s.armedGlobal pa n = none → s.homePoisoned pa n = false →
        (instr ≠ 4 → serialGe serial d.2 = true ∧ d.1.receiptOf dn m.src m.ctx serial = none ∧ m.inc = s.incarnation
          ∧ (d.1.die dn).receiptsFull = false) →
        let old := s.homeRead pa n
        let result := if instr = 3 then 0 else old
        let u : State :=
          if instr = 1 then s.homeWrite pa (bytesOf n (amoF (8 * n) true op old (m.field 28 8)))
          else if instr = 3 ∨ (instr = 2 ∧ old = m.field 36 8) then s.homeWrite pa (bytesOf 8 (m.field 28 8))
          else s
        ∃ t, exec (.request f) s = .next t ∧ unspilled t u ∧ t.harts = s.harts
          ∧ t.outFlits = (if t.route m.src = 0 then s.outFlits else s.outFlits ++ [(s.answer m 1 result).flit])
          ∧ (instr ≠ 4 →
              { node := m.src, ctx := m.ctx, serial := serial, code := 1, result := BitVec.ofNat 64 result
                bad := false } ∈ (t.die dn).receipts))
    ∧ (m.kind = 3 → exec (.probe f) s = .next (s.emit (reply 4)))
    ∧ (m.kind = 5 → ∃ t, exec (.close f) s = .next t ∧ sent t (reply 6) ∧ t.mem = s.mem
        ∧ (∀ r ∈ t.receipts dn, ¬(r.node = m.src ∧ r.ctx = m.ctx))
        ∧ ∀ b ∈ (t.die dn).bases, ¬(b.1 = m.src ∧ b.2.1 = m.ctx))
    ∧ (m.kind = 7 → ∃ t, exec (.acknowledgement f) s = .next t ∧ t.outFlits = s.outFlits ∧ t.mem = s.mem
        ∧ ∀ r ∈ t.receipts dn, r.node = m.src → r.ctx = m.ctx →
            serialGe r.serial (BitVec.ofNat 32 (m.field 16 4)) = true
            ∨ ∃ b ∈ (s.die dn).bases, b.1 = m.src ∧ b.2.1 = m.ctx ∧ serialGe r.serial b.2.2 = true)
    ∧ ∀ i ch next, (s.ctx m.ctx).chans.find?
        (fun e => e.2.node == m.src && (m.kind == 4 || e.2.probing || e.2.closing || e.2.inc.isSome)) = some (i, ch) →
      s.areaRead m.ctx ((s.ctx m.ctx).entry i + 8) 4 = .ok next →
      (∀ x code, m.kind = 2 → ch.closing = false → m.field 25 1 = 4 → m.field 24 1 = code → code = 1 ∨ code = 2 →
        (s.ctx m.ctx).state ≠ 4 →
        ch.sent.find? (fun x => x.id == BitVec.ofNat 32 (m.field 12 4) && x.instr == 4) = some x →
        ∃ t, exec (.response f) s = .next t ∧ t.mem = s.mem
          ∧ ∀ e ∈ s.harts, e.2.rloadTag = some (i, x.id) → e.2.ctx = m.ctx →
            (e.1, { e.2 with rload := some (BitVec.ofNat 8 code, BitVec.ofNat 64 (m.field 16 8)) }) ∈ t.harts)
      -- the result of a RAMO, RCAS or RSTORE: its delivery slot and the acknowledgement
      ∧ (∀ x code n (s1 s2 s3 s4 : State), m.kind = 2 → s.chan m.ctx i = ch → ch.closing = false → m.field 25 1 = x.instr →
        m.field 24 1 = code →
        code = 1 ∨ code = 2 ∨ code = 5 → x.instr ≠ 4 → (s.ctx m.ctx).state ≠ 4 →
        ch.sent.find? (fun x => x.id == BitVec.ofNat 32 (m.field 12 4) && x.instr == m.field 25 1) = some x →
        let k := m.ctx
        let a := (s.ctx k).slot i x.id
        let left := ch.sent.filter (fun y => !(y.instr == x.instr && y.id == x.id))
        let faulted := x.instr = 3 ∧ code ≠ 1
        let entry := (s.ctx k).entry i
        let u : State :=
          if faulted then s3.setChan k i { s3.chan k i with held := (s3.chan k i).held ++ [{ x with code := BitVec.ofNat 8 code }] }
          else s3
        (s.setChan k i { ch with sent := left }).areaWrite k a 8 (if x.instr = 3 then 0 else m.field 16 8) = .ok s1 →
        s1.areaWrite k (a + 0x16) 1 code = .ok s2 →
        s2.areaWrite k (a + 0x14) 1 (if faulted then 3 else if x.instr = 3 then 0 else 2) = .ok s3 →
        (u.walksOf k (entry + 8) 4).areaRead k (entry + 8) 4 = .ok n →
        (u.walksOf k (entry + 8) 4).areaWrite k (entry + 12) 4 ((u.chan k i).ack (BitVec.ofNat 32 n)).toNat = .ok s4 →
        (∃ n', s4.areaRead k (entry + 8) 4 = .ok n') →
        ∃ t, exec (.response f) s = .next t ∧ t.mem = s4.mem ∧ t.harts = s.harts ∧ (t.chan k i).sent = left
          ∧ (t.chan k i).held = ch.held ++ if faulted then [{ x with code := BitVec.ofNat 8 code }] else [])
      ∧ (m.kind = 4 → s.chan m.ctx i = ch → ch.probing = true → ch.sent = [] → (s.ctx m.ctx).state ≠ 4 →
        ∃ t, exec (.probeAnswer f) s = .next t ∧ (t.chan m.ctx i).probing = false ∧ (t.chan m.ctx i).inc = some m.inc
          ∧ (t.chan m.ctx i).f = BitVec.ofNat 32 next ∧ t.mem = s.mem)
      ∧ (m.kind = 6 → (s.ctx m.ctx).state = 4 → (s.ctx m.ctx).chans = [(i, ch)] →
        ∃ t, exec (.closeAnswer f) s = .next t ∧ t.ctx m.ctx = Ctx.reset))
  ∧ (∀ (s : State) (k i next : Nat), (s.ctx k).state = 1 ∨ (s.ctx k).state = 2 →
    let ch := s.chan k i
    ch.node ≠ s.nodeId.toNat →
    (∀ what, ch.probing = true → ch.probes < 64 →
      exec (.retransmitTimer k i what 0) s = .next (
        (s.setChan k i { ch with probing := true, probes := ch.probes + 1 }).emit (s.plainMsg k i 3 [])))
    -- a request sent again, with E and A of this moment
    ∧ (∀ x kind what (u : State), 1 ≤ kind → kind ≤ 4 → ch.probing = false →
      ch.sent.find? (fun x => x.instr == kind && x.id == what) = some x → x.tries < 64 →
      s.areaRead k ((s.ctx k).entry i + 8) 4 = .ok next →
      let m := flitMsg x.flit
      let sent := (s.walksOf k ((s.ctx k).entry i + 8) 4).setChan k i
        { ch with ackDue := ch.ackDue && kind == 4
                  sent := ch.sent.map (fun y =>
                    if y.instr == x.instr && y.id == x.id then { x with tries := x.tries + 1 } else y) }
      m.dst ≠ s.nodeId.toNat →
      (if kind = 4 then u = sent else sent.areaWrite k ((s.ctx k).slot i x.id + 0x17) 1 (min 255 (x.tries + 1)) = .ok u) →
      exec (.retransmitTimer k i what kind) s = .next (u.emit
        { m with fst := x.tries == 0 && kind != 4, inc := if kind = 4 then ch.inc.getD 0 else ch.e x.id
                 payload := payloadOf [(12, 4, m.field 12 4), (16, 4, (ch.ack (BitVec.ofNat 32 next)).toNat),
                   (20, 8, m.field 20 8), (28, 8, m.field 28 8), (36, 8, m.field 36 8), (44, 2, m.field 44 2)] }))
    ∧ (ch.ackDue = true → ch.sent.all (fun x => x.instr == 4) = true → s.areaRead k ((s.ctx k).entry i + 8) 4 = .ok next →
      exec (.ackIdleTimer k i) s = .next (
        ((s.walksOf k ((s.ctx k).entry i + 8) 4).setChan k i { ch with ackDue := false }).emit
          (s.plainMsg k i 7 (payloadOf [(16, 4, next % 2 ^ 32)]))))
    ∧ (ch.ackDue = false → exec (.ackIdleTimer k i) s = .next s))
  ∧ (∀ (s : State) (verifies : Bool) (buses : BusTest),
    ∃ t, exec (.powerGood verifies buses) s = .next t ∧ t.recovery = !(verifies && buses.ok)
      ∧ t.incarnation = (if !(verifies && buses.ok) then s.incarnation else if s.incarnation = 65535 then 1 else s.incarnation + 1)
      ∧ t.firmware = (if verifies then s.staged else s.firmware)
      ∧ t.nvScores = s.nvScores ∧ t.mem = [] ∧ t.harts = [] ∧ t.ctxs = [] ∧ t.ports = [] ∧ t.nodeSet = false
      ∧ t.pwrcap = 2400 ∧ t.featacc = 0)
  ∧ (∀ (s : State) (id : BitVec 20),
    exec (.nodeIdAssign id) s = .next (
        if id.toNat < 786432 ∧ s.nodeSet = false then { s with nodeId := id, nodeSet := true } else s)
      ∧ exec .nodeIdTimeout s = .next (if s.nodeSet then s else { s with nodeId := 0, ports := [] }))
  ∧ (∀ (s : State),
    ∃ t, exec .firmwareRecovery s = .next t ∧ t.mem = s.mem
      ∧ t.incarnation = (if s.incarnation = 65535 then 1 else s.incarnation + 1)
      ∧ ∀ d, (t.die d).receipts = [] ∧ (t.die d).spill = [] ∧ (t.die d).bases = [])
  ∧ (∀ (s : State) (v : BitVec 64), s.recovery = false →
    exec (.bar0Write 0x200 v) s = .next { s with wbase := v } ∧ exec (.bar0Write 0x208 v) s = .next { s with obase := v }
    ∧ exec (.bar0Write 0x20 v) s = exec (.feataccWrite v) s
    ∧ exec (.bar0Write 0x100 v) s = exec (.queueAppendDoorbell v) s
    ∧ exec (.bar0Write 0x110 v) s = exec (.pageCommandDoorbell v) s
    ∧ exec (.bar0Write 0x118 v) s = exec (.pcbaseWrite v) s ∧ exec (.bar0Write 0x120 v) s = exec (.pcsizeWrite v) s
    ∧ (∀ i, 1 ≤ i → i < 512 → exec (.bar0Write (0x1000 + 8 * i) v) s = .next (s.setMail i v))
    ∧ ((s.mail 0).getLsbD 63 = false → 1 ≤ v.toNat % 256 → v.toNat % 256 ≤ 4 →
        exec (.bar0Write 0x1000 v) s = .next (s.setMail 0 (BitVec.ofNat 64 (v.toNat % 256 + 2 ^ 63)))))
  ∧ (∀ (s : State) (off n : Nat) (x : BitVec 64), s.recovery = false →
    let pa := s.wbase.toNat + off
    (s.bar2Size < off + n → ∀ y, exec (.hostBar2Access off n y) s = .next s)
    ∧ (s.copying.contains (pa / Config.channelBytes) = true → ∀ y, exec (.hostBar2Access off n y) s = .next s)
    ∧ (off + n ≤ s.bar2Size → s.copying.contains (pa / Config.channelBytes) = false →
    s.lostChan.contains (pa / Config.channelBytes) = false → pa + n ≤ Config.dramEnd →
    exec (.hostBar2Access off n none) s = .next { s with replies := s.replies ++ [(3, [s.homeRead pa n])] }
    ∧ (s.armedGlobal pa n = none → exec (.hostBar2Access off n (some x)) s = .next (s.homeWrite pa (bytesOf n x.toNat)))
    ∧ ∀ b, s.armedGlobal pa n = some b → ∃ t, exec (.hostBar2Access off n (some x)) s = .next t ∧ t.mem = s.mem
        ∧ t.telemetry.dropped = satAdd s.telemetry.dropped 1))
  ∧ (∀ (s : State) (key : Nat) (x : BitVec 64), s.live key = true → (s.hartAt key).devWait.isSome = true →
    let h := s.hartAt key
    let t : State := { s with outReads := s.outReads.filter (fun r => r.1 != key) }
    exec (.outboundReadCompletion key (some x)) s
        = .next (t.setHart key { h with devWait := none, devReads := h.devReads ++ [x] })
      ∧ exec (.outboundReadTimeout key) s = .next (t.setHart key { h with devWait := none, devError := true }))
  ∧ (∀ (s : State), (s.mail 0).getLsbD 63 = true →
    let w (i : Nat) : Nat := (s.mail (1 + i)).toNat
    let ends (t : State) (st : Nat) : Prop :=
      (∀ i, t.mail i = if i = 0 then BitVec.ofNat 64 ((s.mail 0).toNat % 256 + st * 256) else s.mail i) ∧ t.harts = s.harts
    ((s.mail 0).toNat % 256 = 1 → w 0 < 256 → w 1 ≤ w 2 → w 2 < 786432 → w 3 < 4096 → w 4 + w 5 ≤ Config.dramEnd →
      w 6 < 8 → w 7 = 1 →
      ∃ t, exec .setWindow s = .next t ∧ ends t 1 ∧ Tab.find t.windows (w 0) = some
        { first := w 1, last := w 2, ctx := w 3, base := w 4, len := w 5, rwa := BitVec.ofNat 3 (w 6) })
    ∧ ((s.mail 0).toNat % 256 = 2 → 1 ≤ w 1 → w 1 ≤ 4064 → w 0 + w 1 ≤ 786432 → (∀ e ∈ s.ctxs, e.2.state ≠ 4) →
      ∃ t, exec .setRoute s = .next t ∧ ends t 1 ∧ ∀ i, i < w 1 →
        t.homeByte (Config.routingTable + w 0 + i) = BitVec.ofNat 8 (w (2 + i / 8) / 256 ^ (i % 8)))
    ∧ ((s.mail 0).toNat % 256 = 3 → w 0 < 4 → w 1 < 16 → 1 ≤ w 2 → w 2 < 2 ^ 16 →
      ∃ t, exec .setPart s = .next t ∧ ends t 1 ∧ Tab.find (t.die (w 0)).parts (w 1) = some (BitVec.ofNat 16 (w 2)))
    ∧ ((s.mail 0).toNat % 256 = 4 → ∃ t, exec .setPwrcap s = .next t ∧
      if 600 ≤ w 0 ∧ w 0 ≤ 2400 then ends t 1 ∧ t.pwrcap.toNat = w 0 else ends t 3 ∧ t.pwrcap = s.pwrcap)
    ∧ ∀ verifies, 0x80 ≤ (s.mail 0).toNat % 256 → (s.mail 0).toNat % 256 ≤ 0x8F →
      ∃ t, exec (.firmwareUpdate verifies) s = .next t ∧
        t.firmware = s.firmware ∧ if verifies then ends t 1 ∧ t.staged = s.staged + 1 else ends t 3 ∧ t.staged = s.staged)
  ∧ (∀ (s : State), (∀ e ∈ s.cores, e.2.scores.Pairwise (fun a b => a.1 < b.1)) →
    ∃ t, exec .suspectDecay s = .next t ∧ t.mem = s.mem ∧ t.harts = s.harts ∧ ∀ c u,
      (t.core c).score u = if (s.core c).score u < 128 then (s.core c).score u - 1 else (s.core c).score u)
  ∧ (∀ (s : State), exec .telemetrySample s = .next
    { s with samples := [{ counts := s.telemetry, cores := s.cores.map (fun e => (e.1, e.2.mism, e.2.scores)) }] })
  ∧ (∀ (s : State) (i : Nat), 1 ≤ i → i ≤ 4 → exec (.spdmRequest i) s = .next
    { s with replies := s.replies ++ [(1, [i, Config.digest i (s.measured i) % 2 ^ 256])] })
  ∧ ∀ (s : State), ∃ xs, exec .pldmTelemetryRead s = .next { s with replies := s.replies ++ [(2, xs)] }
    ∧ xs.take 15 = (
      let t := (s.samples.headD { counts := Telemetry.reset, cores := [] }).counts
      (List.range 7).map (Tab.get 0 t.corrected) ++ (List.range 7).map (Tab.get 0 t.uncorrectable) ++ [t.poisonUsed])

/-! ### Steps, encodings, reset -/

/-- R66, R67 and log 1: where the bytes at the moving hart's PC decode to an instruction, nothing comes before it and, on
the vector side, the issue stage, the window and the matrix engine receive it (R85, R177, R282, R293), a step is that
instruction's meaning, whether the agenda is empty or its head names the hart; an event at the agenda's head that no copied
channel holds is performed. The model's own in it: the agenda and what is held (logs 1 and 94). -/
def Obligations.StepRunsDecoded : Prop :=
  (∀ (s : State) (i : Instr) (k : Nat), s.agenda = [] → s.readyToFetch → s.fetches i k → s.mayStart i →
      step s = s.replayed (exec i (s.fetched (.one i) k)))
  ∧ (∀ (s : State) (i : Instr) (k h : Nat) (rest : List Turn), s.agenda = .hart h :: rest →
      let u : State := { s with agenda := rest }
      ({ u with cur := h } : State).readyToFetch → ({ u with cur := h } : State).fetches i k →
      ({ u with cur := h } : State).mayStart i →
      step s = u.as h (fun u => u.replayed (exec i (u.fetched (.one i) k))))
  ∧ ∀ (s : State) (i : Instr) (rest : List Turn), s.agenda = .event i :: rest → encode i = [] →
      s.eventHeld i = false → step s = exec i { s with agenda := rest }

/-- R66 to R79: words of the manual's examples decode to the instructions they stand for. -/
def Obligations.DecodeWords : Prop :=
  decode [0x0228DFFD#32] = .ok (.addi 5 6 ⟨none, 0x1FFD#13⟩, 1)
  ∧ decode [0xD0091A2B#32, 0x0228C789#32] = .ok (.addi 5 6 ⟨some 0x0091A2B#28, 0x0789#13⟩, 2)
  ∧ decode [0x0038E300#32] = .ok (.add 7 7 6, 1)
  ∧ decode [0x325FFFFD#32] = .ok (.bc 1 0x1FFFFD#21, 1)
  ∧ decode [0x3C000030#32] = .ok (.fencerel 0 0 0 4 0, 1)
  ∧ decode [0x80042001#32, 0x00140000#32] = .ok (.vsub
      { vd := 2, va := 0, vb := 1, x := 0, m := 0, et := 10, rm := 0, sat := 0, os := 0, mi := 0, aux := 0 }, 2)
  ∧ decode [0x840C4280#32, 0x00140000#32] = .ok (.vldff
      { vd := 4, va := 10, vb := 0, x := 0, m := 0, et := 10, fmt := 0, ord := 0, ovt := 0, pol := 0, scope := 0, space := 0
        ff := 0, z := 0 }, 2)
  ∧ decode [0x88446200#32, 0x00140000#32] = .ok (.vredsumo
      { vd := 6, va := 8, vb := 0, x := 0, m := 0, et := 10, rm := 0, sat := 0, os := 0, mi := 0, aux := 0 }, 2)
  ∧ decode [0x8C085100#32, 0#32] = .ok (.mxsetc
      { vd := 5, va := 4, vb := 0, x := 0, m := 0, et := 0, rows := 0, g := 0, bt := 0, z := 0 }, 2)
  ∧ decode [0x90041004#32, 0x00140000#32] = .ok (.lstep
      { vd := 1, va := 0, vb := 4, x := 0, m := 0, et := 10, rung := 0, op := 0, z := 0 }, 2)
  ∧ decode [0x94084207#32, 0x24142000#32] = .ok (.hld
      { vd := 4, va := 8, vb := 7, x := 9, m := 0, et := 10, res := 1, z := 0 }, 2)
  ∧ decode [0x98045106#32, 0x00002140#32] = .ok (.ramo
      { vd := 5, va := 4, vb := 6, x := 0, m := 0, et := 0, op := 1, succ := 0, fail := 0, scope := 5, z := 0 }, 2)
  ∧ decode [0xA4005100#32, 0x00150000#32] = .ok (.vsetl
      { vd := 5, va := 4, vb := 0, x := 0, m := 0, et := 10, g := 2, z := 0 }, 2)

/-- R66 to R78: decoding the parcels of an instruction gives it back, every field at every value, whatever follows. -/
def Obligations.RoundTrip : Prop :=
  ∀ i : Instr, encode i ≠ [] → ∀ rest : List Parcel, decode (encode i ++ rest) = .ok (i, (encode i).length)

/-- R313 and log 4: every step keeps memory in its canonical form, so that equal memories are equal data. -/
def Obligations.MemoryKeepsForm : Prop :=
  ∀ s t : State, Memory.wf s.mem → step s = .next t → Memory.wf t.mem

/-- R48, R56, R139, R257, R332, R386, R390: what the manual gives for the device after start and for a hart at its creation. -/
def Obligations.ResetValues : Prop :=
  (Memory.wf State.reset.mem ∧ State.reset.harts = [] ∧ State.reset.ports = [] ∧ State.reset.featacc = 0
    ∧ State.reset.pwrcap = 2400 ∧ (∀ k, (State.reset.ctx k).state = 0)
    ∧ (∀ c, (State.reset.core c).lfsr = BitVec.ofNat 32 (c + 1)) ∧ ∀ d, (State.reset.die d).fullerShare = 1)
  ∧ ∀ (key : Nat) (p : BitVec 55),
    let s : State := { State.reset.setHart key { Hart.reset with pc := p } with cur := key }
    s.live key = true ∧ s.me.pc = p ∧ s.me.priv = false ∧ (∀ r, s.me.readS r = 0) ∧ (∀ c, s.me.readC c = (c == 0))
      ∧ (∀ r i, s.me.maskBit r i = (r == 0)) ∧ s.readCtl 0x15 = 0x00040000#64 ∧ s.readCtl 0x40 = 1
      ∧ ∀ k ∈ [0x10, 0x11, 0x12, 0x14, 0x20, 0x21, 0x22, 0x23, 0x24, 0x25, 0x26, 0x27, 0x30, 0x31, 0x50, 0x51, 0x52, 0x53,
          0x60, 0x100, 0x104, 0x105, 0x124], s.readCtl k = 0
end

