-- ==== Sys2Proof/Laws/Tab.lean ====
section
/-!
SUPPORT. The laws of a sparse store: what a read sees after a write, and that every write keeps the canonical form.
-/

namespace Sys2Proof.Tab

variable {α : Type}

@[simp] theorem get_nil (d : α) (k : Nat) : Tab.get d [] k = d := rfl
@[simp] theorem find_nil (k : Nat) : Tab.find ([] : Tab α) k = none := rfl

theorem get_eq_find (d : α) (t : Tab α) (k : Nat) : Tab.get d t k = (Tab.find t k).getD d := by
  induction t with
  | nil => rfl
  | cons p t ih =>
    obtain ⟨k', v⟩ := p
    simp only [Tab.get, Tab.find]
    split <;> simp [ih]

/-! ### put -/

theorem find_put (t : Tab α) (k k' : Nat) (v : α) :
    Tab.find (Tab.put t k v) k' = if k = k' then some v else Tab.find t k' := by
  induction t with
  | nil => simp [Tab.put, Tab.find]
  | cons p t ih =>
    obtain ⟨a, w⟩ := p
    by_cases h1 : k < a
    · simp [Tab.put, h1, Tab.find]
    · by_cases h2 : a = k
      · subst h2
        simp only [Tab.put, h1, if_false, if_true, Tab.find]
        by_cases h3 : a = k' <;> simp [h3]
      · simp only [Tab.put, h1, h2, if_false, Tab.find, ih]
        by_cases h3 : k = k'
        · subst h3; simp [h2]
        · simp [h3]

@[simp] theorem find_put_same (t : Tab α) (k : Nat) (v : α) : Tab.find (Tab.put t k v) k = some v := by
  simp [find_put]

theorem find_put_ne (t : Tab α) {k k' : Nat} (v : α) (h : k ≠ k') : Tab.find (Tab.put t k v) k' = Tab.find t k' := by
  simp [find_put, h]

theorem get_put (d : α) (t : Tab α) (k k' : Nat) (v : α) :
    Tab.get d (Tab.put t k v) k' = if k = k' then v else Tab.get d t k' := by
  simp only [get_eq_find, find_put]
  split <;> rfl

@[simp] theorem get_put_same (d : α) (t : Tab α) (k : Nat) (v : α) : Tab.get d (Tab.put t k v) k = v := by
  simp [get_put]

theorem get_put_ne (d : α) (t : Tab α) {k k' : Nat} (v : α) (h : k ≠ k') :
    Tab.get d (Tab.put t k v) k' = Tab.get d t k' := by
  simp [get_put, h]

@[simp] theorem put_put (t : Tab α) (k : Nat) (v w : α) : Tab.put (Tab.put t k v) k w = Tab.put t k w := by
  induction t with
  | nil => simp [Tab.put]
  | cons p t ih =>
    obtain ⟨a, x⟩ := p
    by_cases h1 : k < a
    · simp [Tab.put, h1]
    · by_cases h2 : a = k
      · simp [Tab.put, h2]
      · simp [Tab.put, h1, h2, ih]

/-- Every key of the store after a write is one of before or the key written. -/
theorem mem_put {t : Tab α} {k : Nat} {v : α} {p : Nat × α} (h : p ∈ Tab.put t k v) : p = (k, v) ∨ p ∈ t := by
  induction t with
  | nil => simpa [Tab.put] using h
  | cons q t ih =>
    obtain ⟨a, x⟩ := q
    simp only [Tab.put] at h
    split at h
    · simpa using h
    · split at h
      · rcases List.mem_cons.mp h with h | h
        · exact .inl h
        · exact .inr (List.mem_cons_of_mem _ h)
      · rcases List.mem_cons.mp h with h | h
        · exact .inr (by simp [h])
        · rcases ih h with h | h
          · exact .inl h
          · exact .inr (List.mem_cons_of_mem _ h)

theorem pairwise_put {t : Tab α} (h : t.Pairwise (fun a b => a.1 < b.1)) (k : Nat) (v : α) :
    (Tab.put t k v).Pairwise (fun a b => a.1 < b.1) := by
  induction t with
  | nil => simp [Tab.put]
  | cons q t ih =>
    obtain ⟨a, x⟩ := q
    rw [List.pairwise_cons] at h
    by_cases h1 : k < a
    · simp only [Tab.put, h1, if_true, List.pairwise_cons]
      refine ⟨fun b hb => ?_, h.1, h.2⟩
      rcases List.mem_cons.mp hb with rfl | hb
      · exact h1
      · exact Nat.lt_trans h1 (h.1 b hb)
    · by_cases h2 : a = k
      · subst h2
        simp only [Tab.put, h1, if_false, if_true, List.pairwise_cons]
        exact ⟨h.1, h.2⟩
      · simp only [Tab.put, h1, h2, if_false, List.pairwise_cons]
        refine ⟨fun b hb => ?_, ih h.2⟩
        rcases mem_put hb with rfl | hb
        · simp only; omega
        · exact h.1 b hb

/-! ### erase -/

theorem find_erase (t : Tab α) (k k' : Nat) :
    Tab.find (Tab.erase t k) k' = if k = k' then none else Tab.find t k' := by
  induction t with
  | nil => simp [Tab.erase, Tab.find]
  | cons p t ih =>
    obtain ⟨a, x⟩ := p
    simp only [Tab.erase] at ih
    by_cases h1 : a = k
    · subst h1
      simp only [Tab.erase, List.filter_cons, bne_self_eq_false, Bool.false_eq_true, if_false, ih, Tab.find]
      by_cases h2 : a = k' <;> simp [h2]
    · simp only [Tab.erase, List.filter_cons, bne_iff_ne, ne_eq, h1, not_false_eq_true, if_true, Tab.find, ih]
      by_cases h2 : k = k'
      · subst h2; simp [h1]
      · simp [h2]

theorem get_erase (d : α) (t : Tab α) (k k' : Nat) :
    Tab.get d (Tab.erase t k) k' = if k = k' then d else Tab.get d t k' := by
  simp only [get_eq_find, find_erase]
  split <;> rfl

theorem find_filter (t : Tab α) (p : Nat → Bool) (k : Nat) :
    Tab.find (t.filter (fun e => p e.1)) k = if p k then Tab.find t k else none := by
  induction t with
  | nil => simp
  | cons e t ih =>
    obtain ⟨a, x⟩ := e
    by_cases h1 : p a
    · simp only [List.filter_cons, h1, if_true, Tab.find, ih]
      by_cases h2 : a = k
      · subst h2; simp [h1]
      · simp [h2]
    · simp only [List.filter_cons, h1, if_false, Tab.find, ih, Bool.false_eq_true]
      by_cases h2 : a = k
      · subst h2; simp [h1]
      · simp [h2]

/-! ### set -/

variable [DecidableEq α]

theorem get_set (d : α) (t : Tab α) (k k' : Nat) (v : α) :
    Tab.get d (Tab.set d t k v) k' = if k = k' then v else Tab.get d t k' := by
  unfold Tab.set
  split
  · rename_i h; rw [get_erase, h]
  · rw [get_put]

@[simp] theorem get_set_same (d : α) (t : Tab α) (k : Nat) (v : α) : Tab.get d (Tab.set d t k v) k = v := by
  simp [get_set]

theorem get_set_ne (d : α) (t : Tab α) {k k' : Nat} (v : α) (h : k ≠ k') :
    Tab.get d (Tab.set d t k v) k' = Tab.get d t k' := by
  simp [get_set, h]

/-- A write keeps the canonical form. -/
theorem wf_set {d : α} {t : Tab α} (h : Tab.wf (fun _ => d) t) (k : Nat) (v : α) :
    Tab.wf (fun _ => d) (Tab.set d t k v) := by
  unfold Tab.set
  split
  · exact ⟨h.1.filter _, fun p hp => h.2 p (List.mem_filter.mp hp).1⟩
  · rename_i hv
    refine ⟨pairwise_put h.1 k v, fun p hp => ?_⟩
    rcases mem_put hp with rfl | hp
    · exact hv
    · exact h.2 p hp

end Sys2Proof.Tab
end

