-- ==== Sys2Proof/Laws/State.lean ====
section
/-!
SUPPORT. What each update of the state and of a hart leaves alone: one lemma for each field and update.
-/

namespace Sys2Proof.Machine

/-! ### Updates of the state -/

@[simp] theorem State.setHart_mem (s : State) (k : Nat) (x : Hart) : (s.setHart k x).mem = s.mem := rfl
@[simp] theorem State.setHart_poison (s : State) (k : Nat) (x : Hart) : (s.setHart k x).poison = s.poison := rfl
@[simp] theorem State.setHart_cur (s : State) (k : Nat) (x : Hart) : (s.setHart k x).cur = s.cur := rfl
@[simp] theorem State.setHart_cores (s : State) (k : Nat) (x : Hart) : (s.setHart k x).cores = s.cores := rfl
@[simp] theorem State.setHart_dies (s : State) (k : Nat) (x : Hart) : (s.setHart k x).dies = s.dies := rfl
@[simp] theorem State.setHart_ctxs (s : State) (k : Nat) (x : Hart) : (s.setHart k x).ctxs = s.ctxs := rfl
@[simp] theorem State.setHart_queues (s : State) (k : Nat) (x : Hart) : (s.setHart k x).queues = s.queues := rfl
@[simp] theorem State.setHart_launches (s : State) (k : Nat) (x : Hart) : (s.setHart k x).launches = s.launches := rfl
@[simp] theorem State.setHart_gangs (s : State) (k : Nat) (x : Hart) : (s.setHart k x).gangs = s.gangs := rfl
@[simp] theorem State.setHart_nextLaunch (s : State) (k : Nat) (x : Hart) : (s.setHart k x).nextLaunch = s.nextLaunch := rfl
@[simp] theorem State.setHart_nextGang (s : State) (k : Nat) (x : Hart) : (s.setHart k x).nextGang = s.nextGang := rfl
@[simp] theorem State.setHart_rr (s : State) (k : Nat) (x : Hart) : (s.setHart k x).rr = s.rr := rfl
@[simp] theorem State.setHart_preempting (s : State) (k : Nat) (x : Hart) : (s.setHart k x).preempting = s.preempting := rfl
@[simp] theorem State.setHart_hints (s : State) (k : Nat) (x : Hart) : (s.setHart k x).hints = s.hints := rfl
@[simp] theorem State.setHart_posts (s : State) (k : Nat) (x : Hart) : (s.setHart k x).posts = s.posts := rfl
@[simp] theorem State.setHart_featacc (s : State) (k : Nat) (x : Hart) : (s.setHart k x).featacc = s.featacc := rfl
@[simp] theorem State.setHart_opened (s : State) (k : Nat) (x : Hart) : (s.setHart k x).opened = s.opened := rfl
@[simp] theorem State.setHart_pwrcap (s : State) (k : Nat) (x : Hart) : (s.setHart k x).pwrcap = s.pwrcap := rfl
@[simp] theorem State.setHart_capNow (s : State) (k : Nat) (x : Hart) : (s.setHart k x).capNow = s.capNow := rfl
@[simp] theorem State.setHart_hot (s : State) (k : Nat) (x : Hart) : (s.setHart k x).hot = s.hot := rfl
@[simp] theorem State.setHart_under (s : State) (k : Nat) (x : Hart) : (s.setHart k x).under = s.under := rfl
@[simp] theorem State.setHart_throttle (s : State) (k : Nat) (x : Hart) : (s.setHart k x).throttle = s.throttle := rfl
@[simp] theorem State.setHart_nodeId (s : State) (k : Nat) (x : Hart) : (s.setHart k x).nodeId = s.nodeId := rfl
@[simp] theorem State.setHart_nodeSet (s : State) (k : Nat) (x : Hart) : (s.setHart k x).nodeSet = s.nodeSet := rfl
@[simp] theorem State.setHart_incarnation (s : State) (k : Nat) (x : Hart) : (s.setHart k x).incarnation = s.incarnation := rfl
@[simp] theorem State.setHart_recovery (s : State) (k : Nat) (x : Hart) : (s.setHart k x).recovery = s.recovery := rfl
@[simp] theorem State.setHart_firmware (s : State) (k : Nat) (x : Hart) : (s.setHart k x).firmware = s.firmware := rfl
@[simp] theorem State.setHart_staged (s : State) (k : Nat) (x : Hart) : (s.setHart k x).staged = s.staged := rfl
@[simp] theorem State.setHart_nvScores (s : State) (k : Nat) (x : Hart) : (s.setHart k x).nvScores = s.nvScores := rfl
@[simp] theorem State.setHart_pcbase (s : State) (k : Nat) (x : Hart) : (s.setHart k x).pcbase = s.pcbase := rfl
@[simp] theorem State.setHart_pcsize (s : State) (k : Nat) (x : Hart) : (s.setHart k x).pcsize = s.pcsize := rfl
@[simp] theorem State.setHart_pchead (s : State) (k : Nat) (x : Hart) : (s.setHart k x).pchead = s.pchead := rfl
@[simp] theorem State.setHart_pctail (s : State) (k : Nat) (x : Hart) : (s.setHart k x).pctail = s.pctail := rfl
@[simp] theorem State.setHart_pcmds (s : State) (k : Nat) (x : Hart) : (s.setHart k x).pcmds = s.pcmds := rfl
@[simp] theorem State.setHart_wbase (s : State) (k : Nat) (x : Hart) : (s.setHart k x).wbase = s.wbase := rfl
@[simp] theorem State.setHart_obase (s : State) (k : Nat) (x : Hart) : (s.setHart k x).obase = s.obase := rfl
@[simp] theorem State.setHart_bar2Size (s : State) (k : Nat) (x : Hart) : (s.setHart k x).bar2Size = s.bar2Size := rfl
@[simp] theorem State.setHart_mailbox (s : State) (k : Nat) (x : Hart) : (s.setHart k x).mailbox = s.mailbox := rfl
@[simp] theorem State.setHart_windows (s : State) (k : Nat) (x : Hart) : (s.setHart k x).windows = s.windows := rfl
@[simp] theorem State.setHart_ports (s : State) (k : Nat) (x : Hart) : (s.setHart k x).ports = s.ports := rfl
@[simp] theorem State.setHart_outFlits (s : State) (k : Nat) (x : Hart) : (s.setHart k x).outFlits = s.outFlits := rfl
@[simp] theorem State.setHart_outWrites (s : State) (k : Nat) (x : Hart) : (s.setHart k x).outWrites = s.outWrites := rfl
@[simp] theorem State.setHart_outReads (s : State) (k : Nat) (x : Hart) : (s.setHart k x).outReads = s.outReads := rfl
@[simp] theorem State.setHart_busFail (s : State) (k : Nat) (x : Hart) : (s.setHart k x).busFail = s.busFail := rfl
@[simp] theorem State.setHart_repairs (s : State) (k : Nat) (x : Hart) : (s.setHart k x).repairs = s.repairs := rfl
@[simp] theorem State.setHart_copying (s : State) (k : Nat) (x : Hart) : (s.setHart k x).copying = s.copying := rfl
@[simp] theorem State.setHart_retiredBus (s : State) (k : Nat) (x : Hart) : (s.setHart k x).retiredBus = s.retiredBus := rfl
@[simp] theorem State.setHart_lostChan (s : State) (k : Nat) (x : Hart) : (s.setHart k x).lostChan = s.lostChan := rfl
@[simp] theorem State.setHart_telemetry (s : State) (k : Nat) (x : Hart) : (s.setHart k x).telemetry = s.telemetry := rfl
@[simp] theorem State.setHart_samples (s : State) (k : Nat) (x : Hart) : (s.setHart k x).samples = s.samples := rfl
@[simp] theorem State.setHart_replies (s : State) (k : Nat) (x : Hart) : (s.setHart k x).replies = s.replies := rfl
@[simp] theorem State.setHart_agenda (s : State) (k : Nat) (x : Hart) : (s.setHart k x).agenda = s.agenda := rfl
@[simp] theorem State.setHart_frames (s : State) (k : Nat) (x : Hart) : (s.setHart k x).frames = s.frames := rfl
@[simp] theorem State.setHart_clock (s : State) (k : Nat) (x : Hart) : (s.setHart k x).clock = s.clock := rfl
@[simp] theorem State.setHart_fresh (s : State) (k : Nat) (x : Hart) : (s.setHart k x).fresh = s.fresh := rfl

@[simp] theorem State.setMe_mem (s : State) (x : Hart) : (s.setMe x).mem = s.mem := rfl
@[simp] theorem State.setMe_poison (s : State) (x : Hart) : (s.setMe x).poison = s.poison := rfl
@[simp] theorem State.setMe_cur (s : State) (x : Hart) : (s.setMe x).cur = s.cur := rfl
@[simp] theorem State.setMe_cores (s : State) (x : Hart) : (s.setMe x).cores = s.cores := rfl
@[simp] theorem State.setMe_dies (s : State) (x : Hart) : (s.setMe x).dies = s.dies := rfl
@[simp] theorem State.setMe_ctxs (s : State) (x : Hart) : (s.setMe x).ctxs = s.ctxs := rfl
@[simp] theorem State.setMe_queues (s : State) (x : Hart) : (s.setMe x).queues = s.queues := rfl
@[simp] theorem State.setMe_launches (s : State) (x : Hart) : (s.setMe x).launches = s.launches := rfl
@[simp] theorem State.setMe_gangs (s : State) (x : Hart) : (s.setMe x).gangs = s.gangs := rfl
@[simp] theorem State.setMe_nextLaunch (s : State) (x : Hart) : (s.setMe x).nextLaunch = s.nextLaunch := rfl
@[simp] theorem State.setMe_nextGang (s : State) (x : Hart) : (s.setMe x).nextGang = s.nextGang := rfl
@[simp] theorem State.setMe_rr (s : State) (x : Hart) : (s.setMe x).rr = s.rr := rfl
@[simp] theorem State.setMe_preempting (s : State) (x : Hart) : (s.setMe x).preempting = s.preempting := rfl
@[simp] theorem State.setMe_hints (s : State) (x : Hart) : (s.setMe x).hints = s.hints := rfl
@[simp] theorem State.setMe_posts (s : State) (x : Hart) : (s.setMe x).posts = s.posts := rfl
@[simp] theorem State.setMe_featacc (s : State) (x : Hart) : (s.setMe x).featacc = s.featacc := rfl
@[simp] theorem State.setMe_opened (s : State) (x : Hart) : (s.setMe x).opened = s.opened := rfl
@[simp] theorem State.setMe_pwrcap (s : State) (x : Hart) : (s.setMe x).pwrcap = s.pwrcap := rfl
@[simp] theorem State.setMe_capNow (s : State) (x : Hart) : (s.setMe x).capNow = s.capNow := rfl
@[simp] theorem State.setMe_hot (s : State) (x : Hart) : (s.setMe x).hot = s.hot := rfl
@[simp] theorem State.setMe_under (s : State) (x : Hart) : (s.setMe x).under = s.under := rfl
@[simp] theorem State.setMe_throttle (s : State) (x : Hart) : (s.setMe x).throttle = s.throttle := rfl
@[simp] theorem State.setMe_nodeId (s : State) (x : Hart) : (s.setMe x).nodeId = s.nodeId := rfl
@[simp] theorem State.setMe_nodeSet (s : State) (x : Hart) : (s.setMe x).nodeSet = s.nodeSet := rfl
@[simp] theorem State.setMe_incarnation (s : State) (x : Hart) : (s.setMe x).incarnation = s.incarnation := rfl
@[simp] theorem State.setMe_recovery (s : State) (x : Hart) : (s.setMe x).recovery = s.recovery := rfl
@[simp] theorem State.setMe_firmware (s : State) (x : Hart) : (s.setMe x).firmware = s.firmware := rfl
@[simp] theorem State.setMe_staged (s : State) (x : Hart) : (s.setMe x).staged = s.staged := rfl
@[simp] theorem State.setMe_nvScores (s : State) (x : Hart) : (s.setMe x).nvScores = s.nvScores := rfl
@[simp] theorem State.setMe_pcbase (s : State) (x : Hart) : (s.setMe x).pcbase = s.pcbase := rfl
@[simp] theorem State.setMe_pcsize (s : State) (x : Hart) : (s.setMe x).pcsize = s.pcsize := rfl
@[simp] theorem State.setMe_pchead (s : State) (x : Hart) : (s.setMe x).pchead = s.pchead := rfl
@[simp] theorem State.setMe_pctail (s : State) (x : Hart) : (s.setMe x).pctail = s.pctail := rfl
@[simp] theorem State.setMe_pcmds (s : State) (x : Hart) : (s.setMe x).pcmds = s.pcmds := rfl
@[simp] theorem State.setMe_wbase (s : State) (x : Hart) : (s.setMe x).wbase = s.wbase := rfl
@[simp] theorem State.setMe_obase (s : State) (x : Hart) : (s.setMe x).obase = s.obase := rfl
@[simp] theorem State.setMe_bar2Size (s : State) (x : Hart) : (s.setMe x).bar2Size = s.bar2Size := rfl
@[simp] theorem State.setMe_mailbox (s : State) (x : Hart) : (s.setMe x).mailbox = s.mailbox := rfl
@[simp] theorem State.setMe_windows (s : State) (x : Hart) : (s.setMe x).windows = s.windows := rfl
@[simp] theorem State.setMe_ports (s : State) (x : Hart) : (s.setMe x).ports = s.ports := rfl
@[simp] theorem State.setMe_outFlits (s : State) (x : Hart) : (s.setMe x).outFlits = s.outFlits := rfl
@[simp] theorem State.setMe_outWrites (s : State) (x : Hart) : (s.setMe x).outWrites = s.outWrites := rfl
@[simp] theorem State.setMe_outReads (s : State) (x : Hart) : (s.setMe x).outReads = s.outReads := rfl
@[simp] theorem State.setMe_busFail (s : State) (x : Hart) : (s.setMe x).busFail = s.busFail := rfl
@[simp] theorem State.setMe_repairs (s : State) (x : Hart) : (s.setMe x).repairs = s.repairs := rfl
@[simp] theorem State.setMe_copying (s : State) (x : Hart) : (s.setMe x).copying = s.copying := rfl
@[simp] theorem State.setMe_retiredBus (s : State) (x : Hart) : (s.setMe x).retiredBus = s.retiredBus := rfl
@[simp] theorem State.setMe_lostChan (s : State) (x : Hart) : (s.setMe x).lostChan = s.lostChan := rfl
@[simp] theorem State.setMe_telemetry (s : State) (x : Hart) : (s.setMe x).telemetry = s.telemetry := rfl
@[simp] theorem State.setMe_samples (s : State) (x : Hart) : (s.setMe x).samples = s.samples := rfl
@[simp] theorem State.setMe_replies (s : State) (x : Hart) : (s.setMe x).replies = s.replies := rfl
@[simp] theorem State.setMe_agenda (s : State) (x : Hart) : (s.setMe x).agenda = s.agenda := rfl
@[simp] theorem State.setMe_frames (s : State) (x : Hart) : (s.setMe x).frames = s.frames := rfl
@[simp] theorem State.setMe_clock (s : State) (x : Hart) : (s.setMe x).clock = s.clock := rfl
@[simp] theorem State.setMe_fresh (s : State) (x : Hart) : (s.setMe x).fresh = s.fresh := rfl

@[simp] theorem State.setCore_mem (s : State) (k : Nat) (x : Core) : (s.setCore k x).mem = s.mem := rfl
@[simp] theorem State.setCore_poison (s : State) (k : Nat) (x : Core) : (s.setCore k x).poison = s.poison := rfl
@[simp] theorem State.setCore_harts (s : State) (k : Nat) (x : Core) : (s.setCore k x).harts = s.harts := rfl
@[simp] theorem State.setCore_cur (s : State) (k : Nat) (x : Core) : (s.setCore k x).cur = s.cur := rfl
@[simp] theorem State.setCore_dies (s : State) (k : Nat) (x : Core) : (s.setCore k x).dies = s.dies := rfl
@[simp] theorem State.setCore_ctxs (s : State) (k : Nat) (x : Core) : (s.setCore k x).ctxs = s.ctxs := rfl
@[simp] theorem State.setCore_queues (s : State) (k : Nat) (x : Core) : (s.setCore k x).queues = s.queues := rfl
@[simp] theorem State.setCore_launches (s : State) (k : Nat) (x : Core) : (s.setCore k x).launches = s.launches := rfl
@[simp] theorem State.setCore_gangs (s : State) (k : Nat) (x : Core) : (s.setCore k x).gangs = s.gangs := rfl
@[simp] theorem State.setCore_nextLaunch (s : State) (k : Nat) (x : Core) : (s.setCore k x).nextLaunch = s.nextLaunch := rfl
@[simp] theorem State.setCore_nextGang (s : State) (k : Nat) (x : Core) : (s.setCore k x).nextGang = s.nextGang := rfl
@[simp] theorem State.setCore_rr (s : State) (k : Nat) (x : Core) : (s.setCore k x).rr = s.rr := rfl
@[simp] theorem State.setCore_preempting (s : State) (k : Nat) (x : Core) : (s.setCore k x).preempting = s.preempting := rfl
@[simp] theorem State.setCore_hints (s : State) (k : Nat) (x : Core) : (s.setCore k x).hints = s.hints := rfl
@[simp] theorem State.setCore_posts (s : State) (k : Nat) (x : Core) : (s.setCore k x).posts = s.posts := rfl
@[simp] theorem State.setCore_featacc (s : State) (k : Nat) (x : Core) : (s.setCore k x).featacc = s.featacc := rfl
@[simp] theorem State.setCore_opened (s : State) (k : Nat) (x : Core) : (s.setCore k x).opened = s.opened := rfl
@[simp] theorem State.setCore_pwrcap (s : State) (k : Nat) (x : Core) : (s.setCore k x).pwrcap = s.pwrcap := rfl
@[simp] theorem State.setCore_capNow (s : State) (k : Nat) (x : Core) : (s.setCore k x).capNow = s.capNow := rfl
@[simp] theorem State.setCore_hot (s : State) (k : Nat) (x : Core) : (s.setCore k x).hot = s.hot := rfl
@[simp] theorem State.setCore_under (s : State) (k : Nat) (x : Core) : (s.setCore k x).under = s.under := rfl
@[simp] theorem State.setCore_throttle (s : State) (k : Nat) (x : Core) : (s.setCore k x).throttle = s.throttle := rfl
@[simp] theorem State.setCore_nodeId (s : State) (k : Nat) (x : Core) : (s.setCore k x).nodeId = s.nodeId := rfl
@[simp] theorem State.setCore_nodeSet (s : State) (k : Nat) (x : Core) : (s.setCore k x).nodeSet = s.nodeSet := rfl
@[simp] theorem State.setCore_incarnation (s : State) (k : Nat) (x : Core) : (s.setCore k x).incarnation = s.incarnation := rfl
@[simp] theorem State.setCore_recovery (s : State) (k : Nat) (x : Core) : (s.setCore k x).recovery = s.recovery := rfl
@[simp] theorem State.setCore_firmware (s : State) (k : Nat) (x : Core) : (s.setCore k x).firmware = s.firmware := rfl
@[simp] theorem State.setCore_staged (s : State) (k : Nat) (x : Core) : (s.setCore k x).staged = s.staged := rfl
@[simp] theorem State.setCore_nvScores (s : State) (k : Nat) (x : Core) : (s.setCore k x).nvScores = s.nvScores := rfl
@[simp] theorem State.setCore_pcbase (s : State) (k : Nat) (x : Core) : (s.setCore k x).pcbase = s.pcbase := rfl
@[simp] theorem State.setCore_pcsize (s : State) (k : Nat) (x : Core) : (s.setCore k x).pcsize = s.pcsize := rfl
@[simp] theorem State.setCore_pchead (s : State) (k : Nat) (x : Core) : (s.setCore k x).pchead = s.pchead := rfl
@[simp] theorem State.setCore_pctail (s : State) (k : Nat) (x : Core) : (s.setCore k x).pctail = s.pctail := rfl
@[simp] theorem State.setCore_pcmds (s : State) (k : Nat) (x : Core) : (s.setCore k x).pcmds = s.pcmds := rfl
@[simp] theorem State.setCore_wbase (s : State) (k : Nat) (x : Core) : (s.setCore k x).wbase = s.wbase := rfl
@[simp] theorem State.setCore_obase (s : State) (k : Nat) (x : Core) : (s.setCore k x).obase = s.obase := rfl
@[simp] theorem State.setCore_bar2Size (s : State) (k : Nat) (x : Core) : (s.setCore k x).bar2Size = s.bar2Size := rfl
@[simp] theorem State.setCore_mailbox (s : State) (k : Nat) (x : Core) : (s.setCore k x).mailbox = s.mailbox := rfl
@[simp] theorem State.setCore_windows (s : State) (k : Nat) (x : Core) : (s.setCore k x).windows = s.windows := rfl
@[simp] theorem State.setCore_ports (s : State) (k : Nat) (x : Core) : (s.setCore k x).ports = s.ports := rfl
@[simp] theorem State.setCore_outFlits (s : State) (k : Nat) (x : Core) : (s.setCore k x).outFlits = s.outFlits := rfl
@[simp] theorem State.setCore_outWrites (s : State) (k : Nat) (x : Core) : (s.setCore k x).outWrites = s.outWrites := rfl
@[simp] theorem State.setCore_outReads (s : State) (k : Nat) (x : Core) : (s.setCore k x).outReads = s.outReads := rfl
@[simp] theorem State.setCore_busFail (s : State) (k : Nat) (x : Core) : (s.setCore k x).busFail = s.busFail := rfl
@[simp] theorem State.setCore_repairs (s : State) (k : Nat) (x : Core) : (s.setCore k x).repairs = s.repairs := rfl
@[simp] theorem State.setCore_copying (s : State) (k : Nat) (x : Core) : (s.setCore k x).copying = s.copying := rfl
@[simp] theorem State.setCore_retiredBus (s : State) (k : Nat) (x : Core) : (s.setCore k x).retiredBus = s.retiredBus := rfl
@[simp] theorem State.setCore_lostChan (s : State) (k : Nat) (x : Core) : (s.setCore k x).lostChan = s.lostChan := rfl
@[simp] theorem State.setCore_telemetry (s : State) (k : Nat) (x : Core) : (s.setCore k x).telemetry = s.telemetry := rfl
@[simp] theorem State.setCore_samples (s : State) (k : Nat) (x : Core) : (s.setCore k x).samples = s.samples := rfl
@[simp] theorem State.setCore_replies (s : State) (k : Nat) (x : Core) : (s.setCore k x).replies = s.replies := rfl
@[simp] theorem State.setCore_agenda (s : State) (k : Nat) (x : Core) : (s.setCore k x).agenda = s.agenda := rfl
@[simp] theorem State.setCore_frames (s : State) (k : Nat) (x : Core) : (s.setCore k x).frames = s.frames := rfl
@[simp] theorem State.setCore_clock (s : State) (k : Nat) (x : Core) : (s.setCore k x).clock = s.clock := rfl
@[simp] theorem State.setCore_fresh (s : State) (k : Nat) (x : Core) : (s.setCore k x).fresh = s.fresh := rfl

@[simp] theorem State.setDie_mem (s : State) (k : Nat) (x : Die) : (s.setDie k x).mem = s.mem := rfl
@[simp] theorem State.setDie_poison (s : State) (k : Nat) (x : Die) : (s.setDie k x).poison = s.poison := rfl
@[simp] theorem State.setDie_harts (s : State) (k : Nat) (x : Die) : (s.setDie k x).harts = s.harts := rfl
@[simp] theorem State.setDie_cur (s : State) (k : Nat) (x : Die) : (s.setDie k x).cur = s.cur := rfl
@[simp] theorem State.setDie_cores (s : State) (k : Nat) (x : Die) : (s.setDie k x).cores = s.cores := rfl
@[simp] theorem State.setDie_ctxs (s : State) (k : Nat) (x : Die) : (s.setDie k x).ctxs = s.ctxs := rfl
@[simp] theorem State.setDie_queues (s : State) (k : Nat) (x : Die) : (s.setDie k x).queues = s.queues := rfl
@[simp] theorem State.setDie_launches (s : State) (k : Nat) (x : Die) : (s.setDie k x).launches = s.launches := rfl
@[simp] theorem State.setDie_gangs (s : State) (k : Nat) (x : Die) : (s.setDie k x).gangs = s.gangs := rfl
@[simp] theorem State.setDie_nextLaunch (s : State) (k : Nat) (x : Die) : (s.setDie k x).nextLaunch = s.nextLaunch := rfl
@[simp] theorem State.setDie_nextGang (s : State) (k : Nat) (x : Die) : (s.setDie k x).nextGang = s.nextGang := rfl
@[simp] theorem State.setDie_rr (s : State) (k : Nat) (x : Die) : (s.setDie k x).rr = s.rr := rfl
@[simp] theorem State.setDie_preempting (s : State) (k : Nat) (x : Die) : (s.setDie k x).preempting = s.preempting := rfl
@[simp] theorem State.setDie_hints (s : State) (k : Nat) (x : Die) : (s.setDie k x).hints = s.hints := rfl
@[simp] theorem State.setDie_posts (s : State) (k : Nat) (x : Die) : (s.setDie k x).posts = s.posts := rfl
@[simp] theorem State.setDie_featacc (s : State) (k : Nat) (x : Die) : (s.setDie k x).featacc = s.featacc := rfl
@[simp] theorem State.setDie_opened (s : State) (k : Nat) (x : Die) : (s.setDie k x).opened = s.opened := rfl
@[simp] theorem State.setDie_pwrcap (s : State) (k : Nat) (x : Die) : (s.setDie k x).pwrcap = s.pwrcap := rfl
@[simp] theorem State.setDie_capNow (s : State) (k : Nat) (x : Die) : (s.setDie k x).capNow = s.capNow := rfl
@[simp] theorem State.setDie_hot (s : State) (k : Nat) (x : Die) : (s.setDie k x).hot = s.hot := rfl
@[simp] theorem State.setDie_under (s : State) (k : Nat) (x : Die) : (s.setDie k x).under = s.under := rfl
@[simp] theorem State.setDie_throttle (s : State) (k : Nat) (x : Die) : (s.setDie k x).throttle = s.throttle := rfl
@[simp] theorem State.setDie_nodeId (s : State) (k : Nat) (x : Die) : (s.setDie k x).nodeId = s.nodeId := rfl
@[simp] theorem State.setDie_nodeSet (s : State) (k : Nat) (x : Die) : (s.setDie k x).nodeSet = s.nodeSet := rfl
@[simp] theorem State.setDie_incarnation (s : State) (k : Nat) (x : Die) : (s.setDie k x).incarnation = s.incarnation := rfl
@[simp] theorem State.setDie_recovery (s : State) (k : Nat) (x : Die) : (s.setDie k x).recovery = s.recovery := rfl
@[simp] theorem State.setDie_firmware (s : State) (k : Nat) (x : Die) : (s.setDie k x).firmware = s.firmware := rfl
@[simp] theorem State.setDie_staged (s : State) (k : Nat) (x : Die) : (s.setDie k x).staged = s.staged := rfl
@[simp] theorem State.setDie_nvScores (s : State) (k : Nat) (x : Die) : (s.setDie k x).nvScores = s.nvScores := rfl
@[simp] theorem State.setDie_pcbase (s : State) (k : Nat) (x : Die) : (s.setDie k x).pcbase = s.pcbase := rfl
@[simp] theorem State.setDie_pcsize (s : State) (k : Nat) (x : Die) : (s.setDie k x).pcsize = s.pcsize := rfl
@[simp] theorem State.setDie_pchead (s : State) (k : Nat) (x : Die) : (s.setDie k x).pchead = s.pchead := rfl
@[simp] theorem State.setDie_pctail (s : State) (k : Nat) (x : Die) : (s.setDie k x).pctail = s.pctail := rfl
@[simp] theorem State.setDie_pcmds (s : State) (k : Nat) (x : Die) : (s.setDie k x).pcmds = s.pcmds := rfl
@[simp] theorem State.setDie_wbase (s : State) (k : Nat) (x : Die) : (s.setDie k x).wbase = s.wbase := rfl
@[simp] theorem State.setDie_obase (s : State) (k : Nat) (x : Die) : (s.setDie k x).obase = s.obase := rfl
@[simp] theorem State.setDie_bar2Size (s : State) (k : Nat) (x : Die) : (s.setDie k x).bar2Size = s.bar2Size := rfl
@[simp] theorem State.setDie_mailbox (s : State) (k : Nat) (x : Die) : (s.setDie k x).mailbox = s.mailbox := rfl
@[simp] theorem State.setDie_windows (s : State) (k : Nat) (x : Die) : (s.setDie k x).windows = s.windows := rfl
@[simp] theorem State.setDie_ports (s : State) (k : Nat) (x : Die) : (s.setDie k x).ports = s.ports := rfl
@[simp] theorem State.setDie_outFlits (s : State) (k : Nat) (x : Die) : (s.setDie k x).outFlits = s.outFlits := rfl
@[simp] theorem State.setDie_outWrites (s : State) (k : Nat) (x : Die) : (s.setDie k x).outWrites = s.outWrites := rfl
@[simp] theorem State.setDie_outReads (s : State) (k : Nat) (x : Die) : (s.setDie k x).outReads = s.outReads := rfl
@[simp] theorem State.setDie_busFail (s : State) (k : Nat) (x : Die) : (s.setDie k x).busFail = s.busFail := rfl
@[simp] theorem State.setDie_repairs (s : State) (k : Nat) (x : Die) : (s.setDie k x).repairs = s.repairs := rfl
@[simp] theorem State.setDie_copying (s : State) (k : Nat) (x : Die) : (s.setDie k x).copying = s.copying := rfl
@[simp] theorem State.setDie_retiredBus (s : State) (k : Nat) (x : Die) : (s.setDie k x).retiredBus = s.retiredBus := rfl
@[simp] theorem State.setDie_lostChan (s : State) (k : Nat) (x : Die) : (s.setDie k x).lostChan = s.lostChan := rfl
@[simp] theorem State.setDie_telemetry (s : State) (k : Nat) (x : Die) : (s.setDie k x).telemetry = s.telemetry := rfl
@[simp] theorem State.setDie_samples (s : State) (k : Nat) (x : Die) : (s.setDie k x).samples = s.samples := rfl
@[simp] theorem State.setDie_replies (s : State) (k : Nat) (x : Die) : (s.setDie k x).replies = s.replies := rfl
@[simp] theorem State.setDie_agenda (s : State) (k : Nat) (x : Die) : (s.setDie k x).agenda = s.agenda := rfl
@[simp] theorem State.setDie_frames (s : State) (k : Nat) (x : Die) : (s.setDie k x).frames = s.frames := rfl
@[simp] theorem State.setDie_clock (s : State) (k : Nat) (x : Die) : (s.setDie k x).clock = s.clock := rfl
@[simp] theorem State.setDie_fresh (s : State) (k : Nat) (x : Die) : (s.setDie k x).fresh = s.fresh := rfl

@[simp] theorem State.setCtx_mem (s : State) (k : Nat) (x : Ctx) : (s.setCtx k x).mem = s.mem := rfl
@[simp] theorem State.setCtx_poison (s : State) (k : Nat) (x : Ctx) : (s.setCtx k x).poison = s.poison := rfl
@[simp] theorem State.setCtx_harts (s : State) (k : Nat) (x : Ctx) : (s.setCtx k x).harts = s.harts := rfl
@[simp] theorem State.setCtx_cur (s : State) (k : Nat) (x : Ctx) : (s.setCtx k x).cur = s.cur := rfl
@[simp] theorem State.setCtx_cores (s : State) (k : Nat) (x : Ctx) : (s.setCtx k x).cores = s.cores := rfl
@[simp] theorem State.setCtx_dies (s : State) (k : Nat) (x : Ctx) : (s.setCtx k x).dies = s.dies := rfl
@[simp] theorem State.setCtx_queues (s : State) (k : Nat) (x : Ctx) : (s.setCtx k x).queues = s.queues := rfl
@[simp] theorem State.setCtx_launches (s : State) (k : Nat) (x : Ctx) : (s.setCtx k x).launches = s.launches := rfl
@[simp] theorem State.setCtx_gangs (s : State) (k : Nat) (x : Ctx) : (s.setCtx k x).gangs = s.gangs := rfl
@[simp] theorem State.setCtx_nextLaunch (s : State) (k : Nat) (x : Ctx) : (s.setCtx k x).nextLaunch = s.nextLaunch := rfl
@[simp] theorem State.setCtx_nextGang (s : State) (k : Nat) (x : Ctx) : (s.setCtx k x).nextGang = s.nextGang := rfl
@[simp] theorem State.setCtx_rr (s : State) (k : Nat) (x : Ctx) : (s.setCtx k x).rr = s.rr := rfl
@[simp] theorem State.setCtx_preempting (s : State) (k : Nat) (x : Ctx) : (s.setCtx k x).preempting = s.preempting := rfl
@[simp] theorem State.setCtx_hints (s : State) (k : Nat) (x : Ctx) : (s.setCtx k x).hints = s.hints := rfl
@[simp] theorem State.setCtx_posts (s : State) (k : Nat) (x : Ctx) : (s.setCtx k x).posts = s.posts := rfl
@[simp] theorem State.setCtx_featacc (s : State) (k : Nat) (x : Ctx) : (s.setCtx k x).featacc = s.featacc := rfl
@[simp] theorem State.setCtx_opened (s : State) (k : Nat) (x : Ctx) : (s.setCtx k x).opened = s.opened := rfl
@[simp] theorem State.setCtx_pwrcap (s : State) (k : Nat) (x : Ctx) : (s.setCtx k x).pwrcap = s.pwrcap := rfl
@[simp] theorem State.setCtx_capNow (s : State) (k : Nat) (x : Ctx) : (s.setCtx k x).capNow = s.capNow := rfl
@[simp] theorem State.setCtx_hot (s : State) (k : Nat) (x : Ctx) : (s.setCtx k x).hot = s.hot := rfl
@[simp] theorem State.setCtx_under (s : State) (k : Nat) (x : Ctx) : (s.setCtx k x).under = s.under := rfl
@[simp] theorem State.setCtx_throttle (s : State) (k : Nat) (x : Ctx) : (s.setCtx k x).throttle = s.throttle := rfl
@[simp] theorem State.setCtx_nodeId (s : State) (k : Nat) (x : Ctx) : (s.setCtx k x).nodeId = s.nodeId := rfl
@[simp] theorem State.setCtx_nodeSet (s : State) (k : Nat) (x : Ctx) : (s.setCtx k x).nodeSet = s.nodeSet := rfl
@[simp] theorem State.setCtx_incarnation (s : State) (k : Nat) (x : Ctx) : (s.setCtx k x).incarnation = s.incarnation := rfl
@[simp] theorem State.setCtx_recovery (s : State) (k : Nat) (x : Ctx) : (s.setCtx k x).recovery = s.recovery := rfl
@[simp] theorem State.setCtx_firmware (s : State) (k : Nat) (x : Ctx) : (s.setCtx k x).firmware = s.firmware := rfl
@[simp] theorem State.setCtx_staged (s : State) (k : Nat) (x : Ctx) : (s.setCtx k x).staged = s.staged := rfl
@[simp] theorem State.setCtx_nvScores (s : State) (k : Nat) (x : Ctx) : (s.setCtx k x).nvScores = s.nvScores := rfl
@[simp] theorem State.setCtx_pcbase (s : State) (k : Nat) (x : Ctx) : (s.setCtx k x).pcbase = s.pcbase := rfl
@[simp] theorem State.setCtx_pcsize (s : State) (k : Nat) (x : Ctx) : (s.setCtx k x).pcsize = s.pcsize := rfl
@[simp] theorem State.setCtx_pchead (s : State) (k : Nat) (x : Ctx) : (s.setCtx k x).pchead = s.pchead := rfl
@[simp] theorem State.setCtx_pctail (s : State) (k : Nat) (x : Ctx) : (s.setCtx k x).pctail = s.pctail := rfl
@[simp] theorem State.setCtx_pcmds (s : State) (k : Nat) (x : Ctx) : (s.setCtx k x).pcmds = s.pcmds := rfl
@[simp] theorem State.setCtx_wbase (s : State) (k : Nat) (x : Ctx) : (s.setCtx k x).wbase = s.wbase := rfl
@[simp] theorem State.setCtx_obase (s : State) (k : Nat) (x : Ctx) : (s.setCtx k x).obase = s.obase := rfl
@[simp] theorem State.setCtx_bar2Size (s : State) (k : Nat) (x : Ctx) : (s.setCtx k x).bar2Size = s.bar2Size := rfl
@[simp] theorem State.setCtx_mailbox (s : State) (k : Nat) (x : Ctx) : (s.setCtx k x).mailbox = s.mailbox := rfl
@[simp] theorem State.setCtx_windows (s : State) (k : Nat) (x : Ctx) : (s.setCtx k x).windows = s.windows := rfl
@[simp] theorem State.setCtx_ports (s : State) (k : Nat) (x : Ctx) : (s.setCtx k x).ports = s.ports := rfl
@[simp] theorem State.setCtx_outFlits (s : State) (k : Nat) (x : Ctx) : (s.setCtx k x).outFlits = s.outFlits := rfl
@[simp] theorem State.setCtx_outWrites (s : State) (k : Nat) (x : Ctx) : (s.setCtx k x).outWrites = s.outWrites := rfl
@[simp] theorem State.setCtx_outReads (s : State) (k : Nat) (x : Ctx) : (s.setCtx k x).outReads = s.outReads := rfl
@[simp] theorem State.setCtx_busFail (s : State) (k : Nat) (x : Ctx) : (s.setCtx k x).busFail = s.busFail := rfl
@[simp] theorem State.setCtx_repairs (s : State) (k : Nat) (x : Ctx) : (s.setCtx k x).repairs = s.repairs := rfl
@[simp] theorem State.setCtx_copying (s : State) (k : Nat) (x : Ctx) : (s.setCtx k x).copying = s.copying := rfl
@[simp] theorem State.setCtx_retiredBus (s : State) (k : Nat) (x : Ctx) : (s.setCtx k x).retiredBus = s.retiredBus := rfl
@[simp] theorem State.setCtx_lostChan (s : State) (k : Nat) (x : Ctx) : (s.setCtx k x).lostChan = s.lostChan := rfl
@[simp] theorem State.setCtx_telemetry (s : State) (k : Nat) (x : Ctx) : (s.setCtx k x).telemetry = s.telemetry := rfl
@[simp] theorem State.setCtx_samples (s : State) (k : Nat) (x : Ctx) : (s.setCtx k x).samples = s.samples := rfl
@[simp] theorem State.setCtx_replies (s : State) (k : Nat) (x : Ctx) : (s.setCtx k x).replies = s.replies := rfl
@[simp] theorem State.setCtx_agenda (s : State) (k : Nat) (x : Ctx) : (s.setCtx k x).agenda = s.agenda := rfl
@[simp] theorem State.setCtx_frames (s : State) (k : Nat) (x : Ctx) : (s.setCtx k x).frames = s.frames := rfl
@[simp] theorem State.setCtx_clock (s : State) (k : Nat) (x : Ctx) : (s.setCtx k x).clock = s.clock := rfl
@[simp] theorem State.setCtx_fresh (s : State) (k : Nat) (x : Ctx) : (s.setCtx k x).fresh = s.fresh := rfl

@[simp] theorem State.setQueue_mem (s : State) (k : Nat) (x : Queue) : (s.setQueue k x).mem = s.mem := rfl
@[simp] theorem State.setQueue_poison (s : State) (k : Nat) (x : Queue) : (s.setQueue k x).poison = s.poison := rfl
@[simp] theorem State.setQueue_harts (s : State) (k : Nat) (x : Queue) : (s.setQueue k x).harts = s.harts := rfl
@[simp] theorem State.setQueue_cur (s : State) (k : Nat) (x : Queue) : (s.setQueue k x).cur = s.cur := rfl
@[simp] theorem State.setQueue_cores (s : State) (k : Nat) (x : Queue) : (s.setQueue k x).cores = s.cores := rfl
@[simp] theorem State.setQueue_dies (s : State) (k : Nat) (x : Queue) : (s.setQueue k x).dies = s.dies := rfl
@[simp] theorem State.setQueue_ctxs (s : State) (k : Nat) (x : Queue) : (s.setQueue k x).ctxs = s.ctxs := rfl
@[simp] theorem State.setQueue_launches (s : State) (k : Nat) (x : Queue) : (s.setQueue k x).launches = s.launches := rfl
@[simp] theorem State.setQueue_gangs (s : State) (k : Nat) (x : Queue) : (s.setQueue k x).gangs = s.gangs := rfl
@[simp] theorem State.setQueue_nextLaunch (s : State) (k : Nat) (x : Queue) : (s.setQueue k x).nextLaunch = s.nextLaunch := rfl
@[simp] theorem State.setQueue_nextGang (s : State) (k : Nat) (x : Queue) : (s.setQueue k x).nextGang = s.nextGang := rfl
@[simp] theorem State.setQueue_rr (s : State) (k : Nat) (x : Queue) : (s.setQueue k x).rr = s.rr := rfl
@[simp] theorem State.setQueue_preempting (s : State) (k : Nat) (x : Queue) : (s.setQueue k x).preempting = s.preempting := rfl
@[simp] theorem State.setQueue_hints (s : State) (k : Nat) (x : Queue) : (s.setQueue k x).hints = s.hints := rfl
@[simp] theorem State.setQueue_posts (s : State) (k : Nat) (x : Queue) : (s.setQueue k x).posts = s.posts := rfl
@[simp] theorem State.setQueue_featacc (s : State) (k : Nat) (x : Queue) : (s.setQueue k x).featacc = s.featacc := rfl
@[simp] theorem State.setQueue_opened (s : State) (k : Nat) (x : Queue) : (s.setQueue k x).opened = s.opened := rfl
@[simp] theorem State.setQueue_pwrcap (s : State) (k : Nat) (x : Queue) : (s.setQueue k x).pwrcap = s.pwrcap := rfl
@[simp] theorem State.setQueue_capNow (s : State) (k : Nat) (x : Queue) : (s.setQueue k x).capNow = s.capNow := rfl
@[simp] theorem State.setQueue_hot (s : State) (k : Nat) (x : Queue) : (s.setQueue k x).hot = s.hot := rfl
@[simp] theorem State.setQueue_under (s : State) (k : Nat) (x : Queue) : (s.setQueue k x).under = s.under := rfl
@[simp] theorem State.setQueue_throttle (s : State) (k : Nat) (x : Queue) : (s.setQueue k x).throttle = s.throttle := rfl
@[simp] theorem State.setQueue_nodeId (s : State) (k : Nat) (x : Queue) : (s.setQueue k x).nodeId = s.nodeId := rfl
@[simp] theorem State.setQueue_nodeSet (s : State) (k : Nat) (x : Queue) : (s.setQueue k x).nodeSet = s.nodeSet := rfl
@[simp] theorem State.setQueue_incarnation (s : State) (k : Nat) (x : Queue) : (s.setQueue k x).incarnation = s.incarnation := rfl
@[simp] theorem State.setQueue_recovery (s : State) (k : Nat) (x : Queue) : (s.setQueue k x).recovery = s.recovery := rfl
@[simp] theorem State.setQueue_firmware (s : State) (k : Nat) (x : Queue) : (s.setQueue k x).firmware = s.firmware := rfl
@[simp] theorem State.setQueue_staged (s : State) (k : Nat) (x : Queue) : (s.setQueue k x).staged = s.staged := rfl
@[simp] theorem State.setQueue_nvScores (s : State) (k : Nat) (x : Queue) : (s.setQueue k x).nvScores = s.nvScores := rfl
@[simp] theorem State.setQueue_pcbase (s : State) (k : Nat) (x : Queue) : (s.setQueue k x).pcbase = s.pcbase := rfl
@[simp] theorem State.setQueue_pcsize (s : State) (k : Nat) (x : Queue) : (s.setQueue k x).pcsize = s.pcsize := rfl
@[simp] theorem State.setQueue_pchead (s : State) (k : Nat) (x : Queue) : (s.setQueue k x).pchead = s.pchead := rfl
@[simp] theorem State.setQueue_pctail (s : State) (k : Nat) (x : Queue) : (s.setQueue k x).pctail = s.pctail := rfl
@[simp] theorem State.setQueue_pcmds (s : State) (k : Nat) (x : Queue) : (s.setQueue k x).pcmds = s.pcmds := rfl
@[simp] theorem State.setQueue_wbase (s : State) (k : Nat) (x : Queue) : (s.setQueue k x).wbase = s.wbase := rfl
@[simp] theorem State.setQueue_obase (s : State) (k : Nat) (x : Queue) : (s.setQueue k x).obase = s.obase := rfl
@[simp] theorem State.setQueue_bar2Size (s : State) (k : Nat) (x : Queue) : (s.setQueue k x).bar2Size = s.bar2Size := rfl
@[simp] theorem State.setQueue_mailbox (s : State) (k : Nat) (x : Queue) : (s.setQueue k x).mailbox = s.mailbox := rfl
@[simp] theorem State.setQueue_windows (s : State) (k : Nat) (x : Queue) : (s.setQueue k x).windows = s.windows := rfl
@[simp] theorem State.setQueue_ports (s : State) (k : Nat) (x : Queue) : (s.setQueue k x).ports = s.ports := rfl
@[simp] theorem State.setQueue_outFlits (s : State) (k : Nat) (x : Queue) : (s.setQueue k x).outFlits = s.outFlits := rfl
@[simp] theorem State.setQueue_outWrites (s : State) (k : Nat) (x : Queue) : (s.setQueue k x).outWrites = s.outWrites := rfl
@[simp] theorem State.setQueue_outReads (s : State) (k : Nat) (x : Queue) : (s.setQueue k x).outReads = s.outReads := rfl
@[simp] theorem State.setQueue_busFail (s : State) (k : Nat) (x : Queue) : (s.setQueue k x).busFail = s.busFail := rfl
@[simp] theorem State.setQueue_repairs (s : State) (k : Nat) (x : Queue) : (s.setQueue k x).repairs = s.repairs := rfl
@[simp] theorem State.setQueue_copying (s : State) (k : Nat) (x : Queue) : (s.setQueue k x).copying = s.copying := rfl
@[simp] theorem State.setQueue_retiredBus (s : State) (k : Nat) (x : Queue) : (s.setQueue k x).retiredBus = s.retiredBus := rfl
@[simp] theorem State.setQueue_lostChan (s : State) (k : Nat) (x : Queue) : (s.setQueue k x).lostChan = s.lostChan := rfl
@[simp] theorem State.setQueue_telemetry (s : State) (k : Nat) (x : Queue) : (s.setQueue k x).telemetry = s.telemetry := rfl
@[simp] theorem State.setQueue_samples (s : State) (k : Nat) (x : Queue) : (s.setQueue k x).samples = s.samples := rfl
@[simp] theorem State.setQueue_replies (s : State) (k : Nat) (x : Queue) : (s.setQueue k x).replies = s.replies := rfl
@[simp] theorem State.setQueue_agenda (s : State) (k : Nat) (x : Queue) : (s.setQueue k x).agenda = s.agenda := rfl
@[simp] theorem State.setQueue_frames (s : State) (k : Nat) (x : Queue) : (s.setQueue k x).frames = s.frames := rfl
@[simp] theorem State.setQueue_clock (s : State) (k : Nat) (x : Queue) : (s.setQueue k x).clock = s.clock := rfl
@[simp] theorem State.setQueue_fresh (s : State) (k : Nat) (x : Queue) : (s.setQueue k x).fresh = s.fresh := rfl

@[simp] theorem State.setGang_mem (s : State) (k : Nat) (x : Gang) : (s.setGang k x).mem = s.mem := rfl
@[simp] theorem State.setGang_poison (s : State) (k : Nat) (x : Gang) : (s.setGang k x).poison = s.poison := rfl
@[simp] theorem State.setGang_harts (s : State) (k : Nat) (x : Gang) : (s.setGang k x).harts = s.harts := rfl
@[simp] theorem State.setGang_cur (s : State) (k : Nat) (x : Gang) : (s.setGang k x).cur = s.cur := rfl
@[simp] theorem State.setGang_cores (s : State) (k : Nat) (x : Gang) : (s.setGang k x).cores = s.cores := rfl
@[simp] theorem State.setGang_dies (s : State) (k : Nat) (x : Gang) : (s.setGang k x).dies = s.dies := rfl
@[simp] theorem State.setGang_ctxs (s : State) (k : Nat) (x : Gang) : (s.setGang k x).ctxs = s.ctxs := rfl
@[simp] theorem State.setGang_queues (s : State) (k : Nat) (x : Gang) : (s.setGang k x).queues = s.queues := rfl
@[simp] theorem State.setGang_launches (s : State) (k : Nat) (x : Gang) : (s.setGang k x).launches = s.launches := rfl
@[simp] theorem State.setGang_nextLaunch (s : State) (k : Nat) (x : Gang) : (s.setGang k x).nextLaunch = s.nextLaunch := rfl
@[simp] theorem State.setGang_nextGang (s : State) (k : Nat) (x : Gang) : (s.setGang k x).nextGang = s.nextGang := rfl
@[simp] theorem State.setGang_rr (s : State) (k : Nat) (x : Gang) : (s.setGang k x).rr = s.rr := rfl
@[simp] theorem State.setGang_preempting (s : State) (k : Nat) (x : Gang) : (s.setGang k x).preempting = s.preempting := rfl
@[simp] theorem State.setGang_hints (s : State) (k : Nat) (x : Gang) : (s.setGang k x).hints = s.hints := rfl
@[simp] theorem State.setGang_posts (s : State) (k : Nat) (x : Gang) : (s.setGang k x).posts = s.posts := rfl
@[simp] theorem State.setGang_featacc (s : State) (k : Nat) (x : Gang) : (s.setGang k x).featacc = s.featacc := rfl
@[simp] theorem State.setGang_opened (s : State) (k : Nat) (x : Gang) : (s.setGang k x).opened = s.opened := rfl
@[simp] theorem State.setGang_pwrcap (s : State) (k : Nat) (x : Gang) : (s.setGang k x).pwrcap = s.pwrcap := rfl
@[simp] theorem State.setGang_capNow (s : State) (k : Nat) (x : Gang) : (s.setGang k x).capNow = s.capNow := rfl
@[simp] theorem State.setGang_hot (s : State) (k : Nat) (x : Gang) : (s.setGang k x).hot = s.hot := rfl
@[simp] theorem State.setGang_under (s : State) (k : Nat) (x : Gang) : (s.setGang k x).under = s.under := rfl
@[simp] theorem State.setGang_throttle (s : State) (k : Nat) (x : Gang) : (s.setGang k x).throttle = s.throttle := rfl
@[simp] theorem State.setGang_nodeId (s : State) (k : Nat) (x : Gang) : (s.setGang k x).nodeId = s.nodeId := rfl
@[simp] theorem State.setGang_nodeSet (s : State) (k : Nat) (x : Gang) : (s.setGang k x).nodeSet = s.nodeSet := rfl
@[simp] theorem State.setGang_incarnation (s : State) (k : Nat) (x : Gang) : (s.setGang k x).incarnation = s.incarnation := rfl
@[simp] theorem State.setGang_recovery (s : State) (k : Nat) (x : Gang) : (s.setGang k x).recovery = s.recovery := rfl
@[simp] theorem State.setGang_firmware (s : State) (k : Nat) (x : Gang) : (s.setGang k x).firmware = s.firmware := rfl
@[simp] theorem State.setGang_staged (s : State) (k : Nat) (x : Gang) : (s.setGang k x).staged = s.staged := rfl
@[simp] theorem State.setGang_nvScores (s : State) (k : Nat) (x : Gang) : (s.setGang k x).nvScores = s.nvScores := rfl
@[simp] theorem State.setGang_pcbase (s : State) (k : Nat) (x : Gang) : (s.setGang k x).pcbase = s.pcbase := rfl
@[simp] theorem State.setGang_pcsize (s : State) (k : Nat) (x : Gang) : (s.setGang k x).pcsize = s.pcsize := rfl
@[simp] theorem State.setGang_pchead (s : State) (k : Nat) (x : Gang) : (s.setGang k x).pchead = s.pchead := rfl
@[simp] theorem State.setGang_pctail (s : State) (k : Nat) (x : Gang) : (s.setGang k x).pctail = s.pctail := rfl
@[simp] theorem State.setGang_pcmds (s : State) (k : Nat) (x : Gang) : (s.setGang k x).pcmds = s.pcmds := rfl
@[simp] theorem State.setGang_wbase (s : State) (k : Nat) (x : Gang) : (s.setGang k x).wbase = s.wbase := rfl
@[simp] theorem State.setGang_obase (s : State) (k : Nat) (x : Gang) : (s.setGang k x).obase = s.obase := rfl
@[simp] theorem State.setGang_bar2Size (s : State) (k : Nat) (x : Gang) : (s.setGang k x).bar2Size = s.bar2Size := rfl
@[simp] theorem State.setGang_mailbox (s : State) (k : Nat) (x : Gang) : (s.setGang k x).mailbox = s.mailbox := rfl
@[simp] theorem State.setGang_windows (s : State) (k : Nat) (x : Gang) : (s.setGang k x).windows = s.windows := rfl
@[simp] theorem State.setGang_ports (s : State) (k : Nat) (x : Gang) : (s.setGang k x).ports = s.ports := rfl
@[simp] theorem State.setGang_outFlits (s : State) (k : Nat) (x : Gang) : (s.setGang k x).outFlits = s.outFlits := rfl
@[simp] theorem State.setGang_outWrites (s : State) (k : Nat) (x : Gang) : (s.setGang k x).outWrites = s.outWrites := rfl
@[simp] theorem State.setGang_outReads (s : State) (k : Nat) (x : Gang) : (s.setGang k x).outReads = s.outReads := rfl
@[simp] theorem State.setGang_busFail (s : State) (k : Nat) (x : Gang) : (s.setGang k x).busFail = s.busFail := rfl
@[simp] theorem State.setGang_repairs (s : State) (k : Nat) (x : Gang) : (s.setGang k x).repairs = s.repairs := rfl
@[simp] theorem State.setGang_copying (s : State) (k : Nat) (x : Gang) : (s.setGang k x).copying = s.copying := rfl
@[simp] theorem State.setGang_retiredBus (s : State) (k : Nat) (x : Gang) : (s.setGang k x).retiredBus = s.retiredBus := rfl
@[simp] theorem State.setGang_lostChan (s : State) (k : Nat) (x : Gang) : (s.setGang k x).lostChan = s.lostChan := rfl
@[simp] theorem State.setGang_telemetry (s : State) (k : Nat) (x : Gang) : (s.setGang k x).telemetry = s.telemetry := rfl
@[simp] theorem State.setGang_samples (s : State) (k : Nat) (x : Gang) : (s.setGang k x).samples = s.samples := rfl
@[simp] theorem State.setGang_replies (s : State) (k : Nat) (x : Gang) : (s.setGang k x).replies = s.replies := rfl
@[simp] theorem State.setGang_agenda (s : State) (k : Nat) (x : Gang) : (s.setGang k x).agenda = s.agenda := rfl
@[simp] theorem State.setGang_frames (s : State) (k : Nat) (x : Gang) : (s.setGang k x).frames = s.frames := rfl
@[simp] theorem State.setGang_clock (s : State) (k : Nat) (x : Gang) : (s.setGang k x).clock = s.clock := rfl
@[simp] theorem State.setGang_fresh (s : State) (k : Nat) (x : Gang) : (s.setGang k x).fresh = s.fresh := rfl

@[simp] theorem State.setLaunch_mem (s : State) (k : Nat) (x : Launch) : (s.setLaunch k x).mem = s.mem := rfl
@[simp] theorem State.setLaunch_poison (s : State) (k : Nat) (x : Launch) : (s.setLaunch k x).poison = s.poison := rfl
@[simp] theorem State.setLaunch_harts (s : State) (k : Nat) (x : Launch) : (s.setLaunch k x).harts = s.harts := rfl
@[simp] theorem State.setLaunch_cur (s : State) (k : Nat) (x : Launch) : (s.setLaunch k x).cur = s.cur := rfl
@[simp] theorem State.setLaunch_cores (s : State) (k : Nat) (x : Launch) : (s.setLaunch k x).cores = s.cores := rfl
@[simp] theorem State.setLaunch_dies (s : State) (k : Nat) (x : Launch) : (s.setLaunch k x).dies = s.dies := rfl
@[simp] theorem State.setLaunch_ctxs (s : State) (k : Nat) (x : Launch) : (s.setLaunch k x).ctxs = s.ctxs := rfl
@[simp] theorem State.setLaunch_queues (s : State) (k : Nat) (x : Launch) : (s.setLaunch k x).queues = s.queues := rfl
@[simp] theorem State.setLaunch_gangs (s : State) (k : Nat) (x : Launch) : (s.setLaunch k x).gangs = s.gangs := rfl
@[simp] theorem State.setLaunch_nextLaunch (s : State) (k : Nat) (x : Launch) : (s.setLaunch k x).nextLaunch = s.nextLaunch := rfl
@[simp] theorem State.setLaunch_nextGang (s : State) (k : Nat) (x : Launch) : (s.setLaunch k x).nextGang = s.nextGang := rfl
@[simp] theorem State.setLaunch_rr (s : State) (k : Nat) (x : Launch) : (s.setLaunch k x).rr = s.rr := rfl
@[simp] theorem State.setLaunch_preempting (s : State) (k : Nat) (x : Launch) : (s.setLaunch k x).preempting = s.preempting := rfl
@[simp] theorem State.setLaunch_hints (s : State) (k : Nat) (x : Launch) : (s.setLaunch k x).hints = s.hints := rfl
@[simp] theorem State.setLaunch_posts (s : State) (k : Nat) (x : Launch) : (s.setLaunch k x).posts = s.posts := rfl
@[simp] theorem State.setLaunch_featacc (s : State) (k : Nat) (x : Launch) : (s.setLaunch k x).featacc = s.featacc := rfl
@[simp] theorem State.setLaunch_opened (s : State) (k : Nat) (x : Launch) : (s.setLaunch k x).opened = s.opened := rfl
@[simp] theorem State.setLaunch_pwrcap (s : State) (k : Nat) (x : Launch) : (s.setLaunch k x).pwrcap = s.pwrcap := rfl
@[simp] theorem State.setLaunch_capNow (s : State) (k : Nat) (x : Launch) : (s.setLaunch k x).capNow = s.capNow := rfl
@[simp] theorem State.setLaunch_hot (s : State) (k : Nat) (x : Launch) : (s.setLaunch k x).hot = s.hot := rfl
@[simp] theorem State.setLaunch_under (s : State) (k : Nat) (x : Launch) : (s.setLaunch k x).under = s.under := rfl
@[simp] theorem State.setLaunch_throttle (s : State) (k : Nat) (x : Launch) : (s.setLaunch k x).throttle = s.throttle := rfl
@[simp] theorem State.setLaunch_nodeId (s : State) (k : Nat) (x : Launch) : (s.setLaunch k x).nodeId = s.nodeId := rfl
@[simp] theorem State.setLaunch_nodeSet (s : State) (k : Nat) (x : Launch) : (s.setLaunch k x).nodeSet = s.nodeSet := rfl
@[simp] theorem State.setLaunch_incarnation (s : State) (k : Nat) (x : Launch) : (s.setLaunch k x).incarnation = s.incarnation := rfl
@[simp] theorem State.setLaunch_recovery (s : State) (k : Nat) (x : Launch) : (s.setLaunch k x).recovery = s.recovery := rfl
@[simp] theorem State.setLaunch_firmware (s : State) (k : Nat) (x : Launch) : (s.setLaunch k x).firmware = s.firmware := rfl
@[simp] theorem State.setLaunch_staged (s : State) (k : Nat) (x : Launch) : (s.setLaunch k x).staged = s.staged := rfl
@[simp] theorem State.setLaunch_nvScores (s : State) (k : Nat) (x : Launch) : (s.setLaunch k x).nvScores = s.nvScores := rfl
@[simp] theorem State.setLaunch_pcbase (s : State) (k : Nat) (x : Launch) : (s.setLaunch k x).pcbase = s.pcbase := rfl
@[simp] theorem State.setLaunch_pcsize (s : State) (k : Nat) (x : Launch) : (s.setLaunch k x).pcsize = s.pcsize := rfl
@[simp] theorem State.setLaunch_pchead (s : State) (k : Nat) (x : Launch) : (s.setLaunch k x).pchead = s.pchead := rfl
@[simp] theorem State.setLaunch_pctail (s : State) (k : Nat) (x : Launch) : (s.setLaunch k x).pctail = s.pctail := rfl
@[simp] theorem State.setLaunch_pcmds (s : State) (k : Nat) (x : Launch) : (s.setLaunch k x).pcmds = s.pcmds := rfl
@[simp] theorem State.setLaunch_wbase (s : State) (k : Nat) (x : Launch) : (s.setLaunch k x).wbase = s.wbase := rfl
@[simp] theorem State.setLaunch_obase (s : State) (k : Nat) (x : Launch) : (s.setLaunch k x).obase = s.obase := rfl
@[simp] theorem State.setLaunch_bar2Size (s : State) (k : Nat) (x : Launch) : (s.setLaunch k x).bar2Size = s.bar2Size := rfl
@[simp] theorem State.setLaunch_mailbox (s : State) (k : Nat) (x : Launch) : (s.setLaunch k x).mailbox = s.mailbox := rfl
@[simp] theorem State.setLaunch_windows (s : State) (k : Nat) (x : Launch) : (s.setLaunch k x).windows = s.windows := rfl
@[simp] theorem State.setLaunch_ports (s : State) (k : Nat) (x : Launch) : (s.setLaunch k x).ports = s.ports := rfl
@[simp] theorem State.setLaunch_outFlits (s : State) (k : Nat) (x : Launch) : (s.setLaunch k x).outFlits = s.outFlits := rfl
@[simp] theorem State.setLaunch_outWrites (s : State) (k : Nat) (x : Launch) : (s.setLaunch k x).outWrites = s.outWrites := rfl
@[simp] theorem State.setLaunch_outReads (s : State) (k : Nat) (x : Launch) : (s.setLaunch k x).outReads = s.outReads := rfl
@[simp] theorem State.setLaunch_busFail (s : State) (k : Nat) (x : Launch) : (s.setLaunch k x).busFail = s.busFail := rfl
@[simp] theorem State.setLaunch_repairs (s : State) (k : Nat) (x : Launch) : (s.setLaunch k x).repairs = s.repairs := rfl
@[simp] theorem State.setLaunch_copying (s : State) (k : Nat) (x : Launch) : (s.setLaunch k x).copying = s.copying := rfl
@[simp] theorem State.setLaunch_retiredBus (s : State) (k : Nat) (x : Launch) : (s.setLaunch k x).retiredBus = s.retiredBus := rfl
@[simp] theorem State.setLaunch_lostChan (s : State) (k : Nat) (x : Launch) : (s.setLaunch k x).lostChan = s.lostChan := rfl
@[simp] theorem State.setLaunch_telemetry (s : State) (k : Nat) (x : Launch) : (s.setLaunch k x).telemetry = s.telemetry := rfl
@[simp] theorem State.setLaunch_samples (s : State) (k : Nat) (x : Launch) : (s.setLaunch k x).samples = s.samples := rfl
@[simp] theorem State.setLaunch_replies (s : State) (k : Nat) (x : Launch) : (s.setLaunch k x).replies = s.replies := rfl
@[simp] theorem State.setLaunch_agenda (s : State) (k : Nat) (x : Launch) : (s.setLaunch k x).agenda = s.agenda := rfl
@[simp] theorem State.setLaunch_frames (s : State) (k : Nat) (x : Launch) : (s.setLaunch k x).frames = s.frames := rfl
@[simp] theorem State.setLaunch_clock (s : State) (k : Nat) (x : Launch) : (s.setLaunch k x).clock = s.clock := rfl
@[simp] theorem State.setLaunch_fresh (s : State) (k : Nat) (x : Launch) : (s.setLaunch k x).fresh = s.fresh := rfl

@[simp] theorem State.homeWrite_harts (s : State) (k : Nat) (x : List Byte) : (s.homeWrite k x).harts = s.harts := rfl
@[simp] theorem State.homeWrite_cur (s : State) (k : Nat) (x : List Byte) : (s.homeWrite k x).cur = s.cur := rfl
@[simp] theorem State.homeWrite_cores (s : State) (k : Nat) (x : List Byte) : (s.homeWrite k x).cores = s.cores := rfl
@[simp] theorem State.homeWrite_dies (s : State) (k : Nat) (x : List Byte) : (s.homeWrite k x).dies = s.dies := rfl
@[simp] theorem State.homeWrite_ctxs (s : State) (k : Nat) (x : List Byte) : (s.homeWrite k x).ctxs = s.ctxs := rfl
@[simp] theorem State.homeWrite_queues (s : State) (k : Nat) (x : List Byte) : (s.homeWrite k x).queues = s.queues := rfl
@[simp] theorem State.homeWrite_launches (s : State) (k : Nat) (x : List Byte) : (s.homeWrite k x).launches = s.launches := rfl
@[simp] theorem State.homeWrite_gangs (s : State) (k : Nat) (x : List Byte) : (s.homeWrite k x).gangs = s.gangs := rfl
@[simp] theorem State.homeWrite_nextLaunch (s : State) (k : Nat) (x : List Byte) : (s.homeWrite k x).nextLaunch = s.nextLaunch := rfl
@[simp] theorem State.homeWrite_nextGang (s : State) (k : Nat) (x : List Byte) : (s.homeWrite k x).nextGang = s.nextGang := rfl
@[simp] theorem State.homeWrite_rr (s : State) (k : Nat) (x : List Byte) : (s.homeWrite k x).rr = s.rr := rfl
@[simp] theorem State.homeWrite_preempting (s : State) (k : Nat) (x : List Byte) : (s.homeWrite k x).preempting = s.preempting := rfl
@[simp] theorem State.homeWrite_hints (s : State) (k : Nat) (x : List Byte) : (s.homeWrite k x).hints = s.hints := rfl
@[simp] theorem State.homeWrite_posts (s : State) (k : Nat) (x : List Byte) : (s.homeWrite k x).posts = s.posts := rfl
@[simp] theorem State.homeWrite_featacc (s : State) (k : Nat) (x : List Byte) : (s.homeWrite k x).featacc = s.featacc := rfl
@[simp] theorem State.homeWrite_opened (s : State) (k : Nat) (x : List Byte) : (s.homeWrite k x).opened = s.opened := rfl
@[simp] theorem State.homeWrite_pwrcap (s : State) (k : Nat) (x : List Byte) : (s.homeWrite k x).pwrcap = s.pwrcap := rfl
@[simp] theorem State.homeWrite_capNow (s : State) (k : Nat) (x : List Byte) : (s.homeWrite k x).capNow = s.capNow := rfl
@[simp] theorem State.homeWrite_hot (s : State) (k : Nat) (x : List Byte) : (s.homeWrite k x).hot = s.hot := rfl
@[simp] theorem State.homeWrite_under (s : State) (k : Nat) (x : List Byte) : (s.homeWrite k x).under = s.under := rfl
@[simp] theorem State.homeWrite_throttle (s : State) (k : Nat) (x : List Byte) : (s.homeWrite k x).throttle = s.throttle := rfl
@[simp] theorem State.homeWrite_nodeId (s : State) (k : Nat) (x : List Byte) : (s.homeWrite k x).nodeId = s.nodeId := rfl
@[simp] theorem State.homeWrite_nodeSet (s : State) (k : Nat) (x : List Byte) : (s.homeWrite k x).nodeSet = s.nodeSet := rfl
@[simp] theorem State.homeWrite_incarnation (s : State) (k : Nat) (x : List Byte) : (s.homeWrite k x).incarnation = s.incarnation := rfl
@[simp] theorem State.homeWrite_recovery (s : State) (k : Nat) (x : List Byte) : (s.homeWrite k x).recovery = s.recovery := rfl
@[simp] theorem State.homeWrite_firmware (s : State) (k : Nat) (x : List Byte) : (s.homeWrite k x).firmware = s.firmware := rfl
@[simp] theorem State.homeWrite_staged (s : State) (k : Nat) (x : List Byte) : (s.homeWrite k x).staged = s.staged := rfl
@[simp] theorem State.homeWrite_nvScores (s : State) (k : Nat) (x : List Byte) : (s.homeWrite k x).nvScores = s.nvScores := rfl
@[simp] theorem State.homeWrite_pcbase (s : State) (k : Nat) (x : List Byte) : (s.homeWrite k x).pcbase = s.pcbase := rfl
@[simp] theorem State.homeWrite_pcsize (s : State) (k : Nat) (x : List Byte) : (s.homeWrite k x).pcsize = s.pcsize := rfl
@[simp] theorem State.homeWrite_pchead (s : State) (k : Nat) (x : List Byte) : (s.homeWrite k x).pchead = s.pchead := rfl
@[simp] theorem State.homeWrite_pctail (s : State) (k : Nat) (x : List Byte) : (s.homeWrite k x).pctail = s.pctail := rfl
@[simp] theorem State.homeWrite_pcmds (s : State) (k : Nat) (x : List Byte) : (s.homeWrite k x).pcmds = s.pcmds := rfl
@[simp] theorem State.homeWrite_wbase (s : State) (k : Nat) (x : List Byte) : (s.homeWrite k x).wbase = s.wbase := rfl
@[simp] theorem State.homeWrite_obase (s : State) (k : Nat) (x : List Byte) : (s.homeWrite k x).obase = s.obase := rfl
@[simp] theorem State.homeWrite_bar2Size (s : State) (k : Nat) (x : List Byte) : (s.homeWrite k x).bar2Size = s.bar2Size := rfl
@[simp] theorem State.homeWrite_mailbox (s : State) (k : Nat) (x : List Byte) : (s.homeWrite k x).mailbox = s.mailbox := rfl
@[simp] theorem State.homeWrite_windows (s : State) (k : Nat) (x : List Byte) : (s.homeWrite k x).windows = s.windows := rfl
@[simp] theorem State.homeWrite_ports (s : State) (k : Nat) (x : List Byte) : (s.homeWrite k x).ports = s.ports := rfl
@[simp] theorem State.homeWrite_outFlits (s : State) (k : Nat) (x : List Byte) : (s.homeWrite k x).outFlits = s.outFlits := rfl
@[simp] theorem State.homeWrite_outWrites (s : State) (k : Nat) (x : List Byte) : (s.homeWrite k x).outWrites = s.outWrites := rfl
@[simp] theorem State.homeWrite_outReads (s : State) (k : Nat) (x : List Byte) : (s.homeWrite k x).outReads = s.outReads := rfl
@[simp] theorem State.homeWrite_busFail (s : State) (k : Nat) (x : List Byte) : (s.homeWrite k x).busFail = s.busFail := rfl
@[simp] theorem State.homeWrite_repairs (s : State) (k : Nat) (x : List Byte) : (s.homeWrite k x).repairs = s.repairs := rfl
@[simp] theorem State.homeWrite_copying (s : State) (k : Nat) (x : List Byte) : (s.homeWrite k x).copying = s.copying := rfl
@[simp] theorem State.homeWrite_retiredBus (s : State) (k : Nat) (x : List Byte) : (s.homeWrite k x).retiredBus = s.retiredBus := rfl
@[simp] theorem State.homeWrite_lostChan (s : State) (k : Nat) (x : List Byte) : (s.homeWrite k x).lostChan = s.lostChan := rfl
@[simp] theorem State.homeWrite_telemetry (s : State) (k : Nat) (x : List Byte) : (s.homeWrite k x).telemetry = s.telemetry := rfl
@[simp] theorem State.homeWrite_samples (s : State) (k : Nat) (x : List Byte) : (s.homeWrite k x).samples = s.samples := rfl
@[simp] theorem State.homeWrite_replies (s : State) (k : Nat) (x : List Byte) : (s.homeWrite k x).replies = s.replies := rfl
@[simp] theorem State.homeWrite_agenda (s : State) (k : Nat) (x : List Byte) : (s.homeWrite k x).agenda = s.agenda := rfl
@[simp] theorem State.homeWrite_frames (s : State) (k : Nat) (x : List Byte) : (s.homeWrite k x).frames = s.frames := rfl
@[simp] theorem State.homeWrite_clock (s : State) (k : Nat) (x : List Byte) : (s.homeWrite k x).clock = s.clock := rfl
@[simp] theorem State.homeWrite_fresh (s : State) (k : Nat) (x : List Byte) : (s.homeWrite k x).fresh = s.fresh := rfl

/-! ### Accessors after updates -/

@[simp] theorem State.me_setMe (s : State) (h : Hart) : (s.setMe h).me = h := Tab.get_put_same _ _ _ _
@[simp] theorem State.setMe_setMe (s : State) (h h' : Hart) : (s.setMe h).setMe h' = s.setMe h' := by
  simp [State.setMe, State.setHart]
@[simp] theorem State.live_setMe (s : State) (h : Hart) : (s.setMe h).live s.cur = true := by
  simp [State.live, State.setMe, State.setHart]
@[simp] theorem State.hartAt_setHart (s : State) (k : Nat) (h : Hart) : (s.setHart k h).hartAt k = h :=
  Tab.get_put_same _ _ _ _
theorem State.hartAt_setHart_ne (s : State) {k k' : Nat} (h : Hart) (hk : k ≠ k') :
    (s.setHart k h).hartAt k' = s.hartAt k' := Tab.get_put_ne _ _ _ hk
@[simp] theorem State.core_setCore (s : State) (k : Nat) (x : Core) : (s.setCore k x).core k = x :=
  Tab.get_put_same _ _ _ _
theorem State.core_setCore_ne (s : State) {k k' : Nat} (x : Core) (hk : k ≠ k') :
    (s.setCore k x).core k' = s.core k' := Tab.get_put_ne _ _ _ hk
@[simp] theorem State.ctx_setCtx (s : State) (k : Nat) (x : Ctx) : (s.setCtx k x).ctx k = x := Tab.get_put_same _ _ _ _
@[simp] theorem State.die_setDie (s : State) (k : Nat) (x : Die) : (s.setDie k x).die k = x := Tab.get_put_same _ _ _ _
@[simp] theorem State.queue_setQueue (s : State) (k : Nat) (x : Queue) : (s.setQueue k x).queue k = x :=
  Tab.get_put_same _ _ _ _
@[simp] theorem State.gang_setGang (s : State) (k : Nat) (x : Gang) : (s.setGang k x).gang k = some x :=
  Tab.find_put_same _ _ _
@[simp] theorem State.launch_setLaunch (s : State) (k : Nat) (x : Launch) : (s.setLaunch k x).launch k = some x :=
  Tab.find_put_same _ _ _
@[simp] theorem State.setCore_setCore (s : State) (k : Nat) (x y : Core) : (s.setCore k x).setCore k y = s.setCore k y := by
  simp [State.setCore]

@[simp] theorem State.core_setHart (s : State) (k : Nat) (x : Hart) (n : Nat) : (s.setHart k x).core n = s.core n := rfl
@[simp] theorem State.die_setHart (s : State) (k : Nat) (x : Hart) (n : Nat) : (s.setHart k x).die n = s.die n := rfl
@[simp] theorem State.ctx_setHart (s : State) (k : Nat) (x : Hart) (n : Nat) : (s.setHart k x).ctx n = s.ctx n := rfl
@[simp] theorem State.queue_setHart (s : State) (k : Nat) (x : Hart) (n : Nat) : (s.setHart k x).queue n = s.queue n := rfl
@[simp] theorem State.gang_setHart (s : State) (k : Nat) (x : Hart) (n : Nat) : (s.setHart k x).gang n = s.gang n := rfl
@[simp] theorem State.launch_setHart (s : State) (k : Nat) (x : Hart) (n : Nat) : (s.setHart k x).launch n = s.launch n := rfl
@[simp] theorem State.coreNo_setHart (s : State) (k : Nat) (x : Hart) : (s.setHart k x).coreNo = s.coreNo := rfl

@[simp] theorem State.core_setMe (s : State) (x : Hart) (n : Nat) : (s.setMe x).core n = s.core n := rfl
@[simp] theorem State.die_setMe (s : State) (x : Hart) (n : Nat) : (s.setMe x).die n = s.die n := rfl
@[simp] theorem State.ctx_setMe (s : State) (x : Hart) (n : Nat) : (s.setMe x).ctx n = s.ctx n := rfl
@[simp] theorem State.queue_setMe (s : State) (x : Hart) (n : Nat) : (s.setMe x).queue n = s.queue n := rfl
@[simp] theorem State.gang_setMe (s : State) (x : Hart) (n : Nat) : (s.setMe x).gang n = s.gang n := rfl
@[simp] theorem State.launch_setMe (s : State) (x : Hart) (n : Nat) : (s.setMe x).launch n = s.launch n := rfl
@[simp] theorem State.coreNo_setMe (s : State) (x : Hart) : (s.setMe x).coreNo = s.coreNo := rfl

@[simp] theorem State.me_setCore (s : State) (k : Nat) (x : Core) : (s.setCore k x).me = s.me := rfl
@[simp] theorem State.hartAt_setCore (s : State) (k : Nat) (x : Core) (n : Nat) : (s.setCore k x).hartAt n = s.hartAt n := rfl
@[simp] theorem State.die_setCore (s : State) (k : Nat) (x : Core) (n : Nat) : (s.setCore k x).die n = s.die n := rfl
@[simp] theorem State.ctx_setCore (s : State) (k : Nat) (x : Core) (n : Nat) : (s.setCore k x).ctx n = s.ctx n := rfl
@[simp] theorem State.queue_setCore (s : State) (k : Nat) (x : Core) (n : Nat) : (s.setCore k x).queue n = s.queue n := rfl
@[simp] theorem State.gang_setCore (s : State) (k : Nat) (x : Core) (n : Nat) : (s.setCore k x).gang n = s.gang n := rfl
@[simp] theorem State.launch_setCore (s : State) (k : Nat) (x : Core) (n : Nat) : (s.setCore k x).launch n = s.launch n := rfl
@[simp] theorem State.live_setCore (s : State) (k : Nat) (x : Core) (n : Nat) : (s.setCore k x).live n = s.live n := rfl
@[simp] theorem State.coreNo_setCore (s : State) (k : Nat) (x : Core) : (s.setCore k x).coreNo = s.coreNo := rfl

@[simp] theorem State.me_setDie (s : State) (k : Nat) (x : Die) : (s.setDie k x).me = s.me := rfl
@[simp] theorem State.hartAt_setDie (s : State) (k : Nat) (x : Die) (n : Nat) : (s.setDie k x).hartAt n = s.hartAt n := rfl
@[simp] theorem State.core_setDie (s : State) (k : Nat) (x : Die) (n : Nat) : (s.setDie k x).core n = s.core n := rfl
@[simp] theorem State.ctx_setDie (s : State) (k : Nat) (x : Die) (n : Nat) : (s.setDie k x).ctx n = s.ctx n := rfl
@[simp] theorem State.queue_setDie (s : State) (k : Nat) (x : Die) (n : Nat) : (s.setDie k x).queue n = s.queue n := rfl
@[simp] theorem State.gang_setDie (s : State) (k : Nat) (x : Die) (n : Nat) : (s.setDie k x).gang n = s.gang n := rfl
@[simp] theorem State.launch_setDie (s : State) (k : Nat) (x : Die) (n : Nat) : (s.setDie k x).launch n = s.launch n := rfl
@[simp] theorem State.live_setDie (s : State) (k : Nat) (x : Die) (n : Nat) : (s.setDie k x).live n = s.live n := rfl
@[simp] theorem State.coreNo_setDie (s : State) (k : Nat) (x : Die) : (s.setDie k x).coreNo = s.coreNo := rfl

@[simp] theorem State.me_setCtx (s : State) (k : Nat) (x : Ctx) : (s.setCtx k x).me = s.me := rfl
@[simp] theorem State.hartAt_setCtx (s : State) (k : Nat) (x : Ctx) (n : Nat) : (s.setCtx k x).hartAt n = s.hartAt n := rfl
@[simp] theorem State.core_setCtx (s : State) (k : Nat) (x : Ctx) (n : Nat) : (s.setCtx k x).core n = s.core n := rfl
@[simp] theorem State.die_setCtx (s : State) (k : Nat) (x : Ctx) (n : Nat) : (s.setCtx k x).die n = s.die n := rfl
@[simp] theorem State.queue_setCtx (s : State) (k : Nat) (x : Ctx) (n : Nat) : (s.setCtx k x).queue n = s.queue n := rfl
@[simp] theorem State.gang_setCtx (s : State) (k : Nat) (x : Ctx) (n : Nat) : (s.setCtx k x).gang n = s.gang n := rfl
@[simp] theorem State.launch_setCtx (s : State) (k : Nat) (x : Ctx) (n : Nat) : (s.setCtx k x).launch n = s.launch n := rfl
@[simp] theorem State.live_setCtx (s : State) (k : Nat) (x : Ctx) (n : Nat) : (s.setCtx k x).live n = s.live n := rfl
@[simp] theorem State.coreNo_setCtx (s : State) (k : Nat) (x : Ctx) : (s.setCtx k x).coreNo = s.coreNo := rfl

@[simp] theorem State.me_setQueue (s : State) (k : Nat) (x : Queue) : (s.setQueue k x).me = s.me := rfl
@[simp] theorem State.hartAt_setQueue (s : State) (k : Nat) (x : Queue) (n : Nat) : (s.setQueue k x).hartAt n = s.hartAt n := rfl
@[simp] theorem State.core_setQueue (s : State) (k : Nat) (x : Queue) (n : Nat) : (s.setQueue k x).core n = s.core n := rfl
@[simp] theorem State.die_setQueue (s : State) (k : Nat) (x : Queue) (n : Nat) : (s.setQueue k x).die n = s.die n := rfl
@[simp] theorem State.ctx_setQueue (s : State) (k : Nat) (x : Queue) (n : Nat) : (s.setQueue k x).ctx n = s.ctx n := rfl
@[simp] theorem State.gang_setQueue (s : State) (k : Nat) (x : Queue) (n : Nat) : (s.setQueue k x).gang n = s.gang n := rfl
@[simp] theorem State.launch_setQueue (s : State) (k : Nat) (x : Queue) (n : Nat) : (s.setQueue k x).launch n = s.launch n := rfl
@[simp] theorem State.live_setQueue (s : State) (k : Nat) (x : Queue) (n : Nat) : (s.setQueue k x).live n = s.live n := rfl
@[simp] theorem State.coreNo_setQueue (s : State) (k : Nat) (x : Queue) : (s.setQueue k x).coreNo = s.coreNo := rfl

@[simp] theorem State.me_setGang (s : State) (k : Nat) (x : Gang) : (s.setGang k x).me = s.me := rfl
@[simp] theorem State.hartAt_setGang (s : State) (k : Nat) (x : Gang) (n : Nat) : (s.setGang k x).hartAt n = s.hartAt n := rfl
@[simp] theorem State.core_setGang (s : State) (k : Nat) (x : Gang) (n : Nat) : (s.setGang k x).core n = s.core n := rfl
@[simp] theorem State.die_setGang (s : State) (k : Nat) (x : Gang) (n : Nat) : (s.setGang k x).die n = s.die n := rfl
@[simp] theorem State.ctx_setGang (s : State) (k : Nat) (x : Gang) (n : Nat) : (s.setGang k x).ctx n = s.ctx n := rfl
@[simp] theorem State.queue_setGang (s : State) (k : Nat) (x : Gang) (n : Nat) : (s.setGang k x).queue n = s.queue n := rfl
@[simp] theorem State.launch_setGang (s : State) (k : Nat) (x : Gang) (n : Nat) : (s.setGang k x).launch n = s.launch n := rfl
@[simp] theorem State.live_setGang (s : State) (k : Nat) (x : Gang) (n : Nat) : (s.setGang k x).live n = s.live n := rfl
@[simp] theorem State.coreNo_setGang (s : State) (k : Nat) (x : Gang) : (s.setGang k x).coreNo = s.coreNo := rfl

@[simp] theorem State.me_setLaunch (s : State) (k : Nat) (x : Launch) : (s.setLaunch k x).me = s.me := rfl
@[simp] theorem State.hartAt_setLaunch (s : State) (k : Nat) (x : Launch) (n : Nat) : (s.setLaunch k x).hartAt n = s.hartAt n := rfl
@[simp] theorem State.core_setLaunch (s : State) (k : Nat) (x : Launch) (n : Nat) : (s.setLaunch k x).core n = s.core n := rfl
@[simp] theorem State.die_setLaunch (s : State) (k : Nat) (x : Launch) (n : Nat) : (s.setLaunch k x).die n = s.die n := rfl
@[simp] theorem State.ctx_setLaunch (s : State) (k : Nat) (x : Launch) (n : Nat) : (s.setLaunch k x).ctx n = s.ctx n := rfl
@[simp] theorem State.queue_setLaunch (s : State) (k : Nat) (x : Launch) (n : Nat) : (s.setLaunch k x).queue n = s.queue n := rfl
@[simp] theorem State.gang_setLaunch (s : State) (k : Nat) (x : Launch) (n : Nat) : (s.setLaunch k x).gang n = s.gang n := rfl
@[simp] theorem State.live_setLaunch (s : State) (k : Nat) (x : Launch) (n : Nat) : (s.setLaunch k x).live n = s.live n := rfl
@[simp] theorem State.coreNo_setLaunch (s : State) (k : Nat) (x : Launch) : (s.setLaunch k x).coreNo = s.coreNo := rfl

@[simp] theorem State.me_homeWrite (s : State) (k : Nat) (x : List Byte) : (s.homeWrite k x).me = s.me := rfl
@[simp] theorem State.hartAt_homeWrite (s : State) (k : Nat) (x : List Byte) (n : Nat) : (s.homeWrite k x).hartAt n = s.hartAt n := rfl
@[simp] theorem State.core_homeWrite (s : State) (k : Nat) (x : List Byte) (n : Nat) : (s.homeWrite k x).core n = s.core n := rfl
@[simp] theorem State.die_homeWrite (s : State) (k : Nat) (x : List Byte) (n : Nat) : (s.homeWrite k x).die n = s.die n := rfl
@[simp] theorem State.ctx_homeWrite (s : State) (k : Nat) (x : List Byte) (n : Nat) : (s.homeWrite k x).ctx n = s.ctx n := rfl
@[simp] theorem State.queue_homeWrite (s : State) (k : Nat) (x : List Byte) (n : Nat) : (s.homeWrite k x).queue n = s.queue n := rfl
@[simp] theorem State.gang_homeWrite (s : State) (k : Nat) (x : List Byte) (n : Nat) : (s.homeWrite k x).gang n = s.gang n := rfl
@[simp] theorem State.launch_homeWrite (s : State) (k : Nat) (x : List Byte) (n : Nat) : (s.homeWrite k x).launch n = s.launch n := rfl
@[simp] theorem State.live_homeWrite (s : State) (k : Nat) (x : List Byte) (n : Nat) : (s.homeWrite k x).live n = s.live n := rfl
@[simp] theorem State.coreNo_homeWrite (s : State) (k : Nat) (x : List Byte) : (s.homeWrite k x).coreNo = s.coreNo := rfl

/-! ### Updates of a hart -/

@[simp] theorem Hart.writeS_ctx (h : Hart) (r : BitVec 6) (x : Word) : (h.writeS r x).ctx = h.ctx := by unfold Hart.writeS; split <;> rfl
@[simp] theorem Hart.writeS_gang (h : Hart) (r : BitVec 6) (x : Word) : (h.writeS r x).gang = h.gang := by unfold Hart.writeS; split <;> rfl
@[simp] theorem Hart.writeS_gangId (h : Hart) (r : BitVec 6) (x : Word) : (h.writeS r x).gangId = h.gangId := by unfold Hart.writeS; split <;> rfl
@[simp] theorem Hart.writeS_launch (h : Hart) (r : BitVec 6) (x : Word) : (h.writeS r x).launch = h.launch := by unfold Hart.writeS; split <;> rfl
@[simp] theorem Hart.writeS_index (h : Hart) (r : BitVec 6) (x : Word) : (h.writeS r x).index = h.index := by unfold Hart.writeS; split <;> rfl
@[simp] theorem Hart.writeS_priv (h : Hart) (r : BitVec 6) (x : Word) : (h.writeS r x).priv = h.priv := by unfold Hart.writeS; split <;> rfl
@[simp] theorem Hart.writeS_recPriv (h : Hart) (r : BitVec 6) (x : Word) : (h.writeS r x).recPriv = h.recPriv := by unfold Hart.writeS; split <;> rfl
@[simp] theorem Hart.writeS_privSince (h : Hart) (r : BitVec 6) (x : Word) : (h.writeS r x).privSince = h.privSince := by unfold Hart.writeS; split <;> rfl
@[simp] theorem Hart.writeS_pc (h : Hart) (r : BitVec 6) (x : Word) : (h.writeS r x).pc = h.pc := by unfold Hart.writeS; split <;> rfl
@[simp] theorem Hart.writeS_cb (h : Hart) (r : BitVec 6) (x : Word) : (h.writeS r x).cb = h.cb := by unfold Hart.writeS; split <;> rfl
@[simp] theorem Hart.writeS_v (h : Hart) (r : BitVec 6) (x : Word) : (h.writeS r x).v = h.v := by unfold Hart.writeS; split <;> rfl
@[simp] theorem Hart.writeS_m (h : Hart) (r : BitVec 6) (x : Word) : (h.writeS r x).m = h.m := by unfold Hart.writeS; split <;> rfl
@[simp] theorem Hart.writeS_acc (h : Hart) (r : BitVec 6) (x : Word) : (h.writeS r x).acc = h.acc := by unfold Hart.writeS; split <;> rfl
@[simp] theorem Hart.writeS_vl (h : Hart) (r : BitVec 6) (x : Word) : (h.writeS r x).vl = h.vl := by unfold Hart.writeS; split <;> rfl
@[simp] theorem Hart.writeS_vlUnset (h : Hart) (r : BitVec 6) (x : Word) : (h.writeS r x).vlUnset = h.vlUnset := by unfold Hart.writeS; split <;> rfl
@[simp] theorem Hart.writeS_mxm (h : Hart) (r : BitVec 6) (x : Word) : (h.writeS r x).mxm = h.mxm := by unfold Hart.writeS; split <;> rfl
@[simp] theorem Hart.writeS_et (h : Hart) (r : BitVec 6) (x : Word) : (h.writeS r x).et = h.et := by unfold Hart.writeS; split <;> rfl
@[simp] theorem Hart.writeS_g (h : Hart) (r : BitVec 6) (x : Word) : (h.writeS r x).g = h.g := by unfold Hart.writeS; split <;> rfl
@[simp] theorem Hart.writeS_vc (h : Hart) (r : BitVec 6) (x : Word) : (h.writeS r x).vc = h.vc := by unfold Hart.writeS; split <;> rfl
@[simp] theorem Hart.writeS_vdirty (h : Hart) (r : BitVec 6) (x : Word) : (h.writeS r x).vdirty = h.vdirty := by unfold Hart.writeS; split <;> rfl
@[simp] theorem Hart.writeS_laneCur (h : Hart) (r : BitVec 6) (x : Word) : (h.writeS r x).laneCur = h.laneCur := by unfold Hart.writeS; split <;> rfl
@[simp] theorem Hart.writeS_laneNext (h : Hart) (r : BitVec 6) (x : Word) : (h.writeS r x).laneNext = h.laneNext := by unfold Hart.writeS; split <;> rfl
@[simp] theorem Hart.writeS_gmap (h : Hart) (r : BitVec 6) (x : Word) : (h.writeS r x).gmap = h.gmap := by unfold Hart.writeS; split <;> rfl
@[simp] theorem Hart.writeS_fflags (h : Hart) (r : BitVec 6) (x : Word) : (h.writeS r x).fflags = h.fflags := by unfold Hart.writeS; split <;> rfl
@[simp] theorem Hart.writeS_tcause (h : Hart) (r : BitVec 6) (x : Word) : (h.writeS r x).tcause = h.tcause := by unfold Hart.writeS; split <;> rfl
@[simp] theorem Hart.writeS_tinfo (h : Hart) (r : BitVec 6) (x : Word) : (h.writeS r x).tinfo = h.tinfo := by unfold Hart.writeS; split <;> rfl
@[simp] theorem Hart.writeS_epc (h : Hart) (r : BitVec 6) (x : Word) : (h.writeS r x).epc = h.epc := by unfold Hart.writeS; split <;> rfl
@[simp] theorem Hart.writeS_taddr (h : Hart) (r : BitVec 6) (x : Word) : (h.writeS r x).taddr = h.taddr := by unfold Hart.writeS; split <;> rfl
@[simp] theorem Hart.writeS_pend (h : Hart) (r : BitVec 6) (x : Word) : (h.writeS r x).pend = h.pend := by unfold Hart.writeS; split <;> rfl
@[simp] theorem Hart.writeS_tags (h : Hart) (r : BitVec 6) (x : Word) : (h.writeS r x).tags = h.tags := by unfold Hart.writeS; split <;> rfl
@[simp] theorem Hart.writeS_tagDst (h : Hart) (r : BitVec 6) (x : Word) : (h.writeS r x).tagDst = h.tagDst := by unfold Hart.writeS; split <;> rfl
@[simp] theorem Hart.writeS_xfers (h : Hart) (r : BitVec 6) (x : Word) : (h.writeS r x).xfers = h.xfers := by unfold Hart.writeS; split <;> rfl
@[simp] theorem Hart.writeS_vq (h : Hart) (r : BitVec 6) (x : Word) : (h.writeS r x).vq = h.vq := by unfold Hart.writeS; split <;> rfl
@[simp] theorem Hart.writeS_win (h : Hart) (r : BitVec 6) (x : Word) : (h.writeS r x).win = h.win := by unfold Hart.writeS; split <;> rfl
@[simp] theorem Hart.writeS_frame (h : Hart) (r : BitVec 6) (x : Word) : (h.writeS r x).frame = h.frame := by unfold Hart.writeS; split <;> rfl
@[simp] theorem Hart.writeS_pre (h : Hart) (r : BitVec 6) (x : Word) : (h.writeS r x).pre = h.pre := by unfold Hart.writeS; split <;> rfl
@[simp] theorem Hart.writeS_owed (h : Hart) (r : BitVec 6) (x : Word) : (h.writeS r x).owed = h.owed := by unfold Hart.writeS; split <;> rfl
@[simp] theorem Hart.writeS_gbar (h : Hart) (r : BitVec 6) (x : Word) : (h.writeS r x).gbar = h.gbar := by unfold Hart.writeS; split <;> rfl
@[simp] theorem Hart.writeS_barWait (h : Hart) (r : BitVec 6) (x : Word) : (h.writeS r x).barWait = h.barWait := by unfold Hart.writeS; split <;> rfl
@[simp] theorem Hart.writeS_barEnd (h : Hart) (r : BitVec 6) (x : Word) : (h.writeS r x).barEnd = h.barEnd := by unfold Hart.writeS; split <;> rfl
@[simp] theorem Hart.writeS_rloadTag (h : Hart) (r : BitVec 6) (x : Word) : (h.writeS r x).rloadTag = h.rloadTag := by unfold Hart.writeS; split <;> rfl
@[simp] theorem Hart.writeS_rload (h : Hart) (r : BitVec 6) (x : Word) : (h.writeS r x).rload = h.rload := by unfold Hart.writeS; split <;> rfl
@[simp] theorem Hart.writeS_remote (h : Hart) (r : BitVec 6) (x : Word) : (h.writeS r x).remote = h.remote := by unfold Hart.writeS; split <;> rfl
@[simp] theorem Hart.writeS_resend (h : Hart) (r : BitVec 6) (x : Word) : (h.writeS r x).resend = h.resend := by unfold Hart.writeS; split <;> rfl
@[simp] theorem Hart.writeS_away (h : Hart) (r : BitVec 6) (x : Word) : (h.writeS r x).away = h.away := by unfold Hart.writeS; split <;> rfl
@[simp] theorem Hart.writeS_spanEnd (h : Hart) (r : BitVec 6) (x : Word) : (h.writeS r x).spanEnd = h.spanEnd := by unfold Hart.writeS; split <;> rfl
@[simp] theorem Hart.writeS_devReads (h : Hart) (r : BitVec 6) (x : Word) : (h.writeS r x).devReads = h.devReads := by unfold Hart.writeS; split <;> rfl
@[simp] theorem Hart.writeS_devUsed (h : Hart) (r : BitVec 6) (x : Word) : (h.writeS r x).devUsed = h.devUsed := by unfold Hart.writeS; split <;> rfl
@[simp] theorem Hart.writeS_devWait (h : Hart) (r : BitVec 6) (x : Word) : (h.writeS r x).devWait = h.devWait := by unfold Hart.writeS; split <;> rfl
@[simp] theorem Hart.writeS_devError (h : Hart) (r : BitVec 6) (x : Word) : (h.writeS r x).devError = h.devError := by unfold Hart.writeS; split <;> rfl
@[simp] theorem Hart.writeS_ecc (h : Hart) (r : BitVec 6) (x : Word) : (h.writeS r x).ecc = h.ecc := by unfold Hart.writeS; split <;> rfl
@[simp] theorem Hart.writeS_waitCount (h : Hart) (r : BitVec 6) (x : Word) : (h.writeS r x).waitCount = h.waitCount := by unfold Hart.writeS; split <;> rfl
@[simp] theorem Hart.writeS_readySince (h : Hart) (r : BitVec 6) (x : Word) : (h.writeS r x).readySince = h.readySince := by unfold Hart.writeS; split <;> rfl

@[simp] theorem Hart.writeC_ctx (h : Hart) (r : BitVec 3) (x : Bool) : (h.writeC r x).ctx = h.ctx := by unfold Hart.writeC; split <;> rfl
@[simp] theorem Hart.writeC_gang (h : Hart) (r : BitVec 3) (x : Bool) : (h.writeC r x).gang = h.gang := by unfold Hart.writeC; split <;> rfl
@[simp] theorem Hart.writeC_gangId (h : Hart) (r : BitVec 3) (x : Bool) : (h.writeC r x).gangId = h.gangId := by unfold Hart.writeC; split <;> rfl
@[simp] theorem Hart.writeC_launch (h : Hart) (r : BitVec 3) (x : Bool) : (h.writeC r x).launch = h.launch := by unfold Hart.writeC; split <;> rfl
@[simp] theorem Hart.writeC_index (h : Hart) (r : BitVec 3) (x : Bool) : (h.writeC r x).index = h.index := by unfold Hart.writeC; split <;> rfl
@[simp] theorem Hart.writeC_priv (h : Hart) (r : BitVec 3) (x : Bool) : (h.writeC r x).priv = h.priv := by unfold Hart.writeC; split <;> rfl
@[simp] theorem Hart.writeC_recPriv (h : Hart) (r : BitVec 3) (x : Bool) : (h.writeC r x).recPriv = h.recPriv := by unfold Hart.writeC; split <;> rfl
@[simp] theorem Hart.writeC_privSince (h : Hart) (r : BitVec 3) (x : Bool) : (h.writeC r x).privSince = h.privSince := by unfold Hart.writeC; split <;> rfl
@[simp] theorem Hart.writeC_pc (h : Hart) (r : BitVec 3) (x : Bool) : (h.writeC r x).pc = h.pc := by unfold Hart.writeC; split <;> rfl
@[simp] theorem Hart.writeC_s (h : Hart) (r : BitVec 3) (x : Bool) : (h.writeC r x).s = h.s := by unfold Hart.writeC; split <;> rfl
@[simp] theorem Hart.writeC_v (h : Hart) (r : BitVec 3) (x : Bool) : (h.writeC r x).v = h.v := by unfold Hart.writeC; split <;> rfl
@[simp] theorem Hart.writeC_m (h : Hart) (r : BitVec 3) (x : Bool) : (h.writeC r x).m = h.m := by unfold Hart.writeC; split <;> rfl
@[simp] theorem Hart.writeC_acc (h : Hart) (r : BitVec 3) (x : Bool) : (h.writeC r x).acc = h.acc := by unfold Hart.writeC; split <;> rfl
@[simp] theorem Hart.writeC_vl (h : Hart) (r : BitVec 3) (x : Bool) : (h.writeC r x).vl = h.vl := by unfold Hart.writeC; split <;> rfl
@[simp] theorem Hart.writeC_vlUnset (h : Hart) (r : BitVec 3) (x : Bool) : (h.writeC r x).vlUnset = h.vlUnset := by unfold Hart.writeC; split <;> rfl
@[simp] theorem Hart.writeC_mxm (h : Hart) (r : BitVec 3) (x : Bool) : (h.writeC r x).mxm = h.mxm := by unfold Hart.writeC; split <;> rfl
@[simp] theorem Hart.writeC_et (h : Hart) (r : BitVec 3) (x : Bool) : (h.writeC r x).et = h.et := by unfold Hart.writeC; split <;> rfl
@[simp] theorem Hart.writeC_g (h : Hart) (r : BitVec 3) (x : Bool) : (h.writeC r x).g = h.g := by unfold Hart.writeC; split <;> rfl
@[simp] theorem Hart.writeC_vc (h : Hart) (r : BitVec 3) (x : Bool) : (h.writeC r x).vc = h.vc := by unfold Hart.writeC; split <;> rfl
@[simp] theorem Hart.writeC_vdirty (h : Hart) (r : BitVec 3) (x : Bool) : (h.writeC r x).vdirty = h.vdirty := by unfold Hart.writeC; split <;> rfl
@[simp] theorem Hart.writeC_laneCur (h : Hart) (r : BitVec 3) (x : Bool) : (h.writeC r x).laneCur = h.laneCur := by unfold Hart.writeC; split <;> rfl
@[simp] theorem Hart.writeC_laneNext (h : Hart) (r : BitVec 3) (x : Bool) : (h.writeC r x).laneNext = h.laneNext := by unfold Hart.writeC; split <;> rfl
@[simp] theorem Hart.writeC_gmap (h : Hart) (r : BitVec 3) (x : Bool) : (h.writeC r x).gmap = h.gmap := by unfold Hart.writeC; split <;> rfl
@[simp] theorem Hart.writeC_fflags (h : Hart) (r : BitVec 3) (x : Bool) : (h.writeC r x).fflags = h.fflags := by unfold Hart.writeC; split <;> rfl
@[simp] theorem Hart.writeC_tcause (h : Hart) (r : BitVec 3) (x : Bool) : (h.writeC r x).tcause = h.tcause := by unfold Hart.writeC; split <;> rfl
@[simp] theorem Hart.writeC_tinfo (h : Hart) (r : BitVec 3) (x : Bool) : (h.writeC r x).tinfo = h.tinfo := by unfold Hart.writeC; split <;> rfl
@[simp] theorem Hart.writeC_epc (h : Hart) (r : BitVec 3) (x : Bool) : (h.writeC r x).epc = h.epc := by unfold Hart.writeC; split <;> rfl
@[simp] theorem Hart.writeC_taddr (h : Hart) (r : BitVec 3) (x : Bool) : (h.writeC r x).taddr = h.taddr := by unfold Hart.writeC; split <;> rfl
@[simp] theorem Hart.writeC_pend (h : Hart) (r : BitVec 3) (x : Bool) : (h.writeC r x).pend = h.pend := by unfold Hart.writeC; split <;> rfl
@[simp] theorem Hart.writeC_tags (h : Hart) (r : BitVec 3) (x : Bool) : (h.writeC r x).tags = h.tags := by unfold Hart.writeC; split <;> rfl
@[simp] theorem Hart.writeC_tagDst (h : Hart) (r : BitVec 3) (x : Bool) : (h.writeC r x).tagDst = h.tagDst := by unfold Hart.writeC; split <;> rfl
@[simp] theorem Hart.writeC_xfers (h : Hart) (r : BitVec 3) (x : Bool) : (h.writeC r x).xfers = h.xfers := by unfold Hart.writeC; split <;> rfl
@[simp] theorem Hart.writeC_vq (h : Hart) (r : BitVec 3) (x : Bool) : (h.writeC r x).vq = h.vq := by unfold Hart.writeC; split <;> rfl
@[simp] theorem Hart.writeC_win (h : Hart) (r : BitVec 3) (x : Bool) : (h.writeC r x).win = h.win := by unfold Hart.writeC; split <;> rfl
@[simp] theorem Hart.writeC_frame (h : Hart) (r : BitVec 3) (x : Bool) : (h.writeC r x).frame = h.frame := by unfold Hart.writeC; split <;> rfl
@[simp] theorem Hart.writeC_pre (h : Hart) (r : BitVec 3) (x : Bool) : (h.writeC r x).pre = h.pre := by unfold Hart.writeC; split <;> rfl
@[simp] theorem Hart.writeC_owed (h : Hart) (r : BitVec 3) (x : Bool) : (h.writeC r x).owed = h.owed := by unfold Hart.writeC; split <;> rfl
@[simp] theorem Hart.writeC_gbar (h : Hart) (r : BitVec 3) (x : Bool) : (h.writeC r x).gbar = h.gbar := by unfold Hart.writeC; split <;> rfl
@[simp] theorem Hart.writeC_barWait (h : Hart) (r : BitVec 3) (x : Bool) : (h.writeC r x).barWait = h.barWait := by unfold Hart.writeC; split <;> rfl
@[simp] theorem Hart.writeC_barEnd (h : Hart) (r : BitVec 3) (x : Bool) : (h.writeC r x).barEnd = h.barEnd := by unfold Hart.writeC; split <;> rfl
@[simp] theorem Hart.writeC_rloadTag (h : Hart) (r : BitVec 3) (x : Bool) : (h.writeC r x).rloadTag = h.rloadTag := by unfold Hart.writeC; split <;> rfl
@[simp] theorem Hart.writeC_rload (h : Hart) (r : BitVec 3) (x : Bool) : (h.writeC r x).rload = h.rload := by unfold Hart.writeC; split <;> rfl
@[simp] theorem Hart.writeC_remote (h : Hart) (r : BitVec 3) (x : Bool) : (h.writeC r x).remote = h.remote := by unfold Hart.writeC; split <;> rfl
@[simp] theorem Hart.writeC_resend (h : Hart) (r : BitVec 3) (x : Bool) : (h.writeC r x).resend = h.resend := by unfold Hart.writeC; split <;> rfl
@[simp] theorem Hart.writeC_away (h : Hart) (r : BitVec 3) (x : Bool) : (h.writeC r x).away = h.away := by unfold Hart.writeC; split <;> rfl
@[simp] theorem Hart.writeC_spanEnd (h : Hart) (r : BitVec 3) (x : Bool) : (h.writeC r x).spanEnd = h.spanEnd := by unfold Hart.writeC; split <;> rfl
@[simp] theorem Hart.writeC_devReads (h : Hart) (r : BitVec 3) (x : Bool) : (h.writeC r x).devReads = h.devReads := by unfold Hart.writeC; split <;> rfl
@[simp] theorem Hart.writeC_devUsed (h : Hart) (r : BitVec 3) (x : Bool) : (h.writeC r x).devUsed = h.devUsed := by unfold Hart.writeC; split <;> rfl
@[simp] theorem Hart.writeC_devWait (h : Hart) (r : BitVec 3) (x : Bool) : (h.writeC r x).devWait = h.devWait := by unfold Hart.writeC; split <;> rfl
@[simp] theorem Hart.writeC_devError (h : Hart) (r : BitVec 3) (x : Bool) : (h.writeC r x).devError = h.devError := by unfold Hart.writeC; split <;> rfl
@[simp] theorem Hart.writeC_ecc (h : Hart) (r : BitVec 3) (x : Bool) : (h.writeC r x).ecc = h.ecc := by unfold Hart.writeC; split <;> rfl
@[simp] theorem Hart.writeC_waitCount (h : Hart) (r : BitVec 3) (x : Bool) : (h.writeC r x).waitCount = h.waitCount := by unfold Hart.writeC; split <;> rfl
@[simp] theorem Hart.writeC_readySince (h : Hart) (r : BitVec 3) (x : Bool) : (h.writeC r x).readySince = h.readySince := by unfold Hart.writeC; split <;> rfl

@[simp] theorem Hart.setVstart_ctx (h : Hart) (n : Nat) : (h.setVstart n).ctx = h.ctx := rfl
@[simp] theorem Hart.setVstart_gang (h : Hart) (n : Nat) : (h.setVstart n).gang = h.gang := rfl
@[simp] theorem Hart.setVstart_gangId (h : Hart) (n : Nat) : (h.setVstart n).gangId = h.gangId := rfl
@[simp] theorem Hart.setVstart_launch (h : Hart) (n : Nat) : (h.setVstart n).launch = h.launch := rfl
@[simp] theorem Hart.setVstart_index (h : Hart) (n : Nat) : (h.setVstart n).index = h.index := rfl
@[simp] theorem Hart.setVstart_priv (h : Hart) (n : Nat) : (h.setVstart n).priv = h.priv := rfl
@[simp] theorem Hart.setVstart_recPriv (h : Hart) (n : Nat) : (h.setVstart n).recPriv = h.recPriv := rfl
@[simp] theorem Hart.setVstart_privSince (h : Hart) (n : Nat) : (h.setVstart n).privSince = h.privSince := rfl
@[simp] theorem Hart.setVstart_pc (h : Hart) (n : Nat) : (h.setVstart n).pc = h.pc := rfl
@[simp] theorem Hart.setVstart_s (h : Hart) (n : Nat) : (h.setVstart n).s = h.s := rfl
@[simp] theorem Hart.setVstart_cb (h : Hart) (n : Nat) : (h.setVstart n).cb = h.cb := rfl
@[simp] theorem Hart.setVstart_v (h : Hart) (n : Nat) : (h.setVstart n).v = h.v := rfl
@[simp] theorem Hart.setVstart_m (h : Hart) (n : Nat) : (h.setVstart n).m = h.m := rfl
@[simp] theorem Hart.setVstart_acc (h : Hart) (n : Nat) : (h.setVstart n).acc = h.acc := rfl
@[simp] theorem Hart.setVstart_vl (h : Hart) (n : Nat) : (h.setVstart n).vl = h.vl := rfl
@[simp] theorem Hart.setVstart_vlUnset (h : Hart) (n : Nat) : (h.setVstart n).vlUnset = h.vlUnset := rfl
@[simp] theorem Hart.setVstart_mxm (h : Hart) (n : Nat) : (h.setVstart n).mxm = h.mxm := rfl
@[simp] theorem Hart.setVstart_et (h : Hart) (n : Nat) : (h.setVstart n).et = h.et := rfl
@[simp] theorem Hart.setVstart_g (h : Hart) (n : Nat) : (h.setVstart n).g = h.g := rfl
@[simp] theorem Hart.setVstart_vdirty (h : Hart) (n : Nat) : (h.setVstart n).vdirty = h.vdirty := rfl
@[simp] theorem Hart.setVstart_laneCur (h : Hart) (n : Nat) : (h.setVstart n).laneCur = h.laneCur := rfl
@[simp] theorem Hart.setVstart_laneNext (h : Hart) (n : Nat) : (h.setVstart n).laneNext = h.laneNext := rfl
@[simp] theorem Hart.setVstart_gmap (h : Hart) (n : Nat) : (h.setVstart n).gmap = h.gmap := rfl
@[simp] theorem Hart.setVstart_fflags (h : Hart) (n : Nat) : (h.setVstart n).fflags = h.fflags := rfl
@[simp] theorem Hart.setVstart_tcause (h : Hart) (n : Nat) : (h.setVstart n).tcause = h.tcause := rfl
@[simp] theorem Hart.setVstart_tinfo (h : Hart) (n : Nat) : (h.setVstart n).tinfo = h.tinfo := rfl
@[simp] theorem Hart.setVstart_epc (h : Hart) (n : Nat) : (h.setVstart n).epc = h.epc := rfl
@[simp] theorem Hart.setVstart_taddr (h : Hart) (n : Nat) : (h.setVstart n).taddr = h.taddr := rfl
@[simp] theorem Hart.setVstart_pend (h : Hart) (n : Nat) : (h.setVstart n).pend = h.pend := rfl
@[simp] theorem Hart.setVstart_tags (h : Hart) (n : Nat) : (h.setVstart n).tags = h.tags := rfl
@[simp] theorem Hart.setVstart_tagDst (h : Hart) (n : Nat) : (h.setVstart n).tagDst = h.tagDst := rfl
@[simp] theorem Hart.setVstart_xfers (h : Hart) (n : Nat) : (h.setVstart n).xfers = h.xfers := rfl
@[simp] theorem Hart.setVstart_vq (h : Hart) (n : Nat) : (h.setVstart n).vq = h.vq := rfl
@[simp] theorem Hart.setVstart_win (h : Hart) (n : Nat) : (h.setVstart n).win = h.win := rfl
@[simp] theorem Hart.setVstart_frame (h : Hart) (n : Nat) : (h.setVstart n).frame = h.frame := rfl
@[simp] theorem Hart.setVstart_pre (h : Hart) (n : Nat) : (h.setVstart n).pre = h.pre := rfl
@[simp] theorem Hart.setVstart_owed (h : Hart) (n : Nat) : (h.setVstart n).owed = h.owed := rfl
@[simp] theorem Hart.setVstart_gbar (h : Hart) (n : Nat) : (h.setVstart n).gbar = h.gbar := rfl
@[simp] theorem Hart.setVstart_barWait (h : Hart) (n : Nat) : (h.setVstart n).barWait = h.barWait := rfl
@[simp] theorem Hart.setVstart_barEnd (h : Hart) (n : Nat) : (h.setVstart n).barEnd = h.barEnd := rfl
@[simp] theorem Hart.setVstart_rloadTag (h : Hart) (n : Nat) : (h.setVstart n).rloadTag = h.rloadTag := rfl
@[simp] theorem Hart.setVstart_rload (h : Hart) (n : Nat) : (h.setVstart n).rload = h.rload := rfl
@[simp] theorem Hart.setVstart_remote (h : Hart) (n : Nat) : (h.setVstart n).remote = h.remote := rfl
@[simp] theorem Hart.setVstart_resend (h : Hart) (n : Nat) : (h.setVstart n).resend = h.resend := rfl
@[simp] theorem Hart.setVstart_away (h : Hart) (n : Nat) : (h.setVstart n).away = h.away := rfl
@[simp] theorem Hart.setVstart_spanEnd (h : Hart) (n : Nat) : (h.setVstart n).spanEnd = h.spanEnd := rfl
@[simp] theorem Hart.setVstart_devReads (h : Hart) (n : Nat) : (h.setVstart n).devReads = h.devReads := rfl
@[simp] theorem Hart.setVstart_devUsed (h : Hart) (n : Nat) : (h.setVstart n).devUsed = h.devUsed := rfl
@[simp] theorem Hart.setVstart_devWait (h : Hart) (n : Nat) : (h.setVstart n).devWait = h.devWait := rfl
@[simp] theorem Hart.setVstart_devError (h : Hart) (n : Nat) : (h.setVstart n).devError = h.devError := rfl
@[simp] theorem Hart.setVstart_ecc (h : Hart) (n : Nat) : (h.setVstart n).ecc = h.ecc := rfl
@[simp] theorem Hart.setVstart_waitCount (h : Hart) (n : Nat) : (h.setVstart n).waitCount = h.waitCount := rfl
@[simp] theorem Hart.setVstart_readySince (h : Hart) (n : Nat) : (h.setVstart n).readySince = h.readySince := rfl

@[simp] theorem Hart.setVl_ctx (h : Hart) (n : Nat) : (h.setVl n).ctx = h.ctx := rfl
@[simp] theorem Hart.setVl_gang (h : Hart) (n : Nat) : (h.setVl n).gang = h.gang := rfl
@[simp] theorem Hart.setVl_gangId (h : Hart) (n : Nat) : (h.setVl n).gangId = h.gangId := rfl
@[simp] theorem Hart.setVl_launch (h : Hart) (n : Nat) : (h.setVl n).launch = h.launch := rfl
@[simp] theorem Hart.setVl_index (h : Hart) (n : Nat) : (h.setVl n).index = h.index := rfl
@[simp] theorem Hart.setVl_priv (h : Hart) (n : Nat) : (h.setVl n).priv = h.priv := rfl
@[simp] theorem Hart.setVl_recPriv (h : Hart) (n : Nat) : (h.setVl n).recPriv = h.recPriv := rfl
@[simp] theorem Hart.setVl_privSince (h : Hart) (n : Nat) : (h.setVl n).privSince = h.privSince := rfl
@[simp] theorem Hart.setVl_pc (h : Hart) (n : Nat) : (h.setVl n).pc = h.pc := rfl
@[simp] theorem Hart.setVl_s (h : Hart) (n : Nat) : (h.setVl n).s = h.s := rfl
@[simp] theorem Hart.setVl_cb (h : Hart) (n : Nat) : (h.setVl n).cb = h.cb := rfl
@[simp] theorem Hart.setVl_v (h : Hart) (n : Nat) : (h.setVl n).v = h.v := rfl
@[simp] theorem Hart.setVl_m (h : Hart) (n : Nat) : (h.setVl n).m = h.m := rfl
@[simp] theorem Hart.setVl_acc (h : Hart) (n : Nat) : (h.setVl n).acc = h.acc := rfl
@[simp] theorem Hart.setVl_vlUnset (h : Hart) (n : Nat) : (h.setVl n).vlUnset = h.vlUnset := rfl
@[simp] theorem Hart.setVl_mxm (h : Hart) (n : Nat) : (h.setVl n).mxm = h.mxm := rfl
@[simp] theorem Hart.setVl_et (h : Hart) (n : Nat) : (h.setVl n).et = h.et := rfl
@[simp] theorem Hart.setVl_g (h : Hart) (n : Nat) : (h.setVl n).g = h.g := rfl
@[simp] theorem Hart.setVl_vc (h : Hart) (n : Nat) : (h.setVl n).vc = h.vc := rfl
@[simp] theorem Hart.setVl_vdirty (h : Hart) (n : Nat) : (h.setVl n).vdirty = h.vdirty := rfl
@[simp] theorem Hart.setVl_laneCur (h : Hart) (n : Nat) : (h.setVl n).laneCur = h.laneCur := rfl
@[simp] theorem Hart.setVl_laneNext (h : Hart) (n : Nat) : (h.setVl n).laneNext = h.laneNext := rfl
@[simp] theorem Hart.setVl_gmap (h : Hart) (n : Nat) : (h.setVl n).gmap = h.gmap := rfl
@[simp] theorem Hart.setVl_fflags (h : Hart) (n : Nat) : (h.setVl n).fflags = h.fflags := rfl
@[simp] theorem Hart.setVl_tcause (h : Hart) (n : Nat) : (h.setVl n).tcause = h.tcause := rfl
@[simp] theorem Hart.setVl_tinfo (h : Hart) (n : Nat) : (h.setVl n).tinfo = h.tinfo := rfl
@[simp] theorem Hart.setVl_epc (h : Hart) (n : Nat) : (h.setVl n).epc = h.epc := rfl
@[simp] theorem Hart.setVl_taddr (h : Hart) (n : Nat) : (h.setVl n).taddr = h.taddr := rfl
@[simp] theorem Hart.setVl_pend (h : Hart) (n : Nat) : (h.setVl n).pend = h.pend := rfl
@[simp] theorem Hart.setVl_tags (h : Hart) (n : Nat) : (h.setVl n).tags = h.tags := rfl
@[simp] theorem Hart.setVl_tagDst (h : Hart) (n : Nat) : (h.setVl n).tagDst = h.tagDst := rfl
@[simp] theorem Hart.setVl_xfers (h : Hart) (n : Nat) : (h.setVl n).xfers = h.xfers := rfl
@[simp] theorem Hart.setVl_vq (h : Hart) (n : Nat) : (h.setVl n).vq = h.vq := rfl
@[simp] theorem Hart.setVl_win (h : Hart) (n : Nat) : (h.setVl n).win = h.win := rfl
@[simp] theorem Hart.setVl_frame (h : Hart) (n : Nat) : (h.setVl n).frame = h.frame := rfl
@[simp] theorem Hart.setVl_pre (h : Hart) (n : Nat) : (h.setVl n).pre = h.pre := rfl
@[simp] theorem Hart.setVl_owed (h : Hart) (n : Nat) : (h.setVl n).owed = h.owed := rfl
@[simp] theorem Hart.setVl_gbar (h : Hart) (n : Nat) : (h.setVl n).gbar = h.gbar := rfl
@[simp] theorem Hart.setVl_barWait (h : Hart) (n : Nat) : (h.setVl n).barWait = h.barWait := rfl
@[simp] theorem Hart.setVl_barEnd (h : Hart) (n : Nat) : (h.setVl n).barEnd = h.barEnd := rfl
@[simp] theorem Hart.setVl_rloadTag (h : Hart) (n : Nat) : (h.setVl n).rloadTag = h.rloadTag := rfl
@[simp] theorem Hart.setVl_rload (h : Hart) (n : Nat) : (h.setVl n).rload = h.rload := rfl
@[simp] theorem Hart.setVl_remote (h : Hart) (n : Nat) : (h.setVl n).remote = h.remote := rfl
@[simp] theorem Hart.setVl_resend (h : Hart) (n : Nat) : (h.setVl n).resend = h.resend := rfl
@[simp] theorem Hart.setVl_away (h : Hart) (n : Nat) : (h.setVl n).away = h.away := rfl
@[simp] theorem Hart.setVl_spanEnd (h : Hart) (n : Nat) : (h.setVl n).spanEnd = h.spanEnd := rfl
@[simp] theorem Hart.setVl_devReads (h : Hart) (n : Nat) : (h.setVl n).devReads = h.devReads := rfl
@[simp] theorem Hart.setVl_devUsed (h : Hart) (n : Nat) : (h.setVl n).devUsed = h.devUsed := rfl
@[simp] theorem Hart.setVl_devWait (h : Hart) (n : Nat) : (h.setVl n).devWait = h.devWait := rfl
@[simp] theorem Hart.setVl_devError (h : Hart) (n : Nat) : (h.setVl n).devError = h.devError := rfl
@[simp] theorem Hart.setVl_ecc (h : Hart) (n : Nat) : (h.setVl n).ecc = h.ecc := rfl
@[simp] theorem Hart.setVl_waitCount (h : Hart) (n : Nat) : (h.setVl n).waitCount = h.waitCount := rfl
@[simp] theorem Hart.setVl_readySince (h : Hart) (n : Nat) : (h.setVl n).readySince = h.readySince := rfl

@[simp] theorem Hart.dirty_ctx (h : Hart) (r g : Nat) : (h.dirty r g).ctx = h.ctx := rfl
@[simp] theorem Hart.dirty_gang (h : Hart) (r g : Nat) : (h.dirty r g).gang = h.gang := rfl
@[simp] theorem Hart.dirty_gangId (h : Hart) (r g : Nat) : (h.dirty r g).gangId = h.gangId := rfl
@[simp] theorem Hart.dirty_launch (h : Hart) (r g : Nat) : (h.dirty r g).launch = h.launch := rfl
@[simp] theorem Hart.dirty_index (h : Hart) (r g : Nat) : (h.dirty r g).index = h.index := rfl
@[simp] theorem Hart.dirty_priv (h : Hart) (r g : Nat) : (h.dirty r g).priv = h.priv := rfl
@[simp] theorem Hart.dirty_recPriv (h : Hart) (r g : Nat) : (h.dirty r g).recPriv = h.recPriv := rfl
@[simp] theorem Hart.dirty_privSince (h : Hart) (r g : Nat) : (h.dirty r g).privSince = h.privSince := rfl
@[simp] theorem Hart.dirty_pc (h : Hart) (r g : Nat) : (h.dirty r g).pc = h.pc := rfl
@[simp] theorem Hart.dirty_s (h : Hart) (r g : Nat) : (h.dirty r g).s = h.s := rfl
@[simp] theorem Hart.dirty_cb (h : Hart) (r g : Nat) : (h.dirty r g).cb = h.cb := rfl
@[simp] theorem Hart.dirty_v (h : Hart) (r g : Nat) : (h.dirty r g).v = h.v := rfl
@[simp] theorem Hart.dirty_m (h : Hart) (r g : Nat) : (h.dirty r g).m = h.m := rfl
@[simp] theorem Hart.dirty_acc (h : Hart) (r g : Nat) : (h.dirty r g).acc = h.acc := rfl
@[simp] theorem Hart.dirty_vl (h : Hart) (r g : Nat) : (h.dirty r g).vl = h.vl := rfl
@[simp] theorem Hart.dirty_vlUnset (h : Hart) (r g : Nat) : (h.dirty r g).vlUnset = h.vlUnset := rfl
@[simp] theorem Hart.dirty_mxm (h : Hart) (r g : Nat) : (h.dirty r g).mxm = h.mxm := rfl
@[simp] theorem Hart.dirty_et (h : Hart) (r g : Nat) : (h.dirty r g).et = h.et := rfl
@[simp] theorem Hart.dirty_g (h : Hart) (r g : Nat) : (h.dirty r g).g = h.g := rfl
@[simp] theorem Hart.dirty_vc (h : Hart) (r g : Nat) : (h.dirty r g).vc = h.vc := rfl
@[simp] theorem Hart.dirty_laneCur (h : Hart) (r g : Nat) : (h.dirty r g).laneCur = h.laneCur := rfl
@[simp] theorem Hart.dirty_laneNext (h : Hart) (r g : Nat) : (h.dirty r g).laneNext = h.laneNext := rfl
@[simp] theorem Hart.dirty_gmap (h : Hart) (r g : Nat) : (h.dirty r g).gmap = h.gmap := rfl
@[simp] theorem Hart.dirty_fflags (h : Hart) (r g : Nat) : (h.dirty r g).fflags = h.fflags := rfl
@[simp] theorem Hart.dirty_tcause (h : Hart) (r g : Nat) : (h.dirty r g).tcause = h.tcause := rfl
@[simp] theorem Hart.dirty_tinfo (h : Hart) (r g : Nat) : (h.dirty r g).tinfo = h.tinfo := rfl
@[simp] theorem Hart.dirty_epc (h : Hart) (r g : Nat) : (h.dirty r g).epc = h.epc := rfl
@[simp] theorem Hart.dirty_taddr (h : Hart) (r g : Nat) : (h.dirty r g).taddr = h.taddr := rfl
@[simp] theorem Hart.dirty_pend (h : Hart) (r g : Nat) : (h.dirty r g).pend = h.pend := rfl
@[simp] theorem Hart.dirty_tags (h : Hart) (r g : Nat) : (h.dirty r g).tags = h.tags := rfl
@[simp] theorem Hart.dirty_tagDst (h : Hart) (r g : Nat) : (h.dirty r g).tagDst = h.tagDst := rfl
@[simp] theorem Hart.dirty_xfers (h : Hart) (r g : Nat) : (h.dirty r g).xfers = h.xfers := rfl
@[simp] theorem Hart.dirty_vq (h : Hart) (r g : Nat) : (h.dirty r g).vq = h.vq := rfl
@[simp] theorem Hart.dirty_win (h : Hart) (r g : Nat) : (h.dirty r g).win = h.win := rfl
@[simp] theorem Hart.dirty_frame (h : Hart) (r g : Nat) : (h.dirty r g).frame = h.frame := rfl
@[simp] theorem Hart.dirty_pre (h : Hart) (r g : Nat) : (h.dirty r g).pre = h.pre := rfl
@[simp] theorem Hart.dirty_owed (h : Hart) (r g : Nat) : (h.dirty r g).owed = h.owed := rfl
@[simp] theorem Hart.dirty_gbar (h : Hart) (r g : Nat) : (h.dirty r g).gbar = h.gbar := rfl
@[simp] theorem Hart.dirty_barWait (h : Hart) (r g : Nat) : (h.dirty r g).barWait = h.barWait := rfl
@[simp] theorem Hart.dirty_barEnd (h : Hart) (r g : Nat) : (h.dirty r g).barEnd = h.barEnd := rfl
@[simp] theorem Hart.dirty_rloadTag (h : Hart) (r g : Nat) : (h.dirty r g).rloadTag = h.rloadTag := rfl
@[simp] theorem Hart.dirty_rload (h : Hart) (r g : Nat) : (h.dirty r g).rload = h.rload := rfl
@[simp] theorem Hart.dirty_remote (h : Hart) (r g : Nat) : (h.dirty r g).remote = h.remote := rfl
@[simp] theorem Hart.dirty_resend (h : Hart) (r g : Nat) : (h.dirty r g).resend = h.resend := rfl
@[simp] theorem Hart.dirty_away (h : Hart) (r g : Nat) : (h.dirty r g).away = h.away := rfl
@[simp] theorem Hart.dirty_spanEnd (h : Hart) (r g : Nat) : (h.dirty r g).spanEnd = h.spanEnd := rfl
@[simp] theorem Hart.dirty_devReads (h : Hart) (r g : Nat) : (h.dirty r g).devReads = h.devReads := rfl
@[simp] theorem Hart.dirty_devUsed (h : Hart) (r g : Nat) : (h.dirty r g).devUsed = h.devUsed := rfl
@[simp] theorem Hart.dirty_devWait (h : Hart) (r g : Nat) : (h.dirty r g).devWait = h.devWait := rfl
@[simp] theorem Hart.dirty_devError (h : Hart) (r g : Nat) : (h.dirty r g).devError = h.devError := rfl
@[simp] theorem Hart.dirty_ecc (h : Hart) (r g : Nat) : (h.dirty r g).ecc = h.ecc := rfl
@[simp] theorem Hart.dirty_waitCount (h : Hart) (r g : Nat) : (h.dirty r g).waitCount = h.waitCount := rfl
@[simp] theorem Hart.dirty_readySince (h : Hart) (r g : Nat) : (h.dirty r g).readySince = h.readySince := rfl

@[simp] theorem Hart.setBytes_ctx (h : Hart) (r e i o n v : Nat) : (h.setBytes r e i o n v).ctx = h.ctx := rfl
@[simp] theorem Hart.setBytes_gang (h : Hart) (r e i o n v : Nat) : (h.setBytes r e i o n v).gang = h.gang := rfl
@[simp] theorem Hart.setBytes_gangId (h : Hart) (r e i o n v : Nat) : (h.setBytes r e i o n v).gangId = h.gangId := rfl
@[simp] theorem Hart.setBytes_launch (h : Hart) (r e i o n v : Nat) : (h.setBytes r e i o n v).launch = h.launch := rfl
@[simp] theorem Hart.setBytes_index (h : Hart) (r e i o n v : Nat) : (h.setBytes r e i o n v).index = h.index := rfl
@[simp] theorem Hart.setBytes_priv (h : Hart) (r e i o n v : Nat) : (h.setBytes r e i o n v).priv = h.priv := rfl
@[simp] theorem Hart.setBytes_recPriv (h : Hart) (r e i o n v : Nat) : (h.setBytes r e i o n v).recPriv = h.recPriv := rfl
@[simp] theorem Hart.setBytes_privSince (h : Hart) (r e i o n v : Nat) : (h.setBytes r e i o n v).privSince = h.privSince := rfl
@[simp] theorem Hart.setBytes_pc (h : Hart) (r e i o n v : Nat) : (h.setBytes r e i o n v).pc = h.pc := rfl
@[simp] theorem Hart.setBytes_s (h : Hart) (r e i o n v : Nat) : (h.setBytes r e i o n v).s = h.s := rfl
@[simp] theorem Hart.setBytes_cb (h : Hart) (r e i o n v : Nat) : (h.setBytes r e i o n v).cb = h.cb := rfl
@[simp] theorem Hart.setBytes_m (h : Hart) (r e i o n v : Nat) : (h.setBytes r e i o n v).m = h.m := rfl
@[simp] theorem Hart.setBytes_acc (h : Hart) (r e i o n v : Nat) : (h.setBytes r e i o n v).acc = h.acc := rfl
@[simp] theorem Hart.setBytes_vl (h : Hart) (r e i o n v : Nat) : (h.setBytes r e i o n v).vl = h.vl := rfl
@[simp] theorem Hart.setBytes_vlUnset (h : Hart) (r e i o n v : Nat) : (h.setBytes r e i o n v).vlUnset = h.vlUnset := rfl
@[simp] theorem Hart.setBytes_mxm (h : Hart) (r e i o n v : Nat) : (h.setBytes r e i o n v).mxm = h.mxm := rfl
@[simp] theorem Hart.setBytes_et (h : Hart) (r e i o n v : Nat) : (h.setBytes r e i o n v).et = h.et := rfl
@[simp] theorem Hart.setBytes_g (h : Hart) (r e i o n v : Nat) : (h.setBytes r e i o n v).g = h.g := rfl
@[simp] theorem Hart.setBytes_vc (h : Hart) (r e i o n v : Nat) : (h.setBytes r e i o n v).vc = h.vc := rfl
@[simp] theorem Hart.setBytes_vdirty (h : Hart) (r e i o n v : Nat) : (h.setBytes r e i o n v).vdirty = h.vdirty := rfl
@[simp] theorem Hart.setBytes_laneCur (h : Hart) (r e i o n v : Nat) : (h.setBytes r e i o n v).laneCur = h.laneCur := rfl
@[simp] theorem Hart.setBytes_laneNext (h : Hart) (r e i o n v : Nat) : (h.setBytes r e i o n v).laneNext = h.laneNext := rfl
@[simp] theorem Hart.setBytes_gmap (h : Hart) (r e i o n v : Nat) : (h.setBytes r e i o n v).gmap = h.gmap := rfl
@[simp] theorem Hart.setBytes_fflags (h : Hart) (r e i o n v : Nat) : (h.setBytes r e i o n v).fflags = h.fflags := rfl
@[simp] theorem Hart.setBytes_tcause (h : Hart) (r e i o n v : Nat) : (h.setBytes r e i o n v).tcause = h.tcause := rfl
@[simp] theorem Hart.setBytes_tinfo (h : Hart) (r e i o n v : Nat) : (h.setBytes r e i o n v).tinfo = h.tinfo := rfl
@[simp] theorem Hart.setBytes_epc (h : Hart) (r e i o n v : Nat) : (h.setBytes r e i o n v).epc = h.epc := rfl
@[simp] theorem Hart.setBytes_taddr (h : Hart) (r e i o n v : Nat) : (h.setBytes r e i o n v).taddr = h.taddr := rfl
@[simp] theorem Hart.setBytes_pend (h : Hart) (r e i o n v : Nat) : (h.setBytes r e i o n v).pend = h.pend := rfl
@[simp] theorem Hart.setBytes_tags (h : Hart) (r e i o n v : Nat) : (h.setBytes r e i o n v).tags = h.tags := rfl
@[simp] theorem Hart.setBytes_tagDst (h : Hart) (r e i o n v : Nat) : (h.setBytes r e i o n v).tagDst = h.tagDst := rfl
@[simp] theorem Hart.setBytes_xfers (h : Hart) (r e i o n v : Nat) : (h.setBytes r e i o n v).xfers = h.xfers := rfl
@[simp] theorem Hart.setBytes_vq (h : Hart) (r e i o n v : Nat) : (h.setBytes r e i o n v).vq = h.vq := rfl
@[simp] theorem Hart.setBytes_win (h : Hart) (r e i o n v : Nat) : (h.setBytes r e i o n v).win = h.win := rfl
@[simp] theorem Hart.setBytes_frame (h : Hart) (r e i o n v : Nat) : (h.setBytes r e i o n v).frame = h.frame := rfl
@[simp] theorem Hart.setBytes_pre (h : Hart) (r e i o n v : Nat) : (h.setBytes r e i o n v).pre = h.pre := rfl
@[simp] theorem Hart.setBytes_owed (h : Hart) (r e i o n v : Nat) : (h.setBytes r e i o n v).owed = h.owed := rfl
@[simp] theorem Hart.setBytes_gbar (h : Hart) (r e i o n v : Nat) : (h.setBytes r e i o n v).gbar = h.gbar := rfl
@[simp] theorem Hart.setBytes_barWait (h : Hart) (r e i o n v : Nat) : (h.setBytes r e i o n v).barWait = h.barWait := rfl
@[simp] theorem Hart.setBytes_barEnd (h : Hart) (r e i o n v : Nat) : (h.setBytes r e i o n v).barEnd = h.barEnd := rfl
@[simp] theorem Hart.setBytes_rloadTag (h : Hart) (r e i o n v : Nat) : (h.setBytes r e i o n v).rloadTag = h.rloadTag := rfl
@[simp] theorem Hart.setBytes_rload (h : Hart) (r e i o n v : Nat) : (h.setBytes r e i o n v).rload = h.rload := rfl
@[simp] theorem Hart.setBytes_remote (h : Hart) (r e i o n v : Nat) : (h.setBytes r e i o n v).remote = h.remote := rfl
@[simp] theorem Hart.setBytes_resend (h : Hart) (r e i o n v : Nat) : (h.setBytes r e i o n v).resend = h.resend := rfl
@[simp] theorem Hart.setBytes_away (h : Hart) (r e i o n v : Nat) : (h.setBytes r e i o n v).away = h.away := rfl
@[simp] theorem Hart.setBytes_spanEnd (h : Hart) (r e i o n v : Nat) : (h.setBytes r e i o n v).spanEnd = h.spanEnd := rfl
@[simp] theorem Hart.setBytes_devReads (h : Hart) (r e i o n v : Nat) : (h.setBytes r e i o n v).devReads = h.devReads := rfl
@[simp] theorem Hart.setBytes_devUsed (h : Hart) (r e i o n v : Nat) : (h.setBytes r e i o n v).devUsed = h.devUsed := rfl
@[simp] theorem Hart.setBytes_devWait (h : Hart) (r e i o n v : Nat) : (h.setBytes r e i o n v).devWait = h.devWait := rfl
@[simp] theorem Hart.setBytes_devError (h : Hart) (r e i o n v : Nat) : (h.setBytes r e i o n v).devError = h.devError := rfl
@[simp] theorem Hart.setBytes_ecc (h : Hart) (r e i o n v : Nat) : (h.setBytes r e i o n v).ecc = h.ecc := rfl
@[simp] theorem Hart.setBytes_waitCount (h : Hart) (r e i o n v : Nat) : (h.setBytes r e i o n v).waitCount = h.waitCount := rfl
@[simp] theorem Hart.setBytes_readySince (h : Hart) (r e i o n v : Nat) : (h.setBytes r e i o n v).readySince = h.readySince := rfl

@[simp] theorem Hart.setEl_ctx (h : Hart) (r e i v : Nat) : (h.setEl r e i v).ctx = h.ctx := rfl
@[simp] theorem Hart.setEl_gang (h : Hart) (r e i v : Nat) : (h.setEl r e i v).gang = h.gang := rfl
@[simp] theorem Hart.setEl_gangId (h : Hart) (r e i v : Nat) : (h.setEl r e i v).gangId = h.gangId := rfl
@[simp] theorem Hart.setEl_launch (h : Hart) (r e i v : Nat) : (h.setEl r e i v).launch = h.launch := rfl
@[simp] theorem Hart.setEl_index (h : Hart) (r e i v : Nat) : (h.setEl r e i v).index = h.index := rfl
@[simp] theorem Hart.setEl_priv (h : Hart) (r e i v : Nat) : (h.setEl r e i v).priv = h.priv := rfl
@[simp] theorem Hart.setEl_recPriv (h : Hart) (r e i v : Nat) : (h.setEl r e i v).recPriv = h.recPriv := rfl
@[simp] theorem Hart.setEl_privSince (h : Hart) (r e i v : Nat) : (h.setEl r e i v).privSince = h.privSince := rfl
@[simp] theorem Hart.setEl_pc (h : Hart) (r e i v : Nat) : (h.setEl r e i v).pc = h.pc := rfl
@[simp] theorem Hart.setEl_s (h : Hart) (r e i v : Nat) : (h.setEl r e i v).s = h.s := rfl
@[simp] theorem Hart.setEl_cb (h : Hart) (r e i v : Nat) : (h.setEl r e i v).cb = h.cb := rfl
@[simp] theorem Hart.setEl_m (h : Hart) (r e i v : Nat) : (h.setEl r e i v).m = h.m := rfl
@[simp] theorem Hart.setEl_acc (h : Hart) (r e i v : Nat) : (h.setEl r e i v).acc = h.acc := rfl
@[simp] theorem Hart.setEl_vl (h : Hart) (r e i v : Nat) : (h.setEl r e i v).vl = h.vl := rfl
@[simp] theorem Hart.setEl_vlUnset (h : Hart) (r e i v : Nat) : (h.setEl r e i v).vlUnset = h.vlUnset := rfl
@[simp] theorem Hart.setEl_mxm (h : Hart) (r e i v : Nat) : (h.setEl r e i v).mxm = h.mxm := rfl
@[simp] theorem Hart.setEl_et (h : Hart) (r e i v : Nat) : (h.setEl r e i v).et = h.et := rfl
@[simp] theorem Hart.setEl_g (h : Hart) (r e i v : Nat) : (h.setEl r e i v).g = h.g := rfl
@[simp] theorem Hart.setEl_vc (h : Hart) (r e i v : Nat) : (h.setEl r e i v).vc = h.vc := rfl
@[simp] theorem Hart.setEl_vdirty (h : Hart) (r e i v : Nat) : (h.setEl r e i v).vdirty = h.vdirty := rfl
@[simp] theorem Hart.setEl_laneCur (h : Hart) (r e i v : Nat) : (h.setEl r e i v).laneCur = h.laneCur := rfl
@[simp] theorem Hart.setEl_laneNext (h : Hart) (r e i v : Nat) : (h.setEl r e i v).laneNext = h.laneNext := rfl
@[simp] theorem Hart.setEl_gmap (h : Hart) (r e i v : Nat) : (h.setEl r e i v).gmap = h.gmap := rfl
@[simp] theorem Hart.setEl_fflags (h : Hart) (r e i v : Nat) : (h.setEl r e i v).fflags = h.fflags := rfl
@[simp] theorem Hart.setEl_tcause (h : Hart) (r e i v : Nat) : (h.setEl r e i v).tcause = h.tcause := rfl
@[simp] theorem Hart.setEl_tinfo (h : Hart) (r e i v : Nat) : (h.setEl r e i v).tinfo = h.tinfo := rfl
@[simp] theorem Hart.setEl_epc (h : Hart) (r e i v : Nat) : (h.setEl r e i v).epc = h.epc := rfl
@[simp] theorem Hart.setEl_taddr (h : Hart) (r e i v : Nat) : (h.setEl r e i v).taddr = h.taddr := rfl
@[simp] theorem Hart.setEl_pend (h : Hart) (r e i v : Nat) : (h.setEl r e i v).pend = h.pend := rfl
@[simp] theorem Hart.setEl_tags (h : Hart) (r e i v : Nat) : (h.setEl r e i v).tags = h.tags := rfl
@[simp] theorem Hart.setEl_tagDst (h : Hart) (r e i v : Nat) : (h.setEl r e i v).tagDst = h.tagDst := rfl
@[simp] theorem Hart.setEl_xfers (h : Hart) (r e i v : Nat) : (h.setEl r e i v).xfers = h.xfers := rfl
@[simp] theorem Hart.setEl_vq (h : Hart) (r e i v : Nat) : (h.setEl r e i v).vq = h.vq := rfl
@[simp] theorem Hart.setEl_win (h : Hart) (r e i v : Nat) : (h.setEl r e i v).win = h.win := rfl
@[simp] theorem Hart.setEl_frame (h : Hart) (r e i v : Nat) : (h.setEl r e i v).frame = h.frame := rfl
@[simp] theorem Hart.setEl_pre (h : Hart) (r e i v : Nat) : (h.setEl r e i v).pre = h.pre := rfl
@[simp] theorem Hart.setEl_owed (h : Hart) (r e i v : Nat) : (h.setEl r e i v).owed = h.owed := rfl
@[simp] theorem Hart.setEl_gbar (h : Hart) (r e i v : Nat) : (h.setEl r e i v).gbar = h.gbar := rfl
@[simp] theorem Hart.setEl_barWait (h : Hart) (r e i v : Nat) : (h.setEl r e i v).barWait = h.barWait := rfl
@[simp] theorem Hart.setEl_barEnd (h : Hart) (r e i v : Nat) : (h.setEl r e i v).barEnd = h.barEnd := rfl
@[simp] theorem Hart.setEl_rloadTag (h : Hart) (r e i v : Nat) : (h.setEl r e i v).rloadTag = h.rloadTag := rfl
@[simp] theorem Hart.setEl_rload (h : Hart) (r e i v : Nat) : (h.setEl r e i v).rload = h.rload := rfl
@[simp] theorem Hart.setEl_remote (h : Hart) (r e i v : Nat) : (h.setEl r e i v).remote = h.remote := rfl
@[simp] theorem Hart.setEl_resend (h : Hart) (r e i v : Nat) : (h.setEl r e i v).resend = h.resend := rfl
@[simp] theorem Hart.setEl_away (h : Hart) (r e i v : Nat) : (h.setEl r e i v).away = h.away := rfl
@[simp] theorem Hart.setEl_spanEnd (h : Hart) (r e i v : Nat) : (h.setEl r e i v).spanEnd = h.spanEnd := rfl
@[simp] theorem Hart.setEl_devReads (h : Hart) (r e i v : Nat) : (h.setEl r e i v).devReads = h.devReads := rfl
@[simp] theorem Hart.setEl_devUsed (h : Hart) (r e i v : Nat) : (h.setEl r e i v).devUsed = h.devUsed := rfl
@[simp] theorem Hart.setEl_devWait (h : Hart) (r e i v : Nat) : (h.setEl r e i v).devWait = h.devWait := rfl
@[simp] theorem Hart.setEl_devError (h : Hart) (r e i v : Nat) : (h.setEl r e i v).devError = h.devError := rfl
@[simp] theorem Hart.setEl_ecc (h : Hart) (r e i v : Nat) : (h.setEl r e i v).ecc = h.ecc := rfl
@[simp] theorem Hart.setEl_waitCount (h : Hart) (r e i v : Nat) : (h.setEl r e i v).waitCount = h.waitCount := rfl
@[simp] theorem Hart.setEl_readySince (h : Hart) (r e i v : Nat) : (h.setEl r e i v).readySince = h.readySince := rfl

@[simp] theorem Hart.setMask_ctx (h : Hart) (r i : Nat) (x : Bool) : (h.setMask r i x).ctx = h.ctx := by unfold Hart.setMask; split <;> rfl
@[simp] theorem Hart.setMask_gang (h : Hart) (r i : Nat) (x : Bool) : (h.setMask r i x).gang = h.gang := by unfold Hart.setMask; split <;> rfl
@[simp] theorem Hart.setMask_gangId (h : Hart) (r i : Nat) (x : Bool) : (h.setMask r i x).gangId = h.gangId := by unfold Hart.setMask; split <;> rfl
@[simp] theorem Hart.setMask_launch (h : Hart) (r i : Nat) (x : Bool) : (h.setMask r i x).launch = h.launch := by unfold Hart.setMask; split <;> rfl
@[simp] theorem Hart.setMask_index (h : Hart) (r i : Nat) (x : Bool) : (h.setMask r i x).index = h.index := by unfold Hart.setMask; split <;> rfl
@[simp] theorem Hart.setMask_priv (h : Hart) (r i : Nat) (x : Bool) : (h.setMask r i x).priv = h.priv := by unfold Hart.setMask; split <;> rfl
@[simp] theorem Hart.setMask_recPriv (h : Hart) (r i : Nat) (x : Bool) : (h.setMask r i x).recPriv = h.recPriv := by unfold Hart.setMask; split <;> rfl
@[simp] theorem Hart.setMask_privSince (h : Hart) (r i : Nat) (x : Bool) : (h.setMask r i x).privSince = h.privSince := by unfold Hart.setMask; split <;> rfl
@[simp] theorem Hart.setMask_pc (h : Hart) (r i : Nat) (x : Bool) : (h.setMask r i x).pc = h.pc := by unfold Hart.setMask; split <;> rfl
@[simp] theorem Hart.setMask_s (h : Hart) (r i : Nat) (x : Bool) : (h.setMask r i x).s = h.s := by unfold Hart.setMask; split <;> rfl
@[simp] theorem Hart.setMask_cb (h : Hart) (r i : Nat) (x : Bool) : (h.setMask r i x).cb = h.cb := by unfold Hart.setMask; split <;> rfl
@[simp] theorem Hart.setMask_v (h : Hart) (r i : Nat) (x : Bool) : (h.setMask r i x).v = h.v := by unfold Hart.setMask; split <;> rfl
@[simp] theorem Hart.setMask_acc (h : Hart) (r i : Nat) (x : Bool) : (h.setMask r i x).acc = h.acc := by unfold Hart.setMask; split <;> rfl
@[simp] theorem Hart.setMask_vl (h : Hart) (r i : Nat) (x : Bool) : (h.setMask r i x).vl = h.vl := by unfold Hart.setMask; split <;> rfl
@[simp] theorem Hart.setMask_vlUnset (h : Hart) (r i : Nat) (x : Bool) : (h.setMask r i x).vlUnset = h.vlUnset := by unfold Hart.setMask; split <;> rfl
@[simp] theorem Hart.setMask_mxm (h : Hart) (r i : Nat) (x : Bool) : (h.setMask r i x).mxm = h.mxm := by unfold Hart.setMask; split <;> rfl
@[simp] theorem Hart.setMask_et (h : Hart) (r i : Nat) (x : Bool) : (h.setMask r i x).et = h.et := by unfold Hart.setMask; split <;> rfl
@[simp] theorem Hart.setMask_g (h : Hart) (r i : Nat) (x : Bool) : (h.setMask r i x).g = h.g := by unfold Hart.setMask; split <;> rfl
@[simp] theorem Hart.setMask_vc (h : Hart) (r i : Nat) (x : Bool) : (h.setMask r i x).vc = h.vc := by unfold Hart.setMask; split <;> rfl
@[simp] theorem Hart.setMask_vdirty (h : Hart) (r i : Nat) (x : Bool) : (h.setMask r i x).vdirty = h.vdirty := by unfold Hart.setMask; split <;> rfl
@[simp] theorem Hart.setMask_laneCur (h : Hart) (r i : Nat) (x : Bool) : (h.setMask r i x).laneCur = h.laneCur := by unfold Hart.setMask; split <;> rfl
@[simp] theorem Hart.setMask_laneNext (h : Hart) (r i : Nat) (x : Bool) : (h.setMask r i x).laneNext = h.laneNext := by unfold Hart.setMask; split <;> rfl
@[simp] theorem Hart.setMask_gmap (h : Hart) (r i : Nat) (x : Bool) : (h.setMask r i x).gmap = h.gmap := by unfold Hart.setMask; split <;> rfl
@[simp] theorem Hart.setMask_fflags (h : Hart) (r i : Nat) (x : Bool) : (h.setMask r i x).fflags = h.fflags := by unfold Hart.setMask; split <;> rfl
@[simp] theorem Hart.setMask_tcause (h : Hart) (r i : Nat) (x : Bool) : (h.setMask r i x).tcause = h.tcause := by unfold Hart.setMask; split <;> rfl
@[simp] theorem Hart.setMask_tinfo (h : Hart) (r i : Nat) (x : Bool) : (h.setMask r i x).tinfo = h.tinfo := by unfold Hart.setMask; split <;> rfl
@[simp] theorem Hart.setMask_epc (h : Hart) (r i : Nat) (x : Bool) : (h.setMask r i x).epc = h.epc := by unfold Hart.setMask; split <;> rfl
@[simp] theorem Hart.setMask_taddr (h : Hart) (r i : Nat) (x : Bool) : (h.setMask r i x).taddr = h.taddr := by unfold Hart.setMask; split <;> rfl
@[simp] theorem Hart.setMask_pend (h : Hart) (r i : Nat) (x : Bool) : (h.setMask r i x).pend = h.pend := by unfold Hart.setMask; split <;> rfl
@[simp] theorem Hart.setMask_tags (h : Hart) (r i : Nat) (x : Bool) : (h.setMask r i x).tags = h.tags := by unfold Hart.setMask; split <;> rfl
@[simp] theorem Hart.setMask_tagDst (h : Hart) (r i : Nat) (x : Bool) : (h.setMask r i x).tagDst = h.tagDst := by unfold Hart.setMask; split <;> rfl
@[simp] theorem Hart.setMask_xfers (h : Hart) (r i : Nat) (x : Bool) : (h.setMask r i x).xfers = h.xfers := by unfold Hart.setMask; split <;> rfl
@[simp] theorem Hart.setMask_vq (h : Hart) (r i : Nat) (x : Bool) : (h.setMask r i x).vq = h.vq := by unfold Hart.setMask; split <;> rfl
@[simp] theorem Hart.setMask_win (h : Hart) (r i : Nat) (x : Bool) : (h.setMask r i x).win = h.win := by unfold Hart.setMask; split <;> rfl
@[simp] theorem Hart.setMask_frame (h : Hart) (r i : Nat) (x : Bool) : (h.setMask r i x).frame = h.frame := by unfold Hart.setMask; split <;> rfl
@[simp] theorem Hart.setMask_pre (h : Hart) (r i : Nat) (x : Bool) : (h.setMask r i x).pre = h.pre := by unfold Hart.setMask; split <;> rfl
@[simp] theorem Hart.setMask_owed (h : Hart) (r i : Nat) (x : Bool) : (h.setMask r i x).owed = h.owed := by unfold Hart.setMask; split <;> rfl
@[simp] theorem Hart.setMask_gbar (h : Hart) (r i : Nat) (x : Bool) : (h.setMask r i x).gbar = h.gbar := by unfold Hart.setMask; split <;> rfl
@[simp] theorem Hart.setMask_barWait (h : Hart) (r i : Nat) (x : Bool) : (h.setMask r i x).barWait = h.barWait := by unfold Hart.setMask; split <;> rfl
@[simp] theorem Hart.setMask_barEnd (h : Hart) (r i : Nat) (x : Bool) : (h.setMask r i x).barEnd = h.barEnd := by unfold Hart.setMask; split <;> rfl
@[simp] theorem Hart.setMask_rloadTag (h : Hart) (r i : Nat) (x : Bool) : (h.setMask r i x).rloadTag = h.rloadTag := by unfold Hart.setMask; split <;> rfl
@[simp] theorem Hart.setMask_rload (h : Hart) (r i : Nat) (x : Bool) : (h.setMask r i x).rload = h.rload := by unfold Hart.setMask; split <;> rfl
@[simp] theorem Hart.setMask_remote (h : Hart) (r i : Nat) (x : Bool) : (h.setMask r i x).remote = h.remote := by unfold Hart.setMask; split <;> rfl
@[simp] theorem Hart.setMask_resend (h : Hart) (r i : Nat) (x : Bool) : (h.setMask r i x).resend = h.resend := by unfold Hart.setMask; split <;> rfl
@[simp] theorem Hart.setMask_away (h : Hart) (r i : Nat) (x : Bool) : (h.setMask r i x).away = h.away := by unfold Hart.setMask; split <;> rfl
@[simp] theorem Hart.setMask_spanEnd (h : Hart) (r i : Nat) (x : Bool) : (h.setMask r i x).spanEnd = h.spanEnd := by unfold Hart.setMask; split <;> rfl
@[simp] theorem Hart.setMask_devReads (h : Hart) (r i : Nat) (x : Bool) : (h.setMask r i x).devReads = h.devReads := by unfold Hart.setMask; split <;> rfl
@[simp] theorem Hart.setMask_devUsed (h : Hart) (r i : Nat) (x : Bool) : (h.setMask r i x).devUsed = h.devUsed := by unfold Hart.setMask; split <;> rfl
@[simp] theorem Hart.setMask_devWait (h : Hart) (r i : Nat) (x : Bool) : (h.setMask r i x).devWait = h.devWait := by unfold Hart.setMask; split <;> rfl
@[simp] theorem Hart.setMask_devError (h : Hart) (r i : Nat) (x : Bool) : (h.setMask r i x).devError = h.devError := by unfold Hart.setMask; split <;> rfl
@[simp] theorem Hart.setMask_ecc (h : Hart) (r i : Nat) (x : Bool) : (h.setMask r i x).ecc = h.ecc := by unfold Hart.setMask; split <;> rfl
@[simp] theorem Hart.setMask_waitCount (h : Hart) (r i : Nat) (x : Bool) : (h.setMask r i x).waitCount = h.waitCount := by unfold Hart.setMask; split <;> rfl
@[simp] theorem Hart.setMask_readySince (h : Hart) (r i : Nat) (x : Bool) : (h.setMask r i x).readySince = h.readySince := by unfold Hart.setMask; split <;> rfl

@[simp] theorem Hart.setAcc_ctx (h : Hart) (t i j v : Nat) : (h.setAcc t i j v).ctx = h.ctx := rfl
@[simp] theorem Hart.setAcc_gang (h : Hart) (t i j v : Nat) : (h.setAcc t i j v).gang = h.gang := rfl
@[simp] theorem Hart.setAcc_gangId (h : Hart) (t i j v : Nat) : (h.setAcc t i j v).gangId = h.gangId := rfl
@[simp] theorem Hart.setAcc_launch (h : Hart) (t i j v : Nat) : (h.setAcc t i j v).launch = h.launch := rfl
@[simp] theorem Hart.setAcc_index (h : Hart) (t i j v : Nat) : (h.setAcc t i j v).index = h.index := rfl
@[simp] theorem Hart.setAcc_priv (h : Hart) (t i j v : Nat) : (h.setAcc t i j v).priv = h.priv := rfl
@[simp] theorem Hart.setAcc_recPriv (h : Hart) (t i j v : Nat) : (h.setAcc t i j v).recPriv = h.recPriv := rfl
@[simp] theorem Hart.setAcc_privSince (h : Hart) (t i j v : Nat) : (h.setAcc t i j v).privSince = h.privSince := rfl
@[simp] theorem Hart.setAcc_pc (h : Hart) (t i j v : Nat) : (h.setAcc t i j v).pc = h.pc := rfl
@[simp] theorem Hart.setAcc_s (h : Hart) (t i j v : Nat) : (h.setAcc t i j v).s = h.s := rfl
@[simp] theorem Hart.setAcc_cb (h : Hart) (t i j v : Nat) : (h.setAcc t i j v).cb = h.cb := rfl
@[simp] theorem Hart.setAcc_v (h : Hart) (t i j v : Nat) : (h.setAcc t i j v).v = h.v := rfl
@[simp] theorem Hart.setAcc_m (h : Hart) (t i j v : Nat) : (h.setAcc t i j v).m = h.m := rfl
@[simp] theorem Hart.setAcc_vl (h : Hart) (t i j v : Nat) : (h.setAcc t i j v).vl = h.vl := rfl
@[simp] theorem Hart.setAcc_vlUnset (h : Hart) (t i j v : Nat) : (h.setAcc t i j v).vlUnset = h.vlUnset := rfl
@[simp] theorem Hart.setAcc_mxm (h : Hart) (t i j v : Nat) : (h.setAcc t i j v).mxm = h.mxm := rfl
@[simp] theorem Hart.setAcc_et (h : Hart) (t i j v : Nat) : (h.setAcc t i j v).et = h.et := rfl
@[simp] theorem Hart.setAcc_g (h : Hart) (t i j v : Nat) : (h.setAcc t i j v).g = h.g := rfl
@[simp] theorem Hart.setAcc_vc (h : Hart) (t i j v : Nat) : (h.setAcc t i j v).vc = h.vc := rfl
@[simp] theorem Hart.setAcc_vdirty (h : Hart) (t i j v : Nat) : (h.setAcc t i j v).vdirty = h.vdirty := rfl
@[simp] theorem Hart.setAcc_laneCur (h : Hart) (t i j v : Nat) : (h.setAcc t i j v).laneCur = h.laneCur := rfl
@[simp] theorem Hart.setAcc_laneNext (h : Hart) (t i j v : Nat) : (h.setAcc t i j v).laneNext = h.laneNext := rfl
@[simp] theorem Hart.setAcc_gmap (h : Hart) (t i j v : Nat) : (h.setAcc t i j v).gmap = h.gmap := rfl
@[simp] theorem Hart.setAcc_fflags (h : Hart) (t i j v : Nat) : (h.setAcc t i j v).fflags = h.fflags := rfl
@[simp] theorem Hart.setAcc_tcause (h : Hart) (t i j v : Nat) : (h.setAcc t i j v).tcause = h.tcause := rfl
@[simp] theorem Hart.setAcc_tinfo (h : Hart) (t i j v : Nat) : (h.setAcc t i j v).tinfo = h.tinfo := rfl
@[simp] theorem Hart.setAcc_epc (h : Hart) (t i j v : Nat) : (h.setAcc t i j v).epc = h.epc := rfl
@[simp] theorem Hart.setAcc_taddr (h : Hart) (t i j v : Nat) : (h.setAcc t i j v).taddr = h.taddr := rfl
@[simp] theorem Hart.setAcc_pend (h : Hart) (t i j v : Nat) : (h.setAcc t i j v).pend = h.pend := rfl
@[simp] theorem Hart.setAcc_tags (h : Hart) (t i j v : Nat) : (h.setAcc t i j v).tags = h.tags := rfl
@[simp] theorem Hart.setAcc_tagDst (h : Hart) (t i j v : Nat) : (h.setAcc t i j v).tagDst = h.tagDst := rfl
@[simp] theorem Hart.setAcc_xfers (h : Hart) (t i j v : Nat) : (h.setAcc t i j v).xfers = h.xfers := rfl
@[simp] theorem Hart.setAcc_vq (h : Hart) (t i j v : Nat) : (h.setAcc t i j v).vq = h.vq := rfl
@[simp] theorem Hart.setAcc_win (h : Hart) (t i j v : Nat) : (h.setAcc t i j v).win = h.win := rfl
@[simp] theorem Hart.setAcc_frame (h : Hart) (t i j v : Nat) : (h.setAcc t i j v).frame = h.frame := rfl
@[simp] theorem Hart.setAcc_pre (h : Hart) (t i j v : Nat) : (h.setAcc t i j v).pre = h.pre := rfl
@[simp] theorem Hart.setAcc_owed (h : Hart) (t i j v : Nat) : (h.setAcc t i j v).owed = h.owed := rfl
@[simp] theorem Hart.setAcc_gbar (h : Hart) (t i j v : Nat) : (h.setAcc t i j v).gbar = h.gbar := rfl
@[simp] theorem Hart.setAcc_barWait (h : Hart) (t i j v : Nat) : (h.setAcc t i j v).barWait = h.barWait := rfl
@[simp] theorem Hart.setAcc_barEnd (h : Hart) (t i j v : Nat) : (h.setAcc t i j v).barEnd = h.barEnd := rfl
@[simp] theorem Hart.setAcc_rloadTag (h : Hart) (t i j v : Nat) : (h.setAcc t i j v).rloadTag = h.rloadTag := rfl
@[simp] theorem Hart.setAcc_rload (h : Hart) (t i j v : Nat) : (h.setAcc t i j v).rload = h.rload := rfl
@[simp] theorem Hart.setAcc_remote (h : Hart) (t i j v : Nat) : (h.setAcc t i j v).remote = h.remote := rfl
@[simp] theorem Hart.setAcc_resend (h : Hart) (t i j v : Nat) : (h.setAcc t i j v).resend = h.resend := rfl
@[simp] theorem Hart.setAcc_away (h : Hart) (t i j v : Nat) : (h.setAcc t i j v).away = h.away := rfl
@[simp] theorem Hart.setAcc_spanEnd (h : Hart) (t i j v : Nat) : (h.setAcc t i j v).spanEnd = h.spanEnd := rfl
@[simp] theorem Hart.setAcc_devReads (h : Hart) (t i j v : Nat) : (h.setAcc t i j v).devReads = h.devReads := rfl
@[simp] theorem Hart.setAcc_devUsed (h : Hart) (t i j v : Nat) : (h.setAcc t i j v).devUsed = h.devUsed := rfl
@[simp] theorem Hart.setAcc_devWait (h : Hart) (t i j v : Nat) : (h.setAcc t i j v).devWait = h.devWait := rfl
@[simp] theorem Hart.setAcc_devError (h : Hart) (t i j v : Nat) : (h.setAcc t i j v).devError = h.devError := rfl
@[simp] theorem Hart.setAcc_ecc (h : Hart) (t i j v : Nat) : (h.setAcc t i j v).ecc = h.ecc := rfl
@[simp] theorem Hart.setAcc_waitCount (h : Hart) (t i j v : Nat) : (h.setAcc t i j v).waitCount = h.waitCount := rfl
@[simp] theorem Hart.setAcc_readySince (h : Hart) (t i j v : Nat) : (h.setAcc t i j v).readySince = h.readySince := rfl

end Sys2Proof.Machine
end

