-- ==== Sys2Proof/Laws/Mach.lean ====
section
/-!
SUPPORT. How computations of the machine run, and the one law of retirement that every meaning of an instruction rests
on.
-/

namespace Sys2Proof.Machine

variable {α β : Type} {s t : State}

/-! ### The monad -/

theorem run_bind_ok {m : Mach α} {f : α → Mach β} {a : α} (h : m.run s = .ok a t) :
    (m >>= f).run s = (f a).run t := by
  show EStateM.bind m f s = _
  simp only [EStateM.bind, show m s = _ from h]
  rfl

theorem run_bind_error {m : Mach α} {f : α → Mach β} {e : Stop} (h : m.run s = .error e t) :
    (m >>= f).run s = .error e t := by
  show EStateM.bind m f s = _
  simp only [EStateM.bind, show m s = _ from h]

@[simp] theorem run_pure (a : α) : (pure a : Mach α).run s = .ok a s := rfl
@[simp] theorem run_get : (get : Mach State).run s = .ok s s := rfl
@[simp] theorem run_set (u : State) : (set u : Mach Unit).run s = .ok () u := rfl
@[simp] theorem run_modify (f : State → State) : (modify f : Mach Unit).run s = .ok () (f s) := rfl
@[simp] theorem run_throw (e : Stop) : (throw e : Mach α).run s = .error e s := rfl
@[simp] theorem run_raise (c : BitVec 8) (i a : BitVec 64) : (raise c i a : Mach α).run s = .error (.trap c i a) s := rfl
@[simp] theorem run_hart : hart.run s = .ok s.me s := rfl
@[simp] theorem run_modHart (f : Hart → Hart) : (modHart f).run s = .ok () (s.setMe (f s.me)) := rfl
@[simp] theorem run_readS (r : BitVec 6) : (readS r).run s = .ok (s.me.readS r) s := rfl
@[simp] theorem run_writeS (r : BitVec 6) (x : Word) : (writeS r x).run s = .ok () (s.setMe (s.me.writeS r x)) := rfl
@[simp] theorem run_finish : finish.run s = .ok () (s.setMe (s.me.setVstart 0)) := rfl

@[simp] theorem run_get_bind (f : State → Mach β) : (get >>= f).run s = (f s).run s := rfl
@[simp] theorem run_hart_bind (f : Hart → Mach β) : (hart >>= f).run s = (f s.me).run s := rfl
@[simp] theorem run_readS_bind (r : BitVec 6) (f : Word → Mach β) :
    (readS r >>= f).run s = (f (s.me.readS r)).run s := rfl
@[simp] theorem run_modify_bind (g : State → State) (f : Unit → Mach β) :
    ((modify g : Mach Unit) >>= f).run s = (f ()).run (g s) := rfl
@[simp] theorem run_modHart_bind (g : Hart → Hart) (f : Unit → Mach β) :
    (modHart g >>= f).run s = (f ()).run (s.setMe (g s.me)) := rfl
@[simp] theorem run_writeS_bind (r : BitVec 6) (x : Word) (f : Unit → Mach β) :
    (writeS r x >>= f).run s = (f ()).run (s.setMe (s.me.writeS r x)) := rfl
@[simp] theorem run_set_bind (u : State) (f : Unit → Mach β) : ((set u : Mach Unit) >>= f).run s = (f ()).run u := rfl
@[simp] theorem run_pure_bind (a : α) (f : α → Mach β) : ((pure a : Mach α) >>= f).run s = (f a).run s := rfl
@[simp] theorem run_raise_bind (c : BitVec 8) (i a : BitVec 64) (f : α → Mach β) :
    ((raise c i a : Mach α) >>= f).run s = .error (.trap c i a) s := rfl

/-- Sequences run in order. -/
theorem run_bind_assoc {γ : Type} (m : Mach α) (f : α → Mach β) (g : β → Mach γ) :
    ((m >>= f) >>= g).run s = (m >>= fun a => f a >>= g).run s := by
  rw [bind_assoc]

theorem run_ite (c : Prop) [Decidable c] (m n : Mach α) :
    (if c then m else n).run s = if c then m.run s else n.run s := by
  split <;> rfl

/-! ### The gate -/

/-- A computation that changes nothing where it succeeds. -/
def Quiet (m : Mach α) : Prop := ∀ s a t, m.run s = .ok a t → t = s

theorem Quiet.pure (a : α) : Quiet (pure a : Mach α) := by
  intro s b t h; cases h; rfl
theorem Quiet.get : Quiet (get : Mach State) := by
  intro s b t h; cases h; rfl
theorem Quiet.hart : Quiet hart := by
  intro s b t h; cases h; rfl
theorem Quiet.raise (c : BitVec 8) (i a : BitVec 64) : Quiet (raise c i a : Mach α) := by
  intro s b t h; cases h
theorem Quiet.throw (e : Stop) : Quiet (throw e : Mach α) := by
  intro s b t h; cases h
theorem Quiet.illegal (n : Nat) : Quiet (illegal n : Mach α) := by
  intro s b t h; cases h
theorem Quiet.bind {m : Mach α} {f : α → Mach β} (hm : Quiet m) (hf : ∀ a, Quiet (f a)) : Quiet (m >>= f) := by
  intro s b t h
  cases hr : m.run s with
  | ok a u =>
    rw [run_bind_ok hr] at h
    rw [hf a u b t h, hm s a u hr]
  | error e u => rw [run_bind_error hr] at h; cases h
theorem Quiet.ite {c : Prop} [Decidable c] {m n : Mach α} (hm : Quiet m) (hn : Quiet n) :
    Quiet (if c then m else n) := by
  split <;> assumption

/-- A trap after a change of state still succeeds nowhere. -/
theorem Quiet.modify_raise {f : State → State} {c : BitVec 8} {i a : BitVec 64} :
    Quiet ((do modify f; Sys2Proof.Machine.raise c i a) : Mach α) := by
  intro s b t h; cases h

theorem quiet_checkEcc (rs : List (Nat × Nat)) : Quiet (checkEcc rs) := by
  unfold checkEcc
  refine .bind .hart fun h => ?_
  split <;> first | exact .raise _ _ _ | exact .pure _

theorem quiet_slotCheck (fmt : BitVec 3) (et : BitVec 4) (p : Bool) : Quiet (slotCheck fmt et p) := by
  unfold slotCheck
  refine .ite (.bind .get fun s => ?_) (.pure _)
  dsimp only
  exact .ite (.bind (.raise _ _ _) fun _ => .ite (.raise _ _ _) (.pure _)) (.ite (.raise _ _ _) (.pure _))

theorem quiet_needVl : Quiet needVl := by
  unfold needVl
  exact .bind .hart fun _ => .ite (.illegal _) (.pure _)

theorem quiet_indexCheck (et : BitVec 4) (fmt : BitVec 3) : Quiet (indexCheck et fmt) := by
  unfold indexCheck
  exact .bind .hart fun _ => .ite (.illegal _) (.pure _)

theorem quiet_rowCheck (f : MxF) : Quiet (rowCheck f) := by
  unfold rowCheck
  exact .bind .hart fun _ => .ite (.illegal _) (.pure _)

theorem quiet_tagCheck (f : EnF) : Quiet (tagCheck f) := by
  unfold tagCheck
  exact .bind .hart fun _ => .ite (.illegal _) (.pure _)

theorem quiet_unlessTrap (e : Stop) : Quiet (unlessTrap e) := by
  unfold unlessTrap
  split
  · exact .pure _
  · exact .throw _

theorem quiet_appendCheck (f : HsF) : Quiet (appendCheck f) := by
  unfold appendCheck
  refine .bind .get fun s => ?_
  dsimp only
  refine .ite (.bind (.illegal _) fun _ => ?_) ?_
  all_goals
    split
    · exact .ite (.illegal _) (.pure _)
    · exact quiet_unlessTrap _

theorem quiet_streamFaultCheck (f : HsF) : Quiet (streamFaultCheck f) := by
  unfold streamFaultCheck
  refine .bind .get fun s => ?_
  dsimp only
  split
  · split
    · exact .ite .modify_raise (.pure _)
    · exact .pure _
  · exact quiet_unlessTrap _

theorem quiet_slotIssue (i : Instr) : Quiet (slotIssue i) := by
  unfold slotIssue
  split <;> first | exact quiet_slotCheck _ _ _ | exact .pure _

theorem quiet_valueIssue (i : Instr) : Quiet (valueIssue i) := by
  unfold valueIssue
  split <;> first
    | exact quiet_needVl
    | exact .bind quiet_needVl fun _ => quiet_indexCheck _ _
    | exact .bind quiet_needVl fun _ => .ite (quiet_indexCheck _ _) (.pure _)
    | exact .bind quiet_needVl fun _ => quiet_rowCheck _
    | exact .ite quiet_needVl (.pure _)
    | exact .bind quiet_needVl fun _ => .bind (quiet_appendCheck _) fun _ => quiet_streamFaultCheck _
    | exact .bind quiet_needVl fun _ => quiet_streamFaultCheck _
    | exact quiet_streamFaultCheck _
    | exact quiet_tagCheck _
    | exact .pure _

theorem quiet_gate (i : Instr) : Quiet (gate i) := by
  unfold gate
  have rest : ∀ rs, Quiet (do checkEcc rs; slotIssue i; valueIssue i) := fun rs =>
    .bind (quiet_checkEcc rs) fun _ => .bind (quiet_slotIssue i) fun _ => quiet_valueIssue i
  refine .bind .get fun s => ?_
  dsimp only
  split
  · exact .bind (.throw _) fun _ => rest _
  · exact rest _

/-! ### Retirement -/

theorem begins_live {i : Instr} (h : s.begins i = true) : s.live s.cur = true := by
  simp only [State.begins, Bool.and_eq_true] at h
  exact h.1

theorem begins_gate {i : Instr} (h : s.begins i = true) : (gate i).run s = .ok () s := by
  simp only [State.begins, Bool.and_eq_true] at h
  cases hr : (gate i).run s with
  | ok a t => rw [quiet_gate i s a t hr]
  | error e t => rw [hr] at h; simp at h

theorem run_complete (h0 : Hart) (i : Instr) (n : Nat) (hg : h0 = s.me) :
    (complete h0 i n).run t = .ok () (s.retired t i n) := by
  subst hg
  unfold complete State.retired
  rw [run_get_bind, run_ite]
  split <;> rfl

/-- An instruction that the moving hart may begin, and whose effect runs to its end, retires. -/
theorem retire_ok {i : Instr} {n : Nat} {eff : Mach Unit} (h : s.begins i = true) (he : eff.run s = .ok () t) :
    retire i n eff s = .next (s.retired t i n) := by
  unfold retire
  rw [run_bind_ok (begins_gate h), run_bind_ok he, run_complete _ _ _ rfl]
  rfl

/-- An instruction whose effect raises a trap takes it, where it is not issued once more for poison (R377). -/
theorem retire_trap {i : Instr} {n : Nat} {eff : Mach Unit} {c : BitVec 8} {x a : BitVec 64} (h : s.begins i = true)
    (he : eff.run s = .error (.trap c x a) t) (hc : (c = cPoison && s.bytesPoison a && s.retries [i]) = false) :
    retire i n eff s = .next (t.takeTrap c x a) := by
  unfold retire
  rw [run_bind_ok (begins_gate h), run_bind_error he]
  simp only [concludeAt, hc, Bool.false_eq_true, if_false, conclude]

/-- No scalar instruction is issued again. -/
theorem retries_scalar {i : Instr} (h : isVector i = false) (s : State) : s.retries [i] = false := by
  simp [State.retries, h]

/-- A vector-side instruction that consumes poison is squashed and issued once more (R377). -/
theorem retire_again {i : Instr} {n : Nat} {eff : Mach Unit} {x a : BitVec 64} (h : s.begins i = true)
    (he : eff.run s = .error (.trap cPoison x a) t) (hb : s.bytesPoison a = true) (hr : s.retries [i] = true) :
    retire i n eff s = .next ((s.squashed t { s.me with
        devReads := [], devUsed := 0, vc := { s.me.vc with vstart := 0 }, pc := s.me.after n }).pushWin
      { s.me.entry false [i] with again := true }) := by
  unfold retire
  rw [run_bind_ok (begins_gate h), run_bind_error he]
  simp only [concludeAt, hb, hr, decide_true, Bool.and_true, if_true]

theorem retired_setMe (h : Hart) (i : Instr) (n : Nat) (hg : h.gang = s.me.gang) (hi : h.index = s.me.index) :
    s.retired (s.setMe h) i n = s.setMe (h.past (s.me.wroteRegs i) n) := by
  simp [State.retired, hg, hi]

/-- An instruction whose effect only changes the moving hart. -/
theorem retire_hart {i : Instr} {eff : Mach Unit} {h : Hart} (hb : s.begins i = true)
    (he : eff.run s = .ok () (s.setMe h)) (hg : h.gang = s.me.gang) (hi : h.index = s.me.index) :
    retire i (instrBytes i) eff s = .next (s.retiredAs i h) := by
  rw [retire_ok hb he, retired_setMe h i _ hg hi]
  rfl

end Sys2Proof.Machine
end

