-- ==== Sys2Proof/Laws/Memory.lean ====
section
/-!
SUPPORT. The laws of memory and scratchpads: a read after a write, and that every operation on memory keeps its canonical
form.
-/

namespace Sys2Proof.Machine

theorem get_memSet (m : Tab Byte) (a b : Nat) (x : Byte) :
    Tab.get 0 (memSet m a x) b = if a = b then x else Tab.get 0 m b := Tab.get_set 0 m a b x

/-- A byte inside the bytes written reads as written, every other byte as before. -/
theorem get_memSets (m : Tab Byte) (pa : Nat) (bs : List Byte) (a : Nat) :
    Tab.get 0 (memSets m pa bs) a = if pa ≤ a ∧ a < pa + bs.length then bs.getD (a - pa) 0 else Tab.get 0 m a := by
  induction bs generalizing m pa with
  | nil =>
    have h : ¬ (pa ≤ a ∧ a < pa + ([] : List Byte).length) := by simp
    rw [memSets, if_neg h]
  | cons b t ih =>
    rw [memSets, ih, get_memSet]
    by_cases h1 : pa = a
    · subst h1
      rw [if_neg (by omega), if_pos rfl, if_pos (by simp)]
      simp
    · by_cases h2 : pa + 1 ≤ a ∧ a < pa + 1 + t.length
      · have h3 : pa ≤ a ∧ a < pa + (b :: t).length := by simp; omega
        rw [if_pos h2, if_pos h3]
        have : a - pa = (a - (pa + 1)) + 1 := by omega
        rw [this]; simp
      · have h3 : ¬ (pa ≤ a ∧ a < pa + (b :: t).length) := by simp; omega
        rw [if_neg h2, if_neg h3, if_neg h1]

theorem wf_memSet {m : Tab Byte} (h : Memory.wf m) (a : Nat) (x : Byte) : Memory.wf (memSet m a x) := Tab.wf_set h a x

theorem wf_memSets {m : Tab Byte} (h : Memory.wf m) (a : Nat) (bs : List Byte) : Memory.wf (memSets m a bs) := by
  induction bs generalizing m a with
  | nil => exact h
  | cons b t ih => exact ih (wf_memSet h a b) (a + 1)

theorem wf_homeWrite {s : State} (h : Memory.wf s.mem) (pa : Nat) (bs : List Byte) :
    Memory.wf (s.homeWrite pa bs).mem := wf_memSets h pa bs

theorem wf_foldr_memSet {m : Tab Byte} (h : Memory.wf m) (es : List (Nat × Byte)) :
    Memory.wf (es.foldr (fun e m => memSet m e.1 e.2) m) := by
  induction es with
  | nil => exact h
  | cons e t ih => exact wf_memSet ih e.1 e.2

theorem wf_codeBlocks {s : State} (h : Memory.wf s.mem) (bs : List Nat) : Memory.wf (bs.foldl State.codeBlock s).mem := by
  induction bs generalizing s with
  | nil => exact h
  | cons b t ih => exact ih (wf_memSet h _ _)

@[simp] theorem meetBlock_mem (s : State) (b : Nat) : (s.meetBlock b).mem = s.mem := by
  unfold State.meetBlock; split <;> rfl

theorem meetBlocks_mem (s : State) (bs : List Nat) : (bs.foldl State.meetBlock s).mem = s.mem := by
  induction bs generalizing s with
  | nil => rfl
  | cons b t ih => rw [List.foldl_cons, ih, meetBlock_mem]

theorem wf_writeBackIf {s : State} (h : Memory.wf s.mem) (c : Nat) (p : Nat → Bool) :
    Memory.wf (s.writeBackIf c p).mem :=
  wf_codeBlocks (wf_foldr_memSet (by rw [meetBlocks_mem]; exact h) _) _

/-- Home bytes outside a write at home read as before, those inside as written. -/
theorem homeByte_homeWrite (s : State) (pa : Nat) (bs : List Byte) (a : Nat) :
    (s.homeWrite pa bs).homeByte a = if pa ≤ a ∧ a < pa + bs.length then bs.getD (a - pa) 0 else s.homeByte a :=
  get_memSets s.mem pa bs a

/-! ### Numbers as bytes -/

@[simp] theorem bytesOf_length (n x : Nat) : (bytesOf n x).length = n := by simp [bytesOf]

theorem bytesOf_succ (n x : Nat) : bytesOf (n + 1) x = BitVec.ofNat 8 x :: bytesOf n (x / 256) := by
  simp only [bytesOf, List.range_succ_eq_map, List.map_cons, List.map_map, Nat.pow_zero, Nat.div_one]
  congr 1
  apply List.map_congr_left
  intro i _
  simp only [Function.comp_apply, Nat.pow_succ', Nat.div_div_eq_div_mul]

/-- The number that `n` bytes of a number make. -/
theorem ofBytes_bytesOf (n x : Nat) : ofBytes (bytesOf n x) = x % 256 ^ n := by
  induction n generalizing x with
  | zero => simp [bytesOf, ofBytes, Nat.mod_one]
  | succ n ih =>
    rw [bytesOf_succ]
    show (BitVec.ofNat 8 x).toNat + 256 * ofBytes (bytesOf n (x / 256)) = _
    rw [ih, BitVec.toNat_ofNat, show (256 : Nat) ^ (n + 1) = 256 * 256 ^ n from Nat.pow_succ', Nat.mod_mul]

end Sys2Proof.Machine
end

