-- ==== Sys2Proof/Laws/Access.lean ====
section
/-!
SUPPORT. What an access can do: where it lands, what a read of a place answers, and what a write leaves.
-/

namespace Sys2Proof.Machine

variable {s t u : State}

/-! ### Write-backs -/

theorem get_foldr_memSet (es : Tab Byte) (m : Tab Byte) (a : Nat) :
    Tab.get 0 (es.foldr (fun e m => memSet m e.1 e.2) m) a = (Tab.find es a).getD (Tab.get 0 m a) := by
  induction es with
  | nil => rfl
  | cons e t ih =>
    rw [List.foldr_cons, get_memSet, ih]
    simp only [Tab.find]
    split <;> rfl

/-- Where a home controller keeps its metadata is a metadata byte. -/
theorem isMeta_metaAt (a : Nat) : isMeta (metaAt a) = true := by
  unfold isMeta metaAt Config.channelBytes Config.metaOffset Config.reserveOffset
  rw [Bool.and_eq_true, decide_eq_true_eq, decide_eq_true_eq]
  omega

/-- Coding blocks writes their metadata and the counters, and nothing else. -/
theorem codeBlocks_eq (s : State) (bs : List Nat) : ∃ m x, bs.foldl State.codeBlock s = { s with mem := m, telemetry := x }
    ∧ ∀ a, isMeta a = false → Tab.get 0 m a = Tab.get 0 s.mem a := by
  induction bs generalizing s with
  | nil => exact ⟨s.mem, s.telemetry, rfl, fun _ _ => rfl⟩
  | cons b t ih =>
    obtain ⟨m, x, h, hm⟩ := ih (s.codeBlock b)
    refine ⟨m, x, h, fun a ha => (hm a ha).trans ?_⟩
    show Tab.get 0 (memSet s.mem (metaAt (512 * b)) _) a = _
    rw [get_memSet, if_neg]
    rintro rfl
    rw [isMeta_metaAt] at ha
    cases ha

/-- A read of blocks at home can mark them as poisoned, and nothing else. -/
theorem meetBlocks_eq (s : State) (bs : List Nat) : ∃ p, bs.foldl State.meetBlock s = { s with poison := p } := by
  induction bs generalizing s with
  | nil => exact ⟨s.poison, rfl⟩
  | cons b t ih =>
    have hb : ∃ p, s.meetBlock b = { s with poison := p } := by
      unfold State.meetBlock
      split
      · exact ⟨_, rfl⟩
      · exact ⟨s.poison, rfl⟩
    obtain ⟨p, hp⟩ := hb
    obtain ⟨q, hq⟩ := ih (s.meetBlock b)
    refine ⟨q, ?_⟩
    rw [List.foldl_cons, hq, hp]

/-- All that a write-back does: the dirty bytes it concerns leave the core and stand at home, with the metadata of their
blocks, and clean copies older than them go too. -/
theorem writeBackIf_eq (s : State) (c : Nat) (p : Nat → Bool) : ∃ m q x, s.writeBackIf c p =
      ({ s with mem := m, poison := q, telemetry := x } : State).setCore c
        { s.core c with
          dirty := (s.core c).dirty.filter (fun e => !s.goesHome p e.1)
          tainted := (s.core c).tainted.filter (fun w => !s.goesHome p (8 * w))
          clean := (s.core c).clean.filter (fun e => !(s.goesHome p e.1 && (Tab.find (s.core c).dirty e.1).isSome)) }
    ∧ ∀ a, isMeta a = false →
        Tab.get 0 m a = if s.goesHome p a then (Tab.find (s.core c).dirty a).getD (s.homeByte a) else s.homeByte a := by
  unfold State.writeBackIf
  dsimp only
  generalize s.goesHome p = p
  obtain ⟨y, hy⟩ := meetBlocks_eq s
    ((runsOf 512 ((s.core c).dirty.filter (fun e => p e.1))).filter
      (fun b => ((s.core c).dirty.filter (fun e => p e.1)).countP (fun e => e.1 / 512 == b) != 512))
  rw [hy]
  obtain ⟨m, x, h, hm⟩ := codeBlocks_eq
    { s with mem := ((s.core c).dirty.filter (fun e => p e.1)).foldr (fun e m => memSet m e.1 e.2) s.mem
             poison := (s.core c).marksHome ((s.core c).dirty.filter (fun e => p e.1)) y }
    (runsOf 512 ((s.core c).dirty.filter (fun e => p e.1)))
  refine ⟨m, _, x, congrArg (fun u => State.setCore u c _) h, fun a ha => ?_⟩
  rw [hm a ha, get_foldr_memSet, Tab.find_filter (s.core c).dirty p]
  unfold State.homeByte
  split <;> rfl

/-- The bytes at home that a write-back reaches stand as the core had them. -/
theorem homeByte_writeBackIf (s : State) (c : Nat) (p : Nat → Bool) {a : Nat} (ha : isMeta a = false) :
    (s.writeBackIf c p).homeByte a =
      if s.goesHome p a then (Tab.find (s.core c).dirty a).getD (s.homeByte a) else s.homeByte a := by
  obtain ⟨m, q, x, h, hm⟩ := writeBackIf_eq s c p
  rw [h]
  exact hm a ha

/-- A write-back changes no byte that its own core reads. -/
theorem byteAt_writeBackIf (s : State) (c : Nat) (p : Nat → Bool) {a : Nat} (ha : isMeta a = false) :
    (s.writeBackIf c p).byteAt c a = s.byteAt c a := by
  obtain ⟨m, q, x, h, hm⟩ := writeBackIf_eq s c p
  have hh := homeByte_writeBackIf s c p ha
  unfold State.byteAt
  rw [hh, h, State.core_setCore]
  dsimp only
  rw [Tab.find_filter (s.core c).dirty (fun k => !s.goesHome p k),
    Tab.find_filter (s.core c).clean (fun k => !(s.goesHome p k && (Tab.find (s.core c).dirty k).isSome))]
  cases s.goesHome p a <;> cases Tab.find (s.core c).dirty a <;> simp

/-- After it the core holds none of the bytes it concerned, those of a channel that is being copied apart. -/
theorem dirty_writeBackIf (s : State) (c : Nat) (p : Nat → Bool) (a : Nat) (hp : s.goesHome p a = true) :
    Tab.find ((s.writeBackIf c p).core c).dirty a = none := by
  obtain ⟨m, q, x, h, -⟩ := writeBackIf_eq s c p
  rw [h, State.core_setCore]
  dsimp only
  rw [Tab.find_filter (s.core c).dirty (fun k => !s.goesHome p k)]
  simp [hp]

/-- Clean copies are dropped and never made. -/
theorem clean_writeBackIf (s : State) (c : Nat) (p : Nat → Bool) (a : Nat)
    (hc : (Tab.find ((s.writeBackIf c p).core c).clean a).isSome = true) : (Tab.find (s.core c).clean a).isSome = true := by
  obtain ⟨m, q, x, h, -⟩ := writeBackIf_eq s c p
  rw [h, State.core_setCore] at hc
  dsimp only at hc
  rw [Tab.find_filter (s.core c).clean (fun k => !(s.goesHome p k && (Tab.find (s.core c).dirty k).isSome))] at hc
  split at hc
  · exact hc
  · cases hc

theorem spadByte_writeBackIf (s : State) (c : Nat) (p : Nat → Bool) (k o : Nat) :
    (s.writeBackIf c p).spadByte k o = s.spadByte k o := by
  obtain ⟨m, q, x, h, -⟩ := writeBackIf_eq s c p
  rw [h]
  unfold State.spadByte
  by_cases hk : c = k
  · subst hk; rw [State.core_setCore]
  · rw [State.core_setCore_ne _ _ hk]; rfl

@[simp] theorem me_writeBackIf (s : State) (c : Nat) (p : Nat → Bool) : (s.writeBackIf c p).me = s.me := by
  obtain ⟨m, q, x, h, -⟩ := writeBackIf_eq s c p
  rw [h]; rfl
@[simp] theorem live_writeBackIf (s : State) (c : Nat) (p : Nat → Bool) (k : Nat) :
    (s.writeBackIf c p).live k = s.live k := by
  obtain ⟨m, q, x, h, -⟩ := writeBackIf_eq s c p
  rw [h]; rfl
@[simp] theorem cur_writeBackIf (s : State) (c : Nat) (p : Nat → Bool) : (s.writeBackIf c p).cur = s.cur := by
  obtain ⟨m, q, x, h, -⟩ := writeBackIf_eq s c p
  rw [h]; rfl
@[simp] theorem coreNo_writeBackIf (s : State) (c : Nat) (p : Nat → Bool) : (s.writeBackIf c p).coreNo = s.coreNo :=
  congrArg (· / 8) (cur_writeBackIf s c p)
@[simp] theorem coreNo_dropClean (s : State) (c : Nat) (p : Nat → Bool) : (s.dropClean c p).coreNo = s.coreNo := rfl
@[simp] theorem me_dropClean (s : State) (c : Nat) (p : Nat → Bool) : (s.dropClean c p).me = s.me := rfl
@[simp] theorem live_dropClean (s : State) (c : Nat) (p : Nat → Bool) (k : Nat) : (s.dropClean c p).live k = s.live k := rfl
@[simp] theorem cur_dropClean (s : State) (c : Nat) (p : Nat → Bool) : (s.dropClean c p).cur = s.cur := rfl

/-! ### Bytes that no write reaches -/

theorem Untouched.refl (s : State) (a : Nat) : Untouched s s a := fun _ => ⟨.inl rfl, .inl rfl, id⟩

theorem Untouched.trans {a : Nat} (h : Untouched s t a) (h' : Untouched t u a) : Untouched s u a := by
  intro ha
  obtain ⟨h1, h2, h3⟩ := h ha
  obtain ⟨k1, k2, k3⟩ := h' ha
  refine ⟨?_, ?_, fun h => h3 (k3 h)⟩
  · rcases k1 with k1 | ⟨kc, k1⟩
    · rw [k1]; exact h1
    · rcases h2 with h2 | h2
      · exact .inr ⟨h3 kc, k1.trans h2⟩
      · exact .inl (k1.trans h2)
  · rcases k2 with k2 | k2
    · rw [k2]; exact h2
    · rcases h1 with h1 | ⟨-, h1⟩
      · exact .inr (k2.trans h1)
      · exact .inl (k2.trans h1)

theorem SameMemory.refl (s : State) : SameMemory s s := ⟨.refl s, fun _ _ => rfl⟩
theorem SameMemory.trans (h : SameMemory s t) (h' : SameMemory t u) : SameMemory s u :=
  ⟨fun a => (h.1 a).trans (h'.1 a), fun c o => (h'.2 c o).trans (h.2 c o)⟩

/-- What a core's caches hold and what stands at home says all that memory is. -/
theorem sameMemory_of_eq (hm : t.mem = s.mem) (hc : t.cores = s.cores) (hn : t.cur = s.cur) : SameMemory s t := by
  obtain ⟨_⟩ := s
  obtain ⟨_⟩ := t
  cases hm; cases hc; cases hn
  exact ⟨fun _ _ => ⟨.inl rfl, .inl rfl, id⟩, fun _ _ => rfl⟩
theorem sameMemory_setMe (s : State) (h : Hart) : SameMemory s (s.setMe h) := sameMemory_of_eq rfl rfl rfl

theorem sameMemory_writeBackIf (s : State) (p : Nat → Bool) : SameMemory s (s.writeBackIf s.coreNo p) := by
  refine ⟨fun a ha => ⟨.inl ?_, ?_, fun h => clean_writeBackIf s s.coreNo p a ?_⟩,
    fun c o => spadByte_writeBackIf s s.coreNo p c o⟩
  · rw [coreNo_writeBackIf]; exact byteAt_writeBackIf s s.coreNo p ha
  · rw [homeByte_writeBackIf _ _ _ ha]
    unfold State.byteAt
    split
    · cases Tab.find (s.core s.coreNo).dirty a with
      | none => exact .inl rfl
      | some b => exact .inr rfl
    · exact .inl rfl
  · unfold State.cleanAt at h
    rwa [coreNo_writeBackIf] at h

theorem sameMemory_dropClean (s : State) (p : Nat → Bool) : SameMemory s (s.dropClean s.coreNo p) := by
  refine ⟨fun a _ => ?_, fun c o => ?_⟩
  · have e : (s.dropClean s.coreNo p).core s.coreNo =
        { (s.core s.coreNo).dropScalar p with
          clean := (s.core s.coreNo).clean.filter (fun e => !p e.1)
          marked := (s.core s.coreNo).marked.filter (fun w => !p (8 * w)) } := State.core_setCore _ _ _
    refine ⟨?_, .inl rfl, fun h => ?_⟩
    · unfold State.byteAt State.cleanAt
      rw [coreNo_dropClean, e]
      dsimp only [Core.dropScalar]
      rw [Tab.find_filter (s.core s.coreNo).clean (fun k => !p k)]
      cases Tab.find (s.core s.coreNo).dirty a with
      | some b => exact .inl rfl
      | none =>
        cases Tab.find (s.core s.coreNo).clean a with
        | none => exact .inl (by simp; rfl)
        | some b => cases p a <;> first | exact .inl rfl | exact .inr ⟨rfl, rfl⟩
    · unfold State.cleanAt at h ⊢
      rw [coreNo_dropClean, e] at h
      dsimp only at h
      rw [Tab.find_filter (s.core s.coreNo).clean (fun k => !p k)] at h
      split at h
      · exact h
      · cases h
  · unfold State.dropClean State.spadByte
    by_cases h : s.coreNo = c
    · subst h; rw [State.core_setCore]; rfl
    · rw [State.core_setCore_ne _ _ h]

theorem sameMemory_evictIf (s : State) (p : Nat → Bool) : SameMemory s (s.evictIf s.coreNo p) := by
  have h := sameMemory_dropClean (s.writeBackIf s.coreNo p) p
  rw [coreNo_writeBackIf] at h
  exact (sameMemory_writeBackIf s p).trans h

@[simp] theorem me_evictIf (s : State) (c : Nat) (p : Nat → Bool) : (s.evictIf c p).me = s.me := me_writeBackIf s c p
@[simp] theorem cur_evictIf (s : State) (c : Nat) (p : Nat → Bool) : (s.evictIf c p).cur = s.cur := cur_writeBackIf s c p
@[simp] theorem live_evictIf (s : State) (c : Nat) (p : Nat → Bool) (k : Nat) : (s.evictIf c p).live k = s.live k :=
  live_writeBackIf s c p k

theorem sameMemory_served (s : State) (l : Loc) : SameMemory s (s.served l) := by
  unfold State.served
  split
  · exact sameMemory_evictIf s _
  · exact .refl s

/-- An address that leaves a core's caches reads as it stands at home. -/
theorem byteAt_evictIf (s : State) (p : Nat → Bool) (a : Nat) (h : p a = true) (hh : s.chanHeld a = false) :
    Tab.find ((s.evictIf s.coreNo p).core s.coreNo).dirty a = none
      ∧ Tab.find ((s.evictIf s.coreNo p).core s.coreNo).clean a = none := by
  have e : (s.evictIf s.coreNo p).core s.coreNo =
      { ((s.writeBackIf s.coreNo p).core s.coreNo).dropScalar p with
        clean := ((s.writeBackIf s.coreNo p).core s.coreNo).clean.filter (fun e => !p e.1)
        marked := ((s.writeBackIf s.coreNo p).core s.coreNo).marked.filter (fun w => !p (8 * w)) } := State.core_setCore _ _ _
  rw [e]
  refine ⟨dirty_writeBackIf s s.coreNo p a (by simp [State.goesHome, h, hh]), ?_⟩
  dsimp only
  rw [Tab.find_filter _ (fun k => !p k)]
  simp [h]

/-! ### Reads -/

/-- A scalar read meets a mark of the scalar data cache only where it is served by the core's caches. -/
theorem dcacheBad_served (s : State) (l : Loc) (n : Nat) (h : s.dcacheBad l n = false) : (s.served l).dcacheBad l n = false := by
  unfold State.served
  split
  · rfl
  · exact h

/-- A read at a place where it is answered; a scalar one meets no mark of the scalar data cache there. -/
theorem readLoc_ok {q : Req} {ea : BitVec 64} {l : Loc} {x : Nat} (hv : q.vec = true ∨ s.dcacheBad l q.n = false)
    (h : s.answers l q.n = some (t, x)) : (readLoc q ea l).run s = .ok x t := by
  have hb : (!q.vec && (s.served l).dcacheBad l q.n) = false := by
    rcases hv with hv | hv
    · simp [hv]
    · simp [dcacheBad_served s l q.n hv]
  unfold State.answers at h
  cases l with
  | dev pa =>
    simp only [Option.map_eq_some_iff, Prod.mk.injEq] at h
    obtain ⟨w, hw, rfl, rfl⟩ := h
    unfold readLoc
    dsimp only
    rw [run_hart_bind, hw]
    rfl
  | spad c o =>
    simp only [Option.ite_none_left_eq_some, Option.some.injEq, Prod.mk.injEq] at h
    obtain ⟨hp, rfl, rfl⟩ := h
    unfold readLoc
    simp only [State.served] at hp ⊢
    simp only [State.served] at hb
    rw [run_get_bind, hb, Bool.or_false, if_neg hp]
    rfl
  | dram pa home =>
    simp only [Option.ite_none_left_eq_some, Option.some.injEq, Prod.mk.injEq] at h
    obtain ⟨hp, rfl, rfl⟩ := h
    unfold readLoc
    cases home
    · simp only [State.served] at hp hb ⊢
      rw [run_get_bind, hb, Bool.or_false, if_neg hp]
      rfl
    · simp only [State.served] at hp hb ⊢
      rw [run_modify_bind, run_get_bind, hb, Bool.or_false, if_neg hp]
      rfl

theorem sameMemory_answers {l : Loc} {n x : Nat} (h : s.answers l n = some (t, x)) : SameMemory s t := by
  unfold State.answers at h
  cases l with
  | dev pa =>
    simp only [Option.map_eq_some_iff, Prod.mk.injEq] at h
    obtain ⟨w, -, rfl, -⟩ := h
    exact sameMemory_setMe s _
  | spad c o =>
    simp only [Option.ite_none_left_eq_some, Option.some.injEq, Prod.mk.injEq] at h
    obtain ⟨-, rfl, -⟩ := h
    exact sameMemory_served s _
  | dram pa home =>
    simp only [Option.ite_none_left_eq_some, Option.some.injEq, Prod.mk.injEq] at h
    obtain ⟨-, rfl, -⟩ := h
    exact sameMemory_served s _

@[simp] theorem me_served (s : State) (l : Loc) : (s.served l).me = s.me := by
  unfold State.served; split <;> first | exact me_evictIf _ _ _ | rfl
@[simp] theorem cur_served (s : State) (l : Loc) : (s.served l).cur = s.cur := by
  unfold State.served; split <;> first | exact cur_evictIf _ _ _ | rfl
@[simp] theorem live_served (s : State) (l : Loc) (k : Nat) : (s.served l).live k = s.live k := by
  unfold State.served; split <;> first | exact live_evictIf _ _ _ _ | rfl

/-- The moving hart stays, but for the count of outbound reads taken. -/
theorem answers_me {l : Loc} {n x : Nat} (h : s.answers l n = some (t, x)) :
    t.cur = s.cur ∧ ∃ k, t.me = { s.me with devUsed := k } := by
  unfold State.answers at h
  cases l with
  | dev pa =>
    simp only [Option.map_eq_some_iff, Prod.mk.injEq] at h
    obtain ⟨w, -, rfl, -⟩ := h
    exact ⟨rfl, _, State.me_setMe _ _⟩
  | spad c o =>
    simp only [Option.ite_none_left_eq_some, Option.some.injEq, Prod.mk.injEq] at h
    obtain ⟨-, rfl, -⟩ := h
    exact ⟨rfl, s.me.devUsed, rfl⟩
  | dram pa home =>
    simp only [Option.ite_none_left_eq_some, Option.some.injEq, Prod.mk.injEq] at h
    obtain ⟨-, rfl, -⟩ := h
    exact ⟨cur_served s _, s.me.devUsed, me_served s _⟩

theorem answers_live {l : Loc} {n x : Nat} (h : s.answers l n = some (t, x)) (hl : s.live s.cur = true) :
    t.live t.cur = true := by
  unfold State.answers at h
  cases l with
  | dev pa =>
    simp only [Option.map_eq_some_iff, Prod.mk.injEq] at h
    obtain ⟨w, -, rfl, -⟩ := h
    exact State.live_setMe _ _
  | spad c o =>
    simp only [Option.ite_none_left_eq_some, Option.some.injEq, Prod.mk.injEq] at h
    obtain ⟨-, rfl, -⟩ := h
    exact hl
  | dram pa home =>
    simp only [Option.ite_none_left_eq_some, Option.some.injEq, Prod.mk.injEq] at h
    obtain ⟨-, rfl, -⟩ := h
    rw [live_served, cur_served]; exact hl

/-! ### Where an access lands -/

/-- A page's base and the offset in it: addresses keep their low 16 bits. -/
theorem pageSize_dvd (z : Nat) : 0x10000 ∣ pageSize z := by
  unfold pageSize
  split
  · exact ⟨1, rfl⟩
  · split
    · exact ⟨0x200, rfl⟩
    · exact ⟨0x40000, rfl⟩

theorem translate_low {c k va : Nat} {w : Need} {x : Xlat} (h : s.translate c k w va = .ok x) :
    x.pa % 0x10000 = va % 0x10000 := by
  unfold State.translate at h
  split at h
  · cases h
  · split at h
    · cases h
    · cases h
    · rename_i e _
      dsimp only at h
      split at h
      · cases h
      · split at h
        · cases h
        · split at h
          · cases h
          · cases h
            obtain ⟨m, hm⟩ := pageSize_dvd (eSz e)
            show (eFrame e + va % pageSize (eSz e)) % 0x10000 = _
            unfold eFrame
            rw [hm, Nat.mod_mul]
            omega

/-- An address that is translated lies in no channel that is being copied (R382). -/
theorem translate_held {c k va : Nat} {w : Need} {x : Xlat} (h : s.translate c k w va = .ok x) : s.chanHeld x.pa = false := by
  unfold State.translate at h
  split at h
  · cases h
  · split at h
    · cases h
    · cases h
    · dsimp only at h
      split at h
      · cases h
      · split at h
        · cases h
        · split at h
          · cases h
          · rename_i hh
            cases h
            simpa using hh

/-! ### Walks (R317) -/

/-- A walk may count a mismatch of HOME and changes nothing else. -/
theorem walked_eq (s : State) (c k va : Nat) : ∃ x, s.walked c k va = { s with telemetry := x } := by
  unfold State.walked State.homeCheck
  split
  · exact ⟨s.telemetry, rfl⟩
  · split
    · exact ⟨_, rfl⟩
    · exact ⟨s.telemetry, rfl⟩

/-- Where an access lands it changes no more than a walk does, and the place has the alignment of the address. -/
theorem place_ok {q : Req} {sp : Bool} {ea : BitVec 64} {l : Loc} (h : (place q sp ea).run s = .ok l t) :
    (∃ x, t = { s with telemetry := x }) ∧ ea.toNat % 2 ^ 55 % q.align = 0 ∧
      (match l with
        | .spad c o => sp = true ∧ c = s.coreNo ∧ o = (s.spadOf s.me).1 + ea.toNat % 2 ^ 55
        | .dram a _ => sp = false ∧ a % 0x10000 = ea.toNat % 2 ^ 55 % 0x10000 ∧ s.chanHeld a = false
        | .dev _ => sp = false) := by
  unfold place at h
  rw [run_get_bind] at h
  dsimp only at h
  split at h
  · cases h
  · have hi : ∀ (b : Bool) (a n : Nat) (r : Unit) (v : State), (interlock b a n).run s = .ok r v → v = s := by
      intro b a n r v hv
      unfold interlock at hv
      rw [run_get_bind] at hv
      split at hv
      · cases hv
      · cases hv; rfl
    cases hr : (interlock sp (ea.toNat % 2 ^ 55) q.n).run s with
    | error e v => rw [run_bind_error hr] at h; cases h
    | ok r v =>
      have hv := hi _ _ _ _ _ hr
      subst hv
      rw [run_bind_ok hr] at h
      split at h
      · cases h
      · rename_i h2
        have h2 : ea.toNat % 2 ^ 55 % q.align = 0 := by simpa [Req.misaligned] using h2
        cases sp with
        | true =>
          simp only [if_true] at h
          split at h
          · cases h
          · cases h
            exact ⟨⟨_, rfl⟩, h2, rfl, rfl, rfl⟩
        | false =>
          simp only [Bool.false_eq_true, if_false] at h
          split at h
          · cases h
          · exfalso
            repeat' split at h
            all_goals repeat rw [run_modify_bind] at h
            all_goals cases h
          · rename_i x hx
            have hw : ∃ w, (∃ y, w = { v with telemetry := y }) ∧
                (if Config.pcieBase ≤ x.pa then (pure (Loc.dev x.pa) : Mach Loc)
                  else pure (Loc.dram x.pa (x.dev || x.pol == 3 || q.bypass || v.armedLine x.pa))).run w = .ok l t := by
              split at h
              · rw [run_modify_bind] at h
                exact ⟨_, walked_eq _ _ _ _, h⟩
              · exact ⟨v, ⟨v.telemetry, rfl⟩, h⟩
            obtain ⟨w, hw, h⟩ := hw
            split at h
            · cases h
              exact ⟨hw, h2, rfl⟩
            · cases h
              exact ⟨hw, h2, rfl, translate_low hx, translate_held hx⟩

theorem barrierCheck_ok {s t : State} {q : Req} {ea : BitVec 64} {l : Loc} {r : Unit} (h : (barrierCheck q ea l).run s = .ok r t) :
    t = s := by
  unfold barrierCheck at h
  split at h
  · rw [run_get_bind] at h
    split at h
    · dsimp only at h
      split at h <;> cases h
    · cases h; rfl
  · cases h; rfl

theorem locate_ok {q : Req} {sp : Bool} {ea : BitVec 64} {l : Loc} (h : (locate q sp ea).run s = .ok l t) :
    (place q sp ea).run s = .ok l t := by
  unfold locate at h
  cases hp : (place q sp ea).run s with
  | error e v => rw [run_bind_error hp] at h; cases h
  | ok l' v =>
    rw [run_bind_ok hp] at h
    cases hb : (barrierCheck q ea l').run v with
    | error e w => rw [run_bind_error hb] at h; cases h
    | ok r w =>
      have hw := barrierCheck_ok hb
      rw [run_bind_ok hb] at h
      cases h
      rw [hw]

/-- An access that lands leaves memory and the moving hart as they were. -/
theorem lands_ok {q : Req} {ea : BitVec 64} {l : Loc} (h : s.lands q ea l t) : ∃ x, t = { s with telemetry := x } :=
  (place_ok (locate_ok h)).1
theorem lands_me {q : Req} {ea : BitVec 64} {l : Loc} (h : s.lands q ea l t) : t.me = s.me ∧ t.cur = s.cur := by
  obtain ⟨x, rfl⟩ := lands_ok h
  exact ⟨rfl, rfl⟩
theorem lands_live {q : Req} {ea : BitVec 64} {l : Loc} (h : s.lands q ea l t) (k : Nat) : t.live k = s.live k := by
  obtain ⟨x, rfl⟩ := lands_ok h
  rfl
theorem sameMemory_lands {q : Req} {ea : BitVec 64} {l : Loc} (h : s.lands q ea l t) : SameMemory s t := by
  obtain ⟨x, rfl⟩ := lands_ok h
  exact sameMemory_of_eq rfl rfl rfl

/-- A read where it lands and is answered. -/
theorem readMem_ok {q : Req} {ea : BitVec 64} {l : Loc} {x : Nat} (h : s.lands q ea l t)
    (hv : q.vec = true ∨ t.dcacheBad l q.n = false) (ha : t.answers l q.n = some (u, x)) :
    (readMem q (isSpad ea) ea).run s = .ok x u := by
  unfold readMem
  rw [run_bind_ok h]
  exact readLoc_ok hv ha

/-- What a scalar read answers is an answer without a mark. -/
theorem answersScalar_some {l : Loc} {n x : Nat} (h : s.answersScalar l n = some (t, x)) :
    s.dcacheBad l n = false ∧ s.answers l n = some (t, x) := by
  unfold State.answersScalar at h
  split at h
  · cases h
  · rename_i hb
    exact ⟨by simpa using hb, h⟩

theorem writeMem_ok {q : Req} {ea : BitVec 64} {l : Loc} (x : Nat) (h : s.lands q ea l t) :
    (writeMem q (isSpad ea) ea x).run s = .ok () (t.poke l (bytesOf q.n x)) := by
  unfold writeMem
  rw [run_bind_ok h]
  rfl

/-! ### Writes -/

theorem find_foldl_put (d : Tab Byte) (pa : Nat) (f : Nat → Byte) (n a : Nat) :
    Tab.find ((List.range n).foldl (fun d i => Tab.put d (pa + i) (f i)) d) a =
      if pa ≤ a ∧ a < pa + n then some (f (a - pa)) else Tab.find d a := by
  induction n with
  | zero => simp <;> omega
  | succ n ih =>
    rw [List.range_succ, List.foldl_append, List.foldl_cons, List.foldl_nil, Tab.find_put, ih]
    by_cases h : pa + n = a
    · subst h; simp
    · by_cases h2 : pa ≤ a ∧ a < pa + n
      · rw [if_neg h, if_pos h2, if_pos (by omega)]
      · rw [if_neg h, if_neg h2, if_neg (by omega)]

/-- The bytes of one line lie in it. -/
theorem line_eq {pa a n : Nat} (hl : pa % 128 + n ≤ 128) (h : pa ≤ a ∧ a < pa + n) : a / 128 = pa / 128 := by omega

/-- The bytes of a line lie in one channel. -/
theorem chanHeld_line {a b : Nat} (h : a / 128 = b / 128) : s.chanHeld a = s.chanHeld b := by
  unfold State.chanHeld Config.channelBytes
  congr 1
  omega

/-- What reads as before: a byte of which neither home nor the core's caches have changed. -/
theorem Untouched.of_eq {a : Nat} (hm : t.homeByte a = s.homeByte a) (hn : t.cur = s.cur)
    (hd : Tab.find (t.core s.coreNo).dirty a = Tab.find (s.core s.coreNo).dirty a)
    (hc : Tab.find (t.core s.coreNo).clean a = Tab.find (s.core s.coreNo).clean a) : Untouched s t a := by
  have hk : t.coreNo = s.coreNo := congrArg (· / 8) hn
  refine fun _ => ⟨.inl ?_, .inl hm, ?_⟩
  · unfold State.byteAt
    rw [hk, hd, hc, hm]
  · unfold State.cleanAt
    rw [hk, hc]
    exact id

theorem sameMemory_cdcFit (s : State) : SameMemory s (s.cdcFit s.coreNo) := by
  unfold State.cdcFit
  dsimp only
  split
  · exact .refl s
  · exact (sameMemory_of_eq (t := { s with fresh := s.fresh + 1 }) rfl rfl rfl).trans (sameMemory_evictIf _ _)

/-- A byte that its core holds dirty and no clean copy of stays as it reads. -/
theorem Untouched.byteAt {a : Nat} (h : Untouched s t a) (ha : isMeta a = false) (hc : s.cleanAt a = false) :
    t.byteAt t.coreNo a = s.byteAt s.coreNo a := by
  rcases (h ha).1 with h | ⟨hc', -⟩
  · exact h
  · rw [hc] at hc'; cases hc'

/-- A write through the CDC. -/
theorem stored_cdcWrite (s : State) (pa : Nat) (bs : List Byte) : Stored s (s.cdcWrite s.coreNo pa bs) (.dram pa false) bs := by
  let k := (s.core s.coreNo).dropScalar (fun a => pa / 128 ≤ a / 128 && a / 128 ≤ (pa + bs.length - 1) / 128)
  let kept := (wordsAt pa bs.length).filter
    (fun w => !(pa ≤ 8 * w && 8 * w + 8 ≤ pa + bs.length) && s.wordPoisoned s.coreNo w)
  let u : State := s.setCore s.coreNo
    { k with dirty := (List.range bs.length).foldl (fun d i => Tab.put d (pa + i) (bs.getD i 0)) k.dirty
             clean := k.clean.filter (fun e => !(pa ≤ e.1 && e.1 < pa + bs.length))
             tainted := poisonAll (unpoison k.tainted pa bs.length) kept }
  have hu : s.cdcWrite s.coreNo pa bs = u.cdcFit u.coreNo := rfl
  have hcore : u.core s.coreNo = _ := State.core_setCore _ _ _
  have hd (a : Nat) : Tab.find (u.core s.coreNo).dirty a =
      if pa ≤ a ∧ a < pa + bs.length then some (bs.getD (a - pa) 0) else Tab.find k.dirty a := by
    rw [hcore]
    exact find_foldl_put _ _ (fun i => bs.getD i 0) _ _
  have hc (a : Nat) : Tab.find (u.core s.coreNo).clean a =
      if pa ≤ a ∧ a < pa + bs.length then none else Tab.find k.clean a := by
    rw [hcore]
    have := Tab.find_filter k.clean (fun a => !(decide (pa ≤ a) && decide (a < pa + bs.length))) a
    dsimp only at this ⊢
    rw [this]
    by_cases h : pa ≤ a ∧ a < pa + bs.length
    · rw [if_pos h, if_neg]; simp [h]
    · rw [if_neg h, if_pos]
      simp only [Bool.not_eq_true', Bool.and_eq_false_iff, decide_eq_false_iff_not]
      omega
  have hfit := sameMemory_cdcFit u
  rw [hu]
  refine ⟨fun a => ?_, fun c o => (hfit.2 c o).trans ?_⟩
  · split
    · rename_i h
      intro ha
      rw [(hfit.1 a).byteAt ha (by unfold State.cleanAt; rw [show u.coreNo = s.coreNo from rfl, hc, if_pos h]; rfl)]
      unfold State.byteAt
      rw [show u.coreNo = s.coreNo from rfl, hd, if_pos h]
    · rename_i h
      have h0 : Untouched s u a := .of_eq rfl rfl (by rw [hd, if_neg h]; rfl) (by rw [hc, if_neg h]; rfl)
      exact h0.trans (hfit.1 a)
  · unfold State.spadByte
    by_cases h : s.coreNo = c
    · subst h; rw [hcore]; rfl
    · rw [show u.core c = s.core c from State.core_setCore_ne _ _ h]

/-- A write leaves its bytes at its place and reaches no other byte. A write at home lies within a line. -/
theorem stored_poke (s : State) (l : Loc) (bs : List Byte)
    (hl : ∀ pa, l = .dram pa true → pa % 128 + bs.length ≤ 128 ∧ s.chanHeld pa = false) : Stored s (s.poke l bs) l bs := by
  cases l with
  | dev pa => exact ⟨sameMemory_of_eq rfl rfl rfl, rfl⟩
  | spad c pa =>
    refine ⟨fun a => ?_, fun c' o => ?_⟩
    · unfold State.poke
      dsimp only
      by_cases h : c = s.coreNo
      · subst h
        exact .of_eq rfl rfl (by rw [State.core_setCore]) (by rw [State.core_setCore])
      · exact .of_eq rfl rfl (by rw [State.core_setCore_ne _ _ h]) (by rw [State.core_setCore_ne _ _ h])
    · unfold State.poke State.spadByte
      dsimp only
      by_cases h : c = c'
      · subst h
        rw [State.core_setCore]
        simp only [true_and]
        exact get_memSets _ _ _ _
      · rw [State.core_setCore_ne _ _ h, if_neg (by intro hh; exact h hh.1.symm)]
  | dram pa home =>
    cases home
    · exact stored_cdcWrite s pa bs
    · let p (a : Nat) : Bool := a / 128 == pa / 128
      have hs := sameMemory_evictIf s p
      refine ⟨fun a => ?_, fun c' o => hs.2 c' o⟩
      have hn : ((s.evictIf s.coreNo p).homeWrite pa bs).coreNo = s.coreNo := coreNo_writeBackIf s s.coreNo p
      show if pa ≤ a ∧ a < pa + bs.length then isMeta a = false →
          ((s.evictIf s.coreNo p).homeWrite pa bs).byteAt ((s.evictIf s.coreNo p).homeWrite pa bs).coreNo a = _
        else Untouched s ((s.evictIf s.coreNo p).homeWrite pa bs) a
      split
      · rename_i h
        intro _
        obtain ⟨hd, hc⟩ := byteAt_evictIf s p a (by simpa [p] using line_eq (hl pa rfl).1 h)
          (by rw [← (hl pa rfl).2]; exact chanHeld_line (line_eq (hl pa rfl).1 h))
        rw [hn]
        unfold State.byteAt
        rw [State.core_homeWrite, hd, hc]
        dsimp only
        rw [homeByte_homeWrite, if_pos h]
      · rename_i h
        refine (hs.1 a).trans (.of_eq ?_ rfl ?_ ?_)
        · rw [homeByte_homeWrite, if_neg h]
        · rw [State.core_homeWrite]
        · rw [State.core_homeWrite]

@[simp] theorem me_cdcFit (s : State) (c : Nat) : (s.cdcFit c).me = s.me := by
  unfold State.cdcFit State.evictLine; dsimp only; split
  · rfl
  · rw [me_evictIf]; rfl
@[simp] theorem cur_cdcFit (s : State) (c : Nat) : (s.cdcFit c).cur = s.cur := by
  unfold State.cdcFit State.evictLine; dsimp only; split
  · rfl
  · rw [cur_evictIf]
@[simp] theorem live_cdcFit (s : State) (c k : Nat) : (s.cdcFit c).live k = s.live k := by
  unfold State.cdcFit State.evictLine; dsimp only; split
  · rfl
  · rw [live_evictIf]; rfl

theorem poke_cdc (s : State) (pa : Nat) (bs : List Byte) : s.poke (.dram pa false) bs = s.cdcWrite s.coreNo pa bs := rfl
theorem poke_home (s : State) (pa : Nat) (bs : List Byte) :
    s.poke (.dram pa true) bs = (s.evictLine s.coreNo pa).homeWrite pa bs := rfl

/-- The moving hart stays where it is while bytes are written. -/
theorem poke_me (s : State) (l : Loc) (bs : List Byte) : (s.poke l bs).me = s.me ∧ (s.poke l bs).cur = s.cur := by
  cases l with
  | dram pa home =>
    cases home
    · rw [poke_cdc]
      unfold State.cdcWrite
      dsimp only
      rw [me_cdcFit, cur_cdcFit]
      exact ⟨rfl, rfl⟩
    · rw [poke_home]
      unfold State.evictLine
      generalize hp : (fun a => a / 128 == pa / 128) = p
      exact ⟨(State.me_homeWrite _ _ _).trans (me_evictIf s _ _), (rfl : _ = (s.evictIf s.coreNo p).cur).trans (cur_evictIf s _ _)⟩
  | _ => exact ⟨rfl, rfl⟩
theorem poke_live (s : State) (l : Loc) (bs : List Byte) (k : Nat) : (s.poke l bs).live k = s.live k := by
  cases l with
  | dram pa home =>
    cases home
    · rw [poke_cdc]
      unfold State.cdcWrite
      dsimp only
      rw [live_cdcFit]
      rfl
    · rw [poke_home]
      unfold State.evictLine
      generalize hp : (fun a => a / 128 == pa / 128) = p
      exact (State.live_homeWrite _ _ _ _).trans (live_evictIf s _ _ _)
  | _ => rfl

/-- A naturally aligned access of at most 128 bytes lies within a line. -/
theorem lands_line {q : Req} {ea : BitVec 64} {l : Loc} (h : s.lands q ea l t) (ha : q.n ∣ q.align) (h128 : q.align ∣ 128)
    {pa : Nat} {home : Bool} (hpa : l = .dram pa home) : pa % 128 + q.n ≤ 128 := by
  subst hpa
  obtain ⟨-, hm, -, hl, -⟩ := place_ok (locate_ok h)
  have h5 : q.n ∣ 128 := Nat.dvd_trans ha h128
  have h1 : pa % 128 = ea.toNat % 2 ^ 55 % 128 := by omega
  have h2 : q.n ∣ pa % 128 := by
    rw [h1]
    exact (Nat.dvd_mod_iff h5).mpr (Nat.dvd_trans ha (Nat.dvd_of_mod_eq_zero hm))
  obtain ⟨z, hz⟩ := h2
  obtain ⟨w, hw⟩ := h5
  have h6 : pa % 128 < 128 := Nat.mod_lt _ (by decide)
  have h7 : z < w := by
    rw [hz, hw] at h6
    exact Nat.lt_of_mul_lt_mul_left h6
  have h8 : q.n * (z + 1) ≤ q.n * w := Nat.mul_le_mul_left _ h7
  rw [Nat.mul_add, Nat.mul_one] at h8
  omega

/-! ### Orders and atomics -/

theorem awaitTransfers_ok (h : s.me.xfers = []) : awaitTransfers.run s = .ok () s := by
  unfold awaitTransfers
  rw [run_get_bind, h]
  rfl

/-- The cache actions of a release part, where nothing that it writes back is held. -/
theorem releaseCaches_ok {scope : Nat} (h : 3 ≤ scope → s.dirtyHeld s.coreNo = false) :
    (releaseCaches scope).run s = .ok () (s.releasedBy scope) := by
  unfold releaseCaches
  rw [run_get_bind]
  dsimp only
  rw [if_neg]
  · rfl
  · intro hh
    simp only [Bool.and_eq_true, decide_eq_true_eq] at hh
    rw [h hh.1] at hh
    exact absurd hh.2 (by decide)

/-- The release part of an event whose hart has no transfer in flight. -/
theorem releasePart_ok {scope : Nat} (h : s.me.xfers = []) (hd : 3 ≤ scope → s.dirtyHeld s.coreNo = false) :
    (releasePart scope).run s = .ok () (s.releasedBy scope) := by
  unfold releasePart
  by_cases h0 : scope = 0
  · subst h0; rfl
  · simp only [bne_iff_ne, ne_eq, h0, not_false_eq_true, if_true]
    rw [run_bind_ok (awaitTransfers_ok h), releaseCaches_ok hd]

/-- The parts of a two-bit order. -/
theorem orderRelease_ok {o sc : BitVec 2} (h : s.orderReady o sc) :
    (orderRelease o (scopeOf sc)).run s = .ok () (s.releasedAt o sc) := by
  unfold orderRelease State.releasedAt
  have hs : (3 ≤ scopeOf sc) ↔ (1 ≤ sc.toNat) := by unfold scopeOf; omega
  by_cases ho : 2 ≤ o.toNat
  · rw [if_pos ho, releasePart_ok (h ho).1 (fun hh => (h ho).2 (hs.mp hh))]
    unfold State.releasedBy
    simp only [ho, hs, true_and]
  · rw [if_neg ho]
    simp only [ho, false_and, if_false]
    rfl
theorem orderAcquire_ok (s : State) (o sc : BitVec 2) :
    (orderAcquire o (scopeOf sc)).run s = .ok () (s.acquiredAt o sc) := by
  unfold orderAcquire State.acquiredAt acquirePart
  have hs : (3 ≤ scopeOf sc) ↔ (1 ≤ sc.toNat) := by unfold scopeOf; omega
  by_cases ho : o.toNat % 2 = 1
  · rw [if_pos ho]
    simp only [ho, hs, true_and]
    rfl
  · rw [if_neg ho]
    simp only [ho, false_and, if_false]
    rfl

theorem sameMemory_releasedAt (s : State) (o sc : BitVec 2) : SameMemory s (s.releasedAt o sc) := by
  unfold State.releasedAt
  split
  · exact sameMemory_writeBackIf s _
  · exact .refl s
theorem sameMemory_acquiredAt (s : State) (o sc : BitVec 2) : SameMemory s (s.acquiredAt o sc) := by
  unfold State.acquiredAt
  split
  · exact sameMemory_dropClean s _
  · exact .refl s
@[simp] theorem me_releasedAt (s : State) (o sc : BitVec 2) : (s.releasedAt o sc).me = s.me := by
  unfold State.releasedAt; split <;> first | exact me_writeBackIf _ _ _ | rfl
@[simp] theorem cur_releasedAt (s : State) (o sc : BitVec 2) : (s.releasedAt o sc).cur = s.cur := by
  unfold State.releasedAt; split <;> first | exact cur_writeBackIf _ _ _ | rfl
@[simp] theorem live_releasedAt (s : State) (o sc : BitVec 2) (k : Nat) : (s.releasedAt o sc).live k = s.live k := by
  unfold State.releasedAt; split <;> first | exact live_writeBackIf _ _ _ k | rfl
@[simp] theorem me_acquiredAt (s : State) (o sc : BitVec 2) : (s.acquiredAt o sc).me = s.me := by
  unfold State.acquiredAt; split <;> rfl
@[simp] theorem cur_acquiredAt (s : State) (o sc : BitVec 2) : (s.acquiredAt o sc).cur = s.cur := by
  unfold State.acquiredAt; split <;> rfl
@[simp] theorem live_acquiredAt (s : State) (o sc : BitVec 2) (k : Nat) : (s.acquiredAt o sc).live k = s.live k := by
  unfold State.acquiredAt; split <;> rfl

/-- A scalar atomic is performed where its scope says. -/
theorem atomicAt_scopeOf (l : Loc) (sc : BitVec 2) : l.atomicAt (scopeOf sc) = atomicLoc l sc := by
  cases l with
  | dram pa home =>
    have : decide (3 ≤ scopeOf sc) = decide (1 ≤ sc.toNat) := by
      unfold scopeOf
      apply decide_eq_decide.mpr
      omega
    unfold Loc.atomicAt atomicLoc
    dsimp only
    rw [this]
  | _ => rfl

/-- An indivisible update where its read is answered. -/
theorem rmwLoc_ok {q : Req} {ea : BitVec 64} {l : Loc} {scope old : Nat} {f : Nat → Nat}
    (hv : q.vec = true ∨ s.dcacheBad (l.atomicAt scope) q.n = false) (h : s.answers (l.atomicAt scope) q.n = some (t, old)) :
    (rmwLoc q ea l scope f).run s = .ok old (t.poke (l.atomicAt scope) (bytesOf q.n (f old))) := by
  unfold rmwLoc
  dsimp only
  rw [run_bind_ok (readLoc_ok hv h)]
  rfl

end Sys2Proof.Machine
end

