-- ==== Sys2Proof/Laws/Hart.lean ====
section
/-!
SUPPORT. What the operations that move a hart do, said once: fetch, hand-over, the turn of its vector side and an act at
another hart's slot.
-/

namespace Sys2Proof.Machine

variable {s : State} {i : Instr}

/-- How many parcels a decoded instruction has is told by its first one (R66, R67). -/
theorem parcels_of_decode {w : Parcel} {ws : List Parcel} {n : Nat} (h : decode (w :: ws) = .ok (i, n)) :
    (twoParcels w = true ∧ n = 2) ∨ (twoParcels w = false ∧ n = 1 ∧ ¬(pTop w = 3 ∧ pSub w = 0)) := by
  simp only [decode] at h
  split at h
  · rename_i hp
    left
    refine ⟨by simp [twoParcels, hp], ?_⟩
    split at h
    · split at h <;> cases h
    · rename_i q _
      cases hd : decodeVector w q <;> rw [hd] at h <;> cases h
      rfl
  · rename_i hp
    split at h
    · cases h
    · rename_i hs
      left
      refine ⟨by simp [twoParcels, hp, hs], ?_⟩
      split at h
      · cases h
      · split at h
        · split at h <;> cases h
          rfl
        · cases h
    · cases h
  · rename_i h2 h3
    right
    refine ⟨?_, ?_, fun x => h3 x.1⟩
    · simp only [twoParcels, Bool.or_eq_false_iff, Bool.and_eq_false_iff, beq_eq_false_iff_ne]
      exact ⟨h2, .inl h3⟩
    · cases hd : decodeScalar none w <;> rw [hd] at h <;> cases h
      rfl

/-- Where the bytes at the PC decode, that is what the fetch brings. -/
theorem fetch_of_fetches {k : Nat} (h : s.fetches i k) : s.fetch = .ok (.one i, k) := by
  rcases h with ⟨w, hp, hd⟩ | ⟨w, q, j, hp, hq, hd⟩
  · obtain ⟨-, hn⟩ | ⟨ht, -, hh⟩ := parcels_of_decode hd
    · cases hn
    · have hh' : ¬(pTop w = 3 ∧ pSub w = 0) := hh
      simp [State.fetch, hp, ht, hh', decodedOne, hd, bind, Except.bind, pure, Except.pure]
  · obtain ⟨ht, -⟩ | ⟨-, hn, -⟩ := parcels_of_decode hd
    · have hq' : s.parcelAt (s.me.pc + 4#55) (s.me.pc.setWidth 64) j = .ok (q, k) := hq
      simp [State.fetch, hp, hq', ht, decodedOne, hd, bind, Except.bind, pure, Except.pure]
    · cases hn

/-- A vector-side instruction that executes is retired past its eight bytes. -/
theorem exec_vector (h : isVector i = true) (s : State) : exec i s = retire i 8 (vecEffect i) s := by
  cases i <;> first | (simp [isVector] at h; done) | rfl

/-- An act at a slot depends on what it does to the state in which that hart moves. -/
theorem as_congr {key : Nat} {f : State → Host.Outcome State Fault Refusal} {o : Host.Outcome State Fault Refusal}
    (h : f { s with cur := key } = o) : s.as key f = s.as key (fun _ => o) := by
  simp only [State.as, h]

/-- The turn of the vector side where nothing of it is left and the PC names one of its instructions, which may start. -/
theorem vectorTurn_one (hi : s.me.idleQueue = true) (hp : s.peekFetch = some (.one i)) (hv : isVector i = true)
    (hs : s.startsAt [i] = true) : s.vectorTurn = exec i (s.fetched (.one i) 0) := by
  simp [State.vectorTurn, hi, hp, hv, hs, exec_vector hv]

/-- What the PC names as an entry, where it passes its checks. -/
theorem pcEntry_one (hp : s.peekFetch = some (.one i)) (hv : isVector i = true) (hb : s.begins i = true) :
    s.pcEntry = some (s.me.entry false [i]) := by
  simp [State.pcEntry, hp, hv, begins_gate hb]

/-- A scalar instruction is no entry of the vector side. -/
theorem pcEntry_scalar (hp : s.peekFetch = some (.one i)) (hv : isVector i = false) : s.pcEntry = none := by
  simp [State.pcEntry, hp, hv]

theorem oldest_one (hi : s.me.idleQueue = true) (hp : s.peekFetch = some (.one i)) (hv : isVector i = true)
    (hb : s.begins i = true) : s.oldest = some ([i], s.me) := by
  simp only [Hart.idleQueue, Bool.and_eq_true, List.isEmpty_iff] at hi
  have hw : s.me.win ++ s.me.vq ++ s.pcEntry.toList = [s.me.entry false [i]] := by
    rw [hi.1, hi.2, pcEntry_one hp hv hb]; rfl
  unfold State.oldest
  dsimp only
  rw [hw]
  rfl

/-- The oldest entry past hand-over, which has left its queue and whose turn it is, where its execution meets no trap. -/
theorem runEntry_ok {e : VEntry} {es : List VEntry} {t : State} (hw : s.me.win = e :: es) (hi : e.issued = true)
    (hn : s.notYet e = false)
    (h : (e.run s.unwaited.grp).run (s.setMe { s.unwaited with s := e.s, vc := e.vc, pc := e.pc, win := es }) = .ok () t) :
    s.runEntry = .next (t.setMe { s.unwaited.rejoin t.me e with devReads := [], devUsed := 0 }) := by
  have hw' : s.unwaited.win = e :: es := hw
  have hh : s.me.win.head?.elim false VEntry.issued = true := by rw [hw]; exact hi
  simp only [State.runEntry, if_pos hh, State.runHead, hw', hn, Bool.false_eq_true, if_false, h]

/-- What the PC names executes; a vector-side instruction, once it may start. -/
theorem fetchTurn_one {run : Instr → State → Host.Outcome State Fault Refusal} {k : Nat} (h : s.fetches i k)
    (hs : isVector i = true → s.startsAt [i] = true) : s.fetchTurn run = run i (s.fetched (.one i) k) := by
  unfold State.fetchTurn
  rw [fetch_of_fetches h]
  cases hv : isVector i
  · simp [hv]
  · simp [hv, hs hv]

end Sys2Proof.Machine
end

