-- ==== Sys2Proof/Laws/PerInstr.lean ====
section
/-!
SUPPORT. The family RoundTrip: the decoder reads an encoded instruction back, with every field at every value, whatever
parcels follow (R66 to R78). One lemma for each format, one for each constructor; an event has no encoding.
-/

set_option Elab.async false

namespace Sys2Proof.Laws.RoundTrip

/-- What the family states of one instruction. -/
def Statement (i : Instr) : Prop :=
  encode i ≠ [] → ∀ rest : List Parcel, decode (encode i ++ rest) = .ok (i, (encode i).length)

/-! ### Fields of a concatenation -/

theorem field_high {v w : Nat} (x : BitVec v) (y : BitVec w) (s l : Nat) (h : w ≤ s) :
    (x ++ y).extractLsb' s l = x.extractLsb' (s - w) l := by
  ext i hi
  simp only [BitVec.getElem_extractLsb', BitVec.getLsbD_append]
  rw [if_neg (by omega)]
  congr 1
  omega

theorem field_low {v w : Nat} (x : BitVec v) (y : BitVec w) (s l : Nat) (h : s + l ≤ w) :
    (x ++ y).extractLsb' s l = y.extractLsb' s l := by
  ext i hi
  simp only [BitVec.getElem_extractLsb', BitVec.getLsbD_append]
  rw [if_pos (by omega)]

theorem field_all {w : Nat} (x : BitVec w) : x.extractLsb' 0 w = x := by
  ext i hi
  simp

/-! ### The scalar formats -/

theorem scalar_unprefixed {i : Instr} {w : Parcel} (he : encode i = [w]) (ht : pTop w < 2)
    (hd : decodeScalar none w = .ok i) : Statement i := by
  intro _ rest
  have h2 : pTop w = 0 ∨ pTop w = 1 := by omega
  rcases h2 with h2 | h2 <;> simp [he, decode, h2, hd, Except.map]

theorem scalar_prefixed {i : Instr} {h : BitVec 28} {w : Parcel} (he : encode i = [0xD#4 ++ h, w]) (ht : pTop w < 2)
    (hp : prefixable (scalarFields w).op.toNat = true) (hd : decodeScalar (some h) w = .ok i) : Statement i := by
  intro _ rest
  have h3 : pTop (0xD#4 ++ h) = 3 := by
    simp (disch := decide) only [pTop, field_high]
    rfl
  have h1 : pSub (0xD#4 ++ h) = 1 := by
    simp (disch := decide) only [pSub, field_high]
    rfl
  have hh : BitVec.extractLsb' 0 28 (0xD#4 ++ h) = h := by
    simp (disch := decide) only [field_low, field_all]
  simp only [he, List.cons_append, List.nil_append, decode, h3, h1, hh, hd, hp, ht, decide_true, Bool.and_self, if_true,
    List.length_cons, List.length_nil]

theorem topS3 (op : BitVec 7) (d : BitVec 6) (a : BitVec 6) (b : BitVec 6) (fn : BitVec 7) (ho : op.toNat < 0x40) : pTop (op ++ d ++ a ++ b ++ fn) < 2 := by
  have h : (op ++ d ++ a ++ b ++ fn).extractLsb' 30 2 = op.extractLsb' 5 2 := by
    simp (disch := decide) only [field_high, Nat.reduceSub]
  rw [pTop, h, BitVec.extractLsb'_toNat, Nat.shiftRight_eq_div_pow]
  omega

theorem formS3 {i : Instr} (op : BitVec 7) (d : BitVec 6) (a : BitVec 6) (b : BitVec 6) (fn : BitVec 7) (he : encode i = [op ++ d ++ a ++ b ++ fn]) (ho : op.toNat < 0x40 := by decide)
    (hd : ∀ (i13 : BitVec 13) (i19 : BitVec 19) (c : BitVec 3) (cond : BitVec 3) (neg : BitVec 1) (disp : BitVec 21) (low : BitVec 25) (kind : BitVec 2) (mid : BitVec 5) (count : BitVec 6) (rm : BitVec 3) (fn4 : BitVec 4) (succ : BitVec 2) (fail : BitVec 2) (order : BitVec 2) (scope : BitVec 2) (reach : BitVec 3) (pair : BitVec 2) (last : BitVec 1), scalarOf none { op := op, d := d, a := a, b := b, fn := fn, i13 := i13, i19 := i19, c := c, cond := cond, neg := neg, disp := disp, low := low, kind := kind, mid := mid, count := count, rm := rm, fn4 := fn4, succ := succ, fail := fail, order := order, scope := scope, reach := reach, pair := pair, last := last } = .ok i) : Statement i := by
  refine scalar_unprefixed he (topS3 _ _ _ _ _ ho) ?_
  rw [decodeScalar]
  simp (disch := decide) only [scalarFields, field_high, field_low, field_all, Nat.reduceSub]
  exact hd _ _ _ _ _ _ _ _ _ _ _ _ _ _ _ _ _ _ _

theorem topFloat (op : BitVec 7) (d : BitVec 6) (a : BitVec 6) (b : BitVec 6) (rm : BitVec 3) (fn4 : BitVec 4) (ho : op.toNat < 0x40) : pTop (op ++ d ++ a ++ b ++ (rm ++ fn4)) < 2 := by
  have h : (op ++ d ++ a ++ b ++ (rm ++ fn4)).extractLsb' 30 2 = op.extractLsb' 5 2 := by
    simp (disch := decide) only [field_high]
  rw [pTop, h, BitVec.extractLsb'_toNat, Nat.shiftRight_eq_div_pow]
  omega

theorem formFloat {i : Instr} (op : BitVec 7) (d : BitVec 6) (a : BitVec 6) (b : BitVec 6) (rm : BitVec 3) (fn4 : BitVec 4) (he : encode i = [op ++ d ++ a ++ b ++ (rm ++ fn4)]) (ho : op.toNat < 0x40 := by decide)
    (hd : ∀ (fn : BitVec 7) (i13 : BitVec 13) (i19 : BitVec 19) (c : BitVec 3) (cond : BitVec 3) (neg : BitVec 1) (disp : BitVec 21) (low : BitVec 25) (kind : BitVec 2) (mid : BitVec 5) (count : BitVec 6) (succ : BitVec 2) (fail : BitVec 2) (order : BitVec 2) (scope : BitVec 2) (reach : BitVec 3) (pair : BitVec 2) (last : BitVec 1), scalarOf none { op := op, d := d, a := a, b := b, fn := fn, i13 := i13, i19 := i19, c := c, cond := cond, neg := neg, disp := disp, low := low, kind := kind, mid := mid, count := count, rm := rm, fn4 := fn4, succ := succ, fail := fail, order := order, scope := scope, reach := reach, pair := pair, last := last } = .ok i) : Statement i := by
  refine scalar_unprefixed he (topFloat _ _ _ _ _ _ ho) ?_
  rw [decodeScalar]
  simp (disch := decide) only [scalarFields, field_high, field_low, field_all]
  simp only [Nat.reduceAdd, Nat.reduceSub, field_all]
  exact hd _ _ _ _ _ _ _ _ _ _ _ _ _ _ _ _ _ _

theorem topAmo (op : BitVec 7) (d : BitVec 6) (a : BitVec 6) (b : BitVec 6) (rm : BitVec 3) (order : BitVec 2) (scope : BitVec 2) (ho : op.toNat < 0x40) : pTop (op ++ d ++ a ++ b ++ (rm ++ order ++ scope)) < 2 := by
  have h : (op ++ d ++ a ++ b ++ (rm ++ order ++ scope)).extractLsb' 30 2 = op.extractLsb' 5 2 := by
    simp (disch := decide) only [field_high]
  rw [pTop, h, BitVec.extractLsb'_toNat, Nat.shiftRight_eq_div_pow]
  omega

theorem formAmo {i : Instr} (op : BitVec 7) (d : BitVec 6) (a : BitVec 6) (b : BitVec 6) (rm : BitVec 3) (order : BitVec 2) (scope : BitVec 2) (he : encode i = [op ++ d ++ a ++ b ++ (rm ++ order ++ scope)]) (ho : op.toNat < 0x40 := by decide)
    (hd : ∀ (fn : BitVec 7) (i13 : BitVec 13) (i19 : BitVec 19) (c : BitVec 3) (cond : BitVec 3) (neg : BitVec 1) (disp : BitVec 21) (low : BitVec 25) (kind : BitVec 2) (mid : BitVec 5) (count : BitVec 6) (fn4 : BitVec 4) (succ : BitVec 2) (fail : BitVec 2) (reach : BitVec 3) (pair : BitVec 2) (last : BitVec 1), scalarOf none { op := op, d := d, a := a, b := b, fn := fn, i13 := i13, i19 := i19, c := c, cond := cond, neg := neg, disp := disp, low := low, kind := kind, mid := mid, count := count, rm := rm, fn4 := fn4, succ := succ, fail := fail, order := order, scope := scope, reach := reach, pair := pair, last := last } = .ok i) : Statement i := by
  refine scalar_unprefixed he (topAmo _ _ _ _ _ _ _ ho) ?_
  rw [decodeScalar]
  simp (disch := decide) only [scalarFields, field_high, field_low, field_all]
  simp only [Nat.reduceAdd, Nat.reduceSub, field_all]
  exact hd _ _ _ _ _ _ _ _ _ _ _ _ _ _ _ _ _

theorem topCas (op : BitVec 7) (d : BitVec 6) (a : BitVec 6) (b : BitVec 6) (succ : BitVec 2) (fail : BitVec 2) (pair : BitVec 2) (last : BitVec 1) (ho : op.toNat < 0x40) : pTop (op ++ d ++ a ++ b ++ (succ ++ fail ++ pair ++ last)) < 2 := by
  have h : (op ++ d ++ a ++ b ++ (succ ++ fail ++ pair ++ last)).extractLsb' 30 2 = op.extractLsb' 5 2 := by
    simp (disch := decide) only [field_high]
  rw [pTop, h, BitVec.extractLsb'_toNat, Nat.shiftRight_eq_div_pow]
  omega

theorem formCas {i : Instr} (op : BitVec 7) (d : BitVec 6) (a : BitVec 6) (b : BitVec 6) (succ : BitVec 2) (fail : BitVec 2) (pair : BitVec 2) (last : BitVec 1) (he : encode i = [op ++ d ++ a ++ b ++ (succ ++ fail ++ pair ++ last)]) (ho : op.toNat < 0x40 := by decide)
    (hd : ∀ (fn : BitVec 7) (i13 : BitVec 13) (i19 : BitVec 19) (c : BitVec 3) (cond : BitVec 3) (neg : BitVec 1) (disp : BitVec 21) (low : BitVec 25) (kind : BitVec 2) (mid : BitVec 5) (count : BitVec 6) (rm : BitVec 3) (fn4 : BitVec 4) (order : BitVec 2) (scope : BitVec 2) (reach : BitVec 3), scalarOf none { op := op, d := d, a := a, b := b, fn := fn, i13 := i13, i19 := i19, c := c, cond := cond, neg := neg, disp := disp, low := low, kind := kind, mid := mid, count := count, rm := rm, fn4 := fn4, succ := succ, fail := fail, order := order, scope := scope, reach := reach, pair := pair, last := last } = .ok i) : Statement i := by
  refine scalar_unprefixed he (topCas _ _ _ _ _ _ _ _ ho) ?_
  rw [decodeScalar]
  simp (disch := decide) only [scalarFields, field_high, field_low, field_all]
  simp only [Nat.reduceAdd, Nat.reduceSub, field_all]
  exact hd _ _ _ _ _ _ _ _ _ _ _ _ _ _ _ _

theorem topFence (op : BitVec 7) (d : BitVec 6) (a : BitVec 6) (b : BitVec 6) (succ : BitVec 2) (reach : BitVec 3) (scope : BitVec 2) (ho : op.toNat < 0x40) : pTop (op ++ d ++ a ++ b ++ (succ ++ reach ++ scope)) < 2 := by
  have h : (op ++ d ++ a ++ b ++ (succ ++ reach ++ scope)).extractLsb' 30 2 = op.extractLsb' 5 2 := by
    simp (disch := decide) only [field_high]
  rw [pTop, h, BitVec.extractLsb'_toNat, Nat.shiftRight_eq_div_pow]
  omega

theorem formFence {i : Instr} (op : BitVec 7) (d : BitVec 6) (a : BitVec 6) (b : BitVec 6) (succ : BitVec 2) (reach : BitVec 3) (scope : BitVec 2) (he : encode i = [op ++ d ++ a ++ b ++ (succ ++ reach ++ scope)]) (ho : op.toNat < 0x40 := by decide)
    (hd : ∀ (fn : BitVec 7) (i13 : BitVec 13) (i19 : BitVec 19) (c : BitVec 3) (cond : BitVec 3) (neg : BitVec 1) (disp : BitVec 21) (low : BitVec 25) (kind : BitVec 2) (mid : BitVec 5) (count : BitVec 6) (rm : BitVec 3) (fn4 : BitVec 4) (fail : BitVec 2) (order : BitVec 2) (pair : BitVec 2) (last : BitVec 1), scalarOf none { op := op, d := d, a := a, b := b, fn := fn, i13 := i13, i19 := i19, c := c, cond := cond, neg := neg, disp := disp, low := low, kind := kind, mid := mid, count := count, rm := rm, fn4 := fn4, succ := succ, fail := fail, order := order, scope := scope, reach := reach, pair := pair, last := last } = .ok i) : Statement i := by
  refine scalar_unprefixed he (topFence _ _ _ _ _ _ _ ho) ?_
  rw [decodeScalar]
  simp (disch := decide) only [scalarFields, field_high, field_low, field_all]
  simp only [Nat.reduceAdd, Nat.reduceSub, field_all]
  exact hd _ _ _ _ _ _ _ _ _ _ _ _ _ _ _ _ _

theorem topSI (op : BitVec 7) (d : BitVec 6) (a : BitVec 6) (i13 : BitVec 13) (ho : op.toNat < 0x40) : pTop (op ++ d ++ a ++ i13) < 2 := by
  have h : (op ++ d ++ a ++ i13).extractLsb' 30 2 = op.extractLsb' 5 2 := by
    simp (disch := decide) only [field_high, Nat.reduceSub]
  rw [pTop, h, BitVec.extractLsb'_toNat, Nat.shiftRight_eq_div_pow]
  omega

theorem formSI {i : Instr} (op : BitVec 7) (d : BitVec 6) (a : BitVec 6) (i13 : BitVec 13) (he : encode i = [op ++ d ++ a ++ i13]) (ho : op.toNat < 0x40 := by decide)
    (hd : ∀ (b : BitVec 6) (fn : BitVec 7) (i19 : BitVec 19) (c : BitVec 3) (cond : BitVec 3) (neg : BitVec 1) (disp : BitVec 21) (low : BitVec 25) (kind : BitVec 2) (mid : BitVec 5) (count : BitVec 6) (rm : BitVec 3) (fn4 : BitVec 4) (succ : BitVec 2) (fail : BitVec 2) (order : BitVec 2) (scope : BitVec 2) (reach : BitVec 3) (pair : BitVec 2) (last : BitVec 1), scalarOf none { op := op, d := d, a := a, b := b, fn := fn, i13 := i13, i19 := i19, c := c, cond := cond, neg := neg, disp := disp, low := low, kind := kind, mid := mid, count := count, rm := rm, fn4 := fn4, succ := succ, fail := fail, order := order, scope := scope, reach := reach, pair := pair, last := last } = .ok i) : Statement i := by
  refine scalar_unprefixed he (topSI _ _ _ _ ho) ?_
  rw [decodeScalar]
  simp (disch := decide) only [scalarFields, field_high, field_low, field_all, Nat.reduceSub]
  exact hd _ _ _ _ _ _ _ _ _ _ _ _ _ _ _ _ _ _ _ _

theorem formSIP {i : Instr} (h : BitVec 28) (op : BitVec 7) (d : BitVec 6) (a : BitVec 6) (i13 : BitVec 13) (he : encode i = [0xD#4 ++ h, op ++ d ++ a ++ i13]) (ho : op.toNat < 0x40 := by decide) (hp : prefixable op.toNat = true := by decide)
    (hd : ∀ (b : BitVec 6) (fn : BitVec 7) (i19 : BitVec 19) (c : BitVec 3) (cond : BitVec 3) (neg : BitVec 1) (disp : BitVec 21) (low : BitVec 25) (kind : BitVec 2) (mid : BitVec 5) (count : BitVec 6) (rm : BitVec 3) (fn4 : BitVec 4) (succ : BitVec 2) (fail : BitVec 2) (order : BitVec 2) (scope : BitVec 2) (reach : BitVec 3) (pair : BitVec 2) (last : BitVec 1), scalarOf (some h) { op := op, d := d, a := a, b := b, fn := fn, i13 := i13, i19 := i19, c := c, cond := cond, neg := neg, disp := disp, low := low, kind := kind, mid := mid, count := count, rm := rm, fn4 := fn4, succ := succ, fail := fail, order := order, scope := scope, reach := reach, pair := pair, last := last } = .ok i) : Statement i := by
  refine scalar_prefixed he (topSI _ _ _ _ ho) ?_ ?_
  · have h0 : (scalarFields (op ++ d ++ a ++ i13)).op = op := by
      simp (disch := decide) only [scalarFields, field_high, field_low, field_all, Nat.reduceSub]
    rw [h0]; exact hp
  · rw [decodeScalar]
    simp (disch := decide) only [scalarFields, field_high, field_low, field_all, Nat.reduceSub]
    exact hd _ _ _ _ _ _ _ _ _ _ _ _ _ _ _ _ _ _ _ _

theorem topShift (op : BitVec 7) (d : BitVec 6) (a : BitVec 6) (kind : BitVec 2) (mid : BitVec 5) (count : BitVec 6) (ho : op.toNat < 0x40) : pTop (op ++ d ++ a ++ (kind ++ mid ++ count)) < 2 := by
  have h : (op ++ d ++ a ++ (kind ++ mid ++ count)).extractLsb' 30 2 = op.extractLsb' 5 2 := by
    simp (disch := decide) only [field_high]
  rw [pTop, h, BitVec.extractLsb'_toNat, Nat.shiftRight_eq_div_pow]
  omega

theorem formShift {i : Instr} (op : BitVec 7) (d : BitVec 6) (a : BitVec 6) (kind : BitVec 2) (mid : BitVec 5) (count : BitVec 6) (he : encode i = [op ++ d ++ a ++ (kind ++ mid ++ count)]) (ho : op.toNat < 0x40 := by decide)
    (hd : ∀ (b : BitVec 6) (fn : BitVec 7) (i13 : BitVec 13) (i19 : BitVec 19) (c : BitVec 3) (cond : BitVec 3) (neg : BitVec 1) (disp : BitVec 21) (low : BitVec 25) (rm : BitVec 3) (fn4 : BitVec 4) (succ : BitVec 2) (fail : BitVec 2) (order : BitVec 2) (scope : BitVec 2) (reach : BitVec 3) (pair : BitVec 2) (last : BitVec 1), scalarOf none { op := op, d := d, a := a, b := b, fn := fn, i13 := i13, i19 := i19, c := c, cond := cond, neg := neg, disp := disp, low := low, kind := kind, mid := mid, count := count, rm := rm, fn4 := fn4, succ := succ, fail := fail, order := order, scope := scope, reach := reach, pair := pair, last := last } = .ok i) : Statement i := by
  refine scalar_unprefixed he (topShift _ _ _ _ _ _ ho) ?_
  rw [decodeScalar]
  simp (disch := decide) only [scalarFields, field_high, field_low, field_all]
  simp only [Nat.reduceAdd, Nat.reduceSub, field_all]
  exact hd _ _ _ _ _ _ _ _ _ _ _ _ _ _ _ _ _ _

theorem topSJ (op : BitVec 7) (d : BitVec 6) (i19 : BitVec 19) (ho : op.toNat < 0x40) : pTop (op ++ d ++ i19) < 2 := by
  have h : (op ++ d ++ i19).extractLsb' 30 2 = op.extractLsb' 5 2 := by
    simp (disch := decide) only [field_high, Nat.reduceSub]
  rw [pTop, h, BitVec.extractLsb'_toNat, Nat.shiftRight_eq_div_pow]
  omega

theorem formSJ {i : Instr} (op : BitVec 7) (d : BitVec 6) (i19 : BitVec 19) (he : encode i = [op ++ d ++ i19]) (ho : op.toNat < 0x40 := by decide)
    (hd : ∀ (a : BitVec 6) (b : BitVec 6) (fn : BitVec 7) (i13 : BitVec 13) (c : BitVec 3) (cond : BitVec 3) (neg : BitVec 1) (disp : BitVec 21) (low : BitVec 25) (kind : BitVec 2) (mid : BitVec 5) (count : BitVec 6) (rm : BitVec 3) (fn4 : BitVec 4) (succ : BitVec 2) (fail : BitVec 2) (order : BitVec 2) (scope : BitVec 2) (reach : BitVec 3) (pair : BitVec 2) (last : BitVec 1), scalarOf none { op := op, d := d, a := a, b := b, fn := fn, i13 := i13, i19 := i19, c := c, cond := cond, neg := neg, disp := disp, low := low, kind := kind, mid := mid, count := count, rm := rm, fn4 := fn4, succ := succ, fail := fail, order := order, scope := scope, reach := reach, pair := pair, last := last } = .ok i) : Statement i := by
  refine scalar_unprefixed he (topSJ _ _ _ ho) ?_
  rw [decodeScalar]
  simp (disch := decide) only [scalarFields, field_high, field_low, field_all, Nat.reduceSub]
  exact hd _ _ _ _ _ _ _ _ _ _ _ _ _ _ _ _ _ _ _ _ _

theorem formSJP {i : Instr} (h : BitVec 28) (op : BitVec 7) (d : BitVec 6) (i19 : BitVec 19) (he : encode i = [0xD#4 ++ h, op ++ d ++ i19]) (ho : op.toNat < 0x40 := by decide) (hp : prefixable op.toNat = true := by decide)
    (hd : ∀ (a : BitVec 6) (b : BitVec 6) (fn : BitVec 7) (i13 : BitVec 13) (c : BitVec 3) (cond : BitVec 3) (neg : BitVec 1) (disp : BitVec 21) (low : BitVec 25) (kind : BitVec 2) (mid : BitVec 5) (count : BitVec 6) (rm : BitVec 3) (fn4 : BitVec 4) (succ : BitVec 2) (fail : BitVec 2) (order : BitVec 2) (scope : BitVec 2) (reach : BitVec 3) (pair : BitVec 2) (last : BitVec 1), scalarOf (some h) { op := op, d := d, a := a, b := b, fn := fn, i13 := i13, i19 := i19, c := c, cond := cond, neg := neg, disp := disp, low := low, kind := kind, mid := mid, count := count, rm := rm, fn4 := fn4, succ := succ, fail := fail, order := order, scope := scope, reach := reach, pair := pair, last := last } = .ok i) : Statement i := by
  refine scalar_prefixed he (topSJ _ _ _ ho) ?_ ?_
  · have h0 : (scalarFields (op ++ d ++ i19)).op = op := by
      simp (disch := decide) only [scalarFields, field_high, field_low, field_all, Nat.reduceSub]
    rw [h0]; exact hp
  · rw [decodeScalar]
    simp (disch := decide) only [scalarFields, field_high, field_low, field_all, Nat.reduceSub]
    exact hd _ _ _ _ _ _ _ _ _ _ _ _ _ _ _ _ _ _ _ _ _

theorem topSC (op : BitVec 7) (c : BitVec 3) (cond : BitVec 3) (a : BitVec 6) (b : BitVec 6) (fn : BitVec 7) (ho : op.toNat < 0x40) : pTop (op ++ c ++ cond ++ a ++ b ++ fn) < 2 := by
  have h : (op ++ c ++ cond ++ a ++ b ++ fn).extractLsb' 30 2 = op.extractLsb' 5 2 := by
    simp (disch := decide) only [field_high, Nat.reduceSub]
  rw [pTop, h, BitVec.extractLsb'_toNat, Nat.shiftRight_eq_div_pow]
  omega

theorem formSC {i : Instr} (op : BitVec 7) (c : BitVec 3) (cond : BitVec 3) (a : BitVec 6) (b : BitVec 6) (fn : BitVec 7) (he : encode i = [op ++ c ++ cond ++ a ++ b ++ fn]) (ho : op.toNat < 0x40 := by decide)
    (hd : ∀ (d : BitVec 6) (i13 : BitVec 13) (i19 : BitVec 19) (neg : BitVec 1) (disp : BitVec 21) (low : BitVec 25) (kind : BitVec 2) (mid : BitVec 5) (count : BitVec 6) (rm : BitVec 3) (fn4 : BitVec 4) (succ : BitVec 2) (fail : BitVec 2) (order : BitVec 2) (scope : BitVec 2) (reach : BitVec 3) (pair : BitVec 2) (last : BitVec 1), scalarOf none { op := op, d := d, a := a, b := b, fn := fn, i13 := i13, i19 := i19, c := c, cond := cond, neg := neg, disp := disp, low := low, kind := kind, mid := mid, count := count, rm := rm, fn4 := fn4, succ := succ, fail := fail, order := order, scope := scope, reach := reach, pair := pair, last := last } = .ok i) : Statement i := by
  refine scalar_unprefixed he (topSC _ _ _ _ _ _ ho) ?_
  rw [decodeScalar]
  simp (disch := decide) only [scalarFields, field_high, field_low, field_all, Nat.reduceSub]
  exact hd _ _ _ _ _ _ _ _ _ _ _ _ _ _ _ _ _ _

theorem topSCI (op : BitVec 7) (c : BitVec 3) (cond : BitVec 3) (a : BitVec 6) (i13 : BitVec 13) (ho : op.toNat < 0x40) : pTop (op ++ c ++ cond ++ a ++ i13) < 2 := by
  have h : (op ++ c ++ cond ++ a ++ i13).extractLsb' 30 2 = op.extractLsb' 5 2 := by
    simp (disch := decide) only [field_high, Nat.reduceSub]
  rw [pTop, h, BitVec.extractLsb'_toNat, Nat.shiftRight_eq_div_pow]
  omega

theorem formSCI {i : Instr} (op : BitVec 7) (c : BitVec 3) (cond : BitVec 3) (a : BitVec 6) (i13 : BitVec 13) (he : encode i = [op ++ c ++ cond ++ a ++ i13]) (ho : op.toNat < 0x40 := by decide)
    (hd : ∀ (d : BitVec 6) (b : BitVec 6) (fn : BitVec 7) (i19 : BitVec 19) (neg : BitVec 1) (disp : BitVec 21) (low : BitVec 25) (kind : BitVec 2) (mid : BitVec 5) (count : BitVec 6) (rm : BitVec 3) (fn4 : BitVec 4) (succ : BitVec 2) (fail : BitVec 2) (order : BitVec 2) (scope : BitVec 2) (reach : BitVec 3) (pair : BitVec 2) (last : BitVec 1), scalarOf none { op := op, d := d, a := a, b := b, fn := fn, i13 := i13, i19 := i19, c := c, cond := cond, neg := neg, disp := disp, low := low, kind := kind, mid := mid, count := count, rm := rm, fn4 := fn4, succ := succ, fail := fail, order := order, scope := scope, reach := reach, pair := pair, last := last } = .ok i) : Statement i := by
  refine scalar_unprefixed he (topSCI _ _ _ _ _ ho) ?_
  rw [decodeScalar]
  simp (disch := decide) only [scalarFields, field_high, field_low, field_all, Nat.reduceSub]
  exact hd _ _ _ _ _ _ _ _ _ _ _ _ _ _ _ _ _ _ _

theorem formSCIP {i : Instr} (h : BitVec 28) (op : BitVec 7) (c : BitVec 3) (cond : BitVec 3) (a : BitVec 6) (i13 : BitVec 13) (he : encode i = [0xD#4 ++ h, op ++ c ++ cond ++ a ++ i13]) (ho : op.toNat < 0x40 := by decide) (hp : prefixable op.toNat = true := by decide)
    (hd : ∀ (d : BitVec 6) (b : BitVec 6) (fn : BitVec 7) (i19 : BitVec 19) (neg : BitVec 1) (disp : BitVec 21) (low : BitVec 25) (kind : BitVec 2) (mid : BitVec 5) (count : BitVec 6) (rm : BitVec 3) (fn4 : BitVec 4) (succ : BitVec 2) (fail : BitVec 2) (order : BitVec 2) (scope : BitVec 2) (reach : BitVec 3) (pair : BitVec 2) (last : BitVec 1), scalarOf (some h) { op := op, d := d, a := a, b := b, fn := fn, i13 := i13, i19 := i19, c := c, cond := cond, neg := neg, disp := disp, low := low, kind := kind, mid := mid, count := count, rm := rm, fn4 := fn4, succ := succ, fail := fail, order := order, scope := scope, reach := reach, pair := pair, last := last } = .ok i) : Statement i := by
  refine scalar_prefixed he (topSCI _ _ _ _ _ ho) ?_ ?_
  · have h0 : (scalarFields (op ++ c ++ cond ++ a ++ i13)).op = op := by
      simp (disch := decide) only [scalarFields, field_high, field_low, field_all, Nat.reduceSub]
    rw [h0]; exact hp
  · rw [decodeScalar]
    simp (disch := decide) only [scalarFields, field_high, field_low, field_all, Nat.reduceSub]
    exact hd _ _ _ _ _ _ _ _ _ _ _ _ _ _ _ _ _ _ _

theorem topSB (op : BitVec 7) (c : BitVec 3) (neg : BitVec 1) (disp : BitVec 21) (ho : op.toNat < 0x40) : pTop (op ++ c ++ neg ++ disp) < 2 := by
  have h : (op ++ c ++ neg ++ disp).extractLsb' 30 2 = op.extractLsb' 5 2 := by
    simp (disch := decide) only [field_high, Nat.reduceSub]
  rw [pTop, h, BitVec.extractLsb'_toNat, Nat.shiftRight_eq_div_pow]
  omega

theorem formSB {i : Instr} (op : BitVec 7) (c : BitVec 3) (neg : BitVec 1) (disp : BitVec 21) (he : encode i = [op ++ c ++ neg ++ disp]) (ho : op.toNat < 0x40 := by decide)
    (hd : ∀ (d : BitVec 6) (a : BitVec 6) (b : BitVec 6) (fn : BitVec 7) (i13 : BitVec 13) (i19 : BitVec 19) (cond : BitVec 3) (low : BitVec 25) (kind : BitVec 2) (mid : BitVec 5) (count : BitVec 6) (rm : BitVec 3) (fn4 : BitVec 4) (succ : BitVec 2) (fail : BitVec 2) (order : BitVec 2) (scope : BitVec 2) (reach : BitVec 3) (pair : BitVec 2) (last : BitVec 1), scalarOf none { op := op, d := d, a := a, b := b, fn := fn, i13 := i13, i19 := i19, c := c, cond := cond, neg := neg, disp := disp, low := low, kind := kind, mid := mid, count := count, rm := rm, fn4 := fn4, succ := succ, fail := fail, order := order, scope := scope, reach := reach, pair := pair, last := last } = .ok i) : Statement i := by
  refine scalar_unprefixed he (topSB _ _ _ _ ho) ?_
  rw [decodeScalar]
  simp (disch := decide) only [scalarFields, field_high, field_low, field_all, Nat.reduceSub]
  exact hd _ _ _ _ _ _ _ _ _ _ _ _ _ _ _ _ _ _ _ _

theorem topSZ (op : BitVec 7) (low : BitVec 25) (ho : op.toNat < 0x40) : pTop (op ++ low) < 2 := by
  have h : (op ++ low).extractLsb' 30 2 = op.extractLsb' 5 2 := by
    simp (disch := decide) only [field_high, Nat.reduceSub]
  rw [pTop, h, BitVec.extractLsb'_toNat, Nat.shiftRight_eq_div_pow]
  omega

theorem formSZ {i : Instr} (op : BitVec 7) (low : BitVec 25) (he : encode i = [op ++ low]) (ho : op.toNat < 0x40 := by decide)
    (hd : ∀ (d : BitVec 6) (a : BitVec 6) (b : BitVec 6) (fn : BitVec 7) (i13 : BitVec 13) (i19 : BitVec 19) (c : BitVec 3) (cond : BitVec 3) (neg : BitVec 1) (disp : BitVec 21) (kind : BitVec 2) (mid : BitVec 5) (count : BitVec 6) (rm : BitVec 3) (fn4 : BitVec 4) (succ : BitVec 2) (fail : BitVec 2) (order : BitVec 2) (scope : BitVec 2) (reach : BitVec 3) (pair : BitVec 2) (last : BitVec 1), scalarOf none { op := op, d := d, a := a, b := b, fn := fn, i13 := i13, i19 := i19, c := c, cond := cond, neg := neg, disp := disp, low := low, kind := kind, mid := mid, count := count, rm := rm, fn4 := fn4, succ := succ, fail := fail, order := order, scope := scope, reach := reach, pair := pair, last := last } = .ok i) : Statement i := by
  refine scalar_unprefixed he (topSZ _ _ ho) ?_
  rw [decodeScalar]
  simp (disch := decide) only [scalarFields, field_high, field_low, field_all, Nat.reduceSub]
  exact hd _ _ _ _ _ _ _ _ _ _ _ _ _ _ _ _ _ _ _ _ _ _

/-! ### The 64-bit formats -/

theorem vector_form {i : Instr} {p q : Parcel} (he : encode i = [p, q]) (ht : pTop p = 2) (hd : decodeVector p q = .ok i) :
    Statement i := by
  intro _ rest
  simp [he, decode, ht, hd, Except.map]

theorem p0_top (cls : BitVec 4) (op : BitVec 8) (vd va vb : BitVec 6) : pTop (encP0 cls op vd va vb) = 2 := by
  simp (disch := decide) only [pTop, encP0, field_high, Nat.reduceSub]
  rfl

theorem p0_class (cls : BitVec 4) (op : BitVec 8) (vd va vb : BitVec 6) :
    (encP0 cls op vd va vb).extractLsb' 26 4 = cls := by
  simp (disch := decide) only [encP0, field_high, field_low, field_all, Nat.reduceSub]

theorem p0_op (cls : BitVec 4) (op : BitVec 8) (vd va vb : BitVec 6) : (encP0 cls op vd va vb).extractLsb' 18 8 = op := by
  simp (disch := decide) only [encP0, field_high, field_low, field_all, Nat.reduceSub]

theorem formVa {i : Instr} (cls : BitVec 4) (op : BitVec 8) (f : VaF) (he : encode i = encVaF cls op f)
    (hd : ∀ (vm : VmF) (mx : MxF) (la : LaF) (hs : HsF) (am : AtF) (sy : SyF) (en : EnF) (sv : SvF),
      vectorOf cls.toNat op.toNat f vm mx la hs am sy en sv = .ok i) : Statement i := by
  refine vector_form he (p0_top _ _ _ _ _) ?_
  have hf : decVaF (encP0 cls op f.vd f.va f.vb) (f.x ++ f.m ++ f.et ++ f.rm ++ f.sat ++ f.os ++ f.mi ++ f.aux) = f := by
    simp (disch := decide) only [decVaF, encP0, gVd, gVa, gVb, gX, gM, gEt, field_high, field_low, field_all, Nat.reduceSub]
  rw [decodeVector, p0_class, p0_op, hf]
  exact hd _ _ _ _ _ _ _ _

theorem formVm {i : Instr} (cls : BitVec 4) (op : BitVec 8) (f : VmF) (he : encode i = encVmF cls op f)
    (hd : ∀ (va : VaF) (mx : MxF) (la : LaF) (hs : HsF) (am : AtF) (sy : SyF) (en : EnF) (sv : SvF),
      vectorOf cls.toNat op.toNat va f mx la hs am sy en sv = .ok i) : Statement i := by
  refine vector_form he (p0_top _ _ _ _ _) ?_
  have hf : decVmF (encP0 cls op f.vd f.va f.vb) (f.x ++ f.m ++ f.et ++ f.fmt ++ f.ord ++ f.ovt ++ f.pol ++ f.scope ++ f.space ++ f.ff ++ f.z) = f := by
    simp (disch := decide) only [decVmF, encP0, gVd, gVa, gVb, gX, gM, gEt, field_high, field_low, field_all, Nat.reduceSub]
  rw [decodeVector, p0_class, p0_op, hf]
  exact hd _ _ _ _ _ _ _ _

theorem formMx {i : Instr} (cls : BitVec 4) (op : BitVec 8) (f : MxF) (he : encode i = encMxF cls op f)
    (hd : ∀ (va : VaF) (vm : VmF) (la : LaF) (hs : HsF) (am : AtF) (sy : SyF) (en : EnF) (sv : SvF),
      vectorOf cls.toNat op.toNat va vm f la hs am sy en sv = .ok i) : Statement i := by
  refine vector_form he (p0_top _ _ _ _ _) ?_
  have hf : decMxF (encP0 cls op f.vd f.va f.vb) (f.x ++ f.m ++ f.et ++ f.rows ++ f.g ++ f.bt ++ f.z) = f := by
    simp (disch := decide) only [decMxF, encP0, gVd, gVa, gVb, gX, gM, gEt, field_high, field_low, field_all, Nat.reduceSub]
  rw [decodeVector, p0_class, p0_op, hf]
  exact hd _ _ _ _ _ _ _ _

theorem formLa {i : Instr} (cls : BitVec 4) (op : BitVec 8) (f : LaF) (he : encode i = encLaF cls op f)
    (hd : ∀ (va : VaF) (vm : VmF) (mx : MxF) (hs : HsF) (am : AtF) (sy : SyF) (en : EnF) (sv : SvF),
      vectorOf cls.toNat op.toNat va vm mx f hs am sy en sv = .ok i) : Statement i := by
  refine vector_form he (p0_top _ _ _ _ _) ?_
  have hf : decLaF (encP0 cls op f.vd f.va f.vb) (f.x ++ f.m ++ f.et ++ f.rung ++ f.op ++ f.z) = f := by
    simp (disch := decide) only [decLaF, encP0, gVd, gVa, gVb, gX, gM, gEt, field_high, field_low, field_all, Nat.reduceSub]
  rw [decodeVector, p0_class, p0_op, hf]
  exact hd _ _ _ _ _ _ _ _

theorem formHs {i : Instr} (cls : BitVec 4) (op : BitVec 8) (f : HsF) (he : encode i = encHsF cls op f)
    (hd : ∀ (va : VaF) (vm : VmF) (mx : MxF) (la : LaF) (am : AtF) (sy : SyF) (en : EnF) (sv : SvF),
      vectorOf cls.toNat op.toNat va vm mx la f am sy en sv = .ok i) : Statement i := by
  refine vector_form he (p0_top _ _ _ _ _) ?_
  have hf : decHsF (encP0 cls op f.vd f.va f.vb) (f.x ++ f.m ++ f.et ++ f.res ++ f.z) = f := by
    simp (disch := decide) only [decHsF, encP0, gVd, gVa, gVb, gX, gM, gEt, field_high, field_low, field_all, Nat.reduceSub]
  rw [decodeVector, p0_class, p0_op, hf]
  exact hd _ _ _ _ _ _ _ _

theorem formAt {i : Instr} (cls : BitVec 4) (op : BitVec 8) (f : AtF) (he : encode i = encAtF cls op f)
    (hd : ∀ (va : VaF) (vm : VmF) (mx : MxF) (la : LaF) (hs : HsF) (sy : SyF) (en : EnF) (sv : SvF),
      vectorOf cls.toNat op.toNat va vm mx la hs f sy en sv = .ok i) : Statement i := by
  refine vector_form he (p0_top _ _ _ _ _) ?_
  have hf : decAtF (encP0 cls op f.vd f.va f.vb) (f.x ++ f.m ++ f.et ++ f.op ++ f.succ ++ f.fail ++ f.scope ++ f.z) = f := by
    simp (disch := decide) only [decAtF, encP0, gVd, gVa, gVb, gX, gM, gEt, field_high, field_low, field_all, Nat.reduceSub]
  rw [decodeVector, p0_class, p0_op, hf]
  exact hd _ _ _ _ _ _ _ _

theorem formSy {i : Instr} (cls : BitVec 4) (op : BitVec 8) (f : SyF) (he : encode i = encSyF cls op f)
    (hd : ∀ (va : VaF) (vm : VmF) (mx : MxF) (la : LaF) (hs : HsF) (am : AtF) (en : EnF) (sv : SvF),
      vectorOf cls.toNat op.toNat va vm mx la hs am f en sv = .ok i) : Statement i := by
  refine vector_form he (p0_top _ _ _ _ _) ?_
  have hf : decSyF (encP0 cls op f.vd f.va f.vb) (f.x ++ f.m ++ f.et ++ f.scope ++ f.z ++ f.aux) = f := by
    simp (disch := decide) only [decSyF, encP0, gVd, gVa, gVb, gX, gM, gEt, field_high, field_low, field_all, Nat.reduceSub]
  rw [decodeVector, p0_class, p0_op, hf]
  exact hd _ _ _ _ _ _ _ _

theorem formEn {i : Instr} (cls : BitVec 4) (op : BitVec 8) (f : EnF) (he : encode i = encEnF cls op f)
    (hd : ∀ (va : VaF) (vm : VmF) (mx : MxF) (la : LaF) (hs : HsF) (am : AtF) (sy : SyF) (sv : SvF),
      vectorOf cls.toNat op.toNat va vm mx la hs am sy f sv = .ok i) : Statement i := by
  refine vector_form he (p0_top _ _ _ _ _) ?_
  have hf : decEnF (encP0 cls op f.vd f.va f.vb) (f.x ++ f.m ++ f.et ++ f.dims ++ f.fmt ++ f.ff ++ f.z) = f := by
    simp (disch := decide) only [decEnF, encP0, gVd, gVa, gVb, gX, gM, gEt, field_high, field_low, field_all, Nat.reduceSub]
  rw [decodeVector, p0_class, p0_op, hf]
  exact hd _ _ _ _ _ _ _ _

theorem formSv {i : Instr} (cls : BitVec 4) (op : BitVec 8) (f : SvF) (he : encode i = encSvF cls op f)
    (hd : ∀ (va : VaF) (vm : VmF) (mx : MxF) (la : LaF) (hs : HsF) (am : AtF) (sy : SyF) (en : EnF),
      vectorOf cls.toNat op.toNat va vm mx la hs am sy en f = .ok i) : Statement i := by
  refine vector_form he (p0_top _ _ _ _ _) ?_
  have hf : decSvF (encP0 cls op f.vd f.va f.vb) (f.x ++ f.m ++ f.et ++ f.g ++ f.z) = f := by
    simp (disch := decide) only [decSvF, encP0, gVd, gVa, gVb, gX, gM, gEt, field_high, field_low, field_all, Nat.reduceSub]
  rw [decodeVector, p0_class, p0_op, hf]
  exact hd _ _ _ _ _ _ _ _

/-! ### The instructions -/

theorem add (d a b : BitVec 6) : Statement (.add d a b) := formS3 0x0#7 d a b 0#7 rfl (hd := fun _ _ _ _ _ _ _ _ _ _ _ _ _ _ _ _ _ _ _ => rfl)
theorem sub (d a b : BitVec 6) : Statement (.sub d a b) := formS3 0x0#7 d a b 1#7 rfl (hd := fun _ _ _ _ _ _ _ _ _ _ _ _ _ _ _ _ _ _ _ => rfl)
theorem and (d a b : BitVec 6) : Statement (.and d a b) := formS3 0x0#7 d a b 2#7 rfl (hd := fun _ _ _ _ _ _ _ _ _ _ _ _ _ _ _ _ _ _ _ => rfl)
theorem or (d a b : BitVec 6) : Statement (.or d a b) := formS3 0x0#7 d a b 3#7 rfl (hd := fun _ _ _ _ _ _ _ _ _ _ _ _ _ _ _ _ _ _ _ => rfl)
theorem xor (d a b : BitVec 6) : Statement (.xor d a b) := formS3 0x0#7 d a b 4#7 rfl (hd := fun _ _ _ _ _ _ _ _ _ _ _ _ _ _ _ _ _ _ _ => rfl)
theorem sll (d a b : BitVec 6) : Statement (.sll d a b) := formS3 0x0#7 d a b 5#7 rfl (hd := fun _ _ _ _ _ _ _ _ _ _ _ _ _ _ _ _ _ _ _ => rfl)
theorem srl (d a b : BitVec 6) : Statement (.srl d a b) := formS3 0x0#7 d a b 6#7 rfl (hd := fun _ _ _ _ _ _ _ _ _ _ _ _ _ _ _ _ _ _ _ => rfl)
theorem sra (d a b : BitVec 6) : Statement (.sra d a b) := formS3 0x0#7 d a b 7#7 rfl (hd := fun _ _ _ _ _ _ _ _ _ _ _ _ _ _ _ _ _ _ _ => rfl)
theorem min (d a b : BitVec 6) : Statement (.min d a b) := formS3 0x0#7 d a b 8#7 rfl (hd := fun _ _ _ _ _ _ _ _ _ _ _ _ _ _ _ _ _ _ _ => rfl)
theorem max (d a b : BitVec 6) : Statement (.max d a b) := formS3 0x0#7 d a b 9#7 rfl (hd := fun _ _ _ _ _ _ _ _ _ _ _ _ _ _ _ _ _ _ _ => rfl)
theorem minn (d a b : BitVec 6) : Statement (.minn d a b) := formS3 0x0#7 d a b 10#7 rfl (hd := fun _ _ _ _ _ _ _ _ _ _ _ _ _ _ _ _ _ _ _ => rfl)
theorem maxn (d a b : BitVec 6) : Statement (.maxn d a b) := formS3 0x0#7 d a b 11#7 rfl (hd := fun _ _ _ _ _ _ _ _ _ _ _ _ _ _ _ _ _ _ _ => rfl)
theorem mul (d a b : BitVec 6) : Statement (.mul d a b) := formS3 0x0#7 d a b 12#7 rfl (hd := fun _ _ _ _ _ _ _ _ _ _ _ _ _ _ _ _ _ _ _ => rfl)
theorem mulh (d a b : BitVec 6) : Statement (.mulh d a b) := formS3 0x0#7 d a b 13#7 rfl (hd := fun _ _ _ _ _ _ _ _ _ _ _ _ _ _ _ _ _ _ _ => rfl)
theorem mulhn (d a b : BitVec 6) : Statement (.mulhn d a b) := formS3 0x0#7 d a b 14#7 rfl (hd := fun _ _ _ _ _ _ _ _ _ _ _ _ _ _ _ _ _ _ _ => rfl)
theorem div (d a b : BitVec 6) : Statement (.div d a b) := formS3 0x0#7 d a b 15#7 rfl (hd := fun _ _ _ _ _ _ _ _ _ _ _ _ _ _ _ _ _ _ _ => rfl)
theorem divn (d a b : BitVec 6) : Statement (.divn d a b) := formS3 0x0#7 d a b 16#7 rfl (hd := fun _ _ _ _ _ _ _ _ _ _ _ _ _ _ _ _ _ _ _ => rfl)
theorem rem (d a b : BitVec 6) : Statement (.rem d a b) := formS3 0x0#7 d a b 17#7 rfl (hd := fun _ _ _ _ _ _ _ _ _ _ _ _ _ _ _ _ _ _ _ => rfl)
theorem remn (d a b : BitVec 6) : Statement (.remn d a b) := formS3 0x0#7 d a b 18#7 rfl (hd := fun _ _ _ _ _ _ _ _ _ _ _ _ _ _ _ _ _ _ _ => rfl)
theorem clz (d a b : BitVec 6) : Statement (.clz d a b) := formS3 0x0#7 d a b 19#7 rfl (hd := fun _ _ _ _ _ _ _ _ _ _ _ _ _ _ _ _ _ _ _ => rfl)
theorem ctz (d a b : BitVec 6) : Statement (.ctz d a b) := formS3 0x0#7 d a b 20#7 rfl (hd := fun _ _ _ _ _ _ _ _ _ _ _ _ _ _ _ _ _ _ _ => rfl)
theorem popc (d a b : BitVec 6) : Statement (.popc d a b) := formS3 0x0#7 d a b 21#7 rfl (hd := fun _ _ _ _ _ _ _ _ _ _ _ _ _ _ _ _ _ _ _ => rfl)
theorem sel (d a b : BitVec 6) : Statement (.sel d a b) := formS3 0x0#7 d a b 22#7 rfl (hd := fun _ _ _ _ _ _ _ _ _ _ _ _ _ _ _ _ _ _ _ => rfl)
theorem addi (d a : BitVec 6) (i : Imm13) : Statement (.addi d a i) :=
  match i with
  | ⟨none, f⟩ => formSI 0x1#7 d a f rfl (hd := fun _ _ _ _ _ _ _ _ _ _ _ _ _ _ _ _ _ _ _ _ => rfl)
  | ⟨some h, f⟩ => formSIP h 0x1#7 d a f rfl (hd := fun _ _ _ _ _ _ _ _ _ _ _ _ _ _ _ _ _ _ _ _ => rfl)
theorem andi (d a : BitVec 6) (i : Imm13) : Statement (.andi d a i) :=
  match i with
  | ⟨none, f⟩ => formSI 0x2#7 d a f rfl (hd := fun _ _ _ _ _ _ _ _ _ _ _ _ _ _ _ _ _ _ _ _ => rfl)
  | ⟨some h, f⟩ => formSIP h 0x2#7 d a f rfl (hd := fun _ _ _ _ _ _ _ _ _ _ _ _ _ _ _ _ _ _ _ _ => rfl)
theorem ori (d a : BitVec 6) (i : Imm13) : Statement (.ori d a i) :=
  match i with
  | ⟨none, f⟩ => formSI 0x3#7 d a f rfl (hd := fun _ _ _ _ _ _ _ _ _ _ _ _ _ _ _ _ _ _ _ _ => rfl)
  | ⟨some h, f⟩ => formSIP h 0x3#7 d a f rfl (hd := fun _ _ _ _ _ _ _ _ _ _ _ _ _ _ _ _ _ _ _ _ => rfl)
theorem xori (d a : BitVec 6) (i : Imm13) : Statement (.xori d a i) :=
  match i with
  | ⟨none, f⟩ => formSI 0x4#7 d a f rfl (hd := fun _ _ _ _ _ _ _ _ _ _ _ _ _ _ _ _ _ _ _ _ => rfl)
  | ⟨some h, f⟩ => formSIP h 0x4#7 d a f rfl (hd := fun _ _ _ _ _ _ _ _ _ _ _ _ _ _ _ _ _ _ _ _ => rfl)
theorem slli (d a : BitVec 6) (z : BitVec 5) (n : BitVec 6) : Statement (.slli d a z n) := formShift 0x5#7 d a 0#2 z n rfl (hd := fun _ _ _ _ _ _ _ _ _ _ _ _ _ _ _ _ _ _ => rfl)
theorem srli (d a : BitVec 6) (z : BitVec 5) (n : BitVec 6) : Statement (.srli d a z n) := formShift 0x5#7 d a 1#2 z n rfl (hd := fun _ _ _ _ _ _ _ _ _ _ _ _ _ _ _ _ _ _ => rfl)
theorem srai (d a : BitVec 6) (z : BitVec 5) (n : BitVec 6) : Statement (.srai d a z n) := formShift 0x5#7 d a 2#2 z n rfl (hd := fun _ _ _ _ _ _ _ _ _ _ _ _ _ _ _ _ _ _ => rfl)
theorem lih (d a : BitVec 6) (i : Imm13) : Statement (.lih d a i) :=
  match i with
  | ⟨none, f⟩ => formSI 0x6#7 d a f rfl (hd := fun _ _ _ _ _ _ _ _ _ _ _ _ _ _ _ _ _ _ _ _ => rfl)
  | ⟨some h, f⟩ => formSIP h 0x6#7 d a f rfl (hd := fun _ _ _ _ _ _ _ _ _ _ _ _ _ _ _ _ _ _ _ _ => rfl)
theorem pcadd (d : BitVec 6) (i : Imm19) : Statement (.pcadd d i) :=
  match i with
  | ⟨none, f⟩ => formSJ 0x7#7 d f rfl (hd := fun _ _ _ _ _ _ _ _ _ _ _ _ _ _ _ _ _ _ _ _ _ => rfl)
  | ⟨some h, f⟩ => formSJP h 0x7#7 d f rfl (hd := fun _ _ _ _ _ _ _ _ _ _ _ _ _ _ _ _ _ _ _ _ _ => rfl)
theorem ldb (d a : BitVec 6) (i : Imm13) : Statement (.ldb d a i) :=
  match i with
  | ⟨none, f⟩ => formSI 0x8#7 d a f rfl (hd := fun _ _ _ _ _ _ _ _ _ _ _ _ _ _ _ _ _ _ _ _ => rfl)
  | ⟨some h, f⟩ => formSIP h 0x8#7 d a f rfl (hd := fun _ _ _ _ _ _ _ _ _ _ _ _ _ _ _ _ _ _ _ _ => rfl)
theorem ldbn (d a : BitVec 6) (i : Imm13) : Statement (.ldbn d a i) :=
  match i with
  | ⟨none, f⟩ => formSI 0x9#7 d a f rfl (hd := fun _ _ _ _ _ _ _ _ _ _ _ _ _ _ _ _ _ _ _ _ => rfl)
  | ⟨some h, f⟩ => formSIP h 0x9#7 d a f rfl (hd := fun _ _ _ _ _ _ _ _ _ _ _ _ _ _ _ _ _ _ _ _ => rfl)
theorem ldh (d a : BitVec 6) (i : Imm13) : Statement (.ldh d a i) :=
  match i with
  | ⟨none, f⟩ => formSI 0xa#7 d a f rfl (hd := fun _ _ _ _ _ _ _ _ _ _ _ _ _ _ _ _ _ _ _ _ => rfl)
  | ⟨some h, f⟩ => formSIP h 0xa#7 d a f rfl (hd := fun _ _ _ _ _ _ _ _ _ _ _ _ _ _ _ _ _ _ _ _ => rfl)
theorem ldhn (d a : BitVec 6) (i : Imm13) : Statement (.ldhn d a i) :=
  match i with
  | ⟨none, f⟩ => formSI 0xb#7 d a f rfl (hd := fun _ _ _ _ _ _ _ _ _ _ _ _ _ _ _ _ _ _ _ _ => rfl)
  | ⟨some h, f⟩ => formSIP h 0xb#7 d a f rfl (hd := fun _ _ _ _ _ _ _ _ _ _ _ _ _ _ _ _ _ _ _ _ => rfl)
theorem ldw (d a : BitVec 6) (i : Imm13) : Statement (.ldw d a i) :=
  match i with
  | ⟨none, f⟩ => formSI 0xc#7 d a f rfl (hd := fun _ _ _ _ _ _ _ _ _ _ _ _ _ _ _ _ _ _ _ _ => rfl)
  | ⟨some h, f⟩ => formSIP h 0xc#7 d a f rfl (hd := fun _ _ _ _ _ _ _ _ _ _ _ _ _ _ _ _ _ _ _ _ => rfl)
theorem ldwn (d a : BitVec 6) (i : Imm13) : Statement (.ldwn d a i) :=
  match i with
  | ⟨none, f⟩ => formSI 0xd#7 d a f rfl (hd := fun _ _ _ _ _ _ _ _ _ _ _ _ _ _ _ _ _ _ _ _ => rfl)
  | ⟨some h, f⟩ => formSIP h 0xd#7 d a f rfl (hd := fun _ _ _ _ _ _ _ _ _ _ _ _ _ _ _ _ _ _ _ _ => rfl)
theorem ldd (d a : BitVec 6) (i : Imm13) : Statement (.ldd d a i) :=
  match i with
  | ⟨none, f⟩ => formSI 0xe#7 d a f rfl (hd := fun _ _ _ _ _ _ _ _ _ _ _ _ _ _ _ _ _ _ _ _ => rfl)
  | ⟨some h, f⟩ => formSIP h 0xe#7 d a f rfl (hd := fun _ _ _ _ _ _ _ _ _ _ _ _ _ _ _ _ _ _ _ _ => rfl)
theorem stb (d a : BitVec 6) (i : Imm13) : Statement (.stb d a i) :=
  match i with
  | ⟨none, f⟩ => formSI 0xf#7 d a f rfl (hd := fun _ _ _ _ _ _ _ _ _ _ _ _ _ _ _ _ _ _ _ _ => rfl)
  | ⟨some h, f⟩ => formSIP h 0xf#7 d a f rfl (hd := fun _ _ _ _ _ _ _ _ _ _ _ _ _ _ _ _ _ _ _ _ => rfl)
theorem sth (d a : BitVec 6) (i : Imm13) : Statement (.sth d a i) :=
  match i with
  | ⟨none, f⟩ => formSI 0x10#7 d a f rfl (hd := fun _ _ _ _ _ _ _ _ _ _ _ _ _ _ _ _ _ _ _ _ => rfl)
  | ⟨some h, f⟩ => formSIP h 0x10#7 d a f rfl (hd := fun _ _ _ _ _ _ _ _ _ _ _ _ _ _ _ _ _ _ _ _ => rfl)
theorem stw (d a : BitVec 6) (i : Imm13) : Statement (.stw d a i) :=
  match i with
  | ⟨none, f⟩ => formSI 0x11#7 d a f rfl (hd := fun _ _ _ _ _ _ _ _ _ _ _ _ _ _ _ _ _ _ _ _ => rfl)
  | ⟨some h, f⟩ => formSIP h 0x11#7 d a f rfl (hd := fun _ _ _ _ _ _ _ _ _ _ _ _ _ _ _ _ _ _ _ _ => rfl)
theorem std (d a : BitVec 6) (i : Imm13) : Statement (.std d a i) :=
  match i with
  | ⟨none, f⟩ => formSI 0x12#7 d a f rfl (hd := fun _ _ _ _ _ _ _ _ _ _ _ _ _ _ _ _ _ _ _ _ => rfl)
  | ⟨some h, f⟩ => formSIP h 0x12#7 d a f rfl (hd := fun _ _ _ _ _ _ _ _ _ _ _ _ _ _ _ _ _ _ _ _ => rfl)
theorem cmpeq (c : BitVec 3) (a b : BitVec 6) (z : BitVec 7) : Statement (.cmpeq c a b z) := formSC 0x13#7 c 0#3 a b z rfl (hd := fun _ _ _ _ _ _ _ _ _ _ _ _ _ _ _ _ _ _ => rfl)
theorem cmpne (c : BitVec 3) (a b : BitVec 6) (z : BitVec 7) : Statement (.cmpne c a b z) := formSC 0x13#7 c 1#3 a b z rfl (hd := fun _ _ _ _ _ _ _ _ _ _ _ _ _ _ _ _ _ _ => rfl)
theorem cmplt (c : BitVec 3) (a b : BitVec 6) (z : BitVec 7) : Statement (.cmplt c a b z) := formSC 0x13#7 c 2#3 a b z rfl (hd := fun _ _ _ _ _ _ _ _ _ _ _ _ _ _ _ _ _ _ => rfl)
theorem cmpge (c : BitVec 3) (a b : BitVec 6) (z : BitVec 7) : Statement (.cmpge c a b z) := formSC 0x13#7 c 3#3 a b z rfl (hd := fun _ _ _ _ _ _ _ _ _ _ _ _ _ _ _ _ _ _ => rfl)
theorem cmpltn (c : BitVec 3) (a b : BitVec 6) (z : BitVec 7) : Statement (.cmpltn c a b z) := formSC 0x13#7 c 4#3 a b z rfl (hd := fun _ _ _ _ _ _ _ _ _ _ _ _ _ _ _ _ _ _ => rfl)
theorem cmpgen (c : BitVec 3) (a b : BitVec 6) (z : BitVec 7) : Statement (.cmpgen c a b z) := formSC 0x13#7 c 5#3 a b z rfl (hd := fun _ _ _ _ _ _ _ _ _ _ _ _ _ _ _ _ _ _ => rfl)
theorem cmpand (c : BitVec 3) (a b : BitVec 6) (z : BitVec 7) : Statement (.cmpand c a b z) := formSC 0x13#7 c 6#3 a b z rfl (hd := fun _ _ _ _ _ _ _ _ _ _ _ _ _ _ _ _ _ _ => rfl)
theorem cmpieq (c : BitVec 3) (a : BitVec 6) (i : Imm13) : Statement (.cmpieq c a i) :=
  match i with
  | ⟨none, f⟩ => formSCI 0x14#7 c 0#3 a f rfl (hd := fun _ _ _ _ _ _ _ _ _ _ _ _ _ _ _ _ _ _ _ => rfl)
  | ⟨some h, f⟩ => formSCIP h 0x14#7 c 0#3 a f rfl (hd := fun _ _ _ _ _ _ _ _ _ _ _ _ _ _ _ _ _ _ _ => rfl)
theorem cmpine (c : BitVec 3) (a : BitVec 6) (i : Imm13) : Statement (.cmpine c a i) :=
  match i with
  | ⟨none, f⟩ => formSCI 0x14#7 c 1#3 a f rfl (hd := fun _ _ _ _ _ _ _ _ _ _ _ _ _ _ _ _ _ _ _ => rfl)
  | ⟨some h, f⟩ => formSCIP h 0x14#7 c 1#3 a f rfl (hd := fun _ _ _ _ _ _ _ _ _ _ _ _ _ _ _ _ _ _ _ => rfl)
theorem cmpilt (c : BitVec 3) (a : BitVec 6) (i : Imm13) : Statement (.cmpilt c a i) :=
  match i with
  | ⟨none, f⟩ => formSCI 0x14#7 c 2#3 a f rfl (hd := fun _ _ _ _ _ _ _ _ _ _ _ _ _ _ _ _ _ _ _ => rfl)
  | ⟨some h, f⟩ => formSCIP h 0x14#7 c 2#3 a f rfl (hd := fun _ _ _ _ _ _ _ _ _ _ _ _ _ _ _ _ _ _ _ => rfl)
theorem cmpige (c : BitVec 3) (a : BitVec 6) (i : Imm13) : Statement (.cmpige c a i) :=
  match i with
  | ⟨none, f⟩ => formSCI 0x14#7 c 3#3 a f rfl (hd := fun _ _ _ _ _ _ _ _ _ _ _ _ _ _ _ _ _ _ _ => rfl)
  | ⟨some h, f⟩ => formSCIP h 0x14#7 c 3#3 a f rfl (hd := fun _ _ _ _ _ _ _ _ _ _ _ _ _ _ _ _ _ _ _ => rfl)
theorem cmpiltn (c : BitVec 3) (a : BitVec 6) (i : Imm13) : Statement (.cmpiltn c a i) :=
  match i with
  | ⟨none, f⟩ => formSCI 0x14#7 c 4#3 a f rfl (hd := fun _ _ _ _ _ _ _ _ _ _ _ _ _ _ _ _ _ _ _ => rfl)
  | ⟨some h, f⟩ => formSCIP h 0x14#7 c 4#3 a f rfl (hd := fun _ _ _ _ _ _ _ _ _ _ _ _ _ _ _ _ _ _ _ => rfl)
theorem cmpigen (c : BitVec 3) (a : BitVec 6) (i : Imm13) : Statement (.cmpigen c a i) :=
  match i with
  | ⟨none, f⟩ => formSCI 0x14#7 c 5#3 a f rfl (hd := fun _ _ _ _ _ _ _ _ _ _ _ _ _ _ _ _ _ _ _ => rfl)
  | ⟨some h, f⟩ => formSCIP h 0x14#7 c 5#3 a f rfl (hd := fun _ _ _ _ _ _ _ _ _ _ _ _ _ _ _ _ _ _ _ => rfl)
theorem cmpiand (c : BitVec 3) (a : BitVec 6) (i : Imm13) : Statement (.cmpiand c a i) :=
  match i with
  | ⟨none, f⟩ => formSCI 0x14#7 c 6#3 a f rfl (hd := fun _ _ _ _ _ _ _ _ _ _ _ _ _ _ _ _ _ _ _ => rfl)
  | ⟨some h, f⟩ => formSCIP h 0x14#7 c 6#3 a f rfl (hd := fun _ _ _ _ _ _ _ _ _ _ _ _ _ _ _ _ _ _ _ => rfl)
theorem cand (d a b : BitVec 6) : Statement (.cand d a b) := formS3 0x15#7 d a b 0#7 rfl (hd := fun _ _ _ _ _ _ _ _ _ _ _ _ _ _ _ _ _ _ _ => rfl)
theorem cor (d a b : BitVec 6) : Statement (.cor d a b) := formS3 0x15#7 d a b 1#7 rfl (hd := fun _ _ _ _ _ _ _ _ _ _ _ _ _ _ _ _ _ _ _ => rfl)
theorem cxor (d a b : BitVec 6) : Statement (.cxor d a b) := formS3 0x15#7 d a b 2#7 rfl (hd := fun _ _ _ _ _ _ _ _ _ _ _ _ _ _ _ _ _ _ _ => rfl)
theorem cnot (d a b : BitVec 6) : Statement (.cnot d a b) := formS3 0x15#7 d a b 3#7 rfl (hd := fun _ _ _ _ _ _ _ _ _ _ _ _ _ _ _ _ _ _ _ => rfl)
theorem cget (d a b : BitVec 6) : Statement (.cget d a b) := formS3 0x15#7 d a b 4#7 rfl (hd := fun _ _ _ _ _ _ _ _ _ _ _ _ _ _ _ _ _ _ _ => rfl)
theorem cfrom (d a b : BitVec 6) : Statement (.cfrom d a b) := formS3 0x15#7 d a b 5#7 rfl (hd := fun _ _ _ _ _ _ _ _ _ _ _ _ _ _ _ _ _ _ _ => rfl)
theorem fadd (d a b : BitVec 6) (rm : BitVec 3) : Statement (.fadd d a b rm) := formFloat 0x16#7 d a b rm 0#4 rfl (hd := fun _ _ _ _ _ _ _ _ _ _ _ _ _ _ _ _ _ _ => rfl)
theorem fsub (d a b : BitVec 6) (rm : BitVec 3) : Statement (.fsub d a b rm) := formFloat 0x16#7 d a b rm 1#4 rfl (hd := fun _ _ _ _ _ _ _ _ _ _ _ _ _ _ _ _ _ _ => rfl)
theorem fmul (d a b : BitVec 6) (rm : BitVec 3) : Statement (.fmul d a b rm) := formFloat 0x16#7 d a b rm 2#4 rfl (hd := fun _ _ _ _ _ _ _ _ _ _ _ _ _ _ _ _ _ _ => rfl)
theorem fdiv (d a b : BitVec 6) (rm : BitVec 3) : Statement (.fdiv d a b rm) := formFloat 0x16#7 d a b rm 3#4 rfl (hd := fun _ _ _ _ _ _ _ _ _ _ _ _ _ _ _ _ _ _ => rfl)
theorem fsqrt (d a b : BitVec 6) (rm : BitVec 3) : Statement (.fsqrt d a b rm) := formFloat 0x16#7 d a b rm 4#4 rfl (hd := fun _ _ _ _ _ _ _ _ _ _ _ _ _ _ _ _ _ _ => rfl)
theorem fmin (d a b : BitVec 6) (rm : BitVec 3) : Statement (.fmin d a b rm) := formFloat 0x16#7 d a b rm 5#4 rfl (hd := fun _ _ _ _ _ _ _ _ _ _ _ _ _ _ _ _ _ _ => rfl)
theorem fmax (d a b : BitVec 6) (rm : BitVec 3) : Statement (.fmax d a b rm) := formFloat 0x16#7 d a b rm 6#4 rfl (hd := fun _ _ _ _ _ _ _ _ _ _ _ _ _ _ _ _ _ _ => rfl)
theorem fcvt (d a b : BitVec 6) (rm : BitVec 3) : Statement (.fcvt d a b rm) := formFloat 0x16#7 d a b rm 7#4 rfl (hd := fun _ _ _ _ _ _ _ _ _ _ _ _ _ _ _ _ _ _ => rfl)
theorem fclass (d a b : BitVec 6) (rm : BitVec 3) : Statement (.fclass d a b rm) := formFloat 0x16#7 d a b rm 8#4 rfl (hd := fun _ _ _ _ _ _ _ _ _ _ _ _ _ _ _ _ _ _ => rfl)
theorem fma (d a b : BitVec 6) (rm : BitVec 3) : Statement (.fma d a b rm) := formFloat 0x17#7 d a b rm 0#4 rfl (hd := fun _ _ _ _ _ _ _ _ _ _ _ _ _ _ _ _ _ _ => rfl)
theorem fms (d a b : BitVec 6) (rm : BitVec 3) : Statement (.fms d a b rm) := formFloat 0x17#7 d a b rm 1#4 rfl (hd := fun _ _ _ _ _ _ _ _ _ _ _ _ _ _ _ _ _ _ => rfl)
theorem fnma (d a b : BitVec 6) (rm : BitVec 3) : Statement (.fnma d a b rm) := formFloat 0x17#7 d a b rm 2#4 rfl (hd := fun _ _ _ _ _ _ _ _ _ _ _ _ _ _ _ _ _ _ => rfl)
theorem fcmpeq (c : BitVec 3) (a b : BitVec 6) (z : BitVec 7) : Statement (.fcmpeq c a b z) := formSC 0x18#7 c 0#3 a b z rfl (hd := fun _ _ _ _ _ _ _ _ _ _ _ _ _ _ _ _ _ _ => rfl)
theorem fcmpne (c : BitVec 3) (a b : BitVec 6) (z : BitVec 7) : Statement (.fcmpne c a b z) := formSC 0x18#7 c 1#3 a b z rfl (hd := fun _ _ _ _ _ _ _ _ _ _ _ _ _ _ _ _ _ _ => rfl)
theorem fcmplt (c : BitVec 3) (a b : BitVec 6) (z : BitVec 7) : Statement (.fcmplt c a b z) := formSC 0x18#7 c 2#3 a b z rfl (hd := fun _ _ _ _ _ _ _ _ _ _ _ _ _ _ _ _ _ _ => rfl)
theorem fcmpge (c : BitVec 3) (a b : BitVec 6) (z : BitVec 7) : Statement (.fcmpge c a b z) := formSC 0x18#7 c 3#3 a b z rfl (hd := fun _ _ _ _ _ _ _ _ _ _ _ _ _ _ _ _ _ _ => rfl)
theorem bc (c : BitVec 3) (disp : BitVec 21) : Statement (.bc c disp) := formSB 0x19#7 c 0#1 disp rfl (hd := fun _ _ _ _ _ _ _ _ _ _ _ _ _ _ _ _ _ _ _ _ => rfl)
theorem bcn (c : BitVec 3) (disp : BitVec 21) : Statement (.bcn c disp) := formSB 0x19#7 c 1#1 disp rfl (hd := fun _ _ _ _ _ _ _ _ _ _ _ _ _ _ _ _ _ _ _ _ => rfl)
theorem j (d : BitVec 6) (i : Imm19) : Statement (.j d i) :=
  match i with
  | ⟨none, f⟩ => formSJ 0x1a#7 d f rfl (hd := fun _ _ _ _ _ _ _ _ _ _ _ _ _ _ _ _ _ _ _ _ _ => rfl)
  | ⟨some h, f⟩ => formSJP h 0x1a#7 d f rfl (hd := fun _ _ _ _ _ _ _ _ _ _ _ _ _ _ _ _ _ _ _ _ _ => rfl)
theorem jr (d a : BitVec 6) (i : BitVec 13) : Statement (.jr d a i) := formSI 0x1b#7 d a i rfl (hd := fun _ _ _ _ _ _ _ _ _ _ _ _ _ _ _ _ _ _ _ _ => rfl)
theorem amoadd (d a b : BitVec 6) (order scope : BitVec 2) : Statement (.amoadd d a b order scope) := formAmo 0x1C#7 d a b 0#3 order scope rfl (hd := fun _ _ _ _ _ _ _ _ _ _ _ _ _ _ _ _ _ => rfl)
theorem amofadd (d a b : BitVec 6) (order scope : BitVec 2) : Statement (.amofadd d a b order scope) := formAmo 0x1C#7 d a b 1#3 order scope rfl (hd := fun _ _ _ _ _ _ _ _ _ _ _ _ _ _ _ _ _ => rfl)
theorem amomin (d a b : BitVec 6) (order scope : BitVec 2) : Statement (.amomin d a b order scope) := formAmo 0x1C#7 d a b 2#3 order scope rfl (hd := fun _ _ _ _ _ _ _ _ _ _ _ _ _ _ _ _ _ => rfl)
theorem amomax (d a b : BitVec 6) (order scope : BitVec 2) : Statement (.amomax d a b order scope) := formAmo 0x1C#7 d a b 3#3 order scope rfl (hd := fun _ _ _ _ _ _ _ _ _ _ _ _ _ _ _ _ _ => rfl)
theorem amoand (d a b : BitVec 6) (order scope : BitVec 2) : Statement (.amoand d a b order scope) := formAmo 0x1C#7 d a b 4#3 order scope rfl (hd := fun _ _ _ _ _ _ _ _ _ _ _ _ _ _ _ _ _ => rfl)
theorem amoor (d a b : BitVec 6) (order scope : BitVec 2) : Statement (.amoor d a b order scope) := formAmo 0x1C#7 d a b 5#3 order scope rfl (hd := fun _ _ _ _ _ _ _ _ _ _ _ _ _ _ _ _ _ => rfl)
theorem amoxor (d a b : BitVec 6) (order scope : BitVec 2) : Statement (.amoxor d a b order scope) := formAmo 0x1C#7 d a b 6#3 order scope rfl (hd := fun _ _ _ _ _ _ _ _ _ _ _ _ _ _ _ _ _ => rfl)
theorem amoswap (d a b : BitVec 6) (order scope : BitVec 2) : Statement (.amoswap d a b order scope) := formAmo 0x1C#7 d a b 7#3 order scope rfl (hd := fun _ _ _ _ _ _ _ _ _ _ _ _ _ _ _ _ _ => rfl)
theorem cas (d a b : BitVec 6) (succ fail scope : BitVec 2) (z : BitVec 1) : Statement (.cas d a b succ fail scope z) := formCas 0x1D#7 d a b succ fail scope z rfl (hd := fun _ _ _ _ _ _ _ _ _ _ _ _ _ _ _ _ => rfl)
theorem fenceacq (d a b : BitVec 6) (scope : BitVec 3) (z : BitVec 2) : Statement (.fenceacq d a b scope z) := formFence 0x1E#7 d a b 0#2 scope z rfl (hd := fun _ _ _ _ _ _ _ _ _ _ _ _ _ _ _ _ _ => rfl)
theorem fencerel (d a b : BitVec 6) (scope : BitVec 3) (z : BitVec 2) : Statement (.fencerel d a b scope z) := formFence 0x1E#7 d a b 1#2 scope z rfl (hd := fun _ _ _ _ _ _ _ _ _ _ _ _ _ _ _ _ _ => rfl)
theorem fencear (d a b : BitVec 6) (scope : BitVec 3) (z : BitVec 2) : Statement (.fencear d a b scope z) := formFence 0x1E#7 d a b 2#2 scope z rfl (hd := fun _ _ _ _ _ _ _ _ _ _ _ _ _ _ _ _ _ => rfl)
theorem fencesc (d a b : BitVec 6) (scope : BitVec 3) (z : BitVec 2) : Statement (.fencesc d a b scope z) := formFence 0x1E#7 d a b 3#2 scope z rfl (hd := fun _ _ _ _ _ _ _ _ _ _ _ _ _ _ _ _ _ => rfl)
theorem rdctl (d a : BitVec 6) (i : BitVec 13) : Statement (.rdctl d a i) := formSI 0x1f#7 d a i rfl (hd := fun _ _ _ _ _ _ _ _ _ _ _ _ _ _ _ _ _ _ _ _ => rfl)
theorem wrctl (d a : BitVec 6) (i : BitVec 13) : Statement (.wrctl d a i) := formSI 0x20#7 d a i rfl (hd := fun _ _ _ _ _ _ _ _ _ _ _ _ _ _ _ _ _ _ _ _ => rfl)
theorem trap (d a : BitVec 6) (i : BitVec 13) : Statement (.trap d a i) := formSI 0x21#7 d a i rfl (hd := fun _ _ _ _ _ _ _ _ _ _ _ _ _ _ _ _ _ _ _ _ => rfl)
theorem eret (z : BitVec 25) : Statement (.eret z) := formSZ 0x22#7 z rfl (hd := fun _ _ _ _ _ _ _ _ _ _ _ _ _ _ _ _ _ _ _ _ _ _ => rfl)
theorem yield (z : BitVec 25) : Statement (.yield z) := formSZ 0x23#7 z rfl (hd := fun _ _ _ _ _ _ _ _ _ _ _ _ _ _ _ _ _ _ _ _ _ _ => rfl)
theorem halt (z : BitVec 25) : Statement (.halt z) := formSZ 0x24#7 z rfl (hd := fun _ _ _ _ _ _ _ _ _ _ _ _ _ _ _ _ _ _ _ _ _ _ => rfl)
theorem qput (d a b : BitVec 6) (z : BitVec 7) : Statement (.qput d a b z) := formS3 0x25#7 d a b z rfl (hd := fun _ _ _ _ _ _ _ _ _ _ _ _ _ _ _ _ _ _ _ => rfl)
theorem ipost (d a : BitVec 6) (i : BitVec 13) : Statement (.ipost d a i) := formSI 0x26#7 d a i rfl (hd := fun _ _ _ _ _ _ _ _ _ _ _ _ _ _ _ _ _ _ _ _ => rfl)
theorem iwait (d a : BitVec 6) (i : BitVec 13) : Statement (.iwait d a i) := formSI 0x27#7 d a i rfl (hd := fun _ _ _ _ _ _ _ _ _ _ _ _ _ _ _ _ _ _ _ _ => rfl)
theorem pref (d a : BitVec 6) (i : Imm13) : Statement (.pref d a i) :=
  match i with
  | ⟨none, f⟩ => formSI 0x28#7 d a f rfl (hd := fun _ _ _ _ _ _ _ _ _ _ _ _ _ _ _ _ _ _ _ _ => rfl)
  | ⟨some h, f⟩ => formSIP h 0x28#7 d a f rfl (hd := fun _ _ _ _ _ _ _ _ _ _ _ _ _ _ _ _ _ _ _ _ => rfl)
theorem vsetl (f : SvF) : Statement (.vsetl f) := formSv 9#4 0x0#8 f rfl (fun _ _ _ _ _ _ _ _ => rfl)
theorem vadd (f : VaF) : Statement (.vadd f) := formVa 0#4 0x0#8 f rfl (fun _ _ _ _ _ _ _ _ => rfl)
theorem vsub (f : VaF) : Statement (.vsub f) := formVa 0#4 0x1#8 f rfl (fun _ _ _ _ _ _ _ _ => rfl)
theorem vmul (f : VaF) : Statement (.vmul f) := formVa 0#4 0x2#8 f rfl (fun _ _ _ _ _ _ _ _ => rfl)
theorem vmulh (f : VaF) : Statement (.vmulh f) := formVa 0#4 0x3#8 f rfl (fun _ _ _ _ _ _ _ _ => rfl)
theorem vdiv (f : VaF) : Statement (.vdiv f) := formVa 0#4 0x4#8 f rfl (fun _ _ _ _ _ _ _ _ => rfl)
theorem vrem (f : VaF) : Statement (.vrem f) := formVa 0#4 0x5#8 f rfl (fun _ _ _ _ _ _ _ _ => rfl)
theorem vmin (f : VaF) : Statement (.vmin f) := formVa 0#4 0x6#8 f rfl (fun _ _ _ _ _ _ _ _ => rfl)
theorem vmax (f : VaF) : Statement (.vmax f) := formVa 0#4 0x7#8 f rfl (fun _ _ _ _ _ _ _ _ => rfl)
theorem vabs (f : VaF) : Statement (.vabs f) := formVa 0#4 0x8#8 f rfl (fun _ _ _ _ _ _ _ _ => rfl)
theorem vneg (f : VaF) : Statement (.vneg f) := formVa 0#4 0x9#8 f rfl (fun _ _ _ _ _ _ _ _ => rfl)
theorem vand (f : VaF) : Statement (.vand f) := formVa 0#4 0xa#8 f rfl (fun _ _ _ _ _ _ _ _ => rfl)
theorem vor (f : VaF) : Statement (.vor f) := formVa 0#4 0xb#8 f rfl (fun _ _ _ _ _ _ _ _ => rfl)
theorem vxor (f : VaF) : Statement (.vxor f) := formVa 0#4 0xc#8 f rfl (fun _ _ _ _ _ _ _ _ => rfl)
theorem vnot (f : VaF) : Statement (.vnot f) := formVa 0#4 0xd#8 f rfl (fun _ _ _ _ _ _ _ _ => rfl)
theorem vsll (f : VaF) : Statement (.vsll f) := formVa 0#4 0xe#8 f rfl (fun _ _ _ _ _ _ _ _ => rfl)
theorem vsrl (f : VaF) : Statement (.vsrl f) := formVa 0#4 0xf#8 f rfl (fun _ _ _ _ _ _ _ _ => rfl)
theorem vsra (f : VaF) : Statement (.vsra f) := formVa 0#4 0x10#8 f rfl (fun _ _ _ _ _ _ _ _ => rfl)
theorem vadds (f : VaF) : Statement (.vadds f) := formVa 0#4 0x11#8 f rfl (fun _ _ _ _ _ _ _ _ => rfl)
theorem vsubs (f : VaF) : Statement (.vsubs f) := formVa 0#4 0x12#8 f rfl (fun _ _ _ _ _ _ _ _ => rfl)
theorem vavg (f : VaF) : Statement (.vavg f) := formVa 0#4 0x13#8 f rfl (fun _ _ _ _ _ _ _ _ => rfl)
theorem vfma (f : VaF) : Statement (.vfma f) := formVa 0#4 0x14#8 f rfl (fun _ _ _ _ _ _ _ _ => rfl)
theorem vfms (f : VaF) : Statement (.vfms f) := formVa 0#4 0x15#8 f rfl (fun _ _ _ _ _ _ _ _ => rfl)
theorem vfnma (f : VaF) : Statement (.vfnma f) := formVa 0#4 0x16#8 f rfl (fun _ _ _ _ _ _ _ _ => rfl)
theorem vsqrt (f : VaF) : Statement (.vsqrt f) := formVa 0#4 0x17#8 f rfl (fun _ _ _ _ _ _ _ _ => rfl)
theorem vrsq (f : VaF) : Statement (.vrsq f) := formVa 0#4 0x18#8 f rfl (fun _ _ _ _ _ _ _ _ => rfl)
theorem vrcp (f : VaF) : Statement (.vrcp f) := formVa 0#4 0x19#8 f rfl (fun _ _ _ _ _ _ _ _ => rfl)
theorem vexp2 (f : VaF) : Statement (.vexp2 f) := formVa 0#4 0x1a#8 f rfl (fun _ _ _ _ _ _ _ _ => rfl)
theorem vlog2 (f : VaF) : Statement (.vlog2 f) := formVa 0#4 0x1b#8 f rfl (fun _ _ _ _ _ _ _ _ => rfl)
theorem vclamp (f : VaF) : Statement (.vclamp f) := formVa 0#4 0x1c#8 f rfl (fun _ _ _ _ _ _ _ _ => rfl)
theorem vscale (f : VaF) : Statement (.vscale f) := formVa 0#4 0x1d#8 f rfl (fun _ _ _ _ _ _ _ _ => rfl)
theorem vcvt (f : VaF) : Statement (.vcvt f) := formVa 0#4 0x1e#8 f rfl (fun _ _ _ _ _ _ _ _ => rfl)
theorem vdot (f : VaF) : Statement (.vdot f) := formVa 0#4 0x1f#8 f rfl (fun _ _ _ _ _ _ _ _ => rfl)
theorem vcmp (f : VaF) : Statement (.vcmp f) := formVa 0#4 0x20#8 f rfl (fun _ _ _ _ _ _ _ _ => rfl)
theorem vmerge (f : VaF) : Statement (.vmerge f) := formVa 0#4 0x21#8 f rfl (fun _ _ _ _ _ _ _ _ => rfl)
theorem vbcast (f : VaF) : Statement (.vbcast f) := formVa 0#4 0x22#8 f rfl (fun _ _ _ _ _ _ _ _ => rfl)
theorem vid (f : VaF) : Statement (.vid f) := formVa 0#4 0x23#8 f rfl (fun _ _ _ _ _ _ _ _ => rfl)
theorem mand (f : VaF) : Statement (.mand f) := formVa 2#4 0x0#8 f rfl (fun _ _ _ _ _ _ _ _ => rfl)
theorem mor (f : VaF) : Statement (.mor f) := formVa 2#4 0x1#8 f rfl (fun _ _ _ _ _ _ _ _ => rfl)
theorem mxor (f : VaF) : Statement (.mxor f) := formVa 2#4 0x2#8 f rfl (fun _ _ _ _ _ _ _ _ => rfl)
theorem mandn (f : VaF) : Statement (.mandn f) := formVa 2#4 0x3#8 f rfl (fun _ _ _ _ _ _ _ _ => rfl)
theorem mnot (f : VaF) : Statement (.mnot f) := formVa 2#4 0x4#8 f rfl (fun _ _ _ _ _ _ _ _ => rfl)
theorem mpop (f : VaF) : Statement (.mpop f) := formVa 2#4 0x5#8 f rfl (fun _ _ _ _ _ _ _ _ => rfl)
theorem mfirst (f : VaF) : Statement (.mfirst f) := formVa 2#4 0x6#8 f rfl (fun _ _ _ _ _ _ _ _ => rfl)
theorem msetn (f : VaF) : Statement (.msetn f) := formVa 2#4 0x7#8 f rfl (fun _ _ _ _ _ _ _ _ => rfl)
theorem vslideup (f : VaF) : Statement (.vslideup f) := formVa 2#4 0x8#8 f rfl (fun _ _ _ _ _ _ _ _ => rfl)
theorem vslidedn (f : VaF) : Statement (.vslidedn f) := formVa 2#4 0x9#8 f rfl (fun _ _ _ _ _ _ _ _ => rfl)
theorem vperm (f : VaF) : Statement (.vperm f) := formVa 2#4 0xa#8 f rfl (fun _ _ _ _ _ _ _ _ => rfl)
theorem vcompress (f : VaF) : Statement (.vcompress f) := formVa 2#4 0xb#8 f rfl (fun _ _ _ _ _ _ _ _ => rfl)
theorem vexpand (f : VaF) : Statement (.vexpand f) := formVa 2#4 0xc#8 f rfl (fun _ _ _ _ _ _ _ _ => rfl)
theorem vrank (f : VaF) : Statement (.vrank f) := formVa 2#4 0xd#8 f rfl (fun _ _ _ _ _ _ _ _ => rfl)
theorem vextr (f : VaF) : Statement (.vextr f) := formVa 2#4 0xe#8 f rfl (fun _ _ _ _ _ _ _ _ => rfl)
theorem vins (f : VaF) : Statement (.vins f) := formVa 2#4 0xf#8 f rfl (fun _ _ _ _ _ _ _ _ => rfl)
theorem vredsum (f : VaF) : Statement (.vredsum f) := formVa 2#4 0x10#8 f rfl (fun _ _ _ _ _ _ _ _ => rfl)
theorem vredsumo (f : VaF) : Statement (.vredsumo f) := formVa 2#4 0x11#8 f rfl (fun _ _ _ _ _ _ _ _ => rfl)
theorem vredmax (f : VaF) : Statement (.vredmax f) := formVa 2#4 0x12#8 f rfl (fun _ _ _ _ _ _ _ _ => rfl)
theorem vredmin (f : VaF) : Statement (.vredmin f) := formVa 2#4 0x13#8 f rfl (fun _ _ _ _ _ _ _ _ => rfl)
theorem vconf (f : VaF) : Statement (.vconf f) := formVa 2#4 0x14#8 f rfl (fun _ _ _ _ _ _ _ _ => rfl)
theorem vld (f : VmF) : Statement (.vld f) := formVm 1#4 0x0#8 f rfl (fun _ _ _ _ _ _ _ _ => rfl)
theorem vlds (f : VmF) : Statement (.vlds f) := formVm 1#4 0x1#8 f rfl (fun _ _ _ _ _ _ _ _ => rfl)
theorem vldx (f : VmF) : Statement (.vldx f) := formVm 1#4 0x2#8 f rfl (fun _ _ _ _ _ _ _ _ => rfl)
theorem vldff (f : VmF) : Statement (.vldff f) := formVm 1#4 0x3#8 f rfl (fun _ _ _ _ _ _ _ _ => rfl)
theorem vldxff (f : VmF) : Statement (.vldxff f) := formVm 1#4 0x4#8 f rfl (fun _ _ _ _ _ _ _ _ => rfl)
theorem vst (f : VmF) : Statement (.vst f) := formVm 1#4 0x5#8 f rfl (fun _ _ _ _ _ _ _ _ => rfl)
theorem vsts (f : VmF) : Statement (.vsts f) := formVm 1#4 0x6#8 f rfl (fun _ _ _ _ _ _ _ _ => rfl)
theorem vstx (f : VmF) : Statement (.vstx f) := formVm 1#4 0x7#8 f rfl (fun _ _ _ _ _ _ _ _ => rfl)
theorem vpref (f : VmF) : Statement (.vpref f) := formVm 1#4 0x8#8 f rfl (fun _ _ _ _ _ _ _ _ => rfl)
theorem vtrans (f : VmF) : Statement (.vtrans f) := formVm 1#4 0x9#8 f rfl (fun _ _ _ _ _ _ _ _ => rfl)
theorem vtransff (f : VmF) : Statement (.vtransff f) := formVm 1#4 0xa#8 f rfl (fun _ _ _ _ _ _ _ _ => rfl)
theorem vsegadd (f : VmF) : Statement (.vsegadd f) := formVm 1#4 0xb#8 f rfl (fun _ _ _ _ _ _ _ _ => rfl)
theorem mxenter (f : MxF) : Statement (.mxenter f) := formMx 3#4 0x0#8 f rfl (fun _ _ _ _ _ _ _ _ => rfl)
theorem mxleave (f : MxF) : Statement (.mxleave f) := formMx 3#4 0x1#8 f rfl (fun _ _ _ _ _ _ _ _ => rfl)
theorem mxsetc (f : MxF) : Statement (.mxsetc f) := formMx 3#4 0x2#8 f rfl (fun _ _ _ _ _ _ _ _ => rfl)
theorem mxzero (f : MxF) : Statement (.mxzero f) := formMx 3#4 0x3#8 f rfl (fun _ _ _ _ _ _ _ _ => rfl)
theorem mxmac (f : MxF) : Statement (.mxmac f) := formMx 3#4 0x4#8 f rfl (fun _ _ _ _ _ _ _ _ => rfl)
theorem mxld (f : MxF) : Statement (.mxld f) := formMx 3#4 0x5#8 f rfl (fun _ _ _ _ _ _ _ _ => rfl)
theorem mxst (f : MxF) : Statement (.mxst f) := formMx 3#4 0x6#8 f rfl (fun _ _ _ _ _ _ _ _ => rfl)
theorem mxstkv (f : MxF) : Statement (.mxstkv f) := formMx 3#4 0x7#8 f rfl (fun _ _ _ _ _ _ _ _ => rfl)
theorem mxrow (f : MxF) : Statement (.mxrow f) := formMx 3#4 0x8#8 f rfl (fun _ _ _ _ _ _ _ _ => rfl)
theorem mxrowadd (f : MxF) : Statement (.mxrowadd f) := formMx 3#4 0x9#8 f rfl (fun _ _ _ _ _ _ _ _ => rfl)
theorem mxscaler (f : MxF) : Statement (.mxscaler f) := formMx 3#4 0xa#8 f rfl (fun _ _ _ _ _ _ _ _ => rfl)
theorem linit (f : LaF) : Statement (.linit f) := formLa 4#4 0x0#8 f rfl (fun _ _ _ _ _ _ _ _ => rfl)
theorem lstep (f : LaF) : Statement (.lstep f) := formLa 4#4 0x1#8 f rfl (fun _ _ _ _ _ _ _ _ => rfl)
theorem lrung (f : LaF) : Statement (.lrung f) := formLa 4#4 0x2#8 f rfl (fun _ _ _ _ _ _ _ _ => rfl)
theorem lblend (f : LaF) : Statement (.lblend f) := formLa 4#4 0x3#8 f rfl (fun _ _ _ _ _ _ _ _ => rfl)
theorem lcount (f : LaF) : Statement (.lcount f) := formLa 4#4 0x4#8 f rfl (fun _ _ _ _ _ _ _ _ => rfl)
theorem lsync (f : LaF) : Statement (.lsync f) := formLa 4#4 0x5#8 f rfl (fun _ _ _ _ _ _ _ _ => rfl)
theorem lreset (f : LaF) : Statement (.lreset f) := formLa 4#4 0x6#8 f rfl (fun _ _ _ _ _ _ _ _ => rfl)
theorem hinit (f : HsF) : Statement (.hinit f) := formHs 5#4 0x0#8 f rfl (fun _ _ _ _ _ _ _ _ => rfl)
theorem hapnd (f : HsF) : Statement (.hapnd f) := formHs 5#4 0x1#8 f rfl (fun _ _ _ _ _ _ _ _ => rfl)
theorem hld (f : HsF) : Statement (.hld f) := formHs 5#4 0x2#8 f rfl (fun _ _ _ _ _ _ _ _ => rfl)
theorem hspan (f : HsF) : Statement (.hspan f) := formHs 5#4 0x3#8 f rfl (fun _ _ _ _ _ _ _ _ => rfl)
theorem hseal (f : HsF) : Statement (.hseal f) := formHs 5#4 0x4#8 f rfl (fun _ _ _ _ _ _ _ _ => rfl)
theorem hresume (f : HsF) : Statement (.hresume f) := formHs 5#4 0x5#8 f rfl (fun _ _ _ _ _ _ _ _ => rfl)
theorem hfree (f : HsF) : Statement (.hfree f) := formHs 5#4 0x6#8 f rfl (fun _ _ _ _ _ _ _ _ => rfl)
theorem vamo (f : AtF) : Statement (.vamo f) := formAt 6#4 0x0#8 f rfl (fun _ _ _ _ _ _ _ _ => rfl)
theorem ramo (f : AtF) : Statement (.ramo f) := formAt 6#4 0x1#8 f rfl (fun _ _ _ _ _ _ _ _ => rfl)
theorem rcas (f : AtF) : Statement (.rcas f) := formAt 6#4 0x2#8 f rfl (fun _ _ _ _ _ _ _ _ => rfl)
theorem rstore (f : AtF) : Statement (.rstore f) := formAt 6#4 0x3#8 f rfl (fun _ _ _ _ _ _ _ _ => rfl)
theorem rload (f : AtF) : Statement (.rload f) := formAt 6#4 0x4#8 f rfl (fun _ _ _ _ _ _ _ _ => rfl)
theorem rdrain (f : AtF) : Statement (.rdrain f) := formAt 6#4 0x5#8 f rfl (fun _ _ _ _ _ _ _ _ => rfl)
theorem vfence (f : SyF) : Statement (.vfence f) := formSy 7#4 0x0#8 f rfl (fun _ _ _ _ _ _ _ _ => rfl)
theorem barinit (f : SyF) : Statement (.barinit f) := formSy 7#4 0x1#8 f rfl (fun _ _ _ _ _ _ _ _ => rfl)
theorem bararr (f : SyF) : Statement (.bararr f) := formSy 7#4 0x2#8 f rfl (fun _ _ _ _ _ _ _ _ => rfl)
theorem barwait (f : SyF) : Statement (.barwait f) := formSy 7#4 0x3#8 f rfl (fun _ _ _ _ _ _ _ _ => rfl)
theorem barkill (f : SyF) : Statement (.barkill f) := formSy 7#4 0x4#8 f rfl (fun _ _ _ _ _ _ _ _ => rfl)
theorem gbar (f : SyF) : Statement (.gbar f) := formSy 7#4 0x5#8 f rfl (fun _ _ _ _ _ _ _ _ => rfl)
theorem xcopy (f : EnF) : Statement (.xcopy f) := formEn 8#4 0x0#8 f rfl (fun _ _ _ _ _ _ _ _ => rfl)
theorem xcopyff (f : EnF) : Statement (.xcopyff f) := formEn 8#4 0x1#8 f rfl (fun _ _ _ _ _ _ _ _ => rfl)
theorem xinfl (f : EnF) : Statement (.xinfl f) := formEn 8#4 0x2#8 f rfl (fun _ _ _ _ _ _ _ _ => rfl)
theorem xwait (f : EnF) : Statement (.xwait f) := formEn 8#4 0x3#8 f rfl (fun _ _ _ _ _ _ _ _ => rfl)
theorem xstat (f : EnF) : Statement (.xstat f) := formEn 8#4 0x4#8 f rfl (fun _ _ _ _ _ _ _ _ => rfl)
theorem vfsave (f : SvF) : Statement (.vfsave f) := formSv 9#4 0x1#8 f rfl (fun _ _ _ _ _ _ _ _ => rfl)
theorem vfrest (f : SvF) : Statement (.vfrest f) := formSv 9#4 0x2#8 f rfl (fun _ _ _ _ _ _ _ _ => rfl)
theorem vsave (f : SvF) : Statement (.vsave f) := formSv 9#4 0x3#8 f rfl (fun _ _ _ _ _ _ _ _ => rfl)
theorem vrest (f : SvF) : Statement (.vrest f) := formSv 9#4 0x4#8 f rfl (fun _ _ _ _ _ _ _ _ => rfl)
theorem vectorHandover (h : Nat) : Statement (.vectorHandover h) := fun h => absurd rfl h
theorem decouplingIssue (h : Nat) : Statement (.decouplingIssue h) := fun h => absurd rfl h
theorem convoyIssue (h : Nat) : Statement (.convoyIssue h) := fun h => absurd rfl h
theorem spotCheck (h : Nat) (agrees : Bool) : Statement (.spotCheck h agrees) := fun h => absurd rfl h
theorem matrixSpotCheck (h : Nat) (agrees : Bool) : Statement (.matrixSpotCheck h agrees) := fun h => absurd rfl h
theorem assayerArbitration (die : Nat) (unitAgrees scalarAgrees : Bool) : Statement (.assayerArbitration die unitAgrees scalarAgrees) := fun h => absurd rfl h
theorem instructionReplay (h : Nat) (agrees : Bool) : Statement (.instructionReplay h agrees) := fun h => absurd rfl h
theorem poisonReissue (h : Nat) : Statement (.poisonReissue h) := fun h => absurd rfl h
theorem trapEntry (h : Nat) (cause : BitVec 8) (info addr : BitVec 64) : Statement (.trapEntry h cause info addr) := fun h => absurd rfl h
theorem privilegeWatchdog (h : Nat) : Statement (.privilegeWatchdog h) := fun h => absurd rfl h
theorem preemptTaken (h : Nat) : Statement (.preemptTaken h) := fun h => absurd rfl h
theorem hartRetirement (h : Nat) : Statement (.hartRetirement h) := fun h => absurd rfl h
theorem streamFaultDelivery (h : Nat) : Statement (.streamFaultDelivery h) := fun h => absurd rfl h
theorem ctxOpen (k : Nat) : Statement (.ctxOpen k) := fun h => absurd rfl h
theorem ctxSuspend (k : Nat) : Statement (.ctxSuspend k) := fun h => absurd rfl h
theorem ctxResume (k : Nat) : Statement (.ctxResume k) := fun h => absurd rfl h
theorem ctxKill (k : Nat) : Statement (.ctxKill k) := fun h => absurd rfl h
theorem queueOpen (q : Nat) : Statement (.queueOpen q) := fun h => absurd rfl h
theorem queueClose (q : Nat) : Statement (.queueClose q) := fun h => absurd rfl h
theorem queueAppendDoorbell (v : BitVec 64) : Statement (.queueAppendDoorbell v) := fun h => absurd rfl h
theorem takeRecord : Statement (.takeRecord) := fun h => absurd rfl h
theorem wordDependencePoll : Statement (.wordDependencePoll) := fun h => absurd rfl h
theorem placeGang : Statement (.placeGang) := fun h => absurd rfl h
theorem timeSlice : Statement (.timeSlice) := fun h => absurd rfl h
theorem gangStart (g : Nat) : Statement (.gangStart g) := fun h => absurd rfl h
theorem lanemapWithdraw (h k : Nat) : Statement (.lanemapWithdraw h k) := fun h => absurd rfl h
theorem lanemapReturn (h k : Nat) : Statement (.lanemapReturn h k) := fun h => absurd rfl h
theorem qminWrite (h : Nat) (v : BitVec 64) : Statement (.qminWrite h v) := fun h => absurd rfl h
theorem qcapWrite (h : Nat) (v : BitVec 64) : Statement (.qcapWrite h v) := fun h => absurd rfl h
theorem pwrcapWrite (h : Nat) (v : BitVec 64) : Statement (.pwrcapWrite h v) := fun h => absurd rfl h
theorem feataccWrite (v : BitVec 64) : Statement (.feataccWrite v) := fun h => absurd rfl h
theorem powerWindow (watts : Nat) : Statement (.powerWindow watts) := fun h => absurd rfl h
theorem thermalThrottle (die : Nat) (celsius : Nat) : Statement (.thermalThrottle die celsius) := fun h => absurd rfl h
theorem thermalTrip (die : Nat) : Statement (.thermalTrip die) := fun h => absurd rfl h
theorem halleyDelivery (core : Nat) : Statement (.halleyDelivery core) := fun h => absurd rfl h
theorem fullerMerge (die : Nat) : Statement (.fullerMerge die) := fun h => absurd rfl h
theorem fullerDiscard (die : Nat) : Statement (.fullerDiscard die) := fun h => absurd rfl h
theorem ladderMerge (core : Nat) : Statement (.ladderMerge core) := fun h => absurd rfl h
theorem transferEnd (h tag : Nat) : Statement (.transferEnd h tag) := fun h => absurd rfl h
theorem pageWalk (core ctx : Nat) (va : BitVec 55) : Statement (.pageWalk core ctx va) := fun h => absurd rfl h
theorem inval : Statement (.inval) := fun h => absurd rfl h
theorem invalComplete (n : Nat) : Statement (.invalComplete n) := fun h => absurd rfl h
theorem evict : Statement (.evict) := fun h => absurd rfl h
theorem evictDrain (n : Nat) : Statement (.evictDrain n) := fun h => absurd rfl h
theorem pageCommandDoorbell (v : BitVec 64) : Statement (.pageCommandDoorbell v) := fun h => absurd rfl h
theorem pcbaseWrite (v : BitVec 64) : Statement (.pcbaseWrite v) := fun h => absurd rfl h
theorem pcsizeWrite (v : BitVec 64) : Statement (.pcsizeWrite v) := fun h => absurd rfl h
theorem bar0Write (off : Nat) (v : BitVec 64) : Statement (.bar0Write off v) := fun h => absurd rfl h
theorem hostBar2Access (off bytes : Nat) (data : Option (BitVec 64)) : Statement (.hostBar2Access off bytes data) := fun h => absurd rfl h
theorem outboundReadTimeout (h : Nat) : Statement (.outboundReadTimeout h) := fun h => absurd rfl h
theorem setWindow : Statement (.setWindow) := fun h => absurd rfl h
theorem setRoute : Statement (.setRoute) := fun h => absurd rfl h
theorem setPart : Statement (.setPart) := fun h => absurd rfl h
theorem setPwrcap : Statement (.setPwrcap) := fun h => absurd rfl h
theorem firmwareUpdate (verifies : Bool) : Statement (.firmwareUpdate verifies) := fun h => absurd rfl h
theorem portEnable (p : Nat) : Statement (.portEnable p) := fun h => absurd rfl h
theorem portDisable (p : Nat) : Statement (.portDisable p) := fun h => absurd rfl h
theorem lanesLocked (p neighbour : Nat) : Statement (.lanesLocked p neighbour) := fun h => absurd rfl h
theorem trainingTimeout (p locked : Nat) : Statement (.trainingTimeout p locked) := fun h => absurd rfl h
theorem linkRetrain (p : Nat) : Statement (.linkRetrain p) := fun h => absurd rfl h
theorem request (f : Flit) : Statement (.request f) := fun h => absurd rfl h
theorem response (f : Flit) : Statement (.response f) := fun h => absurd rfl h
theorem probe (f : Flit) : Statement (.probe f) := fun h => absurd rfl h
theorem probeAnswer (f : Flit) : Statement (.probeAnswer f) := fun h => absurd rfl h
theorem close (f : Flit) : Statement (.close f) := fun h => absurd rfl h
theorem closeAnswer (f : Flit) : Statement (.closeAnswer f) := fun h => absurd rfl h
theorem acknowledgement (f : Flit) : Statement (.acknowledgement f) := fun h => absurd rfl h
theorem retransmitTimer (ctx chan : Nat) (what : BitVec 32) (kind : Nat) : Statement (.retransmitTimer ctx chan what kind) := fun h => absurd rfl h
theorem ackIdleTimer (ctx chan : Nat) : Statement (.ackIdleTimer ctx chan) := fun h => absurd rfl h
theorem powerGood (verifies : Bool) (buses : BusTest) : Statement (.powerGood verifies buses) := fun h => absurd rfl h
theorem nodeIdAssign (id : BitVec 20) : Statement (.nodeIdAssign id) := fun h => absurd rfl h
theorem nodeIdTimeout : Statement (.nodeIdTimeout) := fun h => absurd rfl h
theorem suspectDecay : Statement (.suspectDecay) := fun h => absurd rfl h
theorem scrub (x : Scrubbed) (uncorrectable : Bool) : Statement (.scrub x uncorrectable) := fun h => absurd rfl h
theorem calibration (bus : Nat) (failed : Option Nat) : Statement (.calibration bus failed) := fun h => absurd rfl h
theorem channelCopyComplete (chan : Nat) (bad : List Nat) : Statement (.channelCopyComplete chan bad) := fun h => absurd rfl h
theorem telemetrySample : Statement (.telemetrySample) := fun h => absurd rfl h
theorem cdcEviction (core line : Nat) : Statement (.cdcEviction core line) := fun h => absurd rfl h
theorem spdmRequest (index : Nat) : Statement (.spdmRequest index) := fun h => absurd rfl h
theorem pldmTelemetryRead : Statement (.pldmTelemetryRead) := fun h => absurd rfl h
theorem firmwareRecovery : Statement (.firmwareRecovery) := fun h => absurd rfl h
theorem outboundReadCompletion (h : Nat) (data : Option (BitVec 64)) : Statement (.outboundReadCompletion h data) := fun h => absurd rfl h

end Sys2Proof.Laws.RoundTrip
end

