-- ==== Sys2Proof/Laws/Scalar.lean ====
section
/-!
SUPPORT. The scalar operations in the terms of the library's bit vectors, and writes of scalar registers.
-/

namespace Sys2Proof.Machine

/-- A register written with what it holds is unchanged, s0 included. -/
theorem writeS_readS (h : Hart) (r : BitVec 6) : h.writeS r (h.readS r) = h := by
  unfold Hart.writeS Hart.readS
  split
  · rfl
  · have e : h.s.set r.toFin (h.s.get r.toFin) = h.s := by
      apply Vector.ext
      intro i hi
      rw [Vector.getElem_set]
      split
      · rename_i hr; subst hr; rfl
      · rfl
    simp only [e]

/-- What is written to a register is read back, and no other register changes; s0 reads 0. -/
theorem readS_writeS (h : Hart) (r r' : BitVec 6) (x : Word) :
    (h.writeS r x).readS r' = if r' = 0 then 0 else if r' = r then x else h.readS r' := by
  unfold Hart.writeS Hart.readS
  by_cases h0 : r' = 0
  · simp [h0]
  · simp only [h0, if_false]
    by_cases hr : r = 0
    · subst hr
      rw [if_pos rfl, if_neg h0]
    · simp only [hr, if_false]
      show (h.s.set r.toNat x _)[r'.toNat] = if r' = r then x else h.s[r'.toNat]
      rw [Vector.getElem_set]
      by_cases he : r' = r
      · subst he; simp
      · have hn : r.toNat ≠ r'.toNat := fun hh => he (BitVec.eq_of_toNat_eq hh.symm)
        rw [if_neg hn, if_neg he]

theorem sdivW_eq (x y : Word) : sdivW x y = if y = 0 then BitVec.allOnes 64 else x.sdiv y := by
  unfold sdivW El.intDiv
  by_cases h : y = 0
  · subst h; rfl
  · have h1 : y.toInt ≠ 0 := by
      intro h2; apply h; exact BitVec.eq_of_toInt_eq (by simpa using h2)
    rw [if_neg h1, if_neg h]
    apply BitVec.eq_of_toInt_eq
    rw [BitVec.toInt_sdiv]
    split
    · rename_i h2
      simp [Fmt.bits, Fmt.isSigned] at h2
      obtain ⟨h2, h3⟩ := h2
      rw [h2, h3]; decide
    · simp
theorem sremW_eq (x y : Word) : sremW x y = x.srem y := by
  unfold sremW El.intRem
  apply BitVec.eq_of_toInt_eq
  rw [BitVec.toInt_srem]
  split
  · rename_i h; rw [h]; simp
  · split
    · rename_i h1 h2
      simp [Fmt.bits, Fmt.isSigned] at h2
      rw [h2.1, h2.2]; decide
    · rw [BitVec.toInt_ofInt, ← BitVec.toInt_srem, BitVec.toInt_bmod_cancel]
theorem udivW_eq (x y : Word) : udivW x y = if y = 0 then BitVec.allOnes 64 else x.udiv y := by
  unfold udivW El.intDiv
  by_cases h : y = 0
  · subst h; rfl
  · have h1 : (y.toNat : Int) ≠ 0 := by
      intro h2; apply h; apply BitVec.eq_of_toNat_eq; simpa using h2
    rw [if_neg h1, if_neg h]
    simp only [Fmt.isSigned, Bool.false_eq_true, false_and, if_false]
    apply BitVec.eq_of_toNat_eq
    rw [← Int.ofNat_tdiv]
    have h2 := Nat.div_le_self x.toNat y.toNat
    have h3 := x.isLt
    generalize hq : x.toNat / y.toNat = q at h2
    rw [BitVec.toNat_ofInt, Int.emod_eq_of_lt (by omega) (by omega)]
    simp [hq]
theorem uremW_eq (x y : Word) : uremW x y = x.umod y := by
  unfold uremW El.intRem
  by_cases h : y = 0
  · subst h; simp
  · have h1 : (y.toNat : Int) ≠ 0 := by
      intro h2; apply h; apply BitVec.eq_of_toNat_eq; simpa using h2
    rw [if_neg h1]
    simp only [Fmt.isSigned, Bool.false_eq_true, false_and, if_false]
    apply BitVec.eq_of_toNat_eq
    rw [← Int.ofNat_tmod]
    simp only [BitVec.toNat_ofInt, BitVec.umod_eq, BitVec.toNat_umod]
    have : y.toNat > 0 := by omega
    have := Nat.mod_lt x.toNat this
    have := y.isLt
    omega

theorem smin_eq (x y : Word) : smin x y = if x.slt y then x else y := by
  unfold smin
  by_cases h : y.toInt < x.toInt
  · rw [if_pos h, if_neg]; simp [BitVec.slt]; omega
  · rw [if_neg h]; split
    · rfl
    · rename_i h2; simp [BitVec.slt] at h2; exact BitVec.eq_of_toInt_eq (by omega)
theorem smax_eq (x y : Word) : smax x y = if x.slt y then y else x := by
  unfold smax; simp [BitVec.slt]
theorem umin_eq (x y : Word) : umin x y = if x < y then x else y := by
  unfold umin
  by_cases h : y.toNat < x.toNat
  · rw [if_pos h, if_neg]; simp [BitVec.lt_def]; omega
  · rw [if_neg h]; split
    · rfl
    · rename_i h2; simp [BitVec.lt_def] at h2; exact BitVec.eq_of_toNat_eq (by omega)
theorem umax_eq (x y : Word) : umax x y = if x < y then y else x := by
  unfold umax; simp [BitVec.lt_def]

theorem condHolds_eq (c : Nat) (x y : Word) : condHolds c x y = condOf c x y := by
  unfold condHolds condOf
  split <;> simp [BitVec.slt, BitVec.ult] <;> (try rw [Bool.eq_iff_iff]; simp)

/-- The value of a pattern read as a signed or an unsigned integer, in the library's terms. -/
theorem intOfBits_signed (w x : Nat) : intOfBits true w x = (BitVec.ofNat w x).toInt := by
  unfold intOfBits
  rw [BitVec.toInt_eq_msb_cond, BitVec.msb_eq_getLsbD_last, ← BitVec.testBit_toNat, BitVec.toNat_ofNat]
  simp

theorem intOfBits_unsigned (w x : Nat) : intOfBits false w x = ((BitVec.ofNat w x).toNat : Int) := by
  unfold intOfBits
  simp

theorem extended_eq (n : Nat) (sg : Bool) (x : Nat) : BitVec.ofInt 64 (intOfBits sg (8 * n) x) = extended n sg x := by
  unfold extended
  cases sg
  · rw [intOfBits_unsigned, BitVec.ofInt_natCast, if_neg (by decide)]
    exact BitVec.eq_of_toNat_eq (by simp)
  · rw [intOfBits_signed]
    rfl

/-- A load of eight bytes is the same with either extension. -/
theorem extended_eight (sg : Bool) (x : Nat) : extended 8 sg x = BitVec.ofNat 64 x := by
  unfold extended
  cases sg <;> simp

/-! ### Floating-point flags -/

/-- Flags of which none is enabled reach FFLAGS. -/
theorem scalarFlags_ok {fl : Flags} {s : State} (h : fl &&& s.me.te = 0) :
    (scalarFlags fl).run s = .ok () (s.setMe { s.me with fflags := s.me.fflags ||| fl }) := by
  have h' : ¬ ((fl &&& s.me.te) != 0) = true := by simp [h]
  unfold scalarFlags
  rw [run_modHart_bind, run_hart_bind, State.me_setMe]
  exact if_neg h' ▸ rfl

/-- An enabled flag traps, every flag raised in FFLAGS and nothing else changed. -/
theorem scalarFlags_trap {fl : Flags} {s : State} (h : fl &&& s.me.te ≠ 0) :
    (scalarFlags fl).run s =
      .error (.trap cFpTrap (BitVec.ofNat 64 fl.toNat) 0) (s.setMe { s.me with fflags := s.me.fflags ||| fl }) := by
  have h' : ((fl &&& s.me.te) != 0) = true := by simpa using h
  unfold scalarFlags
  rw [run_modHart_bind, run_hart_bind, State.me_setMe]
  show (if ((fl &&& s.me.te) != 0) = true then _ else _ : Mach Unit).run _ = _
  rw [if_pos h']
  rfl

end Sys2Proof.Machine
end

