-- ==== Sys2Proof/Laws/Vector.lean ====
section
/-!
SUPPORT. Elements of vector registers and bits of masks read after they are written, and loops over elements.
-/

namespace Sys2Proof.Machine

/-! ### Slices -/

/-- Bits of a slice after some of its bytes are written. -/
theorem testBit_sliceSet (x : BitVec 3072) (o n v p : Nat) (h : o + n ≤ 384) :
    (sliceSet x o n v).toNat.testBit p =
      if p < 8 * o then x.toNat.testBit p
      else if p < 8 * (o + n) then v.testBit (p - 8 * o) else x.toNat.testBit p := by
  have e : x.toNat % 2 ^ (8 * o) + 2 ^ (8 * o) * (v % 256 ^ n) + 2 ^ (8 * (o + n)) * (x.toNat / 2 ^ (8 * (o + n))) =
      2 ^ (8 * o) * (2 ^ (8 * n) * (x.toNat / 2 ^ (8 * (o + n))) + v % 2 ^ (8 * n)) + x.toNat % 2 ^ (8 * o) := by
    rw [show (256 : Nat) = 2 ^ 8 from rfl, ← Nat.pow_mul, show 8 * (o + n) = 8 * o + 8 * n by omega, Nat.pow_add,
      Nat.mul_add, Nat.mul_assoc]
    omega
  have hb : ∀ p, 3072 ≤ p → x.toNat.testBit p = false := fun p hp =>
    Nat.testBit_lt_two_pow (Nat.lt_of_lt_of_le x.isLt (Nat.pow_le_pow_right (by decide) hp))
  unfold sliceSet
  dsimp only
  rw [BitVec.toNat_ofNat, Nat.testBit_mod_two_pow, e, Nat.testBit_two_pow_mul_add _ (Nat.mod_lt _ (Nat.two_pow_pos _))]
  by_cases h1 : p < 8 * o
  · simp only [h1, if_true, Nat.testBit_mod_two_pow, decide_true, Bool.true_and]
    have : p < 3072 := by omega
    simp [this]
  · rw [if_neg h1, if_neg h1, Nat.testBit_two_pow_mul_add _ (Nat.mod_lt _ (Nat.two_pow_pos _))]
    by_cases h2 : p < 8 * (o + n)
    · have h3 : p - 8 * o < 8 * n := by omega
      have h4 : p < 3072 := by omega
      simp [h2, h3, h4, Nat.testBit_mod_two_pow]
    · have h3 : ¬p - 8 * o < 8 * n := by omega
      rw [if_neg h2, if_neg h3, Nat.testBit_div_two_pow, show p - 8 * o - 8 * n + 8 * (o + n) = p by omega]
      by_cases h4 : p < 3072
      · simp [h4]
      · rw [hb p (by omega)]; simp

theorem testBit_field (x a c j : Nat) : (x / 2 ^ a % 2 ^ c).testBit j = (decide (j < c) && x.testBit (a + j)) := by
  rw [Nat.testBit_mod_two_pow, Nat.testBit_div_two_pow, Nat.add_comm j a]

/-- Bytes of a slice read back where they were written. -/
theorem field_sliceSet_same (x : BitVec 3072) (o n v : Nat) (h : o + n ≤ 384) :
    (sliceSet x o n v).toNat / 2 ^ (8 * o) % 256 ^ n = v % 256 ^ n := by
  rw [show (256 : Nat) = 2 ^ 8 from rfl, ← Nat.pow_mul]
  apply Nat.eq_of_testBit_eq
  intro j
  rw [testBit_field, testBit_sliceSet _ _ _ _ _ h, Nat.testBit_mod_two_pow]
  by_cases hj : j < 8 * n
  · have h1 : ¬8 * o + j < 8 * o := by omega
    have h2 : 8 * o + j < 8 * (o + n) := by omega
    rw [if_neg h1, if_pos h2]
    simp [hj]
  · simp [hj]

/-- Other bytes of the slice read as before. -/
theorem field_sliceSet_other (x : BitVec 3072) (o n v o' m : Nat) (h : o + n ≤ 384) (hd : o' + m ≤ o ∨ o + n ≤ o') :
    (sliceSet x o n v).toNat / 2 ^ (8 * o') % 256 ^ m = x.toNat / 2 ^ (8 * o') % 256 ^ m := by
  rw [show (256 : Nat) = 2 ^ 8 from rfl, ← Nat.pow_mul]
  apply Nat.eq_of_testBit_eq
  intro j
  rw [testBit_field, testBit_field, testBit_sliceSet _ _ _ _ _ h]
  by_cases hj : j < 8 * m
  · rcases hd with hd | hd
    · have h1 : 8 * o' + j < 8 * o := by omega
      simp [h1]
    · have h1 : ¬8 * o' + j < 8 * o := by omega
      have h2 : ¬8 * o' + j < 8 * (o + n) := by omega
      simp [h1, h2]
  · simp [hj]

/-! ### Elements -/

/-- The byte of a lane's slices at which an element lies. -/
def elOff (L b i : Nat) : Nat := i / L * b

theorem get_slicePut_same (v : Tab (BitVec 3072)) (k : Nat) (x : BitVec 3072) :
    Tab.get (sliceRest k) (slicePut v k x) k = x := by
  unfold slicePut
  split
  · rename_i h
    rw [Tab.get_erase, if_pos rfl, sliceRest, if_pos h.2, h.1]
  · exact Tab.get_put_same _ _ _ _

/-- Another slice reads as before, whatever an unlisted one reads as. -/
theorem get_slicePut_ne (d : BitVec 3072) (v : Tab (BitVec 3072)) {k k' : Nat} (x : BitVec 3072) (h : k ≠ k') :
    Tab.get d (slicePut v k x) k' = Tab.get d v k' := by
  unfold slicePut
  split
  · rw [Tab.get_erase, if_neg h]
  · exact Tab.get_put_ne _ _ _ h

/-- The slice in which an element lies. -/
abbrev elKey (h : Hart) (r b i : Nat) : Nat := sliceKey (r + elOff h.lanes b i / 384) (i % h.lanes)

theorem getEl_eq (h : Hart) (r b i : Nat) :
    h.getEl r b i = (Tab.get (sliceRest (elKey h r b i)) h.v (elKey h r b i)).toNat
      / 2 ^ (8 * (elOff h.lanes b i % 384)) % 256 ^ b := rfl

theorem setEl_v (h : Hart) (r b i x : Nat) :
    (h.setEl r b i x).v = slicePut h.v (elKey h r b i)
      (sliceSet (Tab.get (sliceRest (elKey h r b i)) h.v (elKey h r b i)) (elOff h.lanes b i % 384) b x) := rfl

@[simp] theorem setEl_lanes (h : Hart) (r b i x : Nat) : (h.setEl r b i x).lanes = h.lanes := rfl

/-- An element of a size that divides a slice does not straddle two. -/
theorem elOff_fits {L b i : Nat} (hb : b ∣ 384) : elOff L b i % 384 + b ≤ 384 := by
  obtain ⟨c, hc⟩ := hb
  have hbp : 0 < b := by
    rcases Nat.eq_zero_or_pos b with rfl | h
    · omega
    · exact h
  unfold elOff
  have h1 : i / L * b % 384 = (i / L % c) * b := by
    rw [hc, Nat.mul_comm b c, Nat.mul_mod_mul_right]
  have hcp : 0 < c := by
    rcases Nat.eq_zero_or_pos c with rfl | h
    · omega
    · exact h
  have h2 : i / L % c < c := Nat.mod_lt _ hcp
  rw [h1, hc]
  calc (i / L % c) * b + b = (i / L % c + 1) * b := by rw [Nat.add_mul, Nat.one_mul]
    _ ≤ c * b := Nat.mul_le_mul_right b h2
    _ = b * c := Nat.mul_comm _ _

/-- An element read back after it is written. -/
theorem getEl_setEl_same (h : Hart) (r b i x : Nat) (hb : b ∣ 384) : (h.setEl r b i x).getEl r b i = x % 256 ^ b := by
  rw [getEl_eq, setEl_v, setEl_lanes, show elKey (h.setEl r b i x) r b i = elKey h r b i from rfl, get_slicePut_same]
  exact field_sliceSet_same _ _ _ _ (elOff_fits hb)

/-- Two keys of slices are equal only for one register and one lane. -/
theorem sliceKey_inj {r r' l l' : Nat} (hr : r < 65536) (hr' : r' < 65536) (h : sliceKey r l = sliceKey r' l') :
    r = r' ∧ l = l' := by
  unfold sliceKey at h
  omega

/-- Another element of the group reads as before. -/
theorem getEl_setEl_ne (h : Hart) (r b i k x : Nat) (hb : b ∣ 384) (hk : k ≠ i)
    (hi : r + elOff h.lanes b i / 384 < 65536) (hk' : r + elOff h.lanes b k / 384 < 65536) :
    (h.setEl r b i x).getEl r b k = h.getEl r b k := by
  rw [getEl_eq, setEl_v, setEl_lanes, getEl_eq, show elKey (h.setEl r b i x) r b k = elKey h r b k from rfl]
  by_cases hkey : elKey h r b i = elKey h r b k
  · rw [← hkey, get_slicePut_same]
    obtain ⟨h1, h2⟩ := sliceKey_inj hi hk' hkey
    have h3 : elOff h.lanes b i / 384 = elOff h.lanes b k / 384 := by omega
    refine field_sliceSet_other _ _ _ _ _ _ (elOff_fits hb) ?_
    have hne : i / h.lanes ≠ k / h.lanes := by
      intro e
      apply hk
      rw [← Nat.div_add_mod k h.lanes, ← Nat.div_add_mod i h.lanes, e, h2]
    have hb0 : elOff h.lanes b k + b ≤ elOff h.lanes b i ∨ elOff h.lanes b i + b ≤ elOff h.lanes b k := by
      unfold elOff
      rcases Nat.lt_or_gt_of_ne hne with hlt | hlt
      · right
        calc i / h.lanes * b + b = (i / h.lanes + 1) * b := by rw [Nat.add_mul, Nat.one_mul]
          _ ≤ k / h.lanes * b := Nat.mul_le_mul_right b hlt
      · left
        calc k / h.lanes * b + b = (k / h.lanes + 1) * b := by rw [Nat.add_mul, Nat.one_mul]
          _ ≤ i / h.lanes * b := Nat.mul_le_mul_right b hlt
    omega
  · rw [get_slicePut_ne _ _ _ hkey]

/-- A slice of another register is as before. -/
theorem slice_setEl (h : Hart) (r b i x r' l : Nat) (hi : r + elOff h.lanes b i / 384 < 65536) (hr : r' < 65536)
    (hne : r' ≠ r + elOff h.lanes b i / 384) :
    Tab.get 0 (h.setEl r b i x).v (sliceKey r' l) = Tab.get 0 h.v (sliceKey r' l) := by
  rw [setEl_v]
  refine get_slicePut_ne _ _ _ ?_
  intro hk
  exact hne (sliceKey_inj hi hr hk).1.symm

/-- Elements below VLMAX lie in the registers of their group (R49, R50). -/
theorem elOff_group {h : Hart} {b k : Nat} (hm : h.mxm = false) (hb : b ∣ 384) (hk : k < h.vlmax b) :
    elOff h.lanes b k / 384 < h.grp := by
  have hbp : 0 < b := Nat.pos_of_dvd_of_pos hb (by decide)
  unfold Hart.vlmax at hk
  rw [hm] at hk
  simp only [Bool.false_eq_true, if_false] at hk
  have hL : 0 < h.lanes := by
    rcases Nat.eq_zero_or_pos h.lanes with e | e
    · rw [e] at hk; simp at hk
    · exact e
  rw [Nat.div_lt_iff_lt_mul (by decide)]
  unfold elOff
  obtain ⟨c, hc⟩ := hb
  have e : 384 * h.lanes * h.grp / b = c * h.grp * h.lanes := by
    rw [hc, show b * c * h.lanes * h.grp = b * (c * h.grp * h.lanes) by
      rw [Nat.mul_assoc b c, Nat.mul_assoc b, Nat.mul_right_comm c]]
    exact Nat.mul_div_cancel_left _ hbp
  rw [e] at hk
  have h1 : k / h.lanes < c * h.grp := by rwa [Nat.div_lt_iff_lt_mul hL]
  calc k / h.lanes * b < c * h.grp * b := Nat.mul_lt_mul_of_pos_right h1 hbp
    _ = h.grp * 384 := by rw [hc, Nat.mul_comm c, Nat.mul_assoc, Nat.mul_comm c]

/-! ### Masks -/

/-- A mask bit read back after one is written. -/
theorem maskBit_setMask (h : Hart) (r i : Nat) (x : Bool) (r' k : Nat) (hi : i < 196608) :
    (h.setMask r i x).maskBit r' k = if r' = r ∧ k = i ∧ r ≠ 0 then x else h.maskBit r' k := by
  unfold Hart.setMask Hart.maskBit
  by_cases hr : r = 0
  · simp [hr]
  · simp only [hr, if_false]
    by_cases hr' : r' = r
    · subst hr'
      rw [Tab.get_set_same]
      by_cases hk : k = i
      · subst hk
        cases x <;> simp [hr, hi]
      · have hz : k < i ∨ k - i ≠ 0 := by omega
        have hw : (Tab.get (0#196608) h.m r').getLsbD k = true → k < 196608 := fun h => BitVec.lt_of_getLsbD h
        cases hg : (Tab.get (0#196608) h.m r').getLsbD k <;> cases x <;>
          simp_all [BitVec.getLsbD_shiftLeft, BitVec.getLsbD_one]
        omega
    · rw [Tab.get_set_ne _ _ _ (Ne.symm hr')]
      simp [hr']

/-- Another mask is as before. -/
theorem mask_setMask (h : Hart) (r i : Nat) (x : Bool) (r' : Nat) (hr : r' ≠ r) :
    Tab.get 0 (h.setMask r i x).m r' = Tab.get 0 h.m r' := by
  unfold Hart.setMask
  split
  · rfl
  · exact Tab.get_set_ne _ _ _ (Ne.symm hr)

/-! ### Loops -/

/-- A loop that keeps a property of the elements done runs to its end. -/
theorem forM_run {f : Nat → Mach Unit} {P : List Nat → State → Prop} (post : List Nat) (pre : List Nat) (s : State)
    (h0 : P pre s)
    (hstep : ∀ pre' i post' s, pre ++ post = pre' ++ i :: post' → P pre' s → ∃ t, (f i).run s = .ok () t ∧ P (pre' ++ [i]) t) :
    ∃ t, (post.forM f).run s = .ok () t ∧ P (pre ++ post) t := by
  induction post generalizing pre s with
  | nil => exact ⟨s, rfl, by simpa using h0⟩
  | cons i is ih =>
    obtain ⟨t, ht, hp⟩ := hstep pre i is s rfl h0
    obtain ⟨u, hu, hq⟩ := ih (pre ++ [i]) t hp (by
      intro pre' j post' s' he hp'
      exact hstep pre' j post' s' (by simpa using he) hp')
    refine ⟨u, ?_, by simpa using hq⟩
    show (f i >>= fun _ => is.forM f).run s = _
    rw [run_bind_ok ht]
    exact hu

end Sys2Proof.Machine
end

