-- ==== Sys2Proof/Tests/Slice0.lean ====
section
/-!
SUPPORT. Tests: an ill-formed term for each check of WellFormed; words of the manual's examples; results that the
manual's examples state; and for each obligation a state and operands that meet its hypotheses.
-/

namespace Sys2Proof.Tests

set_option Elab.async false

open Sys2Proof Sys2Proof.Machine

/-! ### Small states -/

/-- A gang in slot 0 of core 0, with the whole of the four ladder regions behind 4,096 bytes of data. -/
def gang0 : Gang :=
  { launch := 0, gangId := 0, state := .active, core := 0, slot := 0, base := 0, size := 0x81000, gen := 0, arrived := 0
    retired := 0, placedAt := 0, since := 0, saved := [], parkedHarts := [], objs := 0 }

def launch0 : Launch :=
  { ctx := 0, queue := 0, seq := 0, number := 0, entry := 0, args := 0, gangs := 1, harts := 1, lgrp := 1, lads := 4
    prio := 0, spad := 4096, done := 0, doneVal := 0, since := 0, placed := 1, retired := 0 }

/-- One hart on four lanes, every feature accepted, its addresses from 0 mapped to 64 KiB of DRAM, with bytes placed at address 0. -/
def worldAt (bs : List Byte) (f : Hart → Hart) : State :=
  let s := ((State.reset.loadCodeBytes bs).setGang 0 gang0).setLaunch 0 launch0
  ({ s with featacc := 0x7F } : State).setMe (f { s.me with laneCur := 4, gmap := 1 })

def world (f : Hart → Hart) : State := worldAt [] f

/-- The value and the state of a computation that ends, and that it ends. -/
def valOf {α : Type} (d : α) (r : EStateM.Result Stop State α) : α :=
  match r with
  | .ok x _ => x
  | .error _ _ => d
def endOf {α : Type} (r : EStateM.Result Stop State α) : State :=
  match r with
  | .ok _ t => t
  | .error _ t => t
def ends {α : Type} (r : EStateM.Result Stop State α) : Bool :=
  match r with
  | .ok _ _ => true
  | .error _ _ => false
theorem ran {α : Type} (d : α) (r : EStateM.Result Stop State α) (h : ends r = true) : r = .ok (valOf d r) (endOf r) := by
  cases r with
  | ok x t => rfl
  | error e t => cases h

theorem ranTo {α : Type} {r : EStateM.Result Stop State α} {x : α} {t : State} (h : ends r = true)
    (hv : valOf x r = x) (ht : endOf r = t) : r = .ok x t := by
  cases r with
  | ok y u =>
    have hy : y = x := hv
    have hu : u = t := ht
    rw [hy, hu]
  | error e u => cases h

theorem someOf {α : Type} (d : α) (o : Option α) (h : o.isSome = true) : o = some (o.getD d) := by
  cases o with
  | some x => rfl
  | none => cases h

/-- A transfer in flight under tag 2 that moves nothing. -/
def xfer0 : Transfer :=
  { tag := 2, inflate := false, trimmed := false, fmt := 0, et := 0, vc := Hart.reset.vc, count := 0, input := 0
    desc := List.replicate 16 0, dims := 0, space := 0, pages := [], ranges := [], window := [] }

/-- Where an access lands, worked out. -/
theorem landsAt {s t : State} {q : Req} {ea : BitVec 64} {l : Loc} (h : ends ((locate q (isSpad ea) ea).run s) = true)
    (hv : valOf l ((locate q (isSpad ea) ea).run s) = l) (ht : endOf ((locate q (isSpad ea) ea).run s) = t) :
    s.lands q ea l t := ranTo h hv ht

theorem okOf {ε α : Type} {r : Except ε α} (h : r.toBool = true) : ∃ x, r = .ok x := by
  cases r with
  | ok x => exact ⟨x, rfl⟩
  | error e => cases h

theorem ranUnit {r : EStateM.Result Stop State Unit} (h : ends r = true) : r = .ok () (endOf r) := ran () r h

/-! ### Ill-formed terms -/

def va0 : VaF := { vd := 0, va := 0, vb := 0, x := 0, m := 0, et := 0, rm := 0, sat := 0, os := 0, mi := 0, aux := 0 }
def vm0 : VmF :=
  { vd := 0, va := 0, vb := 0, x := 0, m := 0, et := 0, fmt := 0, ord := 0, ovt := 0, pol := 0, scope := 0, space := 0
    ff := 0, z := 0 }
def mx0 : MxF := { vd := 0, va := 0, vb := 0, x := 0, m := 0, et := 0, rows := 0, g := 0, bt := 0, z := 0 }
def la0 : LaF := { vd := 0, va := 0, vb := 0, x := 0, m := 0, et := 0, rung := 0, op := 0, z := 0 }
def hs0 : HsF := { vd := 0, va := 0, vb := 0, x := 0, m := 0, et := 0, res := 0, z := 0 }
def at0 : AtF := { vd := 0, va := 0, vb := 0, x := 0, m := 0, et := 0, op := 0, succ := 0, fail := 0, scope := 0, z := 0 }
def sy0 : SyF := { vd := 0, va := 0, vb := 0, x := 0, m := 0, et := 0, scope := 0, z := 0, aux := 0 }
def en0 : EnF := { vd := 0, va := 0, vb := 0, x := 0, m := 0, et := 0, dims := 0, fmt := 0, ff := 0, z := 0 }
def sv0 : SvF := { vd := 0, va := 0, vb := 0, x := 0, m := 0, et := 0, g := 0, z := 0 }

theorem test_ill_formed_unused : (Instr.cmpeq 1 2 3 5).wellFormed = false := by decide
theorem test_ill_formed_code : (Instr.vadd { va0 with et := 11 }).wellFormed = false := by decide
theorem test_ill_formed_pairing : (Instr.mxmac { mx0 with bt := 9 }).wellFormed = false := by decide
theorem test_ill_formed_register : (Instr.mxzero { mx0 with vd := 8 }).wellFormed = false := by decide
theorem test_well_formed : (Instr.vadd { va0 with vd := 63, et := 10 }).wellFormed = true := by decide

/-! ### Words of the manual -/

def wordVA : VaF :=
  { vd := 1, va := 2, vb := 3, x := 9, m := 5, et := 6, rm := 5, sat := 1, os := 1, mi := 1, aux := 21 }
/-- The opcodes of class VA (R75 to R78). -/
theorem test_decode_class_VA :
    decode [0x80001083#32, 0x24AD7815#32] = .ok (.vadd wordVA, 2)
    ∧ decode [0x80041083#32, 0x24AD7815#32] = .ok (.vsub wordVA, 2)
    ∧ decode [0x80081083#32, 0x24AD7815#32] = .ok (.vmul wordVA, 2)
    ∧ decode [0x800C1083#32, 0x24AD7815#32] = .ok (.vmulh wordVA, 2)
    ∧ decode [0x80101083#32, 0x24AD7815#32] = .ok (.vdiv wordVA, 2)
    ∧ decode [0x80141083#32, 0x24AD7815#32] = .ok (.vrem wordVA, 2)
    ∧ decode [0x80181083#32, 0x24AD7815#32] = .ok (.vmin wordVA, 2)
    ∧ decode [0x801C1083#32, 0x24AD7815#32] = .ok (.vmax wordVA, 2)
    ∧ decode [0x80201083#32, 0x24AD7815#32] = .ok (.vabs wordVA, 2)
    ∧ decode [0x80241083#32, 0x24AD7815#32] = .ok (.vneg wordVA, 2)
    ∧ decode [0x80281083#32, 0x24AD7815#32] = .ok (.vand wordVA, 2)
    ∧ decode [0x802C1083#32, 0x24AD7815#32] = .ok (.vor wordVA, 2)
    ∧ decode [0x80301083#32, 0x24AD7815#32] = .ok (.vxor wordVA, 2)
    ∧ decode [0x80341083#32, 0x24AD7815#32] = .ok (.vnot wordVA, 2)
    ∧ decode [0x80381083#32, 0x24AD7815#32] = .ok (.vsll wordVA, 2)
    ∧ decode [0x803C1083#32, 0x24AD7815#32] = .ok (.vsrl wordVA, 2)
    ∧ decode [0x80401083#32, 0x24AD7815#32] = .ok (.vsra wordVA, 2)
    ∧ decode [0x80441083#32, 0x24AD7815#32] = .ok (.vadds wordVA, 2)
    ∧ decode [0x80481083#32, 0x24AD7815#32] = .ok (.vsubs wordVA, 2)
    ∧ decode [0x804C1083#32, 0x24AD7815#32] = .ok (.vavg wordVA, 2)
    ∧ decode [0x80501083#32, 0x24AD7815#32] = .ok (.vfma wordVA, 2)
    ∧ decode [0x80541083#32, 0x24AD7815#32] = .ok (.vfms wordVA, 2)
    ∧ decode [0x80581083#32, 0x24AD7815#32] = .ok (.vfnma wordVA, 2)
    ∧ decode [0x805C1083#32, 0x24AD7815#32] = .ok (.vsqrt wordVA, 2)
    ∧ decode [0x80601083#32, 0x24AD7815#32] = .ok (.vrsq wordVA, 2)
    ∧ decode [0x80641083#32, 0x24AD7815#32] = .ok (.vrcp wordVA, 2)
    ∧ decode [0x80681083#32, 0x24AD7815#32] = .ok (.vexp2 wordVA, 2)
    ∧ decode [0x806C1083#32, 0x24AD7815#32] = .ok (.vlog2 wordVA, 2)
    ∧ decode [0x80701083#32, 0x24AD7815#32] = .ok (.vclamp wordVA, 2)
    ∧ decode [0x80741083#32, 0x24AD7815#32] = .ok (.vscale wordVA, 2)
    ∧ decode [0x80781083#32, 0x24AD7815#32] = .ok (.vcvt wordVA, 2)
    ∧ decode [0x807C1083#32, 0x24AD7815#32] = .ok (.vdot wordVA, 2)
    ∧ decode [0x80801083#32, 0x24AD7815#32] = .ok (.vcmp wordVA, 2)
    ∧ decode [0x80841083#32, 0x24AD7815#32] = .ok (.vmerge wordVA, 2)
    ∧ decode [0x80881083#32, 0x24AD7815#32] = .ok (.vbcast wordVA, 2)
    ∧ decode [0x808C1083#32, 0x24AD7815#32] = .ok (.vid wordVA, 2) :=
  by and_intros <;> rfl

def wordVM : VmF :=
  { vd := 1, va := 2, vb := 3, x := 9, m := 5, et := 6, fmt := 5, ord := 1, ovt := 1, pol := 2, scope := 5, space := 2, ff := 1, z := 0 }
/-- The opcodes of class VM (R75 to R78). -/
theorem test_decode_class_VM :
    decode [0x84001083#32, 0x24AD7AD0#32] = .ok (.vld wordVM, 2)
    ∧ decode [0x84041083#32, 0x24AD7AD0#32] = .ok (.vlds wordVM, 2)
    ∧ decode [0x84081083#32, 0x24AD7AD0#32] = .ok (.vldx wordVM, 2)
    ∧ decode [0x840C1083#32, 0x24AD7AD0#32] = .ok (.vldff wordVM, 2)
    ∧ decode [0x84101083#32, 0x24AD7AD0#32] = .ok (.vldxff wordVM, 2)
    ∧ decode [0x84141083#32, 0x24AD7AD0#32] = .ok (.vst wordVM, 2)
    ∧ decode [0x84181083#32, 0x24AD7AD0#32] = .ok (.vsts wordVM, 2)
    ∧ decode [0x841C1083#32, 0x24AD7AD0#32] = .ok (.vstx wordVM, 2)
    ∧ decode [0x84201083#32, 0x24AD7AD0#32] = .ok (.vpref wordVM, 2)
    ∧ decode [0x84241083#32, 0x24AD7AD0#32] = .ok (.vtrans wordVM, 2)
    ∧ decode [0x84281083#32, 0x24AD7AD0#32] = .ok (.vtransff wordVM, 2)
    ∧ decode [0x842C1083#32, 0x24AD7AD0#32] = .ok (.vsegadd wordVM, 2) :=
  by and_intros <;> rfl

/-- The opcodes of class VP (R75 to R78). -/
theorem test_decode_class_VP :
    decode [0x88001083#32, 0x24AD7815#32] = .ok (.mand wordVA, 2)
    ∧ decode [0x88041083#32, 0x24AD7815#32] = .ok (.mor wordVA, 2)
    ∧ decode [0x88081083#32, 0x24AD7815#32] = .ok (.mxor wordVA, 2)
    ∧ decode [0x880C1083#32, 0x24AD7815#32] = .ok (.mandn wordVA, 2)
    ∧ decode [0x88101083#32, 0x24AD7815#32] = .ok (.mnot wordVA, 2)
    ∧ decode [0x88141083#32, 0x24AD7815#32] = .ok (.mpop wordVA, 2)
    ∧ decode [0x88181083#32, 0x24AD7815#32] = .ok (.mfirst wordVA, 2)
    ∧ decode [0x881C1083#32, 0x24AD7815#32] = .ok (.msetn wordVA, 2)
    ∧ decode [0x88201083#32, 0x24AD7815#32] = .ok (.vslideup wordVA, 2)
    ∧ decode [0x88241083#32, 0x24AD7815#32] = .ok (.vslidedn wordVA, 2)
    ∧ decode [0x88281083#32, 0x24AD7815#32] = .ok (.vperm wordVA, 2)
    ∧ decode [0x882C1083#32, 0x24AD7815#32] = .ok (.vcompress wordVA, 2)
    ∧ decode [0x88301083#32, 0x24AD7815#32] = .ok (.vexpand wordVA, 2)
    ∧ decode [0x88341083#32, 0x24AD7815#32] = .ok (.vrank wordVA, 2)
    ∧ decode [0x88381083#32, 0x24AD7815#32] = .ok (.vextr wordVA, 2)
    ∧ decode [0x883C1083#32, 0x24AD7815#32] = .ok (.vins wordVA, 2)
    ∧ decode [0x88401083#32, 0x24AD7815#32] = .ok (.vredsum wordVA, 2)
    ∧ decode [0x88441083#32, 0x24AD7815#32] = .ok (.vredsumo wordVA, 2)
    ∧ decode [0x88481083#32, 0x24AD7815#32] = .ok (.vredmax wordVA, 2)
    ∧ decode [0x884C1083#32, 0x24AD7815#32] = .ok (.vredmin wordVA, 2)
    ∧ decode [0x88501083#32, 0x24AD7815#32] = .ok (.vconf wordVA, 2) :=
  by and_intros <;> rfl

def wordMX : MxF :=
  { vd := 1, va := 2, vb := 3, x := 9, m := 5, et := 6, rows := 21, g := 5, bt := 6, z := 0 }
/-- The opcodes of class MX (R75 to R78). -/
theorem test_decode_class_MX :
    decode [0x8C001083#32, 0x24ACAD60#32] = .ok (.mxenter wordMX, 2)
    ∧ decode [0x8C041083#32, 0x24ACAD60#32] = .ok (.mxleave wordMX, 2)
    ∧ decode [0x8C081083#32, 0x24ACAD60#32] = .ok (.mxsetc wordMX, 2)
    ∧ decode [0x8C0C1083#32, 0x24ACAD60#32] = .ok (.mxzero wordMX, 2)
    ∧ decode [0x8C101083#32, 0x24ACAD60#32] = .ok (.mxmac wordMX, 2)
    ∧ decode [0x8C141083#32, 0x24ACAD60#32] = .ok (.mxld wordMX, 2)
    ∧ decode [0x8C181083#32, 0x24ACAD60#32] = .ok (.mxst wordMX, 2)
    ∧ decode [0x8C1C1083#32, 0x24ACAD60#32] = .ok (.mxstkv wordMX, 2)
    ∧ decode [0x8C201083#32, 0x24ACAD60#32] = .ok (.mxrow wordMX, 2)
    ∧ decode [0x8C241083#32, 0x24ACAD60#32] = .ok (.mxrowadd wordMX, 2)
    ∧ decode [0x8C281083#32, 0x24ACAD60#32] = .ok (.mxscaler wordMX, 2) :=
  by and_intros <;> rfl

def wordLA : LaF :=
  { vd := 1, va := 2, vb := 3, x := 9, m := 5, et := 6, rung := 6, op := 2, z := 0 }
/-- The opcodes of class LA (R75 to R78). -/
theorem test_decode_class_LA :
    decode [0x90001083#32, 0x24ACD000#32] = .ok (.linit wordLA, 2)
    ∧ decode [0x90041083#32, 0x24ACD000#32] = .ok (.lstep wordLA, 2)
    ∧ decode [0x90081083#32, 0x24ACD000#32] = .ok (.lrung wordLA, 2)
    ∧ decode [0x900C1083#32, 0x24ACD000#32] = .ok (.lblend wordLA, 2)
    ∧ decode [0x90101083#32, 0x24ACD000#32] = .ok (.lcount wordLA, 2)
    ∧ decode [0x90141083#32, 0x24ACD000#32] = .ok (.lsync wordLA, 2)
    ∧ decode [0x90181083#32, 0x24ACD000#32] = .ok (.lreset wordLA, 2) :=
  ⟨rfl, rfl, rfl, rfl, rfl, rfl, rfl⟩

def wordHS : HsF :=
  { vd := 1, va := 2, vb := 3, x := 9, m := 5, et := 6, res := 6, z := 0 }
/-- The opcodes of class HS (R75 to R78). -/
theorem test_decode_class_HS :
    decode [0x94001083#32, 0x24ACC000#32] = .ok (.hinit wordHS, 2)
    ∧ decode [0x94041083#32, 0x24ACC000#32] = .ok (.hapnd wordHS, 2)
    ∧ decode [0x94081083#32, 0x24ACC000#32] = .ok (.hld wordHS, 2)
    ∧ decode [0x940C1083#32, 0x24ACC000#32] = .ok (.hspan wordHS, 2)
    ∧ decode [0x94101083#32, 0x24ACC000#32] = .ok (.hseal wordHS, 2)
    ∧ decode [0x94141083#32, 0x24ACC000#32] = .ok (.hresume wordHS, 2)
    ∧ decode [0x94181083#32, 0x24ACC000#32] = .ok (.hfree wordHS, 2) :=
  ⟨rfl, rfl, rfl, rfl, rfl, rfl, rfl⟩

def wordAT : AtF :=
  { vd := 1, va := 2, vb := 3, x := 9, m := 5, et := 6, op := 6, succ := 2, fail := 2, scope := 5, z := 0 }
/-- The opcodes of class AT (R75 to R78). -/
theorem test_decode_class_AT :
    decode [0x98001083#32, 0x24ACD540#32] = .ok (.vamo wordAT, 2)
    ∧ decode [0x98041083#32, 0x24ACD540#32] = .ok (.ramo wordAT, 2)
    ∧ decode [0x98081083#32, 0x24ACD540#32] = .ok (.rcas wordAT, 2)
    ∧ decode [0x980C1083#32, 0x24ACD540#32] = .ok (.rstore wordAT, 2)
    ∧ decode [0x98101083#32, 0x24ACD540#32] = .ok (.rload wordAT, 2)
    ∧ decode [0x98141083#32, 0x24ACD540#32] = .ok (.rdrain wordAT, 2) :=
  ⟨rfl, rfl, rfl, rfl, rfl, rfl⟩

def wordSY : SyF :=
  { vd := 1, va := 2, vb := 3, x := 9, m := 5, et := 6, scope := 5, z := 0, aux := 21 }
/-- The opcodes of class SY (R75 to R78). -/
theorem test_decode_class_SY :
    decode [0x9C001083#32, 0x24AD4015#32] = .ok (.vfence wordSY, 2)
    ∧ decode [0x9C041083#32, 0x24AD4015#32] = .ok (.barinit wordSY, 2)
    ∧ decode [0x9C081083#32, 0x24AD4015#32] = .ok (.bararr wordSY, 2)
    ∧ decode [0x9C0C1083#32, 0x24AD4015#32] = .ok (.barwait wordSY, 2)
    ∧ decode [0x9C101083#32, 0x24AD4015#32] = .ok (.barkill wordSY, 2)
    ∧ decode [0x9C141083#32, 0x24AD4015#32] = .ok (.gbar wordSY, 2) :=
  ⟨rfl, rfl, rfl, rfl, rfl, rfl⟩

def wordEN : EnF :=
  { vd := 1, va := 2, vb := 3, x := 9, m := 5, et := 6, dims := 5, fmt := 5, ff := 1, z := 0 }
/-- The opcodes of class EN (R75 to R78). -/
theorem test_decode_class_EN :
    decode [0xA0001083#32, 0x24AD6C00#32] = .ok (.xcopy wordEN, 2)
    ∧ decode [0xA0041083#32, 0x24AD6C00#32] = .ok (.xcopyff wordEN, 2)
    ∧ decode [0xA0081083#32, 0x24AD6C00#32] = .ok (.xinfl wordEN, 2)
    ∧ decode [0xA00C1083#32, 0x24AD6C00#32] = .ok (.xwait wordEN, 2)
    ∧ decode [0xA0101083#32, 0x24AD6C00#32] = .ok (.xstat wordEN, 2) :=
  ⟨rfl, rfl, rfl, rfl, rfl⟩

def wordSV : SvF :=
  { vd := 1, va := 2, vb := 3, x := 9, m := 5, et := 6, g := 2, z := 0 }
/-- The opcodes of class SV (R75 to R78). -/
theorem test_decode_class_SV :
    decode [0xA4001083#32, 0x24AD0000#32] = .ok (.vsetl wordSV, 2)
    ∧ decode [0xA4041083#32, 0x24AD0000#32] = .ok (.vfsave wordSV, 2)
    ∧ decode [0xA4081083#32, 0x24AD0000#32] = .ok (.vfrest wordSV, 2)
    ∧ decode [0xA40C1083#32, 0x24AD0000#32] = .ok (.vsave wordSV, 2)
    ∧ decode [0xA4101083#32, 0x24AD0000#32] = .ok (.vrest wordSV, 2) :=
  ⟨rfl, rfl, rfl, rfl, rfl⟩

/-- Scalar words from the encoding tables, the fields at sd 1, sa 2, sb 3 (R72 to R74). -/
theorem test_decode_register :
    decode [0x00084180#32] = .ok (.add 1 2 3, 1)
    ∧ decode [0x00084181#32] = .ok (.sub 1 2 3, 1)
    ∧ decode [0x00084182#32] = .ok (.and 1 2 3, 1)
    ∧ decode [0x00084183#32] = .ok (.or 1 2 3, 1)
    ∧ decode [0x00084184#32] = .ok (.xor 1 2 3, 1)
    ∧ decode [0x00084185#32] = .ok (.sll 1 2 3, 1)
    ∧ decode [0x00084186#32] = .ok (.srl 1 2 3, 1)
    ∧ decode [0x00084187#32] = .ok (.sra 1 2 3, 1)
    ∧ decode [0x00084188#32] = .ok (.min 1 2 3, 1)
    ∧ decode [0x00084189#32] = .ok (.max 1 2 3, 1)
    ∧ decode [0x0008418A#32] = .ok (.minn 1 2 3, 1)
    ∧ decode [0x0008418B#32] = .ok (.maxn 1 2 3, 1)
    ∧ decode [0x0008418C#32] = .ok (.mul 1 2 3, 1)
    ∧ decode [0x0008418D#32] = .ok (.mulh 1 2 3, 1)
    ∧ decode [0x0008418E#32] = .ok (.mulhn 1 2 3, 1)
    ∧ decode [0x0008418F#32] = .ok (.div 1 2 3, 1)
    ∧ decode [0x00084190#32] = .ok (.divn 1 2 3, 1)
    ∧ decode [0x00084191#32] = .ok (.rem 1 2 3, 1)
    ∧ decode [0x00084192#32] = .ok (.remn 1 2 3, 1)
    ∧ decode [0x00084013#32] = .ok (.clz 1 2 0, 1)
    ∧ decode [0x00084014#32] = .ok (.ctz 1 2 0, 1)
    ∧ decode [0x00084015#32] = .ok (.popc 1 2 0, 1)
    ∧ decode [0x00084296#32] = .ok (.sel 1 2 5, 1)
    ∧ decode [0x2A084180#32] = .ok (.cand 1 2 3, 1)
    ∧ decode [0x2A084181#32] = .ok (.cor 1 2 3, 1)
    ∧ decode [0x2A084182#32] = .ok (.cxor 1 2 3, 1)
    ∧ decode [0x2A084003#32] = .ok (.cnot 1 2 0, 1)
    ∧ decode [0x2A080004#32] = .ok (.cget 1 0 0, 1)
    ∧ decode [0x2A084005#32] = .ok (.cfrom 1 2 0, 1) :=
  by and_intros <;> rfl

/-- Scalar words from the encoding tables, the fields at sd 1, sa 2, sb 3 (R72 to R74). -/
theorem test_decode_immediate :
    decode [0x02084015#32] = .ok (.addi 1 2 ⟨none, 0x15⟩, 1)
    ∧ decode [0x04084015#32] = .ok (.andi 1 2 ⟨none, 0x15⟩, 1)
    ∧ decode [0x06084015#32] = .ok (.ori 1 2 ⟨none, 0x15⟩, 1)
    ∧ decode [0x08084015#32] = .ok (.xori 1 2 ⟨none, 0x15⟩, 1)
    ∧ decode [0x0A084007#32] = .ok (.slli 1 2 0 7, 1)
    ∧ decode [0x0A084807#32] = .ok (.srli 1 2 0 7, 1)
    ∧ decode [0x0A085007#32] = .ok (.srai 1 2 0 7, 1)
    ∧ decode [0x0C084015#32] = .ok (.lih 1 2 ⟨none, 0x15⟩, 1)
    ∧ decode [0x0E080015#32] = .ok (.pcadd 1 ⟨none, 0x15⟩, 1) :=
  by and_intros <;> rfl

/-- Scalar words from the encoding tables, the fields at sd 1, sa 2, sb 3 (R72 to R74). -/
theorem test_decode_load_store :
    decode [0x10084015#32] = .ok (.ldb 1 2 ⟨none, 0x15⟩, 1)
    ∧ decode [0x12084015#32] = .ok (.ldbn 1 2 ⟨none, 0x15⟩, 1)
    ∧ decode [0x14084015#32] = .ok (.ldh 1 2 ⟨none, 0x15⟩, 1)
    ∧ decode [0x16084015#32] = .ok (.ldhn 1 2 ⟨none, 0x15⟩, 1)
    ∧ decode [0x18084015#32] = .ok (.ldw 1 2 ⟨none, 0x15⟩, 1)
    ∧ decode [0x1A084015#32] = .ok (.ldwn 1 2 ⟨none, 0x15⟩, 1)
    ∧ decode [0x1C084015#32] = .ok (.ldd 1 2 ⟨none, 0x15⟩, 1)
    ∧ decode [0x1E084015#32] = .ok (.stb 1 2 ⟨none, 0x15⟩, 1)
    ∧ decode [0x20084015#32] = .ok (.sth 1 2 ⟨none, 0x15⟩, 1)
    ∧ decode [0x22084015#32] = .ok (.stw 1 2 ⟨none, 0x15⟩, 1)
    ∧ decode [0x24084015#32] = .ok (.std 1 2 ⟨none, 0x15⟩, 1) :=
  by and_intros <;> rfl

/-- Scalar words from the encoding tables, the fields at sd 1, sa 2, sb 3 (R72 to R74). -/
theorem test_decode_compare :
    decode [0x26404180#32] = .ok (.cmpeq 1 2 3 0, 1)
    ∧ decode [0x26484180#32] = .ok (.cmpne 1 2 3 0, 1)
    ∧ decode [0x26504180#32] = .ok (.cmplt 1 2 3 0, 1)
    ∧ decode [0x26584180#32] = .ok (.cmpge 1 2 3 0, 1)
    ∧ decode [0x26604180#32] = .ok (.cmpltn 1 2 3 0, 1)
    ∧ decode [0x26684180#32] = .ok (.cmpgen 1 2 3 0, 1)
    ∧ decode [0x26704180#32] = .ok (.cmpand 1 2 3 0, 1)
    ∧ decode [0x28404015#32] = .ok (.cmpieq 1 2 ⟨none, 0x15⟩, 1)
    ∧ decode [0x28484015#32] = .ok (.cmpine 1 2 ⟨none, 0x15⟩, 1)
    ∧ decode [0x28504015#32] = .ok (.cmpilt 1 2 ⟨none, 0x15⟩, 1)
    ∧ decode [0x28584015#32] = .ok (.cmpige 1 2 ⟨none, 0x15⟩, 1)
    ∧ decode [0x28604015#32] = .ok (.cmpiltn 1 2 ⟨none, 0x15⟩, 1)
    ∧ decode [0x28684015#32] = .ok (.cmpigen 1 2 ⟨none, 0x15⟩, 1)
    ∧ decode [0x28704015#32] = .ok (.cmpiand 1 2 ⟨none, 0x15⟩, 1)
    ∧ decode [0x30404180#32] = .ok (.fcmpeq 1 2 3 0, 1)
    ∧ decode [0x30484180#32] = .ok (.fcmpne 1 2 3 0, 1)
    ∧ decode [0x30504180#32] = .ok (.fcmplt 1 2 3 0, 1)
    ∧ decode [0x30584180#32] = .ok (.fcmpge 1 2 3 0, 1) :=
  by and_intros <;> rfl

/-- Scalar words from the encoding tables, the fields at sd 1, sa 2, sb 3 (R72 to R74). -/
theorem test_decode_float :
    decode [0x2C0841C0#32] = .ok (.fadd 1 2 3 4, 1)
    ∧ decode [0x2C0841C1#32] = .ok (.fsub 1 2 3 4, 1)
    ∧ decode [0x2C0841C2#32] = .ok (.fmul 1 2 3 4, 1)
    ∧ decode [0x2C0841C3#32] = .ok (.fdiv 1 2 3 4, 1)
    ∧ decode [0x2C084044#32] = .ok (.fsqrt 1 2 0 4, 1)
    ∧ decode [0x2C0841C5#32] = .ok (.fmin 1 2 3 4, 1)
    ∧ decode [0x2C0841C6#32] = .ok (.fmax 1 2 3 4, 1)
    ∧ decode [0x2C084CC7#32] = .ok (.fcvt 1 2 25 4, 1)
    ∧ decode [0x2C084008#32] = .ok (.fclass 1 2 0 0, 1)
    ∧ decode [0x2E0841C0#32] = .ok (.fma 1 2 3 4, 1)
    ∧ decode [0x2E0841C1#32] = .ok (.fms 1 2 3 4, 1)
    ∧ decode [0x2E0841C2#32] = .ok (.fnma 1 2 3 4, 1) :=
  by and_intros <;> rfl

/-- Scalar words from the encoding tables, the fields at sd 1, sa 2, sb 3 (R72 to R74). -/
theorem test_decode_control :
    decode [0x33400015#32] = .ok (.bc 5 0x15, 1)
    ∧ decode [0x33600015#32] = .ok (.bcn 5 0x15, 1)
    ∧ decode [0x34080015#32] = .ok (.j 1 ⟨none, 0x15⟩, 1)
    ∧ decode [0x36084015#32] = .ok (.jr 1 2 0x15, 1)
    ∧ decode [0x38084189#32] = .ok (.amoadd 1 2 3 2 1, 1)
    ∧ decode [0x38084199#32] = .ok (.amofadd 1 2 3 2 1, 1)
    ∧ decode [0x380841A9#32] = .ok (.amomin 1 2 3 2 1, 1)
    ∧ decode [0x380841B9#32] = .ok (.amomax 1 2 3 2 1, 1)
    ∧ decode [0x380841C9#32] = .ok (.amoand 1 2 3 2 1, 1)
    ∧ decode [0x380841D9#32] = .ok (.amoor 1 2 3 2 1, 1)
    ∧ decode [0x380841E9#32] = .ok (.amoxor 1 2 3 2 1, 1)
    ∧ decode [0x380841F9#32] = .ok (.amoswap 1 2 3 2 1, 1)
    ∧ decode [0x3A0841EA#32] = .ok (.cas 1 2 3 3 1 1 0, 1)
    ∧ decode [0x3C000004#32] = .ok (.fenceacq 0 0 0 1 0, 1)
    ∧ decode [0x3C000024#32] = .ok (.fencerel 0 0 0 1 0, 1)
    ∧ decode [0x3C000044#32] = .ok (.fencear 0 0 0 1 0, 1)
    ∧ decode [0x3C000064#32] = .ok (.fencesc 0 0 0 1 0, 1)
    ∧ decode [0x3E080015#32] = .ok (.rdctl 1 0 0x15, 1)
    ∧ decode [0x40004015#32] = .ok (.wrctl 0 2 0x15, 1)
    ∧ decode [0x42000015#32] = .ok (.trap 0 0 0x15, 1)
    ∧ decode [0x44000000#32] = .ok (.eret 0, 1)
    ∧ decode [0x46000000#32] = .ok (.yield 0, 1)
    ∧ decode [0x48000000#32] = .ok (.halt 0, 1)
    ∧ decode [0x4A084180#32] = .ok (.qput 1 2 3 0, 1)
    ∧ decode [0x4C004005#32] = .ok (.ipost 0 2 5, 1)
    ∧ decode [0x4E004005#32] = .ok (.iwait 0 2 5, 1)
    ∧ decode [0x50104015#32] = .ok (.pref 2 2 ⟨none, 0x15⟩, 1) :=
  by and_intros <;> rfl

/-- Field by field: `addi s5, s6, -3` (04, Worked encodings), `vsub.fp32.rne v2, v0, v1` in both parcels, and a prefix. -/
theorem test_bits_addi : decode [0b0000001#7 ++ 0b000101#6 ++ 0b000110#6 ++ 0b1111111111101#13] = .ok (.addi 5 6 ⟨none, 0x1FFD⟩, 1) := rfl

theorem test_bits_vsub :
    decode [0b10#2 ++ 0b0000#4 ++ 0b00000001#8 ++ 0b000010#6 ++ 0b000000#6 ++ 0b000001#6,
        0b000000#6 ++ 0b00000#5 ++ 0b1010#4 ++ 0b000#3 ++ 0b0#1 ++ 0b0#1 ++ 0b0#1 ++ 0b00000000000#11]
      = .ok (.vsub { vd := 2, va := 0, vb := 1, x := 0, m := 0, et := 10, rm := 0, sat := 0, os := 0, mi := 0, aux := 0 }, 2) := rfl

theorem test_bits_prefix :
    decode [0b1101#4 ++ 0x0091A2B#28, 0b0000001#7 ++ 0b000101#6 ++ 0b000110#6 ++ 0x0789#13]
      = .ok (.addi 5 6 ⟨some 0x0091A2B, 0x0789⟩, 2) := rfl

/-- Refused by name: a prefix before an instruction that takes none, an opcode of no instruction, a reserved class. -/
theorem test_decode_refuses :
    decode [0xD0000000#32, 0x0038E300#32] = .error .prefixMisuse ∧ decode [0x52000000#32] = .error .unassigned
    ∧ decode [0xA8000000#32, 0#32] = .error .unassigned ∧ decode [0x80900000#32, 0#32] = .error .unassigned
    ∧ decode [0xD0000000#32] = .error .short := ⟨rfl, rfl, rfl, rfl, rfl⟩

/-! ### Witnesses: scalar instructions -/

/-- s2 names byte 0x100 and s3 holds 7. -/
def ws : State := world (fun h => (h.writeS 2 0x100).writeS 3 7)

theorem witness_IntegerResult :
    (ws.begins (.add 1 2 3) = true ∧ aluResult ws.me (.add 1 2 3) = some (1, 0x107))
    ∧ (ws.begins (.add 0 2 3) = true ∧ aluResult ws.me (.add 0 2 3) = some (0, 0x107))
    ∧ (ws.begins (.cmpeq 1 2 3 0) = true ∧ condResult ws.me (.cmpeq 1 2 3 0) = some (1, false))
    ∧ ws.begins (.cmpeq 0 2 3 0) = true ∧ condResult ws.me (.cmpeq 0 2 3 0) = some (0, false) := by decide

theorem witness_LoadResult :
    ws.begins (.ldw 1 2 ⟨none, 4⟩) = true ∧ loadForm (.ldw 1 2 ⟨none, 4⟩) = some (4, true, 1, 2, ⟨none, 4⟩)
    ∧ ws.lands (ws.loadReq 4) (ws.me.readS 2 + immValue ⟨none, 4⟩) (.dram 0x40104 false) ws
    ∧ ws.answersScalar (.dram 0x40104 false) 4 = some (ws, 0) :=
  ⟨by decide, rfl, landsAt (by decide +kernel) (by decide +kernel) (by decide +kernel), rfl⟩

theorem witness_StoreResult :
    ws.begins (.std 3 2 ⟨none, 0⟩) = true ∧ storeForm (.std 3 2 ⟨none, 0⟩) = some (8, 3, 2, ⟨none, 0⟩)
    ∧ ws.lands (scalarReq .write 8 1) (ws.me.readS 2 + immValue ⟨none, 0⟩) (.dram 0x40100 false) ws :=
  ⟨by decide, rfl, landsAt (by decide +kernel) (by decide +kernel) (by decide +kernel)⟩

/-- 1.0 + 1.0, and a compare; the second state enables the invalid trap, which a signalling NaN raises. -/
def wf1 : State := world (fun h => (h.writeS 2 0x3F800000).writeS 3 0x3F800000)
def wf2 : State := world (fun h => ({ h with vc := { h.vc with fctl := 0x1F0 } } : Hart).writeS 2 0x7F800001)

theorem witness_FloatResult :
    (wf1.begins (.fadd 1 2 3 0) = true ∧ fpResult wf1.me (.fadd 1 2 3 0) = some (1, 0x40000000, 0))
    ∧ (wf1.begins (.fcmpeq 1 2 3 0) = true ∧ fcmpResult wf1.me (.fcmpeq 1 2 3 0) = some (1, true, 0))
    ∧ wf2.begins (.fadd 1 2 3 0) = true
    ∧ (fpResult wf2.me (.fadd 1 2 3 0)).any (fun r => r.2.2 &&& wf2.me.te != 0) = true := by decide

theorem witness_BranchResult :
    (ws.begins (.bc 1 4) = true ∧ jumpResult ws.me (.bc 1 4) = some (none, 4))
    ∧ (ws.begins (.j 1 ⟨none, 4⟩) = true ∧ jumpResult ws.me (.j 1 ⟨none, 4⟩) = some (some (1, 4), 16))
    ∧ ws.begins (.jr 1 2 0) = true ∧ (ws.me.readS 2).toNat % 4 = 0 ∧ (ws.me.readS 3).toNat % 4 ≠ 0 := by decide

/-- The same hart with a transfer in flight. -/
def wx : State := ws.setMe { ws.me with xfers := [xfer0] }

theorem witness_AtomicResult :
    (ws.begins (.amoadd 1 2 3 2 0) = true ∧ amoForm (.amoadd 1 2 3 2 0) = some (0, 1, 2, 3, 2, 0)
      ∧ ws.lands (scalarReq .rmw (amoBytes 0) 2) (ws.me.readS 2) (.dram 0x40100 false) ws ∧ ws.orderReady 2 0
      ∧ (ws.releasedAt 2 0).answersScalar (atomicLoc (.dram 0x40100 false) 0) (amoBytes 0) = some (ws, 0))
    ∧ (wx.begins (.amoadd 1 2 3 2 0) = true ∧ wx.lands (scalarReq .rmw 8 2) (wx.me.readS 2) (.dram 0x40100 false) wx
      ∧ wx.me.xfers = [xfer0])
    ∧ ws.begins (.cas 1 2 3 0 0 0 0) = true ∧ ws.lands (scalarReq .rmw 8 2) (ws.me.readS 2) (.dram 0x40100 false) ws
    ∧ ws.answersScalar (atomicLoc (.dram 0x40100 false) 0) 8 = some (ws, 0) ∧ (ws.me.readS 1).toNat = 0
    ∧ (ws.me.readS 3).toNat ≠ 0 ∧ ws.orderReady 0 0 :=
  ⟨⟨by decide, rfl, landsAt (by decide +kernel) (by decide +kernel) (by decide +kernel), fun _ => ⟨rfl, fun _ => by decide⟩, rfl⟩,
    ⟨by decide, landsAt (by decide +kernel) (by decide +kernel) (by decide +kernel), rfl⟩, by decide,
    landsAt (by decide +kernel) (by decide +kernel) (by decide +kernel), rfl, by decide, by decide, fun _ => ⟨rfl, fun _ => by decide⟩⟩

/-- The same hart with a remote request that has no result. -/
def sent0 : Sent := { instr := 3, id := 0, addr := 0, who := (0, 0), flit := 0, tries := 1, code := 0 }
def wr : State := ws.setCtx 0 { ws.ctx 0 with chans := [(0, { Chan.reset with node := 5, sent := [sent0] })] }

theorem witness_FenceResult :
    ws.begins (.fencerel 0 0 0 5 0) = true ∧ fenceForm (.fencerel 0 0 0 5 0) = some (false, true, 5) ∧ ws.remoteIdle = true
    ∧ ws.transfersEnd ∧ (ws.endTransfers ws.cur).canRelease 5 ∧ wr.begins (.fencerel 0 0 0 5 0) = true ∧ wr.remotePending = true :=
  ⟨by decide, rfl, by decide, rfl, fun _ => by decide, by decide, by decide⟩

theorem witness_HintResult :
    ws.begins (.pref 0 2 ⟨none, 0⟩) = true ∧ ws.begins (.pref 2 3 ⟨none, 0⟩) = true
    ∧ (world (fun h => { h with vl := 2 })).begins (.vpref { vm0 with va := 2, et := 10, vd := 0 }) = true := by decide

theorem witness_ControlRead :
    ws.begins (.rdctl 1 0 0x30) = true ∧ ws.begins (.wrctl 0 2 0x30) = true
    ∧ (ws.ctlWritten 0x30 (ws.me.readS 2)).isSome = true := by decide

/-- In privileged mode the power cap may be named; 7 watts is refused. -/
def wp : State := world (fun h => ({ h with priv := true } : Hart).writeS 2 7)
theorem witness_ControlWrite_refused :
    wp.begins (.wrctl 0 2 0x101) = true ∧ (wp.ctlWritten 0x101 (wp.me.readS 2)).isNone = true := by decide

theorem witness_TrapResult :
    ws.begins (.trap 0 0 5) = true ∧ ws.me.priv = false ∧ ws.handlerFault ws.coreNo ws.me.ctx (ws.ctx ws.me.ctx).tvec.toNat = none
    ∧ wp.begins (.trap 0 0 5) = true ∧ wp.me.priv = true := by decide

theorem witness_ConditionsTrap :
    (Instr.eret 0).refuse ws.legalEnv = some .privilege ∧ (Instr.cmpeq 1 2 3 5).refuse ws.legalEnv = some .unused
    ∧ (ws.fieldsPass (.xstat { en0 with va := 2 }) ∧ ws.issueFault (.xstat { en0 with va := 2 }) = some (cIllegal, 0x200))
    ∧ (ws.fieldsPass (.vld { vm0 with va := 2, et := 10, fmt := 1 })
      ∧ (ws.setMe { ws.me with vc := { ws.me.vc with mfc := Vector.replicate 4 11 } }).issueFault
          (.vld { vm0 with va := 2, et := 10, fmt := 1 }) = some (cIllegal, 0x800)) := by
  unfold State.fieldsPass; decide +kernel

theorem witness_ReturnResult : wp.begins (.eret 0) = true := by decide

theorem witness_YieldResult :
    ws.begins (.yield 0) = true ∧ wp.begins (.yield 0) = true
    ∧ (world (fun h => { h with priv := true, pre := .saving 0 })).begins (.yield 0) = true := by decide

theorem witness_HaltResult :
    ws.begins (.halt 0) = true ∧ ws.remoteIdle = true ∧ ws.transfersEnd ∧ ws.copying = []
    ∧ wr.begins (.halt 0) = true ∧ wr.remotePending = true := ⟨by decide, by decide, rfl, rfl, by decide, by decide⟩

/-- A queue of the hart's context that programs feed, and a record of zeros. -/
def wq : State := { ws with queues := [(7, { Queue.reset with state := 1, owner := 0, ring := 0x1000, size := 16 })] }

theorem witness_QueuePut :
    (ws.begins (.qput 1 3 2 0) = true ∧ isSpad (ws.me.readS 2) = false
      ∧ ws.lands (scalarReq .read 128 0) (ws.me.readS 2) (.dram 0x40100 false) ws
      ∧ ws.answersAt (.dram 0x40100 false) 8 ((List.range 16).map (8 * ·)) = some (ws, List.replicate 16 0)
      ∧ ws.appendStatus 0 7 { words := List.replicate 16 0 } = 2)
    ∧ wq.begins (.qput 1 3 2 0) = true ∧ isSpad (wq.me.readS 2) = false
    ∧ wq.lands (scalarReq .read 128 0) (wq.me.readS 2) (.dram 0x40100 false) wq
    ∧ wq.answersAt (.dram 0x40100 false) 8 ((List.range 16).map (8 * ·)) = some (wq, List.replicate 16 0)
    ∧ wq.appendStatus 0 7 { words := List.replicate 16 0 } = 0 ∧ wq.me.xfers = []
    ∧ wq.copying = [] ∧ ∃ u, (wq.writeBack wq.coreNo).append wq.me.ctx 7 { words := List.replicate 16 0 } = .ok u :=
  ⟨⟨by decide, rfl, landsAt (by decide +kernel) (by decide +kernel) (by decide +kernel), rfl, rfl⟩, by decide, rfl,
    landsAt (by decide +kernel) (by decide +kernel) (by decide +kernel), rfl, rfl, rfl, rfl, okOf (by decide +kernel)⟩

theorem witness_HalleyRing :
    ws.begins (.ipost 0 2 5) = true ∧ ws.me.xfers = [] ∧ ws.canRelease 4 ∧ wx.begins (.ipost 0 2 5) = true ∧ ws.begins (.iwait 0 2 5) = true
    ∧ ({ ws with posts := [(1, 5, 7), (2, 5, 7)] } : State).posts = [(1, 5, 7)] ++ (2, 5, 7) :: []
    ∧ [(1, 5, (7 : BitVec 32))].all (fun p => p.1 != 2) = true := ⟨by decide, rfl, fun _ => by decide, by decide, by decide, rfl, by decide⟩

/-! ### Witnesses: vector instructions -/

/-- Two elements of fp32 (VGRP.ET 10), s2 at byte 0x100, s3 = 1. -/
def wv (f : Hart → Hart) : State := world (fun h => f ((({ h with vl := 2, et := 10 } : Hart).writeS 2 0x100).writeS 3 1))
def wv0 : State := wv id

theorem witness_VectorElements :
    ∃ op, wv0.begins (.vadd { va0 with vd := 1, va := 2, vb := 3, et := 10 }) = true
      ∧ elementOp wv0.me (.vadd { va0 with vd := 1, va := 2, vb := 3, et := 10 }) = some op
      ∧ wv0.me.vl.toNat ≤ op.fits ∧ wv0.me.spent = false
      ∧ ∀ fl ∈ (wv0.me.span.filter op.act).map (flagsAt (wv0.me.span.filter op.act) op.extra op.flags), fl &&& wv0.me.te = 0 :=
  ⟨_, by decide, rfl, by decide, by decide, by decide +kernel⟩

/-- VL is 300, past VLMAX of a 64-bit type on these lanes (192), so that elements lie past v63; and VSTART at VL. -/
theorem witness_VectorCompletes :
    ∃ op, (wv (fun h => { h with vl := 300, et := 0 })).begins (.vid { va0 with vd := 63, et := 3 }) = true
      ∧ elementOp (wv (fun h => { h with vl := 300, et := 0 })).me (.vid { va0 with vd := 63, et := 3 }) = some op
      ∧ (wv (fun h => { h with vl := 300, et := 0 })).me.spent = false ∧ wv0.me.te = 0
      ∧ (wv (fun h => h.setVstart 2)).begins (.mand { va0 with vd := 1 }) = true
      ∧ (maskOpOf (wv (fun h => h.setVstart 2)).me (.mand { va0 with vd := 1 })).isSome = true
      ∧ (wv (fun h => h.setVstart 2)).me.spent = true :=
  ⟨_, by decide, rfl, by decide, by decide, by decide, by decide, by decide⟩

/-- Element 1 is a signalling NaN and the invalid trap is enabled. -/
def wvt : State := wv (fun h => ({ h with vc := { h.vc with fctl := 0x1F0 } } : Hart).setEl 2 4 1 0x7F800001)

theorem witness_VectorTrap :
    ∃ op, wvt.begins (.vadd { va0 with vd := 1, va := 2, vb := 3, et := 10 }) = true
      ∧ elementOp wvt.me (.vadd { va0 with vd := 1, va := 2, vb := 3, et := 10 }) = some op
      ∧ wvt.me.vl.toNat ≤ op.fits ∧ wvt.me.spent = false ∧ wvt.me.span.filter op.act = [0] ++ 1 :: []
      ∧ (∀ j ∈ [0], flagsAt [0, 1] op.extra op.flags j &&& wvt.me.te = 0)
      ∧ flagsAt [0, 1] op.extra op.flags 1 &&& wvt.me.te ≠ 0 :=
  ⟨_, by decide, rfl, by decide, by decide, by decide, by decide +kernel, by decide +kernel⟩

theorem witness_MaskBits :
    ∃ op, wv0.begins (.vcmp { va0 with vd := 1, va := 2, vb := 3, et := 10 }) = true
      ∧ maskOpOf wv0.me (.vcmp { va0 with vd := 1, va := 2, vb := 3, et := 10 }) = some op ∧ wv0.me.spent = false
      ∧ wv0.me.vl.toNat ≤ 196608
      ∧ ∀ fl ∈ (wv0.me.span.filter op.act).map (flagsAt (wv0.me.span.filter op.act) op.extra op.flags), fl &&& wv0.me.te = 0 :=
  ⟨_, by decide, rfl, by decide, by decide, by decide +kernel⟩

theorem witness_ScalarTransfer :
    wv0.begins (.mpop { va0 with vd := 1 }) = true ∧ extracted wv0.me (.mpop { va0 with vd := 1 }) = some (1, 2, true)
    ∧ wv0.begins (.vins { va0 with vd := 1, va := 2, vb := 3, et := 10 }) = true ∧ wv0.me.spent = false
    ∧ (wv0.me.readS 3).toNat < wv0.me.vl.toNat := by decide

theorem witness_ReductionResult :
    wv0.begins (.vredsumo { va0 with vd := 1, va := 2, vb := 3, et := 10 }) = true
    ∧ (reduction wv0.me (.vredsumo { va0 with vd := 1, va := 2, vb := 3, et := 10 })).isSome = true
    ∧ wv0.begins (.vredsum { va0 with vd := 1, va := 2, vb := 3, et := 10 }) = true ∧ wv0.me.spent = false
    ∧ (etFmt 10).isInt = false ∧ reduced wv0.me { va0 with vd := 1, va := 2, vb := 3, et := 10 } ≠ [] := by decide

/-! ### Witnesses: vector memory -/

def wvm : VmF := { vm0 with vd := 1, va := 2, et := 10 }

/-- The same hart with one element. -/
def wv1 : State := wv (fun h => { h with vl := 1 })

theorem witness_VectorLoad :
    ∃ v t, wv1.begins (.vld wvm) = true ∧ vectorLoad (.vld wvm) = some (wvm, .unit, false) ∧ wv1.me.spent = false
      ∧ (((wv1.me.vm wvm .unit false).acquires wvm.scope.toNat wv1.acquireAhead).resolve).run wv1 = .ok v wv1
      ∧ (devicePass v .read wvm.scope.toNat (wv1.me.span.filter (v.uses wv1.me)) (wv1.me.span.filter (v.uses wv1.me))).run wv1 = .ok () wv1
      ∧ Chain (ElementLoads false (wv1.me.span.find? (wv1.me.activeBit v.m 0)) v wvm.ord.toNat wvm.scope.toNat) wv1.me.span
          (wv1.setMe (wv1.me.dirty v.vd wv1.me.grp)) t :=
  ⟨_, _, by decide, rfl, by decide, rfl, ranTo (by decide +kernel) rfl (by decide +kernel), _,
    ⟨by decide, _, _, _, _, rfl, rfl, by decide, rfl⟩, rfl⟩

/-- Element 1 of a fault-only-first load lies past the mapped page. -/
def wtrim : State := wv (fun h => h.writeS 2 0xFFFC)

theorem witness_LoadTrims :
    ∃ v sl u w x info a, wtrim.begins (.vldff wvm) = true ∧ vectorLoad (.vldff wvm) = some (wvm, .unit, true)
      ∧ wtrim.me.spent = false ∧ (((wtrim.me.vm wvm .unit false).acquires wvm.scope.toNat wtrim.acquireAhead).resolve).run wtrim = .ok v wtrim
      ∧ wtrim.me.span = [0] ++ 1 :: [] ∧ wtrim.me.span.find? (wtrim.me.activeBit v.m 0) ≠ some 1
      ∧ (devicePass v .read wvm.scope.toNat [0, 1] [0]).run wtrim = .ok () wtrim
      ∧ Chain (ElementLoads true (wtrim.me.span.find? (wtrim.me.activeBit v.m 0)) v wvm.ord.toNat wvm.scope.toNat) [0]
          (wtrim.setMe (wtrim.me.dirty v.vd wtrim.me.grp)) u
      ∧ u.me.activeBit v.m 0 1 = true ∧ v.slot u.me 1 = some sl
      ∧ (u.firstDevice (v.touches u.me .read 1)).isSome = false
      ∧ (loadEl v sl 1).run u = .error (.trap cPageFault info a) w
      ∧ (if cPageFault = cPageFault then trimPost (u.absentByte ((v.touches u.me .read 1).map (fun x => x.2)) a) else pure ()).run w = .ok () x :=
  ⟨_, _, _, _, _, _, _, by decide, rfl, by decide, rfl, by decide, by decide,
    ranTo (by decide +kernel) rfl (by decide +kernel), ⟨_, ⟨by decide, _, _, _, _, rfl, rfl, by decide, rfl⟩, rfl⟩, by decide, rfl,
    by decide, rfl, rfl⟩

/-- An element stored, its writes worked out. -/
theorem elementStored {v : Vm} {ord scope i : Nat} {s r u w x : State} {done : List (Loc × Nat × Nat)} {sl : Slot} {ls : List Loc}
    {xs : List Nat} {fl : Flags} {ws : List Put} (h : v.slot s.me i = some sl)
    (ha : (locateAll (v.accs s.me .write scope i)).run s = .ok ls r)
    (hv : ((List.range v.nk).foldlM (fun (acc : List Nat × Flags) k => do
        let (x, g) ← storeVal v sl i k
        return (acc.1 ++ [x], acc.2 ||| g)) ([], 0)).run r = .ok (xs, fl) u)
    (hf : fl &&& u.me.te = 0) (hl : (storeLocs v sl scope i xs).run u = .ok ws w)
    (hw : (putAll (vecInfo i 1) (v.addr s.me i) ws).run w = .ok () x)
    (hd : ord = 1 → 3 ≤ scope → (x.cure (ws.flatMap Put.covers ++ done)).dirtyHeld (x.cure (ws.flatMap Put.covers ++ done)).coreNo = false) :
    ∃ q, ElementStores v ord scope i (s, done) q :=
  let z := x.cure (ws.flatMap Put.covers ++ done)
  let y := if ord = 1 then z.releasedBy scope else z
  ⟨(y.setMe { y.me with fflags := y.me.fflags ||| fl }, ws.flatMap Put.covers ++ done), sl, ls, r, xs, fl, u, ws, w, x,
    h, ha, hv, hf, hl, hw, rfl, hd, rfl⟩

theorem witness_VectorStore :
    ∃ v, wv1.begins (.vst wvm) = true ∧ vectorStore (.vst wvm) = some (wvm, .unit) ∧ wv1.me.spent = false
      ∧ ((wv1.me.vm wvm .unit false).resolve).run wv1 = .ok v wv1
      ∧ (devicePass v .write wvm.scope.toNat (wv1.me.span.filter (v.uses wv1.me)) (wv1.me.span.filter (v.uses wv1.me))).run wv1 = .ok () wv1
      ∧ (wvm.scope ≠ 0 → wv1.me.xfers = []) ∧ wv1.canRelease wvm.scope.toNat ∧ wv1.me.span.filter (v.uses wv1.me) = [0]
      ∧ ∃ q, ElementStores v wvm.ord.toNat wvm.scope.toNat 0 (wv1.releasedBy wvm.scope.toNat, []) q :=
  ⟨_, by decide, rfl, by decide, rfl, ranTo (by decide +kernel) rfl (by decide +kernel), fun _ => rfl, fun _ => by decide, by decide,
    elementStored rfl (ran [] _ (by decide +kernel)) rfl (by decide) (ran [] _ (by decide +kernel)) (ranUnit (by decide +kernel)) (by decide)⟩

theorem witness_ContiguousLoad :
    wv0.begins (.vld wvm) = true ∧ wv0.me.spent = false ∧ wv0.me.mxm = false ∧ wv0.me.vl.toNat ≤ wv0.me.vlmax 4
    ∧ wv0.me.span.filter (wv0.me.activeBit wvm.m 0) = [0, 1]
    ∧ (locate { need := .read, n := 4, align := 4, bypass := wvm.pol == 3 || wvm.scope == 5 || wv0.acquireAhead, info := vecInfo 0 0, vec := true
                walks := false } (wvm.space == 1)
        (wv0.me.readS wvm.va + BitVec.ofNat 64 (0 * 4))).run wv0 = .ok (.dram 0x40100 false) wv0
    ∧ (locate { need := .read, n := 4, align := 4, bypass := wvm.pol == 3 || wvm.scope == 5 || wv0.acquireAhead, info := vecInfo 1 0, vec := true
                walks := false } (wvm.space == 1)
        (wv0.me.readS wvm.va + BitVec.ofNat 64 (1 * 4))).run wv0 = .ok (.dram 0x40104 false) wv0
    ∧ wv0.devClass .read 0x100 = false ∧ wv0.devClass .read 0x104 = false
    ∧ wv0.locPoisoned (.dram 0x40100 false) 4 = false ∧ wv0.locPoisoned (.dram 0x40104 false) 4 = false :=
  ⟨by decide, by decide, by decide, by decide, by decide, ranTo (by decide +kernel) (by decide +kernel) (by decide +kernel),
    ranTo (by decide +kernel) (by decide +kernel) (by decide +kernel), by decide, by decide, by decide, by decide⟩

theorem witness_ElementStore :
    wv1.begins (.vst wvm) = true ∧ wv1.me.spent = false ∧ wv1.me.mxm = false
    ∧ wv1.canRelease 0 ∧ wv1.me.span.filter ((wv1.me.vm wvm .unit false).uses wv1.me) = [0]
    ∧ ((wv1.me.vm wvm .unit false).part wv1.me (.el (.n 32)) 0 0).ea = 0x100 ∧ wv1.devClass .write 0x100 = false
    ∧ (locate { need := .write, n := 4, align := 4, bypass := wvm.pol == 3, info := vecInfo 0 1, vec := true, walks := false }
        (wvm.space == 1) 0x100).run wv1 = .ok (.dram 0x40100 false) wv1 :=
  ⟨by decide, by decide, by decide, fun _ => by decide, by decide, rfl, by decide, ranTo (by decide +kernel) (by decide +kernel) (by decide +kernel)⟩

/-- A map at address 0: one block of 16 positions, one row of 32 numbers; its entry at 0x40 names the row at 0x80, tag 1. -/
def mapBytes : List Byte :=
  bytesOf 8 0x40 ++ bytesOf 8 1 ++ bytesOf 8 (1 + 4 * 2 ^ 24 + 32 * 2 ^ 32) ++ bytesOf 8 0 ++ List.replicate 32 0 ++ bytesOf 8 0x83
def wmap : State := worldAt mapBytes (fun h => { h with vl := 1, et := 10 })
def ftrans : VmF := { vm0 with vd := 1, va := 0, vb := 2, x := 3, m := 1, et := 7 }
def wmap0 : State := wmap.setMe ((wmap.me.dirty ftrans.vd.toNat wmap.me.grp).dirty ftrans.x.toNat wmap.me.grp)
def map0 : KvMap := { entries := 0x40, len := 1, w := 1, s := 0, bsh := 4, d := 32 }
def mapHead : EStateM.Result Stop State Unit := (deviceReads [] (headerReads 0 (wmap.me.readS ftrans.va)) (headerReads 0 (wmap.me.readS ftrans.va)) false 0).run wmap0
def mapRead : EStateM.Result Stop State (List Nat) :=
  (readWords { vecReq .read 0 0 with bypass := ftrans.scope == 5 } false (wmap.me.readS ftrans.va) 4).run (endOf mapHead)
def mapReads : List (Nat × BitVec 64) :=
  wmap.me.span.filterMap (fun i => (map0.entryAt (wmap.me.position ftrans.vb.toNat i)).map (fun ea => (i, ea)))
def mapPass : EStateM.Result Stop State Unit := (deviceReads ((headerReads 0 (wmap.me.readS ftrans.va)).map (fun x => x.2)) mapReads mapReads (wmap0.readsDevice (headerReads 0 (wmap.me.readS ftrans.va))) 0).run (endOf mapRead)
def entryRead : EStateM.Result Stop State Nat :=
  (readMem (vecReq .read 0 0) false (transAsk (endOf mapPass).me ftrans map0 0).2.2).run (endOf mapPass)

theorem witness_TranslateResult :
    ∃ t, wmap.begins (.vtrans ftrans) = true ∧ wmap.me.spent = false
      ∧ (wmap.me.readS ftrans.va).getLsbD 63 = false ∧ (wmap.me.readS ftrans.va).toNat % 8 = 0
      ∧ mapHead = .ok () (endOf mapHead) ∧ mapRead = .ok (valOf [] mapRead) (endOf mapRead)
      ∧ KvMap.ofWords (valOf [] mapRead) = some map0 ∧ mapPass = .ok () (endOf mapPass) ∧ wmap.me.span = [0]
      ∧ Chain (ElementTranslates ftrans map0 false 0) [0] (endOf mapPass) t :=
  ⟨_, by decide, by decide, by decide, by decide, ranUnit (by decide +kernel), ran _ _ (by decide +kernel),
    by decide +kernel, ranUnit (by decide +kernel), by decide, _,
    by
      refine ⟨valOf 0 entryRead, endOf entryRead, ?_, fun h => absurd h (by decide), rfl⟩
      rw [if_neg (by decide +kernel)]
      exact ran 0 entryRead (by decide +kernel), rfl⟩

/-- Two elements at one address: their indices in v2 are 0, the base is s2. -/
def fseg : VmF := { vm0 with vd := 1, va := 2, vb := 2, et := 2 }
def segTargets : List (Nat × Nat × BitVec 64 × Loc) :=
  [(0, 0, 0x100, .dram 0x40100 false), (1, 0, 0x100, .dram 0x40100 false)]

theorem witness_SegmentAdd :
    ∃ t, wv0.begins (.vsegadd fseg) = true ∧ wv0.me.spent = false
      ∧ wv0.walkedPages .rmw true ((updatePairs wv0.me (wv0.me.vm fseg .indexed true)).map (fun x =>
          ((wv0.me.vm fseg .indexed true).part wv0.me (.el (etFmt 2)) x.1 x.2).ea)) = wv0
      ∧ updateTargets wv0 (wv0.me.vm fseg .indexed true) fseg.scope.toNat segTargets ∧ wv0.canRelease fseg.scope.toNat
      ∧ (locate (updateReq 4 false 0) false 0x100).run wv0 = .ok (.dram 0x40100 false) wv0
      ∧ (locate (updateReq 4 false 1) false 0x100).run wv0 = .ok (.dram 0x40100 false) wv0
      ∧ wv0.devClass .rmw 0x100 = false ∧ segAddresses segTargets = [(0x100, 0x100, .dram 0x40100 false, 0)]
      ∧ Chain (SegmentAdds fseg (wv0.me.vm fseg .indexed true) { rm := wv0.me.frm, sat := false, fz := wv0.me.fz } segTargets)
          [(0x100, 0x100, .dram 0x40100 false, 0)] (wv0.releasedBy fseg.scope.toNat) t :=
  ⟨_, by decide, by decide, by decide +kernel, ⟨by decide, by decide +kernel⟩, fun _ => by decide,
    ranTo (by decide +kernel) (by decide +kernel) (by decide +kernel), ranTo (by decide +kernel) (by decide +kernel) (by decide +kernel), by decide, by decide, _,
    ⟨_, _, ran 0 _ (by decide +kernel), rfl⟩, rfl⟩

def famo : AtF := { at0 with vd := 1, va := 2, vb := 2, et := 2 }

theorem witness_VectorAtomic :
    ∃ t, wv1.begins (.vamo famo) = true ∧ wv1.me.spent = false
      ∧ updateTargets wv1 (vamoVm wv1.me famo) famo.scope.toNat [(0, 0, 0x100, .dram 0x40100 false)]
      ∧ wv1.devClass .rmw 0x100 = false
      ∧ (locate (updateReq 4 false 0) (isSpad 0x100) 0x100).run wv1 = .ok (.dram 0x40100 false) wv1
      ∧ Chain (ElementUpdates famo (vamoVm wv1.me famo)) [(0, 0, 0x100, .dram 0x40100 false)]
          (wv1.setMe (wv1.me.dirty famo.vd.toNat wv1.me.grp)) t :=
  ⟨_, by decide, by decide, ⟨by decide, by decide +kernel⟩, by decide,
    ranTo (by decide +kernel) (by decide +kernel) (by decide +kernel), _, ⟨_, _, ran 0 _ (by decide +kernel), rfl⟩, rfl⟩

/-! ### Witnesses: lengths, frames and images -/

/-- A hart whose lane group is held, and one whose grant falls from two groups to one. -/
def wl : State := wv0.setCore 0 { wv0.core 0 with laneMap := setLg 0 0 1 }

theorem witness_SetLength :
    wv0.begins (.vsetl { sv0 with vd := 1, va := 2, et := 10 }) = true ∧ wl.begins (.vsetl { sv0 with vd := 1, va := 2, et := 10 }) = true
    ∧ groupMask ((wl.core 0).held 0) = wl.me.gmap := by decide

/-- A privileged hart that holds a frame of one instruction. -/
def entry0 : VEntry := Hart.reset.entry false [.vid va0]
def wfr : State := world (fun h => ({ h with priv := true, frame := some [entry0] } : Hart).writeS 2 0x1000)
def wfn : State := world (fun h => ({ h with priv := true } : Hart).writeS 2 0x1000)

theorem witness_FrameTransfer :
    (wfn.begins (.vfsave { sv0 with vd := 1, va := 2 }) = true ∧ wfn.me.frame = none
      ∧ (wfn.me.readS 2).extractLsb' 55 8 = 0 ∧ (wfn.me.readS 2).toNat % 64 = 0)
    ∧ wfr.begins (.vfsave { sv0 with vd := 1, va := 2 }) = true ∧ wfr.me.frame = some [entry0]
    ∧ ends ((areaPlace .write 1 (wfr.me.readS 2) (256 * 1 / 64)).run wfr) = true := by decide +kernel

/-- An image of 256 bytes at address 0 that VFSAVE is known to have written. -/
def frameWords : List Nat := 256 :: List.replicate 31 0
def wfs : State :=
  { worldAt (bytesOf 8 256) (fun h => { h with priv := true }) with
    frames := [{ ctx := 0, words := frameWords, entries := [entry0] }] }
theorem witness_FrameTransfer_restored :
    wfs.begins (.vfrest { sv0 with va := 0 }) = true ∧ ends ((areaPlace .read 0 (wfs.me.readS 0) 1).run wfs) = true
    ∧ valOf [] ((areaGet ((valOf [] ((areaPlace .read 0 (wfs.me.readS 0) 1).run wfs)).take 1)).run wfs) = [256]
    ∧ ends ((areaPlace .read 0 (wfs.me.readS 0) 4).run wfs) = true
    ∧ valOf [] ((areaGet (valOf [] ((areaPlace .read 0 (wfs.me.readS 0) 4).run wfs))).run wfs) = frameWords := by decide +kernel

/-- An image header at address 0 for four lanes that names no register: VSAVE at 0x1000 of v1, and VREST from 0. -/
def wim : State :=
  worldAt (List.replicate 16 0 ++ bytesOf 8 4) (fun h => (h.writeS 2 0x1000).writeS 3 2)
theorem witness_ImageTransfer :
    wim.begins (.vsave { sv0 with va := 2, vb := 3, x := 0 }) = true
    ∧ ends ((areaPlace .write 1 (wim.me.readS 2) (1 + 6 * wim.me.lanes * (1 + 0))).run wim) = true
    ∧ bitList 64 (wim.me.readS 3).toNat = [1] ∧ wim.me.ecc = []
    ∧ wim.begins (.vrest { sv0 with va := 0 }) = true
    ∧ valOf [] ((areaGet (valOf [] ((areaPlace .read 0 (wim.me.readS 0) 1).run wim))).run wim) = [0, 0, 4, 0, 0, 0, 0, 0]
    ∧ wim.me.lanes = 4 := by decide +kernel

/-! ### Witnesses: matrix engine and ladders -/

/-- Two columns in matrix mode; s2 names byte 0x100. -/
def wm : State := world (fun h => ({ h with mxm := true, vl := 2 } : Hart).writeS 2 0x100)

theorem witness_MatrixMode :
    ws.begins (.mxenter mx0) = true ∧ wm.begins (.mxleave mx0) = true ∧ wm.begins (.mxsetc { mx0 with vd := 1, va := 2 }) = true := by
  decide

def fmac : MxF := { mx0 with vd := 1, va := 2, vb := 3 }
theorem witness_MatrixProduct :
    wm.begins (.mxmac fmac) = true ∧ mxSpan fmac wm.me = [0] ∧ mxCols fmac wm.me = [0, 1]
    ∧ ∀ fl ∈ [0].map (macFlags wm.me fmac), fl &&& wm.me.te = 0 := by decide +kernel

theorem witness_MatrixRows :
    wm.begins (.mxzero { mx0 with vd := 7 }) = true
    ∧ (wm.begins (.mxscaler { mx0 with vd := 1, va := 2, vb := 3 }) = true
      ∧ mxSpan { mx0 with vd := 1, va := 2, vb := 3 } wm.me = [0]
      ∧ ∀ fl ∈ [0].map (fun i => ([0, 1].map (factored wm.me { mx0 with vd := 1, va := 2, vb := 3 } i)).foldl
          (fun g p => g ||| p.2) 0), fl &&& wm.me.te = 0)
    ∧ (wm.begins (.mxrowadd { mx0 with vd := 1, va := 3, vb := 0 }) = true
      ∧ mxColSpan { mx0 with vd := 1, va := 3, vb := 0 } wm.me = [0, 1]
      ∧ ([0, 1].map (addedWord wm.me { mx0 with vd := 1, va := 3, vb := 0 })).foldl (fun g p => g ||| p.2) 0 &&& wm.me.te = 0)
    ∧ wm.begins (.mxrow { mx0 with vd := 1, va := 3, vb := 0 }) = true ∧ wm.me.vl.toNat ≤ 6 * wm.me.lanes
    ∧ (wm.setMe (wm.me.writeS 4 64)).begins (.mxrow { mx0 with vd := 1, va := 3, vb := 4 }) = true := by decide +kernel

/-- VSTART past the one row of an MXSTKV that stores row 0 of tile 1. -/
def fkv : MxF := { mx0 with vd := 1, va := 4, vb := 8, x := 0, g := 2 }
def wmv : State := (world (fun h => { h with mxm := true, vl := 32 })).setMe
  (({ (world id).me with mxm := true, vl := 32 } : Hart).setVstart 1)

def fld : MxF := { mx0 with vd := 1, va := 2, vb := 0 }
theorem witness_MatrixMemory :
    (∃ t, wm.begins (.mxld fld) = true ∧ mxSpan fld wm.me = [0]
      ∧ (devicePassAt 0 [] (tileAccesses fld wm.me .read 4) false).run wm = .ok () wm
      ∧ Chain (RowLoads fld) [0] wm t)
    ∧ (∃ t, wm.begins (.mxst fld) = true
      ∧ (devicePassAt 1 [] (tileAccesses fld wm.me .write (mxType fld.et).1.bytes) false).run wm = .ok () wm
      ∧ Chain (RowStores fld) [0] wm t)
    ∧ wmv.begins (.mxstkv fkv) = true ∧ mxSpan fkv wmv.me = [] :=
  ⟨⟨_, by decide, by decide, ranTo (by decide +kernel) rfl (by decide +kernel), _, ⟨_, _, _, _, ran [] _ (by decide +kernel), ran [] _ (by decide +kernel), rfl⟩,
      rfl⟩,
    ⟨_, by decide, ranTo (by decide +kernel) rfl (by decide +kernel), _, ⟨_, _, _, ran [] _ (by decide +kernel), by decide +kernel, ranUnit (by decide +kernel), rfl⟩,
      rfl⟩, by decide, by decide⟩

/-- A ladder of vectors of four words in ladder 0: two steps counted, three rungs, addition, slots of 256 bytes. -/
def ladBytes : List Byte :=
  bytesOf 8 2 ++ bytesOf 8 4 ++ [2, 0, 1, 0] ++ bytesOf 4 256
def wlad : State := (wv0.poke (.spad 0 4096) ladBytes).setMe (wv0.me.writeS 2 4)
def lad0 : Lad := { core := 0, off := 4096, abs := 4096, num := 0, n := 2, shape := 4, top := 2, op := 0, init := true, z := 256 }

theorem witness_LadderInit :
    wlad.begins (.linit { la0 with va := 2, rung := 15 }) = true ∧ wlad.lad wlad.cur 0 = some lad0
    ∧ shapeOk (wlad.me.readS 2).toNat = true
    ∧ 256 + (15 + 1) * slotSize (wlad.me.readS 2).toNat ≤ Config.ladderRegion := by decide

theorem witness_LadderStep :
    wlad.begins (.lstep { la0 with vb := 4, et := 10 }) = true ∧ wlad.lad wlad.cur 0 = some lad0 ∧ lad0.init = true
    ∧ shapeTile lad0.shape = !LaF.isVec { la0 with vb := 4, et := 10 } ∧ lad0.n ≠ 2 ^ 48 - 1 := by decide

theorem witness_LadderReads :
    wlad.begins (.lrung { la0 with vd := 4, vb := 5, x := 6, rung := 1, et := 10 }) = true
    ∧ rungSpan lad0.n lad0.top 1 = some (0, 2) ∧ (wlad.runMerges wlad.cur (fun l => l == 0)).rungPoison lad0 1 = false
    ∧ wlad.begins (.lrung { la0 with vd := 4, vb := 5, x := 6, rung := 2, et := 10 }) = true ∧ rungSpan lad0.n lad0.top 2 = none
    ∧ wlad.begins (.lblend { la0 with vd := 4, vb := 5, et := 10 }) = true
    ∧ (∀ l ∈ [0, 1, 2], (wlad.runMerges wlad.cur (fun l => l == 0)).rungPoison lad0 l = false)
    ∧ wlad.begins (.lcount { la0 with vd := 5 }) = true ∧ wlad.begins (.lsync la0) = true ∧ wlad.begins (.lreset la0) = true := by
  decide +kernel

/-! ### Witnesses: fences and barriers -/

theorem witness_GangBarrier :
    ws.begins (.vfence { sy0 with scope := 3 }) = true ∧ ws.begins (.gbar { sy0 with scope := 2 }) = true
    ∧ ws.gang ws.me.gang = some gang0 ∧ ws.me.gbar = none ∧ ws.me.index < 8
    ∧ (world (fun h => { h with gbar := some 0 })).begins (.gbar { sy0 with scope := 2 }) = true
    ∧ ws.transfersEnd ∧ (ws.endTransfers ws.cur).canRelease 3 ∧ (ws.endTransfers ws.cur).canRelease 2 :=
  ⟨by decide, by decide, by decide, by decide, by decide, by decide, rfl, fun _ => by decide, fun _ => by decide⟩

/-- s2 names a place for a barrier object at 0x100, s3 a count of 7; and the same object armed. -/
def fbar : SyF := { sy0 with va := 2, vb := 3 }
def warm : State := ((ws.poke (.dram 0x40100 true) (bytesOf 16 (7 + 2 ^ 96))).setArmed (.dram 0x40100 true) true)

theorem witness_BarrierArming :
    ws.begins (.barinit fbar) = true
    ∧ (place barReq (isSpad (ws.me.readS 2)) (ws.me.readS 2)).run ws = .ok (.dram 0x40100 true) ws
    ∧ 1 ≤ (ws.me.readS 3).toNat ∧ (ws.me.readS 3).toNat < 2 ^ 32 ∧ ws.onStream (.dram 0x40100 true) = false
    ∧ ws.armedFull (.dram 0x40100 true) = false ∧ warm.isArmed (.dram 0x40100 true) = true
    ∧ warm.begins (.barkill { sy0 with va := 2 }) = true ∧ ws.canRelease 5 ∧ warm.canRelease 5 :=
  ⟨by decide, ranTo (by decide) (by decide) (by decide +kernel), by decide, by decide, by decide, by decide, by decide, by decide, fun _ => by decide,
    fun _ => by decide⟩

theorem witness_BarrierUse :
    warm.begins (.bararr { sy0 with vd := 5, va := 2, scope := 2, aux := 7 }) = true
    ∧ (place barReq (isSpad (warm.me.readS 2)) (warm.me.readS 2)).run warm = .ok (.dram 0x40100 true) warm
    ∧ warm.transfersEnd ∧ (warm.endTransfers warm.cur).canRelease 2
    ∧ ((warm.endTransfers warm.cur).releasedBy 2).isArmed (.dram 0x40100 true) = true
    ∧ ((warm.endTransfers warm.cur).releasedBy 2).locPoisoned (.dram 0x40100 true) 16 = false
    ∧ ((warm.endTransfers warm.cur).releasedBy 2).barGet (.dram 0x40100 true) 0 = 7
    ∧ warm.begins (.barwait { sy0 with vd := 1, va := 2, vb := 3, scope := 2 }) = true ∧ warm.me.barEnd = none
    ∧ ws.isArmed (.dram 0x40100 true) = false ∧ ws.begins (.barwait { sy0 with vd := 0, va := 2, vb := 3, scope := 2 }) = true :=
  ⟨by decide, ranTo (by decide) (by decide) (by decide +kernel), rfl, fun _ => by decide, by decide, by decide, by decide, by decide, by decide, by decide, by decide⟩

/-- The map of `mapBytes` in matrix mode: row 0 of tile 1 goes to the row at 0x80, as bf16 numbers (tag 1). -/
def wkv : State := worldAt mapBytes (fun h => { h with mxm := true, vl := 32 })
def kvRm : Rm := Rm.ofCode wkv.me.frm (mfcRm (wkv.me.vc.mfc.get 0))
def kvHead : EStateM.Result Stop State Unit := (deviceReads [] (headerReads 0 (wkv.me.readS fkv.x)) (headerReads 0 (wkv.me.readS fkv.x)) false 0).run wkv
def kvRead : EStateM.Result Stop State (List Nat) :=
  (readWords (vecReq .read 0 0) false (wkv.me.readS fkv.x) 4).run (endOf kvHead)
def kvMode : EStateM.Result Stop State Rm := tagMode.run (endOf kvRead)
def kvPass : EStateM.Result Stop State (List (Nat × Except Stop Nat)) :=
  (kvAhead fkv (valOf kvRm kvMode) map0 ((headerReads 0 (wkv.me.readS fkv.x)).map (fun x => x.2))
    (wkv.readsDevice (headerReads 0 (wkv.me.readS fkv.x)))).run (endOf kvMode)

theorem witness_MatrixMemory_map :
    wkv.begins (.mxstkv fkv) = true ∧ mxSpan fkv wkv.me ≠ [] ∧ (wkv.me.readS fkv.x).getLsbD 63 = false
    ∧ (wkv.me.readS fkv.x).toNat % 8 = 0 ∧ kvHead = .ok () (endOf kvHead) ∧ kvRead = .ok (valOf [] kvRead) (endOf kvRead)
    ∧ KvMap.ofWords (valOf [] kvRead) = some map0 ∧ map0.d ≤ 64 ∧ kvMode = .ok (valOf kvRm kvMode) (endOf kvMode)
    ∧ kvPass = .ok (valOf [] kvPass) (endOf kvPass) :=
  ⟨by decide, by decide, by decide, by decide, ranUnit (by decide +kernel), ran [] _ (by decide +kernel),
    by decide +kernel, by decide, ran kvRm _ (by decide +kernel), ran [] _ (by decide +kernel)⟩

theorem witness_MatrixMemory_row :
    mxSpan fkv wkv.me = [0] ∧ ∃ t, Chain (RowCaches fkv map0 (valOf kvRm kvMode) (valOf [] kvPass)) [0] (endOf kvPass) t :=
  ⟨by decide, _, _, by
    unfold RowCaches
    rw [if_neg (by decide +kernel)]
    exact ⟨_, _, _, _, _, _, _, _, ran 0 _ (by decide +kernel), by decide +kernel, (Option.some_get (by decide +kernel)).symm,
      ran [] _ (by decide +kernel), ran ([], 0) _ (by decide +kernel), by decide +kernel, ran () _ (by decide +kernel), rfl⟩, rfl⟩

/-! ### Witnesses: streams -/

/-- A header in DRAM whose access meets no fault. -/
theorem headerAt {s : State} {f : HsF} {need : Need} {kind pa : Nat} {home : Bool} {l : Loc}
    (h : ends ((place (hsReq need kind) (isSpad (s.me.readS f.va)) (s.me.readS f.va)).run s) = true)
    (hv : valOf l ((place (hsReq need kind) (isSpad (s.me.readS f.va)) (s.me.readS f.va)).run s) = .dram pa home)
    (ht : endOf ((place (hsReq need kind) (isSpad (s.me.readS f.va)) (s.me.readS f.va)).run s) = s) :
    s.header f need kind (.dram pa home) s := by
  refine ⟨?_, fun _ h => nomatch h⟩
  have h1 := ran l _ h
  rwa [hv, ht] at h1

/-- A stream header at address 0: items of 64 bytes, one level of one slot, fp32, a combiner at 0x100 that is HALT, rings at
0x200. Only the bytes that are not 0 are written. -/
def wh : State :=
  [(0, [64]), (4, [1, 10]), (9, [1]), (0x10, [10]), (0x19, [2]), (0x60, [1]), (0x103, [0x48])].foldl
    (fun s p => s.homeWrite (0x40000 + p.1) p.2) (world (fun h => { h with vl := 2, et := 10 }))
def hloc : Loc := .dram 0x40000 true
def hread : Option (State × List Nat) := wh.answersEach (headerFields.map (fun x => (hloc.off x.1, x.2)))
def wh1 : State := (hread.getD (wh, [])).1
def hhead : Header := Header.ofFields (hread.getD (wh, [])).2
def hpins : EStateM.Result Stop State (List (Nat × Nat)) := (pinStream 0 hhead.rings hhead.bytes).run wh1
def hcode : EStateM.Result Stop State (List Instr) := (combLoad hhead.comb 0).run (endOf hpins)

theorem witness_StreamInit :
    wh.header hs0 .rmw 0 hloc wh ∧ hread = some (wh1, (hread.getD (wh, [])).2) ∧ hhead.legal
    ∧ hpins = .ok (valOf [] hpins) (endOf hpins) ∧ hcode = .ok (valOf [] hcode) (endOf hcode)
    ∧ wh.begins (.hinit hs0) = true ∧ wh.streamAt hloc = none ∧ (wh1.die (locDie hloc)).streams.length < 1024
    ∧ isSpad hhead.rings = isSpad 0 ∧ isSpad 0 ≠ true ∧ hhead.rings.toNat % 2 ^ 55 + hhead.bytes ≤ 2 ^ 55
    ∧ meet (0, 256) (hhead.rings.toNat % 2 ^ 55, hhead.bytes) = false
    ∧ (hhead.stream wh1 hloc 0 (valOf [] hpins) (valOf [] hcode)).overlaps wh1 = false
    ∧ wh.me.xfers = [] ∧ (endOf hcode).dirtyHeld (endOf hcode).coreNo = false ∧ (endOf hcode).streamAt hloc = none :=
  ⟨headerAt (l := hloc) (by decide +kernel) (by decide +kernel) (by decide +kernel), someOf (wh, []) _ (by decide +kernel),
    by unfold Header.legal; decide +kernel, ran [] _ (by decide +kernel), ran [] _ (by decide +kernel), by decide +kernel⟩

/-- The stream registered, in each of its states; with one item in its only slot, and with none. -/
def stream0 (state time : Nat) : Stream :=
  { ctx := 0, hart := (0, 0), owner := (0, 0), va := 0, spadCore := none, key := 0x40000, space := 0, pages := [(0, 0x40000)]
    seq := 0, isize := 64, levels := 1, cet := 10, fmt := 10, tscale := 0, rings := 0x200, consts := List.replicate 7 0
    caps := [1], code := [], state := state, flt := 0, time := time, heads := [time], tails := [0], half := none, fault := [] }
def wst (state time : Nat) : State :=
  let t := world (fun h => { h with vl := 2, et := 10 })
  t.setDie 0 { t.die 0 with streams := [stream0 state time] }
def fh : HsF := { hs0 with vd := 1, vb := 3, et := 10 }
def fl : HsF := { hs0 with vd := 1, vb := 3, x := 5, et := 10 }

theorem witness_StreamAppend :
    (wst 2 0).header fh .rmw 1 hloc (wst 2 0) ∧ (wst 1 65).header fh .rmw 1 hloc (wst 1 65)
    ∧ (wst 3 65).header fh .rmw 1 hloc (wst 3 65) ∧ (wst 1 0).header fh .rmw 1 hloc (wst 1 0)
    ∧ (wst 2 0).begins (.hapnd fh) = true ∧ (wst 2 0).streamAt hloc = some (stream0 2 0) ∧ (wst 2 0).me.spent = false
    ∧ (wst 1 65).begins (.hapnd fh) = true ∧ (wst 1 65).streamAt hloc = some (stream0 1 65)
    ∧ ¬(stream0 1 65).time - (stream0 1 65).tail 0 < ringSlots (stream0 1 65).caps 0
    ∧ (wst 3 65).begins (.hapnd fh) = true ∧ (wst 3 65).streamAt hloc = some (stream0 3 65)
    ∧ (wst 1 0).begins (.hapnd fh) = true ∧ (wst 1 0).streamAt hloc = some (stream0 1 0)
    ∧ (stream0 1 0).time - (stream0 1 0).tail 0 < ringSlots (stream0 1 0).caps 0 ∧ (wst 1 0).me.xfers = [] ∧ (wst 1 0).dirtyHeld 0 = false
    ∧ (wst 1 0).me.vl.toNat * hsNk (wst 1 0).me fh.et ≤ (stream0 1 0).n
    ∧ (appendedWords (wst 1 0).me fh (stream0 1 0)).zipIdx.foldl (fun g x =>
        if (wst 1 0).me.vc.vstart.toNat ≤ x.2 / hsNk (wst 1 0).me fh.et then g ||| x.1.2 else g) 0 &&& (wst 1 0).me.te = 0 :=
  ⟨headerAt (l := hloc) (by decide +kernel) (by decide +kernel) (by decide +kernel),
    headerAt (l := hloc) (by decide +kernel) (by decide +kernel) (by decide +kernel),
    headerAt (l := hloc) (by decide +kernel) (by decide +kernel) (by decide +kernel),
    headerAt (l := hloc) (by decide +kernel) (by decide +kernel) (by decide +kernel), by decide +kernel⟩

/-- An append of 20 elements to items of 16. -/
def wlong : State := (wst 1 0).setMe { (wst 1 0).me with vl := 20 }
theorem witness_ConditionsTrap_append :
    wlong.fieldsPass (.hapnd fh) ∧ wlong.issueFault (.hapnd fh) = none ∧ wlong.header fh .read 1 hloc wlong
    ∧ wlong.streamAt hloc = some (stream0 1 0) ∧ (stream0 1 0).n < wlong.me.vl.toNat * hsNk wlong.me fh.et :=
  ⟨by unfold State.fieldsPass; decide +kernel, by decide +kernel,
    headerAt (l := hloc) (by decide +kernel) (by decide +kernel) (by decide +kernel), by decide +kernel⟩

/-- The invalid trap enabled, and element 0 of v1 a signalling NaN. -/
def wsnan : State :=
  (wst 1 0).setMe (({ (wst 1 0).me with vc := { (wst 1 0).me.vc with fctl := 0x1F0 } } : Hart).setEl 1 4 0 0x7F800001)
theorem witness_StreamAppend_trap :
    wsnan.header fh .rmw 1 hloc wsnan ∧ wsnan.begins (.hapnd fh) = true ∧ wsnan.streamAt hloc = some (stream0 1 0)
    ∧ wsnan.me.spent = false
    ∧ (appendedWords wsnan.me fh (stream0 1 0)).zipIdx.foldl (fun g x =>
        if wsnan.me.vc.vstart.toNat ≤ x.2 / hsNk wsnan.me fh.et then g ||| x.1.2 else g) 0 &&& wsnan.me.te ≠ 0 :=
  ⟨headerAt (l := hloc) (by decide +kernel) (by decide +kernel) (by decide +kernel), by decide +kernel⟩

def hldRead : Option (State × List Nat) :=
  ((wst 1 1).acquiredBy 4).answersEach ((loadedElements (wst 1 1).me fl (stream0 1 1)).map (fun i =>
    ((stream0 1 1).loc ((stream0 1 1).slotVa 0 0 + BitVec.ofNat 64 (i * (stream0 1 1).esize)), (stream0 1 1).esize)))

/-- The words that HRESUME reads of the header, and the combiner they name: HALT at 0x100. -/
def wres : State := (wst 3 1).homeWrite 0x40000 (bytesOf 8 0 ++ bytesOf 8 0x100 ++ List.replicate 243 0 ++ [0x48])
def hresRead : Option (State × List Nat) :=
  (wres.writeBack wres.coreNo).answersEach ((8 :: (List.range 7).map (fun i => 0x20 + 8 * i)).map (fun o =>
    ((stream0 3 1).loc ((stream0 3 1).va + BitVec.ofNat 64 o), 8)))
/-- The same with a transfer in flight. -/
def wresx : State := wres.setMe { wres.me with xfers := [xfer0] }
def hresComb : EStateM.Result Stop State (List Instr) :=
  (combLoad (BitVec.ofNat 64 ((hresRead.getD (wres, [])).2.getD 0 0)) 0).run (hresRead.getD (wres, [])).1

theorem witness_StreamUse :
    (wst 1 1).header fl .read 0 hloc (wst 1 1) ∧ (wst 1 0).header fl .read 0 hloc (wst 1 0)
    ∧ wres.header hs0 .read 0 hloc wres ∧ wresx.header hs0 .read 0 hloc wresx
    ∧ (wst 1 1).streamAt hloc = some (stream0 1 1) ∧ (wst 1 0).streamAt hloc = some (stream0 1 0)
    ∧ (wst 1 1).begins (.hspan { hs0 with vb := 3, x := 5 }) = true
    ∧ (wst 1 0).begins (.hld fl) = true ∧ (stream0 1 0).covering 0 0 = none
    ∧ (wst 1 1).begins (.hld fl) = true ∧ (stream0 1 1).covering 0 0 = some (0, 0) ∧ hldRead.isSome = true
    ∧ (loadedElements (wst 1 1).me fl (stream0 1 1)).all (fun i =>
        let a := (stream0 1 1).slotVa 0 0 + BitVec.ofNat 64 (i * (stream0 1 1).esize)
        ends ((interlock (isSpad a) (a.toNat % 2 ^ 55) (stream0 1 1).esize).run (wst 1 1))) = true
    ∧ (wst 1 1).begins (.hseal hs0) = true ∧ (wst 1 1).begins (.hresume hs0) = true ∧ wres.begins (.hresume hs0) = true
    ∧ wres.streamAt hloc = some (stream0 3 1) ∧ wres.me.xfers = [] ∧ wres.dirtyHeld wres.coreNo = false ∧ hresRead.isSome = true ∧ ends hresComb = true
    ∧ (wresx.begins (.hresume hs0) = true ∧ wresx.streamAt hloc = some (stream0 3 1) ∧ wresx.me.xfers = [xfer0])
    ∧ (wst 1 1).begins (.hfree hs0) = true :=
  ⟨headerAt (l := hloc) (by decide +kernel) (by decide +kernel) (by decide +kernel),
    headerAt (l := hloc) (by decide +kernel) (by decide +kernel) (by decide +kernel),
    headerAt (l := hloc) (by decide +kernel) (by decide +kernel) (by decide +kernel),
    headerAt (l := hloc) (by decide +kernel) (by decide +kernel) (by decide +kernel), by decide +kernel⟩
/-! ### Witnesses: remote operations and transfers -/

/-- Context 0 with its channel 0 to node 5, over port 0; the channel's slots at 0x1000, its entry at 0x2000. -/
def wnet (f : Hart → Hart) : State :=
  let s := (((world (fun h => f (h.writeS 2 (5 * 2 ^ 44 + 0x100)))).homeWrite 0x42000 (bytesOf 8 (2 ^ 63 + 5))).homeWrite
    (Config.routingTable + 5) [1])
  { s.setCtx 0 { s.ctx 0 with chanCnt := 1, chanTab := 0x2000, slotBase := 0x1000
                              chans := [(0, { Chan.reset with node := 5, inc := some 1 })] } with
    ports := [(0, .up, 4, 5)] }

/-- A RAMO that waits, its slot pending, and the same with the result 9 there. -/
def wramo (st : Byte) : State :=
  ((wnet (fun h => { h with remote := some (0, 0) })).homeWrite 0x41000 [9]).homeWrite 0x41014 [st, 1, 1]
def framo : AtF := { at0 with vd := 1, va := 2, vb := 3, op := 0, scope := 5 }

theorem witness_RemoteAtomic :
    (wramo 1).begins (.ramo framo) = true ∧ ((wramo 1).me.readS 2).toNat % amoBytes 0 = 0
    ∧ (wramo 1).me.remote = some (0, 0) ∧ (wramo 1).me.resend = false ∧ (wramo 1).copying = [] ∧ (wramo 2).copying = []
    ∧ ((wramo 1).chan 0 0).node = (((wramo 1).me.readS 2).extractLsb' 44 20).toNat
    ∧ (wramo 1).ctx 0 = (wramo 2).ctx 0 ∧ ((wramo 1).ctx 0).slot 0 0 = 0x1000
    ∧ ((wramo 1).areaRead 0 0x1008 4).toOption = some 0
    ∧ ((wramo 1).areaRead 0 0x1014 2).toOption = some (1 + 1 * 256) ∧ ((wramo 1).areaRead 0 0x1014 1).toOption = some 1
    ∧ (wramo 2).begins (.ramo framo) = true ∧ ((wramo 2).areaRead 0 0x1014 2).toOption = some (2 + 1 * 256)
    ∧ ((wramo 2).areaRead 0 0x1014 1).toOption = some 2 ∧ ((wramo 2).areaRead 0 0x1016 1).toOption = some 1
    ∧ ((wramo 2).areaRead 0 0x1000 8).toOption = some 9 ∧ ((wramo 2).areaWrite 0 0x1014 1 0).toOption.isSome = true := by
  decide +kernel

def frs : AtF := { at0 with va := 2, vb := 3 }
/-- The same with the channel to the own node, whose requests leave by no port. -/
def wrs : State :=
  let s := (wnet (fun h => h.writeS 2 0x100)).homeWrite 0x42000 (bytesOf 8 (2 ^ 63))
  s.setCtx 0 { s.ctx 0 with chans := [(0, { Chan.reset with inc := some 1 })] }
def rsChan : EStateM.Result Stop State Nat := (remoteChan (wrs.me.readS 2) 3).run wrs
def rsIssue : EStateM.Result Stop State (BitVec 32) := (remoteIssue frs 0 3 (wrs.me.readS 2) 0 0).run (endOf rsChan)
def rsSend : EStateM.Result Stop State Unit := (remoteSend 0 0 3 (valOf 0 rsIssue)).run (endOf rsIssue)

theorem witness_RemoteAccess :
    (wrs.begins (.rstore frs) = true ∧ (wrs.me.readS 2).toNat % 8 = 0 ∧ wrs.me.remote = none ∧ wrs.me.xfers = [] ∧ wrs.dirtyHeld wrs.coreNo = false
      ∧ ends rsChan = true ∧ valOf 9 rsChan = 0 ∧ ends rsIssue = true ∧ ends rsSend = true
      ∧ ((endOf rsSend).chan 0 0).sent.any (fun x => x.instr == 3 && x.id == valOf 0 rsIssue && x.tries == 0) = false
      ∧ ((endOf rsSend).chan 0 0).held.any (fun x => x.instr == 3 && x.id == valOf 0 rsIssue && x.tries == 0) = false)
    ∧ (wnet (fun h => { h with rloadTag := some (0, 0), rload := some (1, 7) })).begins (.rload { at0 with vd := 1, va := 2 }) = true
    ∧ (wnet (fun h => { h with rloadTag := some (0, 0) })).begins (.rload { at0 with vd := 1, va := 2 }) = true
    ∧ wrs.begins (.rdrain at0) = true ∧ wrs.remoteIdle = true ∧ (endOf rsIssue).begins (.rdrain at0) = true ∧ (endOf rsIssue).remotePending = true := by
  decide +kernel

/-- A descriptor at address 0: 16 bytes from 0x100 to 0x200. -/
def wxf (vl : BitVec 18) : State :=
  [(1, [1]), (9, [2]), (16, [16])].foldl (fun s p => s.homeWrite (0x40000 + p.1) p.2) (world (fun h => { h with vl := vl }))
def fx : EnF := { en0 with vd := 1, va := 0 }
def xdesc : EStateM.Result Stop State (List Nat) := (readDesc ((wxf 1).me.readS 0)).run (wxf 1)
def xasked : Option Transfer := asked (endOf xdesc) (wxf 1).me fx false 0 (valOf [] xdesc)
def xpins (t : Transfer) : EStateM.Result Stop State (Pins × Option Nat) :=
  (t.pinAll false ((wxf 1).me.readS 0) (List.range (max t.input t.count)) { pages := [], maps := [] }).run
    ((endOf xdesc).walkedPages .read false ((List.range (max t.input t.count)).flatMap t.touches))

theorem witness_EngineTransfer :
    (wxf 0).begins (.xcopy fx) = true ∧ engineForm (.xcopy fx) = some (fx, false, false) ∧ (wxf 0).me.vl = 0
    ∧ valOf 9 (freeTag.run (wxf 0)) = 0 ∧ (wxf 1).begins (.xcopy fx) = true ∧ (wxf 1).me.vl ≠ 0 ∧ ends xdesc = true
    ∧ xasked.any (fun t => t.ranges.all (fun r => ends ((interlock r.1 r.2.1 r.2.2).run (endOf xdesc))) && ends (xpins t)
        && (match xpins t with | .ok p u => ends (((t.pinned p.1 p.2).readWindow).run u) | _ => false)) = true
    ∧ (wxf 0).begins (.xstat fx) = true ∧ (wxf 0).begins (.xwait fx) = true := by
  decide +kernel

/-! ### Witnesses: events of harts and checks -/

/-- The bytes of an instruction. -/
def codeOf (i : Instr) : List Byte := (encode i).flatMap (fun p => bytesOf 4 p.toNat)
def goes (o : Host.Outcome State Fault Refusal) : Bool :=
  match o with
  | .next _ => true
  | _ => false

/-- An fp32 VADD, a matrix instruction or a scalar one at address 0. -/
def evVadd : Instr := .vadd { va0 with vd := 1, et := 10 }
def evMatrix : Instr := .mxscaler { mx0 with vd := 1, va := 2, vb := 3 }
def evEntry : VEntry := Hart.reset.entry false [evVadd]
def evIssued : VEntry := { evEntry with issued := true }
def wEv : State := worldAt (codeOf evVadd) (fun h => { h with vl := 4, et := 10 })
def wEm : State := worldAt (codeOf evMatrix) (fun h => { h with mxm := true, vl := 2 })
def wEq : State := world (fun h => { h with vq := [evEntry] })
/-- A VSETL queued whose grant stands. -/
def evSet : VEntry := Hart.reset.entry false [.vsetl { sv0 with vd := 1, va := 2, et := 10 }]
def wEs : State :=
  let t := world (fun h => { h with vq := [evSet] })
  t.setCore 0 { t.core 0 with laneMap := setLg 0 0 1 }
def wEz : State := worldAt (codeOf (.halt 0)) id
def wEp : State := worldAt (codeOf (.add 1 2 3)) (fun h => { h with pre := .pending 5 })
def wEa : State :=
  let t := world id
  t.setDie 0 { t.die 0 with streams := [{ stream0 3 0 with fault := [7] }] }

/-- A convoy of an add and a product: two slots, units VALU and VFMA. -/
def evMul : Instr := .vmul { va0 with vd := 2, va := 3, vb := 4, et := 10 }
def wEk : State := worldAt (bytesOf 4 0xC0080000 ++ codeOf evVadd ++ codeOf evMul) (fun h => { h with vl := 4, et := 10 })
/-- MPOP at the PC; the same for a hart whose instruction waits for its replay. -/
def evMpop : Instr := .mpop { va0 with vd := 1 }
def wEi : State := worldAt (codeOf evMpop) (fun h => { h with vl := 4, et := 10 })
def wEr (s : State) : State := s.setDie 0 { s.die 0 with twice := [0], replays := [{ hart := 0, wrong := [] }] }
def again (s : State) : State :=
  s.setDie (dieOf s.coreNo) { s.die (dieOf s.coreNo) with twice := (s.die (dieOf s.coreNo)).twice.filter (· != 0) }

/-- The decoupling queue has handed its oldest entry to a unit. -/
def wEw : State := world (fun h => { h with vl := 4, et := 10, win := [evIssued] })

theorem witness_HartEvents_issue :
    (wEv.canMove 0 = true ∧ wEv.due = false ∧ wEv.peekFetch = some (.one evVadd) ∧ isVector evVadd = true
      ∧ (wEv.setMe wEv.me.decodes).begins evVadd = true ∧ wEv.me.mustWait [evVadd] = false ∧ wEv.queueHas 0 0 1 = true)
    ∧ (wEk.canMove 0 = true ∧ wEk.due = false ∧ wEk.peekFetch = some (.convoy [evVadd, evMul]) ∧ wEk.me.mustWait [evVadd, evMul] = false
      ∧ wEk.queueHas 0 0 2 = true ∧ ends ((gateAll [evVadd, evMul]).run (wEk.setMe wEk.me.decodes)) = true
      ∧ endOf ((gateAll [evVadd, evMul]).run (wEk.setMe wEk.me.decodes)) = wEk.setMe wEk.me.decodes)
    ∧ (wEq.canMove 0 = true ∧ wEq.preDue = none ∧ wEq.me.vq = [evEntry] ∧ wEq.me.allIssued = true ∧ wEq.canIssue evEntry = true
      ∧ (wEq.setMe { wEq.me with vq := [] }).answersEarly evEntry = none)
    ∧ (wEs.canMove 0 = true ∧ wEs.preDue = none ∧ wEs.me.vq = [evSet] ∧ wEs.me.allIssued = true ∧ wEs.canIssue evSet = true
      ∧ ((wEs.setMe { wEs.me with vq := [] }).answersEarly evSet).isSome = true)
    ∧ (wEw.canMove 0 = true ∧ wEw.preDue = none ∧ wEw.due = false ∧ wEw.me.win = evIssued :: []
      ∧ wEw.notYet evIssued = false ∧ wEw.starts = true
      ∧ ends ((evIssued.run wEw.me.grp).run (wEw.setMe { wEw.unwaited with s := evIssued.s, vc := evIssued.vc, pc := evIssued.pc, win := [] }))
        = true) := by
  decide +kernel

theorem witness_HartEvents_start :
    (wEv.me.idleQueue = true ∧ wEv.startsAt [evVadd] = true ∧ wEv.begins evVadd = true ∧ (vaOf evVadd).isSome = true
      ∧ goes (exec evVadd (wEv.fetched (.one evVadd) 0)) = true
      ∧ goes (exec evVadd ((again (wEr wEv)).fetched (.one evVadd) 0)) = true
      ∧ (wEv.fetched (.one evVadd) 0).begins evVadd = true ∧ (elementOp (wEv.fetched (.one evVadd) 0).me evVadd).isSome = true
      ∧ (wEv.fetched (.one evVadd) 0).me.spent = false ∧ (wEv.fetched (.one evVadd) 0).me.te = 0)
    ∧ ((wEr wEv).canMove 0 = true ∧ (wEr wEv).due = false ∧ (wEr wEv).startsAt [evVadd] = true ∧ (wEr wEv).me.idleQueue = true ∧ (wEr wEv).peekFetch = some (.one evVadd)
      ∧ ((again (wEr wEv)).fetched (.one evVadd) 0).begins evVadd = true
      ∧ (elementOp ((again (wEr wEv)).fetched (.one evVadd) 0).me evVadd).isSome = true
      ∧ ((again (wEr wEv)).fetched (.one evVadd) 0).me.spent = false ∧ ((again (wEr wEv)).fetched (.one evVadd) 0).me.te = 0)
    ∧ (wEi.canMove 0 = true ∧ wEi.due = false ∧ wEi.startsAt [evMpop] = true ∧ wEi.me.idleQueue = true ∧ wEi.peekFetch = some (.one evMpop)
      ∧ isVector evMpop = true ∧ (wEi.fetched (.one evMpop) 0).begins evMpop = true
      ∧ extracted (wEi.fetched (.one evMpop) 0).me evMpop = some (1, 4, true))
    ∧ ((wEr wEi).canMove 0 = true ∧ (wEr wEi).startsAt [evMpop] = true ∧ (wEr wEi).peekFetch = some (.one evMpop)
      ∧ ((again (wEr wEi)).fetched (.one evMpop) 0).begins evMpop = true
      ∧ extracted ((again (wEr wEi)).fetched (.one evMpop) 0).me evMpop = some (1, 4, true))
    ∧ (wEm.canMove 0 = true ∧ wEm.due = false ∧ wEm.startsAt [evMatrix] = true
      ∧ wEm.begins evMatrix = true ∧ wEm.peekFetch = some (.one evMatrix) ∧ wEm.me.idleQueue = true ∧ isMatrixArith evMatrix = true
      ∧ goes (exec evMatrix (wEm.fetched (.one evMatrix) 0)) = true) := by
  decide +kernel

theorem witness_HartEvents :
    (wEz.canMove 0 = true ∧ wEz.due = false ∧ wEz.me.barEnd = none ∧ trapCause 4 = true
      ∧ ((wEz.fetched (.one (.halt 0)) 0).endTransfers 0).me.xfers = [] ∧ (wEz.fetched (.one (.halt 0)) 0).copying = [] ∧ wEz.me.idleQueue = true ∧ wEz.peekFetch = some (.one (.halt 0))
      ∧ (wEz.fetched (.one (.halt 0)) 0).begins (.halt 0) = true ∧ (wEz.fetched (.one (.halt 0)) 0).remoteIdle = true
      ∧ goes (exec (.halt 0) (wEz.fetched (.one (.halt 0)) 0)) = true)
    ∧ (wEp.canMove 0 = true ∧ wEp.me.priv = false ∧ wEp.midway = false ∧ wEp.me.pre = .pending 5 ∧ wEp.me.idleQueue = true
      ∧ wEp.peekFetch = some (.one (.add 1 2 3)) ∧ isVector (.add 1 2 3) = false)
    ∧ (wEa.canMove 0 = true ∧ wEa.me.idleQueue = true ∧ wEa.asyncFault = some ({ stream0 3 0 with fault := [7] }, 7))
    ∧ ctlWrite (world id) 0 (.qminWrite 0 5) = some (0x102, 5) ∧ (world id).due = false ∧ (world id).me.idleQueue = true
    ∧ (world id).me.priv = false := by
  decide +kernel

/-- The same with a check of the vector instruction to come first, and one waiting for the Assayer. -/
def wEc : State := wEv.setDie 0 { wEv.die 0 with failed := [{ core := 0, unit := 3, hart := 0, again := false }] }

/-- No core of the die but core 0 is left. -/
def wLone : State :=
  (List.range' 1 47).foldl (fun s c => s.setCore c { s.core c with withdrawn := true }) wEc

theorem witness_CheckEvents :
    (wEv.canMove 0 = true ∧ wEv.due = false ∧ wEv.oldest = some ([evVadd], wEv.me) ∧ vaOf evVadd = some { va0 with vd := 1, et := 10 }
      ∧ vaElements wEv.me evVadd { va0 with vd := 1, et := 10 } ≠ [])
    ∧ (wEm.canMove 0 = true ∧ wEm.due = false ∧ wEm.oldest = some ([evMatrix], wEm.me) ∧ [evMatrix].any isMatrixArith = true
      ∧ goes wEm.vectorTurn = true)
    ∧ (wEc.die 0).failed = [{ core := 0, unit := 3, hart := 0, again := false }] ∧ (wEc.core 0).score 3 < 112
    ∧ (wEc.core 0).score 16 < 112 ∧ (wEc.helper 0).isSome = true ∧ wEc.live 0 = true ∧ wLone.helper 0 = none := by
  decide +kernel

/-! ### Witnesses: events of the scheduler -/

/-- Context 0 in a state; free, its descriptor holds what an open context has. -/
def wctx (st : Nat) : State :=
  let t := State.reset.loadCodeBytes []
  t.setCtx 0 { t.ctx 0 with state := st }
def wopen : State :=
  [(8, [0]), (0x10, bytesOf 8 loadRoot), (0x18, [4]), (0x28, [1]), (0x2C, [1]), (0x48, [16])].foldl
    (fun s p => s.homeWrite (descPa 0 + p.1) p.2) (wctx 0)
def wopen0 : State := (wopen.descWrite 0 0 8 1).descWrite 0 0 8 0
def dopen : Ctx := wopen0.descriptor 0 |>.getD Ctx.reset

/-- Queue 0 in a state: one record at 0x100 of one gang of one hart, its four dependences met; or closed, its record in the
table whole. -/
def rec0 : Rec := { words := [0, 0, 0x10100000001, 0, 0, 0, 0, 0, 0, 0, 0, 0, 0, 0, 0, 0] }
def queue0 (st : Nat) : Queue :=
  { Queue.reset with state := st, size := 16, ring := 0x100, tail := 1, hostFed := true, met := [0, 1, 2, 3], checked := true }
def wqueue (st : Nat) : State :=
  (((world id).homeWrite 0x40110 [1]).homeWrite 0x40114 [1, 1]).setQueue 0 (queue0 st)
def wqo : State := (world id).homeWrite (queuePa 0 + 0x20) [16]

def g1 : Gang := { gang0 with state := .forming }
def wwait : State := { wctx 1 with launches := [(3, { launch0 with placed := 0 })] }
/-- A gang that has run for 2^23 clocks, its save block free, and another launch of its priority. -/
def wslice : State :=
  let t := world id
  { (t.setCtx 0 { t.ctx 0 with saveCnt := 1 }).setLaunch 1 { launch0 with placed := 0 } with clock := 2 ^ 23 }
def wform : State := (world id).setGang 0 g1

theorem witness_SchedulerEvents_contexts :
    (wctx 1).recovery = false ∧ ((wctx 1).ctx 0).state = 1 ∧ (wctx 1).gangs = [] ∧ ((wctx 1).ctx 0).chans = []
    ∧ ((wctx 3).ctx 0).state = 3 ∧ (wopen.ctx 0).state = 0 ∧ wopen0.descriptor 0 = some dopen
    ∧ (freedChannels wopen0 0 dopen).toOption.isSome = true := by decide +kernel

theorem witness_SchedulerEvents_queues :
    (wqo.queue 0).state = 0 ∧ wqo.homeRead (queuePa 0 + 0x10) 8 = 0 ∧ wqo.homeRead (queuePa 0 + 0x18) 8 = 0
    ∧ wqo.homeRead (queuePa 0 + 0x20) 4 = 16 ∧ sizeOk 16 = true ∧ wqo.homeRead (queuePa 0 + 0x24) 4 = 0
    ∧ (wqo.ctx 0).state = 1 ∧ ((wqueue 1).queue 0).state = 1 ∧ ((wqueue 1).queue 0).hostFed = true
    ∧ ((wqueue 1).pollWith false (fun _ => true)).ready = [(0, rec0)] ∧ rec0.field 0x17 1 = 0
    ∧ (wqueue 1).queues = [(0, queue0 1)] ∧ ((wqueue 1).headRecord (queue0 1)).toOption = some rec0 := by decide +kernel

theorem witness_SchedulerEvents_gangs :
    (wwait.throttle = 0 ∧ wwait.nextWaiting = some (3, { launch0 with placed := 0 }, none)
      ∧ wwait.chooseCore { launch0 with placed := 0 } [1] (4096 + 4 * Config.ladderRegion) 0 = some (0, 0, 0))
    ∧ (wslice.gangs = [(0, gang0)] ∧ wslice.willing 0 gang0 = true ∧ wslice.canSave gang0 = true
      ∧ gang0.placedAt + 2 ^ 23 ≤ wslice.clock ∧ wslice.preempting.contains 0 = false
      ∧ wslice.launches = [(0, launch0), (1, { launch0 with placed := 0 })] ∧ (wslice.ctx 0).state = 1)
    ∧ wform.gang 0 = some g1 ∧ g1.saved = [] ∧ wform.launch 0 = some launch0
    ∧ State.reset.gangs = [] ∧ State.reset.under = 0 ∧ State.reset.recovery = false := by decide +kernel

/-! ### Witnesses: background work on memory -/

/-- A stream whose pair is merged and not retired; one whose level 0, then whose top level, holds more than its ring. -/
def stHalf : Stream := { stream0 1 2 with half := some 0 }
def stPair : Stream :=
  { stream0 1 2 with
    levels := 2, caps := [1, 1], heads := [2, 0], tails := [0, 0] }
def wfuller (st : Stream) : State :=
  let t := world id
  t.setDie 0 { t.die 0 with streams := [st] }
def wpair : State := wfuller stPair
theorem witness_MemoryEvents_fuller :
    ((wfuller stHalf).die 0).nextStream = some stHalf ∧ (wpair.die 0).nextStream = some stPair
    ∧ stPair.work (wpair.die 0).fullerShare.toNat = .merge 0 ∧ wpair.itemPoison stPair 0 0 = false
    ∧ wpair.itemPoison stPair 0 1 = false
    ∧ ((wfuller (stream0 1 2)).die 0).nextStream = some (stream0 1 2)
    ∧ (stream0 1 2).work ((wfuller (stream0 1 2)).die 0).fullerShare.toNat = .discard := by decide +kernel

/-- A step of a ladder pending; a transfer in flight. -/
def wjob : State := wlad.setMe { wlad.me with pend := [{ lad := 0, n := 2, carry := [], seq := 0 }] }
def wxfer : State := world (fun h => { h with xfers := [xfer0] })

theorem witness_MemoryEvents_harts :
    (wjob.nextMerge 0 = some (0, { lad := 0, n := 2, carry := [], seq := 0 }) ∧ wjob.lad 0 0 = some lad0)
    ∧ (wxfer.hartAt 0).xfers.find? (fun t => t.tag == 2) = some xfer0 ∧ wxfer.xferHeld 0 2 = false := by decide +kernel

/-- A page command of 16 records at 0x50000: an INVAL of the page at 0, or an EVICT of it to 0x60000. -/
def wpage (bs : List (Nat × List Byte)) (cmds : List PageCmd) : State :=
  let t := bs.foldl (fun s p => s.homeWrite (0x50000 + p.1) p.2) (world id)
  { t with pcbase := 0x50000, pcsize := 16, pchead := 0, pctail := 1, pcmds := cmds }
def winval : State := wpage [(0, [1]), (4, [1])] []
def wevict : State := wpage [(0, [2]), (0x12, [6])] []
def cmd0 (op : Nat) (evicting : Bool) : PageCmd :=
  { seq := 0, op := op, ctx := 0, count := 0x10000, va := 0, dst := 0x60000, evicting := evicting, recAt := 0x50000,
                                 reads := [] }
def leaf0 : Found := { entry := BitVec.ofNat 64 (loadEntry true loadCode), node := loadLow, lvl := 0 }
def wdirty : State := (world id).setCore 0 { (world id).core 0 with dirty := [(0x40100, 5)] }

/-- Bundle 7 of bus 3 failed its last calibration; repaired bundles of its group, and the spares in use. -/
def wbus (fs : List (BitVec 6)) (used : List (Nat × Nat)) : State :=
  { State.reset with busFail := [(3, 7)], repairs := [(12, fs)], retiredBus := used }

theorem witness_MemoryEvents_pages :
    (((world id).ctx 0).state ≠ 0 ∧ (world id).findLeaf 0 2 ((world id).ctx 0).ptroot = some leaf0
      ∧ ((world id).core 0).tlb = [])
    ∧ (winval.pageRecord 0 = { seq := 0, op := 1, ctx := 0, count := 1, va := 0, dst := 0, evicting := false, recAt := 0x50000,
                                 reads := [] }
      ∧ winval.pageMalformed (winval.pageRecord 0) = false ∧ winval.armedGlobal 0x50001 1 = none)
    ∧ (wevict.pageRecord 0 = { seq := 0, op := 2, ctx := 0, count := 0, va := 0, dst := 0x60000, evicting := false,
                                 recAt := 0x50000, reads := [] }
      ∧ wevict.pageMalformed (wevict.pageRecord 0) = false ∧ wevict.findLeaf 0 2 (wevict.ctx 0).ptroot = some leaf0
      ∧ 0x60000 % pageSize (eSz leaf0.entry) = 0 ∧ wevict.armedGlobal 0x50001 1 = none ∧ wevict.pageBarred 0x60000 0x10000 = false
      ∧ ePoison leaf0.entry = false)
    ∧ ((wpage [] [cmd0 1 false]).pcmds.find? (fun p => p.seq == 0 && !p.evicting) = some (cmd0 1 false)
      ∧ (wpage [] [cmd0 1 false]).transferPins 0 0 0x10000 = false ∧ (wpage [] [cmd0 1 false]).readsOut 0 = false
      ∧ (wpage [] [cmd0 1 false]).armedGlobal 0x50001 1 = none)
    ∧ ((wpage [] [cmd0 2 true]).pcmds.find? (fun p => p.seq == 0 && p.evicting) = some (cmd0 2 true)
      ∧ (wpage [] [cmd0 2 true]).findLeaf 0 2 ((wpage [] [cmd0 2 true]).ctx 0).ptroot = some leaf0
      ∧ (wpage [] [cmd0 2 true]).outReads = [] ∧ (wpage [] [cmd0 2 true]).inWindow (eFrame leaf0.entry) = false
      ∧ (wpage [] [cmd0 2 true]).lostChan = [] ∧ Memory.wf (wpage [] [cmd0 2 true]).mem ∧ eFrame leaf0.entry = 0x40000
      ∧ (0x70000 ≤ leaf0.node ∨ leaf0.node + 65536 ≤ 0x60000)
      ∧ (wpage [] [cmd0 2 true]).armedGlobal 0x60000 1 = none ∧ (wpage [] [cmd0 2 true]).armedGlobal (leaf0.node + 7) 1 = none
      ∧ leaf0.node + 7 ≠ 0x50001)
    ∧ 128 * 0x802 % Config.channelBytes < Config.reserveOffset ∧ (wdirty.core 0).dirty.any (fun e => e.1 / 128 == 0x802) = true
    ∧ (∀ x ∈ [Scrubbed.dram 5, .llc 5, .spad 0 5], (scrubbed x && State.reset.holdsWord x) = true)
    ∧ (scrubbed (.cdc 0 5) && State.reset.holdsWord (.cdc 0 5)) = false
    ∧ (scrubbed (.cdc 0 0x8020) && wdirty.holdsWord (.cdc 0 0x8020)) = true ∧ wdirty.chanHeld (128 * 0x802) = false
    ∧ (∀ t ∈ [wbus [] [], wbus [1] [], wbus [1, 2] [], wbus [1, 2] [(4, 0), (5, 1), (6, 2), (7, 3)]],
        t.busFail.filter (fun x => x.1 == 3) = [(3, 7)] ∧ (∀ x ∈ t.retiredBus, x.1 ≠ 3) ∧ 3 ∉ t.lostChan)
    ∧ (let t : State := { State.reset with busFail := [(200, 7)], retiredBus := [(100, 0)] }
      t.busFail.filter (fun x => x.1 == 200) = [(200, 7)] ∧ t.serves 200 = some 100 ∧ t.serves 100 = none)
    ∧ State.reset.busFail = [] ∧ ({ State.reset with copying := [3] } : State).copying.contains 3 = true := by decide +kernel

/-! ### Witnesses: ports, messages and management -/

def wport (st : PortState) : State := { State.reset with ports := [(0, st, 4, 9)], nodeSet := true, mailbox := [] }
/-- A message from node 5, channel context 0, to node 0. -/
def msg0 (kind : Nat) (payload : List Byte) : Flit :=
  ({ dst := 0, src := 5, kind := kind, fst := false, inc := 1, ctx := 0, payload := payload } : Msg).flit
/-- A RAMO of serial 3 whose receipt stands. -/
def freq : Flit := msg0 1 (payloadOf [(12, 4, 3), (16, 4, 1), (44, 1, 1)])
def rcpt0 : Receipt := { node := 5, ctx := 0, serial := 3, code := 1, result := 9, bad := false }
def wreq : State :=
  let t := wport .up
  t.setDie 1 { t.die 1 with receipts := [rcpt0], bases := [(5, 0, 1)] }

/-- The same with a poisoned receipt. -/
def wreqBad : State := wreq.setDie 1 { wreq.die 1 with receipts := [{ rcpt0 with bad := true }] }

theorem witness_PortEvents_ports :
    ((wport .down).port 0).1 = .down ∧ (wport .down).recovery = false ∧ ((wport .training).port 0).1 = .training
    ∧ ((wport .up).port 0).1 = .up ∧ (wport .up).portsUp ≠ 0 := by decide +kernel

theorem witness_PortEvents_requests :
    flitOk freq = true ∧ (flitMsg freq).dst = wreq.nodeId.toNat ∧ (flitMsg freq).kind = 1 ∧ (flitMsg freq).field 44 1 ≠ 4
    ∧ channelDie 5 0 = 1
    ∧ (let d := wreq.raiseBase 1 5 0 1
      serialGe 3 d.2 = true
      ∧ d.1.receiptOf 1 5 0 3 = some rcpt0)
    ∧ (wreqBad.raiseBase 1 5 0 1).1.receiptOf 1 5 0 3 = some { rcpt0 with bad := true } := by decide +kernel

/-- A request of serial 4 that a window of node 5 grants: AMO add of 7 at 0x100, RCAS, RSTORE and RLOAD there. -/
def fperf (instr : Nat) : Flit :=
  msg0 1 (payloadOf [(12, 4, 4), (16, 4, 1), (20, 8, 0x100), (28, 8, 7), (44, 1, instr), (45, 1, 0)])
def wperf : State :=
  { wreq with windows := [(0, { first := 0, last := 9, ctx := 0, base := 0, len := 0x1000, rwa := 7 })], incarnation := 1 }

theorem witness_PortEvents_performed : ∀ instr ∈ [1, 2, 3, 4],
    flitOk (fperf instr) = true ∧ wperf.portsUp ≠ 0 ∧ (flitMsg (fperf instr)).dst = wperf.nodeId.toNat
    ∧ (flitMsg (fperf instr)).kind = 1 ∧ (flitMsg (fperf instr)).field 44 1 = instr
    ∧ (flitMsg (fperf instr)).field 20 8 % 2 ^ 44 = 0x100
    ∧ wperf.windowOk 5 0 0x100 8 (if instr = 4 then 0 else if instr = 3 then 1 else 2) = true ∧ amoBytes 0 = 8
    ∧ wperf.armedGlobal 0x100 8 = none ∧ wperf.homePoisoned 0x100 8 = false
    ∧ (let d := wperf.raiseBase 1 5 0 1
      serialGe 4 d.2 = true ∧ d.1.receiptOf 1 5 0 4 = none ∧ (flitMsg (fperf instr)).inc = wperf.incarnation
      ∧ (d.1.die 1).receiptsFull = false) := by decide +kernel

theorem witness_PortEvents_plain :
    (flitOk (msg0 3 []) = true ∧ (flitMsg (msg0 3 [])).kind = 3) ∧ (flitOk (msg0 5 []) = true ∧ (flitMsg (msg0 5 [])).kind = 5)
    ∧ flitOk (msg0 7 (payloadOf [(16, 4, 2)])) = true ∧ (flitMsg (msg0 7 (payloadOf [(16, 4, 2)]))).kind = 7 := by decide +kernel

/-- Channel 0 to node 5, in some state, as an open context has it. -/
def wchan (ch : Chan) (st : Nat) : State :=
  let t := { world id with ports := [(0, .up, 4, 9)], nodeSet := true }
  t.setCtx 0 { t.ctx 0 with state := st, chanCnt := 1, chanTab := 0x2000, slotBase := 0x1000, chans := [(0, ch)] }
def open0 : Chan := { Chan.reset with node := 5, inc := some 1 }
def sent4 : Sent := { instr := 4, id := 3, addr := 0, who := (0, 0), flit := 0, tries := 1, code := 0 }
def wrsp : State := (wchan { open0 with sent := [sent4] } 1).setMe { (world id).me with rloadTag := some (0, 3) }
def wprb (st : Nat) : State := wchan { open0 with probing := true } st
def frsp : Flit := msg0 2 (payloadOf [(12, 4, 3), (16, 8, 9), (24, 1, 1), (25, 1, 4)])

theorem witness_PortEvents_answers :
    (flitOk frsp = true ∧ (flitMsg frsp).kind = 2 ∧ (flitMsg frsp).dst = wrsp.nodeId.toNat ∧ (flitMsg frsp).field 25 1 = 4
      ∧ (flitMsg frsp).field 24 1 = 1 ∧ wrsp.portsUp ≠ 0 ∧ (wrsp.ctx 0).state ≠ 4
      ∧ (wrsp.ctx 0).chans.find? (fun e => e.2.node == 5 && ((2 : Nat) == 4 || e.2.probing || e.2.closing || e.2.inc.isSome))
        = some (0, { open0 with sent := [sent4] })
      ∧ (wrsp.areaRead 0 ((wrsp.ctx 0).entry 0 + 8) 4).toOption = some 0 ∧ wrsp.me.rloadTag = some (0, sent4.id))
    ∧ (flitOk (msg0 4 []) = true ∧ (flitMsg (msg0 4 [])).kind = 4 ∧ ((wprb 1).ctx 0).state ≠ 4
      ∧ ((wprb 1).areaRead 0 (((wprb 1).ctx 0).entry 0 + 8) 4).toOption = some 0
      ∧ (flitMsg (msg0 6 [])).kind = 6 ∧ flitOk (msg0 6 []) = true ∧ ((wprb 4).ctx 0).state = 4
      ∧ ((wprb 4).ctx 0).chans = [(0, { open0 with probing := true })]) := by decide +kernel

/-- A request of node 0's context that has been sent, of any kind, with its result: code and result 9. -/
def sentk (instr : Nat) : Sent := { sent4 with instr := instr, flit := ({ dst := 5, src := 0, kind := 1, fst := false, inc := 0, ctx := 0, payload := [] } : Msg).flit }
def wanswer (instr : Nat) : State := wchan { open0 with sent := [sentk instr] } 1
def fanswer (instr code : Nat) : Flit := msg0 2 (payloadOf [(12, 4, 3), (16, 8, 9), (24, 1, code), (25, 1, instr)])
/-- What the answer writes: the slot at 0x1060, then the acknowledgement at 0x200C. -/
def answered (instr code : Nat) : Option State := do
  let s := wanswer instr
  let s1 ← ((s.setChan 0 0 { s.chan 0 0 with sent := [] }).areaWrite 0 0x1060 8 (if instr = 3 then 0 else 9)).toOption
  let s2 ← (s1.areaWrite 0 0x1076 1 code).toOption
  let s3 ← (s2.areaWrite 0 0x1074 1 (if instr = 3 then (if code = 1 then 0 else 3) else 2)).toOption
  let u := s3.walksOf 0 0x2008 4
  let n ← (u.areaRead 0 0x2008 4).toOption
  let s4 ← (u.areaWrite 0 0x200C 4 ((s3.chan 0 0).ack (BitVec.ofNat 32 n)).toNat).toOption
  let _ ← (s4.areaRead 0 0x2008 4).toOption
  return s4

theorem witness_PortEvents_results : ∀ x ∈ [(1, 1), (2, 2), (3, 1), (3, 5)],
    flitOk (fanswer x.1 x.2) = true ∧ (flitMsg (fanswer x.1 x.2)).dst = (wanswer x.1).nodeId.toNat
    ∧ (flitMsg (fanswer x.1 x.2)).field 24 1 = x.2 ∧ (flitMsg (fanswer x.1 x.2)).field 25 1 = (sentk x.1).instr
    ∧ (wanswer x.1).portsUp ≠ 0 ∧ ((wanswer x.1).chan 0 0).sent.find? (fun y => y.id == 3 && y.instr == x.1) = some (sentk x.1)
    ∧ ((wanswer x.1).ctx 0).slot 0 3 = 0x1060 ∧ ((wanswer x.1).ctx 0).entry 0 = 0x2000 ∧ (answered x.1 x.2).isSome = true := by
  decide +kernel

/-- The same request sent again. -/
theorem witness_PortEvents_repeats : ∀ k ∈ [1, 2, 3, 4],
    ((wanswer k).chan 0 0).probing = false ∧ (sentk k).tries < 64 ∧ (flitMsg (sentk k).flit).dst ≠ (wanswer k).nodeId.toNat
    ∧ ((wanswer k).chan 0 0).sent.find? (fun x => x.instr == k && x.id == 3) = some (sentk k)
    ∧ ((wanswer k).areaRead 0 0x2008 4).toOption.isSome = true ∧ ((wanswer k).areaWrite 0 0x1077 1 2).toOption.isSome = true := by
  decide +kernel

/-- A result has come since the last acknowledgement. -/
def wack : State := wchan { open0 with ackDue := true } 1

theorem witness_PortEvents_timers :
    ((wprb 1).ctx 0).state = 1 ∧ ((wprb 1).chan 0 0).node ≠ (wprb 1).nodeId.toNat ∧ ((wprb 1).chan 0 0).probing = true ∧ ((wprb 1).chan 0 0).probes < 64
    ∧ ((wrsp).ctx 0).state = 1 ∧ (wrsp.chan 0 0).node ≠ wrsp.nodeId.toNat
    ∧ (wack.chan 0 0).ackDue = true ∧ (wack.chan 0 0).sent.all (fun x => x.instr == 4) = true
    ∧ (wack.areaRead 0 ((wack.ctx 0).entry 0 + 8) 4).toOption = some 0 ∧ (wrsp.chan 0 0).ackDue = false := by decide +kernel

/-- A hart that waits for an outbound read; a mailbox message with its argument words; a host window on armed bytes. -/
def wout : State := world (fun h => { h with devWait := some (0, 8) })
def wmsg (t : Nat) (args : List Nat) : State :=
  let words := (List.range args.length).map (fun i => (i + 1, BitVec.ofNat 64 (args.getD i 0)))
  { State.reset with mailbox := (0, BitVec.ofNat 64 (t + 2 ^ 63)) :: words }
def wbar2 : State :=
  let t := State.reset
  { t.setDie 0 { t.die 0 with armed := [0x100] } with wbase := 0x100 }

theorem witness_PortEvents_management :
    (wout.live 0 = true ∧ (wout.hartAt 0).devWait.isSome = true)
    ∧ ((wmsg 1 [7, 1, 2, 3, 4, 5, 7, 1]).mail 0).getLsbD 63 = true ∧ ((wmsg 1 [7, 1, 2, 3, 4, 5, 7, 1]).mail 3).toNat = 2
    ∧ ((wmsg 2 [7, 3, 0x010203]).mail 0).getLsbD 63 = true ∧ (wmsg 2 [7, 3]).ctxs.all (fun e => e.2.state != 4) = true
    ∧ ((wmsg 3 [1, 2, 9]).mail 0).toNat % 256 = 3 ∧ ((wmsg 4 [700]).mail 1).toNat = 700
    ∧ ((wmsg 0x85 []).mail 0).toNat % 256 = 0x85 ∧ (State.reset.mail 0).getLsbD 63 = false
    ∧ State.reset.recovery = false ∧ wbar2.copying = [] ∧ wbar2.lostChan = []
    ∧ ({ wbar2 with copying := [0] } : State).copying.contains (wbar2.wbase.toNat / Config.channelBytes) = true ∧ wbar2.armedGlobal 0x100 8 = some 0x100 ∧ State.reset.armedGlobal 0 8 = none
    ∧ 8 ≤ wbar2.bar2Size ∧ wbar2.wbase.toNat + 8 ≤ Config.dramEnd ∧ wbar2.bar2Size < wbar2.bar2Size + 8
    ∧ (∀ e ∈ State.reset.cores, e.2.scores.Pairwise (fun a b => a.1 < b.1)) := by decide +kernel

/-! ### Witnesses: steps, round trip, memory -/

theorem okIs {ε α : Type} {r : Except ε α} {x : α} (h : r.toOption = some x) : r = .ok x := by
  cases r with
  | ok y => exact congrArg Except.ok (Option.some.inj h)
  | error e => cases h

def wAdd : State := worldAt (codeOf (.add 1 2 3)) id

theorem witness_StepRunsDecoded :
    (wAdd.agenda = [] ∧ wAdd.readyToFetch ∧ wAdd.fetches (.add 1 2 3) 0 ∧ wAdd.mayStart (.add 1 2 3))
    ∧ (wEv.agenda = [] ∧ wEv.readyToFetch ∧ wEv.fetches evVadd 0 ∧ wEv.mayStart evVadd)
    ∧ ({ ({ wAdd with agenda := [] } : State) with cur := 0 } : State).readyToFetch
    ∧ encode (.gangStart 0) = [] ∧ wAdd.eventHeld (.gangStart 0) = false :=
  ⟨⟨by decide, ⟨by decide, Or.inr (Or.inr (by intro b h; cases h)), by decide, by decide, by decide⟩,
      Or.inl ⟨(encode (.add 1 2 3)).headD 0, okIs (by decide +kernel), by rfl⟩, fun h => nomatch h⟩,
    ⟨by decide, ⟨by decide, Or.inr (Or.inr (by intro b h; cases h)), by decide, by decide, by decide⟩,
      Or.inr ⟨(encode evVadd).headD 0, (encode evVadd).getD 1 0, 0, okIs (by decide +kernel), okIs (by decide +kernel), by rfl⟩,
      fun _ => by decide +kernel⟩,
    ⟨by decide, Or.inr (Or.inr (by intro b h; cases h)), by decide, by decide, by decide⟩, by decide, by decide⟩

theorem witness_RoundTrip : encode (.add 1 2 3) ≠ [] ∧ encode evVadd ≠ [] := by decide

theorem witness_MemoryKeepsForm : Memory.wf wAdd.mem ∧ goes (step wAdd) = true := by decide +kernel

/-! ### Results that the manual's examples state -/

def after (o : Host.Outcome State Fault Refusal) : State :=
  match o with
  | .next t => t
  | _ => State.reset

/-- The example of "Scalar Instructions": s5 after the pair, then after LIH. -/
theorem test_addi_pair : (after (exec (.addi 5 0 ⟨some 0x0043B2A#28, 0x0321#13⟩) ws)).me.readS 5 = 0x87654321#64 := by decide
theorem test_lih : (after (exec (.lih 5 5 ⟨none, 0x123⟩) (world (fun h => h.writeS 5 0x87654321)))).me.readS 5
    = 0x0000012387654321#64 := by decide

/-- "Hart State": with 8 lanes, groups of 4 and fp32, element 1,000 of v4 lies in lane 0, register v5, byte 116. -/
theorem test_slice_place :
    (Tab.get 0 (({ Hart.reset with laneCur := 8, gmap := 3, et := 10, g := 2 } : Hart).setEl 4 4 1000 0xAB).v 5).toNat
      = 0xAB * 256 ^ 116 := by decide +kernel

/-- "Vector Instructions": 448 + 32 in e4m3 is NaN with overflow and inexact; the reciprocal of 3. -/
theorem test_vadd_e4m3 :
    El.add (etFmt 12) { rm := .rne, sat := false, fz := false } 0x7E 0x60 = (0x7F, Flags.ov ||| Flags.nx) := by decide
theorem test_vrcp : (after (exec (.vrcp { va0 with vd := 1, va := 2, et := 10 })
    (wv (fun h => h.setEl 2 4 1 0x40400000)))).me.getEl 1 4 1 = 0x3EAAA000 := by decide +kernel

/-- "Matrix, Ladder Instructions": two rows of a product in e4m3, every sum exact. -/
def wmac : State :=
  world (fun h => [(0, 0, 0, 0x38), (0, 0, 1, 0x40), (0, 1, 0, 0x30), (0, 1, 1, 0x30), (8, 0, 0, 0x44), (8, 0, 1, 0x38),
    (8, 1, 0, 0x2A), (8, 1, 1, 0xC4)].foldl (fun h x => h.setBytes x.1 64 x.2.1 x.2.2.1 1 x.2.2.2)
    { h with mxm := true, vl := 2, et := 10 })
theorem test_mxmac :
    let t := after (exec (.mxmac { mx0 with va := 0, vb := 8, et := 3, bt := 3, rows := 1 }) wmac)
    (t.me.getAcc 0 0 0, t.me.getAcc 0 0 1, t.me.getAcc 0 1 0, t.me.getAcc 0 1 1)
      = (0x40A00000, 0xC0B60000, 0x40000000, 0xBFAC0000) := by decide +kernel

/-- "Device": a driver accepts 0x3B; then a RAMO raises FEATURE_ABSENT. -/
theorem test_featacc : (after (exec (.feataccWrite 0x3B) State.reset)).featacc = 0x3B := by decide +kernel

end Sys2Proof.Tests
end

section
/-!
The scalar instructions of integers, compares and condition bits (R46, R84, R87, R94, R95): each retires one write of a
scalar register or of a condition bit, and what it writes is what the tables of the specification give.
-/

namespace Sys2Proof.Machine

variable {s : State} {i : Instr}

/-! ### Effects that are one write -/

/-- An effect that writes a register leaves the hart its place in its gang. -/
theorem retire_writeS {eff : Mach Unit} {d : BitVec 6} {x : Word} (hb : s.begins i = true)
    (he : eff.run s = .ok () (s.setMe (s.me.writeS d x))) :
    retire i (instrBytes i) eff s = .next (s.retiredAs i (s.me.writeS d x)) :=
  retire_hart hb he (Hart.writeS_gang _ _ _) (Hart.writeS_index _ _ _)

/-- The same for an effect that writes a condition bit. -/
theorem retire_writeC {eff : Mach Unit} {c : BitVec 3} {x : Bool} (hb : s.begins i = true)
    (he : eff.run s = .ok () (s.setMe (s.me.writeC c x))) :
    retire i (instrBytes i) eff s = .next (s.retiredAs i (s.me.writeC c x)) :=
  retire_hart hb he (Hart.writeC_gang _ _ _) (Hart.writeC_index _ _ _)

theorem run_alu2 (d a b : BitVec 6) (f : Word → Word → Word) :
    (alu2 d a b f).run s = .ok () (s.setMe (s.me.writeS d (f (s.me.readS a) (s.me.readS b)))) :=
  run_modHart _

theorem run_compareS (cond : Nat) (c : BitVec 3) (a b : BitVec 6) :
    (compareS cond c a b).run s = .ok () (s.setMe (s.me.writeC c (condOf cond (s.me.readS a) (s.me.readS b)))) := by
  rw [compareS, run_modHart, condHolds_eq]

theorem run_compareI (cond : Nat) (c : BitVec 3) (a : BitVec 6) (im : Imm13) :
    (compareI cond c a im).run s = .ok () (s.setMe (s.me.writeC c (condOf cond (s.me.readS a) (immValue im)))) := by
  rw [compareI, run_modHart, condHolds_eq]

/-- SEL: with a clear condition bit, keeping sd is writing it with its own value. -/
theorem run_effSel (d a b : BitVec 6) :
    (effSel d a b).run s = .ok () (s.setMe
      (s.me.writeS d (if s.me.readC (b.setWidth 3) then s.me.readS a else s.me.readS d))) := by
  rw [effSel, run_modHart]
  split
  · rfl
  · rw [writeS_readS]

/-- The high half of an unsigned product. -/
theorem mulHi_toNat (x y : Word) : mulHi x.toNat y.toNat = BitVec.ofNat 64 (x.toNat * y.toNat / 2 ^ 64) := by
  rw [mulHi, ← BitVec.ofInt_natCast]
  norm_cast

/-! ### What each instruction writes -/

/-- R46, R87, R88, R95: the effect that an integer instruction retires is the write of its result. -/
theorem exec_of_aluResult {d : BitVec 6} {x : Word} (h : aluResult s.me i = some (d, x)) :
    ∃ eff, exec i s = retire i (instrBytes i) eff s ∧ eff.run s = .ok () (s.setMe (s.me.writeS d x)) := by
  cases i with
  | add | sub | and | or | xor | sll | srl | sra | mul | mulh | clz | ctz | popc | addi | andi | ori | xori | slli | srli
  | srai | lih | pcadd | cget =>
    cases h; exact ⟨_, rfl, rfl⟩
  | min => cases h; exact ⟨_, rfl, by rw [effMin, run_alu2, smin_eq]⟩
  | max => cases h; exact ⟨_, rfl, by rw [effMax, run_alu2, smax_eq]⟩
  | minn => cases h; exact ⟨_, rfl, by rw [effMinn, run_alu2, umin_eq]⟩
  | maxn => cases h; exact ⟨_, rfl, by rw [effMaxn, run_alu2, umax_eq]⟩
  | mulhn => cases h; exact ⟨_, rfl, by rw [effMulhn, run_alu2, mulHi_toNat]⟩
  | div => cases h; exact ⟨_, rfl, by rw [effDiv, run_alu2, sdivW_eq]⟩
  | divn => cases h; exact ⟨_, rfl, by rw [effDivn, run_alu2, udivW_eq]⟩
  | rem => cases h; exact ⟨_, rfl, by rw [effRem, run_alu2, sremW_eq]⟩
  | remn => cases h; exact ⟨_, rfl, by rw [effRemn, run_alu2, uremW_eq]⟩
  | sel => cases h; exact ⟨_, rfl, run_effSel _ _ _⟩
  | _ => cases h

/-- R94, R95: the effect that a compare or an operation on condition bits retires is the write of its condition bit. -/
theorem exec_of_condResult {c : BitVec 3} {x : Bool} (h : condResult s.me i = some (c, x)) :
    ∃ eff, exec i s = retire i (instrBytes i) eff s ∧ eff.run s = .ok () (s.setMe (s.me.writeC c x)) := by
  cases i with
  | cmpeq | cmpne | cmplt | cmpge | cmpltn | cmpgen | cmpand =>
    cases h; exact ⟨_, rfl, run_compareS _ _ _ _⟩
  | cmpieq | cmpine | cmpilt | cmpige | cmpiltn | cmpigen | cmpiand =>
    cases h; exact ⟨_, rfl, run_compareI _ _ _ _⟩
  | cand | cor | cxor | cnot | cfrom => cases h; exact ⟨_, rfl, rfl⟩
  | _ => cases h

/-- Settles O1: the effect of each instruction is the write that its table gives, and an effect of one write retires. -/
theorem integerResult : Obligations.IntegerResult := by
  unfold Obligations.IntegerResult
  constructor
  · intro i s d x hb h
    obtain ⟨eff, hexec, hrun⟩ := exec_of_aluResult h
    rw [hexec, retire_writeS hb hrun]
  · intro i s c x hb h
    obtain ⟨eff, hexec, hrun⟩ := exec_of_condResult h
    rw [hexec, retire_writeC hb hrun]

end Sys2Proof.Machine
end

section
/-!
The instructions that enter and leave matrix mode and set its columns (R161, R163, R164): each retires one change of the
moving hart, to its mode, its VL and its VSTART, and MXSETC writes the scalar register it names as well.
-/

namespace Sys2Proof.Machine

variable {s : State} {i : Instr}

/-- An effect that applies a function to the moving hart, and keeps the hart's place in its gang. -/
theorem retire_modHart {g : Hart → Hart} (hb : s.begins i = true) (hg : (g s.me).gang = s.me.gang)
    (hi : (g s.me).index = s.me.index) :
    retire i (instrBytes i) (modHart g) s = .next (s.retiredAs i (g s.me)) :=
  retire_hart hb (run_modHart g) hg hi

/-- A write of a scalar register and a setting of VL are of different fields, so their order does not matter. -/
theorem writeS_setVl (h : Hart) (n : Nat) (d : BitVec 6) (x : Word) :
    ({ h with vlUnset := false }.setVl n).writeS d x =
      { h.writeS d x with vl := BitVec.ofNat 18 n, vlUnset := false } := by
  unfold Hart.writeS
  split
  · rfl
  · rfl

/-- Settles O35: each of the three effects only changes the moving hart, and an effect that only does so retires. -/
theorem matrixMode : Obligations.MatrixMode := by
  unfold Obligations.MatrixMode
  refine ⟨fun s f hb => ?enter, fun s f hb => ?leave, fun s f hb => ?setc⟩
  case enter => exact retire_modHart hb rfl rfl
  case leave => exact retire_modHart hb rfl rfl
  case setc =>
    intro n
    rw [← writeS_setVl]
    exact retire_modHart hb (Hart.writeS_gang _ _ _) (Hart.writeS_index _ _ _)

end Sys2Proof.Machine
end
